-- ==== Sys2Proof/Word.lean ====
section
/-!
DEFINITION. The byte and word types of the GTH2416's messages and tables.
-/

namespace Sys2Proof

/-- One byte of a trunk frame or of a lamp-branch message (chapter 11). -/
abbrev Byte := BitVec 8

/-- An aisle clock value in milliseconds (R176). -/
abbrev ClockValue := BitVec 32

/-- A frame sequence number (R21). -/
abbrev Sequence := BitVec 16

/-- A display tag (R107). -/
abbrev Tag := BitVec 8

end Sys2Proof
end

