-- ==== Sys2Proof/Syntax.lean ====
section
/-!
DEFINITION. The commands of the GTH2416: one constructor for each row of spec/opcode_table.json, with the row's operands.
-/

namespace Sys2Proof

/-- The two trunk ports (R1). -/
inductive Port where
  | a
  | b
  deriving DecidableEq, Repr

/-- The two lamp branches (R144). -/
inductive Branch where
  | l
  | r
  deriving DecidableEq, Repr

/-- A slot position: branch, module address and slot number (section 3.1). -/
structure SlotPos where
  branch : Branch
  addr : Nat
  slot : Nat
  deriving DecidableEq, Repr

/-- What the lines show at the end of a reset: activity on each trunk receive side (R1), and whether each branch
line is held (R160). -/
structure LineLevels where
  activeA : Bool
  activeB : Bool
  heldL : Bool
  heldR : Bool
  deriving DecidableEq, Repr

/-- The GTH2416's commands, in the order of the opcode table. A request command carries no operand of its own: its
fields are in the payload of the admitted request that is next to be carried forward (log 2). -/
inductive Instr where
  /-- Power-on reset: the straps sampled and the lines' levels at its end (R6, R39). -/
  | powerOn (straps : BitVec 5) (lines : LineLevels)
  /-- Release of the reset pin (R6, R39). -/
  | resetPin (straps : BitVec 5) (lines : LineLevels)
  /-- The soft reset that follows the release notice of the AISLE_RESET reply (R38, R39). -/
  | softReset (lines : LineLevels)
  /-- No line activity on a port for 1 ms (R3). -/
  | lineDown (port : Port)
  /-- Unbroken line activity on a port for 20 ms (R3). -/
  | lineUp (port : Port)
  /-- A frame closed by its end delimiter, its bytes as received (R4, R7). -/
  | frameArrival (port : Port) (bytes : List Byte)
  /-- A port finishes the frame it is sending (R23). -/
  | transmissionEnd (port : Port)
  /-- The packer takes a room notice (R175). -/
  | roomNoticeBuild
  | taskPost
  | taskCancel
  | taskAmend
  | taskQuery
  | pickerSet
  | pickerPause
  | pickerResume
  | pickerLeave
  | pickerRead
  | areaLock
  | areaUnlock
  | mapLoad
  | mapRemove
  | mapRead
  | configSet
  | configRead
  | rightsSet
  | timeSet
  | counterSet
  | counterRead
  | attentionMask
  | attentionClear
  | attentionRead
  | statusRead
  | rosterRead
  | branchScan
  | lampDirect
  /-- AISLE_RESET, with the lines' levels for the case in which it resets at once (R38). -/
  | aisleReset (lines : LineLevels)
  | silenceLimitExpiry
  | rotationExpiry (pos : SlotPos)
  | feedbackExpiry (pos : SlotPos)
  | lingerExpiry (pos : SlotPos)
  | combineExpiry
  /-- The oldest waiting key event of a branch, a CONFIRM (R126). -/
  | confirmKey (branch : Branch)
  /-- The oldest waiting key event of a branch, an UP or a DOWN (R123). -/
  | adjustKey (branch : Branch)
  | aisleClockAdvance
  | branchArbiter (branch : Branch)
  | missingTurnSpacing (branch : Branch)
  /-- A valid acknowledge, as received (R147, R193). -/
  | showAcknowledge (branch : Branch) (bytes : List Byte)
  /-- A valid poll reply, as received (R149, R193). -/
  | pollReply (branch : Branch) (bytes : List Byte)
  /-- The end of a scan's IDENT at one address: with a valid identity reply, as received, or with none (R162). -/
  | identReply (branch : Branch) (bytes : Option (List Byte))
  /-- A reply that is not valid, as received, with whether it was cut off at 1 ms (R144, R154). -/
  | invalidReply (branch : Branch) (cutOff : Bool) (bytes : List Byte)
  /-- Nothing began within 500 µs of a command (R144). -/
  | replyTimeout (branch : Branch)
  /-- The branch line has been held for 1 ms; whether a command was still being sent then (R160). -/
  | branchFaultSet (branch : Branch) (stillSending : Bool)
  /-- The branch line has been free for 10 ms (R160). -/
  | branchFaultClear (branch : Branch)
  deriving DecidableEq, Repr

end Sys2Proof
end

