-- ==== Sys2Proof/WellFormed.lean ====
section
/-!
DEFINITION. Which commands are well formed: an operand that names a slot names one of the 384 positions (section 3.1), and
a reply that was received holds at least one byte (R144).
-/

namespace Sys2Proof

/-- A slot position exists: module address 1 to 48, slot 1 to 4 (section 3.1). -/
def SlotPos.wellFormed (p : SlotPos) : Bool :=
  1 ≤ p.addr && p.addr ≤ 48 && 1 ≤ p.slot && p.slot ≤ 4

/-- The checks on a command's operands. -/
def Instr.wellFormed : Instr → Bool
  | .rotationExpiry p => p.wellFormed
  | .feedbackExpiry p => p.wellFormed
  | .lingerExpiry p => p.wellFormed
  | .showAcknowledge _ bytes => !bytes.isEmpty
  | .pollReply _ bytes => !bytes.isEmpty
  | .identReply _ bytes => bytes != some []
  | .invalidReply _ _ bytes => !bytes.isEmpty
  | .powerOn _ _ | .resetPin _ _ | .softReset _ | .lineDown _ | .lineUp _ | .frameArrival _ _ | .transmissionEnd _
  | .roomNoticeBuild | .taskPost | .taskCancel | .taskAmend | .taskQuery | .pickerSet | .pickerPause | .pickerResume
  | .pickerLeave | .pickerRead | .areaLock | .areaUnlock | .mapLoad | .mapRemove | .mapRead | .configSet | .configRead
  | .rightsSet | .timeSet | .counterSet | .counterRead | .attentionMask | .attentionClear | .attentionRead | .statusRead
  | .rosterRead | .branchScan | .lampDirect | .aisleReset _ | .silenceLimitExpiry | .combineExpiry | .confirmKey _
  | .adjustKey _ | .aisleClockAdvance | .branchArbiter _ | .missingTurnSpacing _ | .replyTimeout _ | .branchFaultSet _ _
  | .branchFaultClear _ => true

end Sys2Proof
end

