-- ==== Sys2Proof/Decode.lean ====
section
/-!
DEFINITION. The command that a word spells by the opcode table's bits. The table gives bits to none of its 53 rows
(spec/98_reader.md counts no row with fixed bits and none with fields), so no word spells a command.
-/

namespace Sys2Proof

/-- The command that the `nbits` bits of `w` spell by spec/opcode_table.json: none, for every word. -/
def decodeTableWord (_nbits _w : Nat) : Option Instr := none

end Sys2Proof
end

