-- ==== Sys2Proof/Config.lean ====
section
/-!
DEFINITION. What the manual fixes for every GTH2416: capacities and constants. The manual leaves no result undefined, so there
is no free value here.
-/

namespace Sys2Proof.Config

/-- Reference periods in one millisecond: the 16 MHz reference through the prescaler of 16,000 (R176, R178). -/
def periodsPerMs : Nat := 16000

/-- Cells of the cell store (R18). -/
def cells : Nat := 96

/-- Cells that a pass-through frame must leave free (R16). -/
def passThroughReserve : Nat := 8

/-- Entries of the recent-frame list (R12). -/
def recentFrames : Nat := 64

/-- Entries of the own-sent list (R9). -/
def ownSentFrames : Nat := 32

/-- Entries of the location map (R40). -/
def mapEntries : Nat := 384

/-- Places of the picker table (R55). -/
def pickerPlaces : Nat := 8

/-- Open tasks (R68). -/
def openTasks : Nat := 256

/-- The open task count at which TASKS_HIGH is set (R92). -/
def tasksHigh : Nat := 240

/-- Members of a pick group (R72). -/
def groupMembers : Nat := 8

/-- The greatest remaining sum and requested quantity (R68, R72). -/
def maxQuantity : Nat := 9999

/-- Groups of a rotation set (R97). -/
def rotationGroups : Nat := 4

/-- Entries of a tag history (R109). -/
def historyEntries : Nat := 4

/-- Records of the report packer (R168). -/
def reportRecords : Nat := 32

/-- Records of one report frame (R172). -/
def recordsPerFrame : Nat := 8

/-- SHOWs that may be started between two POLLs (R157). -/
def showsPerPoll : Nat := 4

/-- The spacing of missing turns when only MISSING modules remain, in ms (R159). -/
def missingSpacingMs : Nat := 20

/-- Slot positions of one branch (R158). -/
def slotsPerBranch : Nat := 192

end Sys2Proof.Config
end

