-- ==== Sys2Proof/Machine/State.lean ====
section
/-!
DEFINITION. The state of the GTH2416: every register, table, queue, timer and counter the manual gives it, as plain data, and
the state right after reset.
-/

namespace Sys2Proof.Machine

open Sys2Proof

/-! ## The trunk ring (chapter 1) -/

/-- The request kinds of R28. -/
inductive ReqKind where
  | taskPost | taskCancel | taskAmend | pickerSet | pickerPause | pickerResume | pickerLeave | areaLock | areaUnlock
  | mapLoad | mapRemove | configSet | rightsSet | timeSet | counterSet | attentionMask | attentionClear
  | branchScan | lampDirect | aisleReset
  | taskQuery | pickerRead | mapRead | configRead | counterRead | attentionRead | statusRead | rosterRead
  deriving DecidableEq, Repr

/-- A trunk frame less its check, which is computed (R5, R191). `express` is the class, `spare` bit 6 of byte 3. -/
structure Frame where
  dest : Nat
  origin : Nat
  kind : Byte
  express : Bool
  spare : Bool
  hop : Nat
  seq : Sequence
  payload : List Byte
  deriving DecidableEq, Repr

/-- The block that asked for a locally originated frame (section 1.5). -/
inductive Requester where
  | requestHandler
  | reportPacker
  deriving DecidableEq, Repr

/-- A stored-frame record (section 1.5). The port queues name it by `ref`. The frame's length, cells and class are computed
from the frame; `refs` is the reference count of R19. -/
structure StoredFrame where
  ref : Nat
  frame : Frame
  refs : Nat
  requester : Option Requester
  deriving DecidableEq, Repr

/-- A port's receive buffer: up to 256 bytes of one frame, and how many bytes were received (R4). -/
structure RxBuffer where
  bytes : List Byte
  received : Nat
  deriving DecidableEq, Repr

/-- One trunk port: line state, receive buffer, output queues and transmission in progress (chapter 1's table of state). -/
structure PortState where
  up : Bool
  rx : RxBuffer
  express : List Nat
  normal : List Nat
  sending : Option Nat
  deriving DecidableEq, Repr

/-! ## Requests, rights and replies (chapter 2) -/

/-- The reply codes of R31. -/
inductive ReplyCode where
  | ok | busy | noRight | badField | badLength | unknownTask | unknownPicker | unknownLocation | duplicate | tableFull
  | inUse | notOpen | colourInUse | slotTaken
  deriving DecidableEq, Repr

/-- An admitted request: what a delivery hands the request handler (R14). -/
structure Request where
  kind : ReqKind
  origin : Nat
  broadcast : Bool
  seq : Sequence
  payload : List Byte
  deriving DecidableEq, Repr

/-- The four rights (R27). -/
inductive Right where
  | task | manage | maint | read
  deriving DecidableEq, Repr

/-- A rights table entry; bit 0 TASK, 1 MANAGE, 2 MAINT, 3 READ (R27, section 11.2). -/
structure RightsEntry where
  station : Nat
  rights : BitVec 4
  deriving DecidableEq, Repr

/-- The nine configuration parameters, in their units (section 2.4). -/
structure Params where
  rotation : Nat
  feedback : Nat
  lingerBase : Nat
  adaptive : Bool
  combine : Nat
  silence : Nat
  hops : Nat
  target : Nat
  missLimit : Nat
  deriving DecidableEq, Repr

/-- Pending reset (R38): none, awaiting the release of the AISLE_RESET reply stored under `ref` (none at a repeater-only
station, where no notice follows, R17), or the notice has come. -/
inductive PendingReset where
  | none
  | awaiting (ref : Option Nat)
  | noticed
  deriving DecidableEq, Repr

/-- The reset causes (R39). -/
inductive ResetCause where
  | powerOn | resetPin | aisleReset
  deriving DecidableEq, Repr

/-! ## Location map (chapter 3) -/

/-- A location map entry (R40). -/
structure MapEntry where
  code : Nat
  pos : SlotPos
  area : Nat
  deriving DecidableEq, Repr

/-! ## Pickers (chapter 4) -/

/-- The lamp colours: WHITE and the eight picker colours (R55, R145). -/
inductive Colour where
  | white | red | green | blue | yellow | cyan | magenta | orange | violet
  deriving DecidableEq, Repr

/-- A picker's state (R55). -/
inductive PickerState where
  | active | paused
  deriving DecidableEq, Repr

/-- An occupied place of the picker table (R55); `index` is the place, 0 to 7. -/
structure Picker where
  index : Nat
  id : Nat
  colour : Colour
  priority : Nat
  state : PickerState
  openTasks : Nat
  pace : Option Nat
  deriving DecidableEq, Repr

/-! ## Tasks and pick groups (chapter 5) -/

/-- An open task (R68). -/
structure Task where
  number : Nat
  picker : Nat
  loc : Nat
  quantity : Nat
  group : Nat
  posted : ClockValue
  deriving DecidableEq, Repr

/-- A pick group's standing on the display (R71, R97). -/
inductive GroupState where
  | waiting | shown | held
  deriving DecidableEq, Repr

/-- A pick group (R71): `members` are task numbers in joining order, `remaining` is R and `display` is D. -/
structure Group where
  id : Nat
  picker : Nat
  loc : Nat
  members : List Nat
  remaining : Nat
  display : Nat
  state : GroupState
  firstShown : Option ClockValue
  linger : Bool
  deriving DecidableEq, Repr

/-! ## Display rotation (chapter 6) -/

/-- The display patterns (R101, R145). -/
inductive Pattern where
  | dark | steady | blink | flash | pulse
  deriving DecidableEq, Repr

/-- The digits of a display (R101, R145). -/
inductive Digits where
  | number (n : Nat)
  | blank | dashes | lock | busy | err
  deriving DecidableEq, Repr

/-- A display: a slot shadow (R101), or what a LAMP_DIRECT sets (R165). -/
structure Shadow where
  colour : Colour
  pattern : Pattern
  digits : Digits
  deriving DecidableEq, Repr

/-- The feedback symbols (R111). -/
inductive Symbol where
  | err | lock | busy | dashes
  deriving DecidableEq, Repr

/-- A running timer: the moment it started and its length, both in reference periods (R178). -/
structure Timer where
  since : Nat
  length : Nat
  deriving DecidableEq, Repr

/-- A running feedback display (R111). -/
structure Feedback where
  symbol : Symbol
  timer : Timer
  deriving DecidableEq, Repr

/-- A tag history entry: the tag, and the group and count shown, if any (R107). -/
structure HistEntry where
  tag : Tag
  shown : Option (Nat × Nat)
  deriving DecidableEq, Repr

/-- What the display scheduler holds for one mapped slot (chapter 6's table of state); a stopped timer is `none`. -/
structure SlotState where
  pos : SlotPos
  shadow : Shadow
  rotation : List Nat
  position : Option Nat
  rotTimer : Option Timer
  feedback : Option Feedback
  linger : Option Timer
  lingered : List Nat
  history : List HistEntry
  deriving DecidableEq, Repr

/-! ## Key presses (chapter 7) -/

/-- The three keys (R120). -/
inductive Key where
  | confirm | up | down
  deriving DecidableEq, Repr

/-- A key event handed over by a branch controller and not yet taken (R120, R143). -/
structure KeyEvent where
  pos : SlotPos
  key : Key
  tag : Tag
  deriving DecidableEq, Repr

/-! ## The lamp branches (chapter 8) -/

/-- A roster module's standing (R151). -/
inductive Presence where
  | present | silent | missing
  deriving DecidableEq, Repr

/-- A module roster entry (R151). -/
structure Module where
  addr : Nat
  serial : BitVec 48
  slots : Nat
  revision : BitVec 8
  presence : Presence
  misses : Nat
  owed : Nat
  deriving DecidableEq, Repr

/-- What a command on the line is, with its content (R145): `direct` is the SHOW of a LAMP_DIRECT (R166). -/
inductive LineCommand where
  | showSlot (pos : SlotPos) (display : Shadow) (tag : Tag)
  | poll (addr : Nat)
  | ident (addr : Nat)
  | direct (pos : SlotPos) (display : Shadow)
  | allDark
  deriving DecidableEq, Repr

/-- The command in progress (chapter 8's table of state): attempts so far, the ack count a POLL carries, whether an attempt
drew an invalid reply (R148), and whether its attempts have ended without a valid reply (an IDENT whose end is still to be
taken, R162). -/
structure Command where
  what : LineCommand
  attempts : Nat
  ack : Nat
  invalid : Bool
  ended : Bool
  deriving DecidableEq, Repr

/-- A running scan: whether ALL_DARK is still to be sent, the next address, the modules found (R162 to R164). -/
structure Scan where
  darkFirst : Bool
  next : Nat
  found : Nat
  deriving DecidableEq, Repr

/-- The pending direct command with its requester (R165). -/
structure Direct where
  pos : SlotPos
  display : Shadow
  request : Request
  deriving DecidableEq, Repr

/-- One branch controller (chapter 8's table of state), with the key events it has handed over, the next tags of its 192 slot positions (R95),
in `directShown` the slot positions that keep the display of a LAMP_DIRECT until one of the tag scheme is sent to them (R108, R166), and in
`unshown` those that were passed over, or whose SHOW ended without an acknowledge, and have been sent none since (R147, R158). -/
structure BranchState where
  fault : Bool
  roster : List Module
  work : List SlotPos
  command : Option Command
  shows : Nat
  turn : Nat
  lastAnswering : Option Nat
  lastMissing : Option Nat
  lastTurn : Option Nat
  scan : Option Scan
  direct : Option Direct
  keys : List KeyEvent
  nextTags : List Tag
  directShown : List SlotPos
  unshown : List SlotPos
  deriving DecidableEq, Repr

/-! ## Reports, counters and attention (chapters 9 and 10) -/

/-- The outcomes a PICK record carries (R135). -/
inductive PickOutcome where
  | confirmed | short
  deriving DecidableEq, Repr

/-- The refusal reasons a PRESS_REFUSED record carries (R131). -/
inductive RefusalReason where
  | stale | locked | orphaned
  deriving DecidableEq, Repr

/-- The four statistic counters' numbers (R180). -/
inductive CounterNo where
  | c0 | c1 | c2 | c3
  deriving DecidableEq, Repr

/-- The report records (R169). -/
inductive Record where
  | pick (task picker loc requested confirmed : Nat) (outcome : PickOutcome) (firstShown press : ClockValue)
  | pressRefused (loc : Nat) (pos : SlotPos) (key : Key) (tag : Tag) (reason : RefusalReason) (press : ClockValue)
  | linger (group picker loc : Nat) (time : ClockValue)
  | attention (flags : BitVec 21) (time : ClockValue)
  | counterWrap (counter : CounterNo) (time : ClockValue)
  | scanDone (branch : Branch) (found : Nat) (time : ClockValue)
  deriving DecidableEq, Repr

/-- A record waiting in the packer's FIFO, with the moment at which it entered (R168). -/
structure Waiting where
  record : Record
  entered : Nat
  deriving DecidableEq, Repr

/-- The running combine timer: the entry moment of the oldest record, and whether the timer has expired (R171). -/
structure CombineTimer where
  since : Nat
  expired : Bool
  deriving DecidableEq, Repr

/-- The seventeen counter events, in the order of the table in R180. -/
inductive CounterEvent where
  | confirmAccepted | taskShort | taskPosted | adjustAccepted | stalePress | staleAdjust | lockedPress | busyPress
  | unmappedKey | frameDelivered | frameForwarded | frameDropped | duplicateDiscarded | moduleMiss | keysLost
  | moduleFault | requestDiscarded
  deriving DecidableEq, Repr

/-- A statistic counter (R180); `selection` none is NONE. -/
structure Counter where
  count : BitVec 24
  selection : Option CounterEvent
  mask : BitVec 8
  deriving DecidableEq, Repr

/-- The four statistic counters (R180). -/
structure Counters where
  c0 : Counter
  c1 : Counter
  c2 : Counter
  c3 : Counter
  deriving DecidableEq, Repr

/-- The 21 attention flags, in the order of the table in R185. -/
inductive Flag where
  | frameFault | storeDrop | replyDrop | hopExpired | stationClash | moduleLost | moduleFound | keysLost | reportLost
  | counterWrap (c : CounterNo)
  | supervisorBack | scanDone
  | orphaned | linkADown | linkBDown | branchLFault | branchRFault | tasksHigh
  deriving DecidableEq, Repr

/-- What the event in progress has noted for its end: flags gone from clear to set (R187), counters wrapped (R182), and
whether a record entered the FIFO (R171). Empty between events. -/
structure EventNotes where
  noted : BitVec 21
  wraps : List CounterNo
  entered : Bool
  deriving DecidableEq, Repr

/-! ## The state -/

/-- Everything the GTH2416 holds. INVENTORY.md lists each field with its rule. -/
structure State where
  pending : List Instr
  -- time (R176, R178)
  now : Nat
  clock : ClockValue
  residue : Nat
  -- trunk ring (chapter 1)
  station : Nat
  portA : PortState
  portB : PortState
  recent : List (Nat × Sequence)
  ownSent : List Sequence
  seq : Sequence
  freeCells : Nat
  frames : List StoredFrame
  nextRef : Nat
  -- request handler (chapter 2)
  admitted : List Request
  rights : List RightsEntry
  params : Params
  silenceSince : Nat
  orphaned : Bool
  scanningL : Bool
  scanningR : Bool
  pendingReset : PendingReset
  resetCause : ResetCause
  -- location map and areas (chapter 3); bit k of `locked` is set where area k is LOCKED
  locMap : List MapEntry
  locked : BitVec 16
  -- pickers (chapter 4), in index order
  pickers : List Picker
  -- tasks and groups (chapter 5); `groups` in creation order
  tasks : List Task
  groups : List Group
  nextGroup : Nat
  -- display scheduler (chapter 6): one record for each mapped slot
  slots : List SlotState
  -- branch controllers (chapter 8)
  branchL : BranchState
  branchR : BranchState
  -- report packer (chapter 9)
  fifo : List Waiting
  combine : Option CombineTimer
  roomNotices : Nat
  -- counters and attention (chapter 10)
  counters : Counters
  flags : BitVec 21
  mask : BitVec 21
  notes : EventNotes
  deriving DecidableEq, Repr

/-- The reasons to stop with a fault: none. The manual describes no event that stops the part, so this type has no constructor
(safe: nothing is hidden behind a stop). -/
inductive Fault : Type
  deriving DecidableEq, Repr

/-- The reasons to refuse a command. -/
inductive Refusal where
  /-- Raised by exec's arm of a command that has no meaning yet, with its mnemonic; no arm of this model raises it. Safe. -/
  | notModelled (mnemonic : String)
  deriving DecidableEq, Repr

/-! ## After reset -/

/-- A port right after a reset whose line shows activity (R1, R4, R22, R39). -/
def PortState.reset : PortState :=
  { up := true, rx := { bytes := [], received := 0 }, express := [], normal := [], sending := none }

/-- The configuration parameters' reset values (section 2.4, R33). -/
def Params.reset : Params :=
  { rotation := 6, feedback := 4, lingerBase := 30, adaptive := false, combine := 50, silence := 5, hops := 32,
    target := 48, missLimit := 3 }

/-- A branch controller right after a reset whose line is free (R95, R151, R164). -/
def BranchState.reset : BranchState :=
  { fault := false, roster := [], work := [], command := none, shows := 0, turn := 0, lastAnswering := none,
    lastMissing := none, lastTurn := none, scan := some { darkFirst := true, next := 1, found := 0 }, direct := none,
    keys := [], nextTags := List.replicate Config.slotsPerBranch 0, directShown := [], unshown := [] }

/-- A statistic counter after reset (R180). -/
def Counter.reset : Counter := { count := 0, selection := none, mask := 0 }

/-- An event with nothing noted. -/
def EventNotes.empty : EventNotes := { noted := 0, wraps := [], entered := false }

/-- The machine right after a power-on reset with both trunk lines active and both branch lines free (R39, R190), strapped as
station 1. DESIGN CHOICE (log 6): the straps' value and the lines' levels are inputs that the manual does not fix. DESIGN CHOICE (log 7):
no room notice is outstanding and the reference numbers of stored frames start again at 0, of which the manual says nothing. -/
def State.reset : State :=
  { pending := []
    now := 0, clock := 0, residue := 0
    station := 1, portA := PortState.reset, portB := PortState.reset, recent := [], ownSent := [], seq := 0
    freeCells := Config.cells, frames := [], nextRef := 0
    admitted := [], rights := [], params := Params.reset, silenceSince := 0, orphaned := false
    scanningL := true, scanningR := true, pendingReset := .none, resetCause := .powerOn
    locMap := [], locked := 0, pickers := [], tasks := [], groups := [], nextGroup := 1, slots := []
    branchL := BranchState.reset, branchR := BranchState.reset
    fifo := [], combine := none, roomNotices := 0
    counters := { c0 := Counter.reset, c1 := Counter.reset, c2 := Counter.reset, c3 := Counter.reset }
    flags := 0, mask := BitVec.allOnes 21, notes := EventNotes.empty }

end Sys2Proof.Machine
end

