-- ==== Sys2Proof/Machine/Codec.lean ====
section
/-!
DEFINITION. The byte layouts and numeric codes of chapter 11: numbers most significant byte first, the two checks, the trunk
frame, request and reply codes, report records, and the lamp-branch messages.
-/

namespace Sys2Proof.Machine

open Sys2Proof

/-! ## Numbers and checks -/

/-- The number that bytes carry, most significant byte first (chapter 11). -/
def beNat (bs : List Byte) : Nat := bs.foldl (fun n b => n * 256 + b.toNat) 0

/-- The `n` bytes of a number, most significant first; what does not fit is dropped. -/
def beBytes : Nat → Nat → List Byte
  | 0, _ => []
  | n + 1, v => BitVec.ofNat 8 (v / 256 ^ n) :: beBytes n v

/-- One byte: an indication, 01h where it holds and 00h where it does not (section 11.3). -/
def indication (b : Bool) : Byte := if b then 1 else 0

/-- One step of a cyclic redundancy check, most significant bit first. -/
def crcStep {w : Nat} (generator c : BitVec w) : BitVec w :=
  if c.msb then (c <<< (1 : Nat)) ^^^ generator else c <<< (1 : Nat)

/-- The trunk check: generator 1021h, initial value FFFFh, no final inversion (R191). -/
def crc16 (bs : List Byte) : BitVec 16 :=
  bs.foldl (fun c b => (crcStep 0x1021#16)^[8] (c ^^^ ((b.setWidth 16 : BitVec 16) <<< (8 : Nat)))) 0xFFFF#16

/-- The lamp-branch check: generator 07h, initial value 00h (section 11.5). -/
def crc8 (bs : List Byte) : BitVec 8 :=
  bs.foldl (fun c b => (crcStep 0x07#8)^[8] (c ^^^ b)) 0#8

/-- `n` bytes at an offset, as a number. -/
def fieldAt (bs : List Byte) (offset n : Nat) : Nat := beNat ((bs.drop offset).take n)

/-- A list cut into pieces of `n`: the `k` items of a request payload. -/
def pieces (n : Nat) : Nat → List Byte → List (List Byte)
  | 0, _ => []
  | k + 1, bs => bs.take n :: pieces n k (bs.drop n)

/-! ## Request kinds (section 11.1) and their payload lengths (section 11.2) -/

/-- The kind code of a request. -/
def ReqKind.code : ReqKind → Byte
  | .taskPost => 0x10 | .taskCancel => 0x11 | .taskAmend => 0x12 | .pickerSet => 0x13 | .pickerPause => 0x14
  | .pickerResume => 0x15 | .pickerLeave => 0x16 | .areaLock => 0x17 | .areaUnlock => 0x18
  | .mapLoad => 0x20 | .mapRemove => 0x21 | .configSet => 0x22 | .rightsSet => 0x23 | .timeSet => 0x24
  | .counterSet => 0x25 | .attentionMask => 0x26 | .attentionClear => 0x27
  | .branchScan => 0x30 | .lampDirect => 0x31 | .aisleReset => 0x32
  | .taskQuery => 0x40 | .pickerRead => 0x41 | .mapRead => 0x42 | .configRead => 0x43 | .counterRead => 0x44
  | .attentionRead => 0x45 | .statusRead => 0x46 | .rosterRead => 0x47

/-- The kind code of a REPLY frame. -/
def replyCodeKind : Byte := 0x80

/-- The kind code of a REPORT frame. -/
def reportCodeKind : Byte := 0x81

/-- Every request kind. -/
def ReqKind.all : List ReqKind :=
  [.taskPost, .taskCancel, .taskAmend, .pickerSet, .pickerPause, .pickerResume, .pickerLeave, .areaLock, .areaUnlock,
   .mapLoad, .mapRemove, .configSet, .rightsSet, .timeSet, .counterSet, .attentionMask, .attentionClear,
   .branchScan, .lampDirect, .aisleReset,
   .taskQuery, .pickerRead, .mapRead, .configRead, .counterRead, .attentionRead, .statusRead, .rosterRead]

/-- The request kind that a kind code names, if it names one; REPLY, REPORT and every code outside the table do not. -/
def ReqKind.ofCode (c : Byte) : Option ReqKind := ReqKind.all.find? (fun k => k.code == c)

/-- How a request's payload is admitted (section 11.2): with items of a size, `least` to `most` of them (R26), or with one
fixed length. -/
inductive PayloadForm where
  | items (size least most : Nat)
  | fixed (length : Nat)
  deriving DecidableEq, Repr

/-- The payload form of each request kind (section 11.2; the item counts are those of R29, R42, R49, section 5.4 and R87). -/
def ReqKind.form : ReqKind → PayloadForm
  | .taskPost => .items 12 1 8
  | .taskCancel => .items 4 1 16
  | .mapLoad => .items 8 1 16
  | .mapRemove => .items 4 1 16
  | .rightsSet => .items 2 0 4
  | .taskAmend => .fixed 6
  | .pickerSet => .fixed 4
  | .pickerPause | .pickerResume | .pickerLeave | .pickerRead => .fixed 2
  | .areaLock | .areaUnlock => .fixed 2
  | .mapRead => .fixed 4
  | .configSet => .fixed 12
  | .timeSet => .fixed 4
  | .counterSet => .fixed 6
  | .attentionMask | .attentionClear => .fixed 4
  | .branchScan => .fixed 1
  | .rosterRead => .fixed 2
  | .lampDirect => .fixed 7
  | .taskQuery => .fixed 4
  | .aisleReset | .configRead | .counterRead | .attentionRead | .statusRead => .fixed 0

/-- Whether a payload length is in the admission range of a form: 1 to 247 with items, the fixed length otherwise (R25). -/
def PayloadForm.admits : PayloadForm → Nat → Bool
  | .items _ _ _, n => 1 ≤ n && n ≤ 247
  | .fixed k, n => n == k

/-- The right each request kind needs (R28). -/
def ReqKind.right : ReqKind → Right
  | .taskPost | .taskCancel | .taskAmend | .pickerSet | .pickerPause | .pickerResume | .pickerLeave | .areaLock
  | .areaUnlock => .task
  | .mapLoad | .mapRemove | .configSet | .rightsSet | .timeSet | .counterSet | .attentionMask | .attentionClear => .manage
  | .branchScan | .lampDirect | .aisleReset => .maint
  | .taskQuery | .pickerRead | .mapRead | .configRead | .counterRead | .attentionRead | .statusRead | .rosterRead => .read

/-- The bit of a right in a rights set (section 11.2). -/
def Right.bit : Right → Nat
  | .task => 0 | .manage => 1 | .maint => 2 | .read => 3

/-- The code of a reply code (section 11.3). -/
def ReplyCode.code : ReplyCode → Byte
  | .ok => 0x00 | .busy => 0x01 | .noRight => 0x02 | .badField => 0x03 | .badLength => 0x04 | .unknownTask => 0x05
  | .unknownPicker => 0x06 | .unknownLocation => 0x07 | .duplicate => 0x08 | .tableFull => 0x09 | .inUse => 0x0A
  | .notOpen => 0x0B | .colourInUse => 0x0C | .slotTaken => 0x0D

/-! ## Enumerated fields (section 11.2) -/

/-- 00h L, 01h R. -/
def branchOfCode : Nat → Option Branch
  | 0 => some .l
  | 1 => some .r
  | _ => none

/-- 00h L, 01h R. -/
def branchCode : Branch → Byte
  | .l => 0
  | .r => 1

/-- The colour codes, in order. -/
def Colour.all : List Colour := [.white, .red, .green, .blue, .yellow, .cyan, .magenta, .orange, .violet]

/-- 00h WHITE to 08h VIOLET; no other code names a colour (R192). -/
def Colour.ofCode (n : Nat) : Option Colour := Colour.all[n]?

/-- 00h WHITE to 08h VIOLET. -/
def Colour.code : Colour → Byte
  | .white => 0 | .red => 1 | .green => 2 | .blue => 3 | .yellow => 4 | .cyan => 5 | .magenta => 6 | .orange => 7
  | .violet => 8

/-- The pattern codes, in order. -/
def Pattern.all : List Pattern := [.dark, .steady, .blink, .flash, .pulse]

/-- 00h DARK to 04h PULSE; no other code names a pattern (R192). -/
def Pattern.ofCode (n : Nat) : Option Pattern := Pattern.all[n]?

/-- 00h DARK to 04h PULSE. -/
def Pattern.code : Pattern → Byte
  | .dark => 0 | .steady => 1 | .blink => 2 | .flash => 3 | .pulse => 4

/-- 0000h to 270Fh NUMBER, FFF0h BLANK, FFF1h DASHES, FFF2h LOCK, FFF3h BUSY, FFF4h ERR; no other code names digits (R192). -/
def Digits.ofCode (n : Nat) : Option Digits :=
  if n ≤ 9999 then some (.number n)
  else if n = 0xFFF0 then some .blank
  else if n = 0xFFF1 then some .dashes
  else if n = 0xFFF2 then some .lock
  else if n = 0xFFF3 then some .busy
  else if n = 0xFFF4 then some .err
  else none

/-- The number that stands for a display's digits. -/
def Digits.code : Digits → Nat
  | .number n => n
  | .blank => 0xFFF0 | .dashes => 0xFFF1 | .lock => 0xFFF2 | .busy => 0xFFF3 | .err => 0xFFF4

/-- The counter events in the order of the table in R180. -/
def CounterEvent.all : List CounterEvent :=
  [.confirmAccepted, .taskShort, .taskPosted, .adjustAccepted, .stalePress, .staleAdjust, .lockedPress, .busyPress,
   .unmappedKey, .frameDelivered, .frameForwarded, .frameDropped, .duplicateDiscarded, .moduleMiss, .keysLost,
   .moduleFault, .requestDiscarded]

/-- 00h NONE, 01h to 11h the events; any other code is out of range (none). -/
def selectionOfCode : Nat → Option (Option CounterEvent)
  | 0 => some none
  | n + 1 => (CounterEvent.all[n]?).map some

/-- 01h to 11h, in the order of the table in R180. -/
def CounterEvent.code : CounterEvent → Byte
  | .confirmAccepted => 0x01 | .taskShort => 0x02 | .taskPosted => 0x03 | .adjustAccepted => 0x04 | .stalePress => 0x05
  | .staleAdjust => 0x06 | .lockedPress => 0x07 | .busyPress => 0x08 | .unmappedKey => 0x09 | .frameDelivered => 0x0A
  | .frameForwarded => 0x0B | .frameDropped => 0x0C | .duplicateDiscarded => 0x0D | .moduleMiss => 0x0E
  | .keysLost => 0x0F | .moduleFault => 0x10 | .requestDiscarded => 0x11

/-- 00h NONE, 01h to 11h the events. -/
def selectionCode : Option CounterEvent → Byte
  | none => 0
  | some e => e.code

/-- 0 to 3. -/
def CounterNo.ofCode : Nat → Option CounterNo
  | 0 => some .c0
  | 1 => some .c1
  | 2 => some .c2
  | 3 => some .c3
  | _ => none

/-- 0 to 3. -/
def CounterNo.index : CounterNo → Nat
  | .c0 => 0 | .c1 => 1 | .c2 => 2 | .c3 => 3

/-- 01h CONFIRM, 02h UP, 03h DOWN. -/
def Key.ofCode : Nat → Option Key
  | 1 => some .confirm
  | 2 => some .up
  | 3 => some .down
  | _ => none

/-- 01h CONFIRM, 02h UP, 03h DOWN. -/
def Key.code : Key → Byte
  | .confirm => 1 | .up => 2 | .down => 3

/-- 00h ACTIVE, 01h PAUSED. -/
def PickerState.code : PickerState → Byte
  | .active => 0 | .paused => 1

/-- 00h WAITING, 01h SHOWN, 02h HELD. -/
def GroupState.code : GroupState → Byte
  | .waiting => 0 | .shown => 1 | .held => 2

/-- 01h CONFIRMED, 02h SHORT. -/
def PickOutcome.code : PickOutcome → Byte
  | .confirmed => 1 | .short => 2

/-- 01h STALE, 02h LOCKED, 03h ORPHANED. -/
def RefusalReason.code : RefusalReason → Byte
  | .stale => 1 | .locked => 2 | .orphaned => 3

/-- 01h POWER_ON, 02h RESET_PIN, 03h AISLE_RESET. -/
def ResetCause.code : ResetCause → Byte
  | .powerOn => 1 | .resetPin => 2 | .aisleReset => 3

/-- 00h PRESENT, 01h SILENT, 02h MISSING. -/
def Presence.code : Presence → Byte
  | .present => 0 | .silent => 1 | .missing => 2

/-- The digits of a feedback symbol (R101). -/
def Symbol.digits : Symbol → Digits
  | .err => .err | .lock => .lock | .busy => .busy | .dashes => .dashes

/-! ## Trunk frames (section 11.1) -/

/-- A frame's total length: header 7, payload, check 2 (section 1.2). -/
def Frame.length (f : Frame) : Nat := 9 + f.payload.length

/-- Byte 3: bit 7 class, bit 6 spare, bits 5 to 0 hop count (section 11.1). -/
def Frame.byte3 (f : Frame) : Byte :=
  BitVec.ofNat 8 ((if f.express then 128 else 0) + (if f.spare then 64 else 0) + f.hop % 64)

/-- Bytes 0 to 6 + n: header and payload. -/
def Frame.body (f : Frame) : List Byte :=
  [BitVec.ofNat 8 f.dest, BitVec.ofNat 8 f.origin, f.kind, f.byte3] ++ beBytes 2 f.seq.toNat
    ++ [BitVec.ofNat 8 f.payload.length] ++ f.payload

/-- The frame as it leaves on the line, with its check (R5, R191). -/
def Frame.bytes (f : Frame) : List Byte := f.body ++ beBytes 2 (crc16 f.body).toNat

/-- The payload length field of received bytes (byte 6). -/
def payloadLengthField (bs : List Byte) : Nat := fieldAt bs 6 1

/-- R7's length fault: received length below 9 or above 256, payload length field above 247, or the two disagree. -/
def RxBuffer.lengthFault (rx : RxBuffer) : Bool :=
  rx.received < 9 || 256 < rx.received || 247 < payloadLengthField rx.bytes
    || rx.received != 9 + payloadLengthField rx.bytes

/-- R5's check over the received header and payload. -/
def RxBuffer.checkOk (rx : RxBuffer) : Bool :=
  let n := payloadLengthField rx.bytes
  (crc16 (rx.bytes.take (7 + n))).toNat == fieldAt rx.bytes (7 + n) 2

/-- The frame that received bytes carry (section 11.1). -/
def Frame.ofBytes (bs : List Byte) : Frame :=
  let b3 := fieldAt bs 3 1
  { dest := fieldAt bs 0 1
    origin := fieldAt bs 1 1
    kind := BitVec.ofNat 8 (fieldAt bs 2 1)
    express := 128 ≤ b3
    spare := 64 ≤ b3 % 128
    hop := b3 % 64
    seq := BitVec.ofNat 16 (fieldAt bs 4 2)
    payload := (bs.drop 7).take (payloadLengthField bs) }

/-- Cells for a total length: divided by 64, rounded up (R18). -/
def cellsFor (length : Nat) : Nat := (length + 63) / 64

/-- The cells a stored frame occupies (R18). -/
def StoredFrame.cells (f : StoredFrame) : Nat := cellsFor f.frame.length

/-! ## Reports (section 11.4) -/

/-- A record's bytes, its kind byte first. -/
def Record.bytes : Record → List Byte
  | .pick task picker loc requested confirmed outcome firstShown press =>
    [0x01] ++ beBytes 4 task ++ beBytes 2 picker ++ beBytes 4 loc ++ beBytes 2 requested ++ beBytes 2 confirmed
      ++ [outcome.code] ++ beBytes 4 firstShown.toNat ++ beBytes 4 press.toNat
  | .pressRefused loc pos key tag reason press =>
    [0x02] ++ beBytes 4 loc ++ [branchCode pos.branch, BitVec.ofNat 8 pos.addr, BitVec.ofNat 8 pos.slot, key.code, tag,
      reason.code] ++ beBytes 4 press.toNat
  | .linger group picker loc time =>
    [0x03] ++ beBytes 2 group ++ beBytes 2 picker ++ beBytes 4 loc ++ beBytes 4 time.toNat
  | .attention flags time => [0x04] ++ beBytes 4 flags.toNat ++ beBytes 4 time.toNat
  | .counterWrap counter time => [0x05, BitVec.ofNat 8 counter.index] ++ beBytes 4 time.toNat
  | .scanDone branch found time => [0x06, branchCode branch, BitVec.ofNat 8 found] ++ beBytes 4 time.toNat

/-- An ATTENTION record (R171, R173). -/
def Record.isAttention : Record → Bool
  | .attention _ _ => true
  | _ => false

/-- A PICK record (R170). -/
def Record.isPick : Record → Bool
  | .pick _ _ _ _ _ _ _ _ => true
  | _ => false

/-! ## Lamp-branch messages (section 11.5) -/

/-- The bytes of a message: address, code, content and check. -/
def lampMessage (addr : Nat) (code : Byte) (content : List Byte) : List Byte :=
  let m := [BitVec.ofNat 8 addr, code] ++ content
  m ++ [crc8 m]

/-- The content of a SHOW (section 11.5). -/
def showContent (slot : Nat) (d : Shadow) (tag : Tag) : List Byte :=
  [BitVec.ofNat 8 slot, d.colour.code, d.pattern.code] ++ beBytes 2 d.digits.code ++ [tag]

/-- What leaves on the branch line for a command in progress (R145, section 11.5). -/
def Command.bytes (c : Command) : List Byte :=
  match c.what with
  | .showSlot pos d tag => lampMessage pos.addr 0x01 (showContent pos.slot d tag)
  | .poll addr => lampMessage addr 0x02 [BitVec.ofNat 8 c.ack]
  | .ident addr => lampMessage addr 0x03 []
  | .direct pos d => lampMessage pos.addr 0x01 (showContent pos.slot d 0)
  | .allDark => lampMessage 0 0x04 []

/-- The module address a command is for; 0 is the broadcast of ALL_DARK (R145). -/
def LineCommand.addr : LineCommand → Nat
  | .showSlot pos _ _ => pos.addr
  | .poll addr => addr
  | .ident addr => addr
  | .direct pos _ => pos.addr
  | .allDark => 0

/-- A received reply's check passes and its address is the module's (R193). -/
def replySound (addr : Nat) (bs : List Byte) : Bool :=
  3 ≤ bs.length && crc8 (bs.take (bs.length - 1)) == (bs.getLast?.getD 0) && fieldAt bs 0 1 == addr

/-- A valid acknowledge from a module, echoing a tag (R144, R193). -/
def ackValid (addr : Nat) (tag : Tag) (bs : List Byte) : Bool :=
  replySound addr bs && bs.length == 4 && fieldAt bs 1 1 == 0x81 && fieldAt bs 2 1 == tag.toNat

/-- The events of a poll reply, each slot, key and tag (section 11.5). -/
def pollEvents (bs : List Byte) : List (List Byte) := pieces 3 (fieldAt bs 3 1) (bs.drop 4)

/-- A poll reply's event is in range: slot 1 to 4, key 01h to 03h (R193). -/
def pollEventOk (e : List Byte) : Bool :=
  1 ≤ fieldAt e 0 1 && fieldAt e 0 1 ≤ 4 && (Key.ofCode (fieldAt e 1 1)).isSome

/-- A valid poll reply from a module (R144, R193). -/
def pollValid (addr : Nat) (bs : List Byte) : Bool :=
  replySound addr bs && fieldAt bs 1 1 == 0x82 && 5 ≤ bs.length && fieldAt bs 3 1 ≤ 4
    && bs.length == 5 + 3 * fieldAt bs 3 1 && (pollEvents bs).all pollEventOk

/-- A valid identity reply from a module (R144, R193). -/
def identValid (addr : Nat) (bs : List Byte) : Bool :=
  replySound addr bs && bs.length == 11 && fieldAt bs 1 1 == 0x83 && 1 ≤ fieldAt bs 8 1 && fieldAt bs 8 1 ≤ 4

/-- Whether received bytes are a valid reply to a command (R144, table of R145). -/
def LineCommand.replyValid (c : LineCommand) (bs : List Byte) : Bool :=
  match c with
  | .showSlot pos _ tag => ackValid pos.addr tag bs
  | .poll addr => pollValid addr bs
  | .ident addr => identValid addr bs
  | .direct pos _ => ackValid pos.addr 0 bs
  | .allDark => false

end Sys2Proof.Machine
end

