-- ==== Sys2Proof/Machine/Flags.lean ====
section
/-!
DEFINITION. The attention flags and the statistic counters (chapter 10): setting and clearing a flag with the event's note of it,
and offering a counter event to the four counters.
-/

namespace Sys2Proof.Machine

open Sys2Proof

/-! ## Attention flags -/

/-- A flag's position in the table of R185, its bit in a flag set (section 11.2). -/
def Flag.position : Flag → Nat
  | .frameFault => 0 | .storeDrop => 1 | .replyDrop => 2 | .hopExpired => 3 | .stationClash => 4 | .moduleLost => 5
  | .moduleFound => 6 | .keysLost => 7 | .reportLost => 8
  | .counterWrap c => 9 + c.index
  | .supervisorBack => 13 | .scanDone => 14
  | .orphaned => 15 | .linkADown => 16 | .linkBDown => 17 | .branchLFault => 18 | .branchRFault => 19 | .tasksHigh => 20

/-- The flag set that names one flag. -/
def Flag.bit (f : Flag) : BitVec 21 := BitVec.twoPow 21 f.position

/-- The fifteen latched flags, bits 0 to 14 (R185). -/
def latchedFlags : BitVec 21 := 0x007FFF#21

/-- Whether a flag is set. -/
def State.flagSet (s : State) (f : Flag) : Bool := s.flags.getLsbD f.position

/-- Set a flag; going from clear to set is noted for the end of the event (R185, R187). -/
def setFlag (f : Flag) (s : State) : State :=
  if s.flagSet f then s
  else { s with flags := s.flags ||| f.bit, notes := { s.notes with noted := s.notes.noted ||| f.bit } }

/-- Clear a flag; a clearing is not reported (R187). -/
def clearFlag (f : Flag) (s : State) : State := { s with flags := s.flags &&& ~~~f.bit }

/-- A live flag follows its condition (R185). -/
def followFlag (f : Flag) (condition : Bool) (s : State) : State :=
  if condition then setFlag f s else clearFlag f s

/-- The flags as ATTENTION_READ returns them: the states of the enabled flags, clear for the others (R188). -/
def State.enabledFlags (s : State) : BitVec 21 := s.flags &&& s.mask

/-- The flag of a trunk port's line state (R1). -/
def linkFlag : Port → Flag
  | .a => .linkADown
  | .b => .linkBDown

/-- The flag of a branch's line fault (R160). -/
def branchFaultFlag : Branch → Flag
  | .l => .branchLFault
  | .r => .branchRFault

/-! ## Statistic counters -/

/-- A counter by its number. -/
def Counters.get (c : Counters) : CounterNo → Counter
  | .c0 => c.c0 | .c1 => c.c1 | .c2 => c.c2 | .c3 => c.c3

/-- The counters with one of them replaced. -/
def Counters.set (c : Counters) (k : CounterNo) (x : Counter) : Counters :=
  match k with
  | .c0 => { c with c0 := x }
  | .c1 => { c with c1 := x }
  | .c2 => { c with c2 := x }
  | .c3 => { c with c3 := x }

/-- The events attributed to a picker's place (table of R180). -/
def CounterEvent.attributable : CounterEvent → Bool
  | .confirmAccepted | .taskShort | .taskPosted | .adjustAccepted => true
  | .stalePress | .staleAdjust | .lockedPress | .busyPress | .unmappedKey | .frameDelivered | .frameForwarded
  | .frameDropped | .duplicateDiscarded | .moduleMiss | .keysLost | .moduleFault | .requestDiscarded => false

/-- Whether a counter counts a signal: its selection names the event and, for an attributable one, its mask includes the place
(R181). -/
def Counter.counts (c : Counter) (e : CounterEvent) (place : Option Nat) : Bool :=
  c.selection == some e && (!e.attributable || (place.elim false fun k => c.mask.getLsbD k))

/-- Offer a signal to one counter: it adds one, and past 16,777,215 wraps to 0, sets its COUNTER_WRAP flag and owes a
COUNTER_WRAP record at the end of the event (R181, R182). -/
def countSignal (k : CounterNo) (e : CounterEvent) (place : Option Nat) (s : State) : State :=
  let c := s.counters.get k
  if c.counts e place then
    let t := { s with counters := s.counters.set k { c with count := c.count + 1 } }
    if c.count = BitVec.allOnes 24 then
      setFlag (.counterWrap k) { t with notes := { t.notes with wraps := t.notes.wraps ++ [k] } }
    else t
  else s

/-- Signal a counter event to all four counters (R181). -/
def signal (e : CounterEvent) (place : Option Nat) (s : State) : State :=
  countSignal .c3 e place (countSignal .c2 e place (countSignal .c1 e place (countSignal .c0 e place s)))

end Sys2Proof.Machine
end

