-- ==== Sys2Proof/Machine/Ops.lean ====
section
/-!
DEFINITION. The operations the blocks share: access to the tables, timers, the cell store with its queues and transmitters
(chapter 1), origination (R20), the report packer (chapter 9), the bracket of an event (R171, R182, R187) and the reply (R31).
-/

namespace Sys2Proof.Machine

open Sys2Proof

/-! ## Access to the tables -/

/-- The port on the other side of the ring (R15's outgoing port). -/
def otherPort : Port → Port
  | .a => .b
  | .b => .a

/-- A trunk port. -/
def State.port (s : State) : Port → PortState
  | .a => s.portA
  | .b => s.portB

/-- The state with a trunk port replaced. -/
def State.setPort (s : State) (p : Port) (x : PortState) : State :=
  match p with
  | .a => { s with portA := x }
  | .b => { s with portB := x }

/-- A branch controller. -/
def State.branch (s : State) : Branch → BranchState
  | .l => s.branchL
  | .r => s.branchR

/-- The state with a branch controller replaced. -/
def State.setBranch (s : State) (b : Branch) (x : BranchState) : State :=
  match b with
  | .l => { s with branchL := x }
  | .r => { s with branchR := x }

/-- Whether the request handler holds a branch as scanning (R37). -/
def State.scanning (s : State) : Branch → Bool
  | .l => s.scanningL
  | .r => s.scanningR

/-- The state with a branch's scan-in-progress state replaced (R37). -/
def State.setScanning (s : State) (b : Branch) (on : Bool) : State :=
  match b with
  | .l => { s with scanningL := on }
  | .r => { s with scanningR := on }

/-- The forward lookup of R41. -/
def State.entryOf (s : State) (code : Nat) : Option MapEntry := s.locMap.find? (fun e => e.code == code)

/-- The reverse lookup of R41. -/
def State.entryAt (s : State) (pos : SlotPos) : Option MapEntry := s.locMap.find? (fun e => e.pos == pos)

/-- What the scheduler holds for a mapped slot. -/
def State.slotAt (s : State) (pos : SlotPos) : Option SlotState := s.slots.find? (fun x => x.pos == pos)

/-- The state with a slot's record replaced. -/
def State.setSlot (s : State) (x : SlotState) : State :=
  { s with slots := s.slots.map (fun y => if y.pos = x.pos then x else y) }

/-- A pick group by id. -/
def State.groupOf (s : State) (id : Nat) : Option Group := s.groups.find? (fun g => g.id == id)

/-- The state with a group's record replaced. -/
def State.setGroup (s : State) (x : Group) : State :=
  { s with groups := s.groups.map (fun g => if g.id = x.id then x else g) }

/-- An open task by number. -/
def State.taskOf (s : State) (number : Nat) : Option Task := s.tasks.find? (fun t => t.number == number)

/-- A picker entry by id. -/
def State.pickerOf (s : State) (id : Nat) : Option Picker := s.pickers.find? (fun p => p.id == id)

/-- The state with a picker's entry replaced. -/
def State.setPicker (s : State) (x : Picker) : State :=
  { s with pickers := s.pickers.map (fun p => if p.id = x.id then x else p) }

/-- The place a picker holds in the table, for attribution (R181). -/
def State.placeOf (s : State) (id : Nat) : Option Nat := (s.pickerOf id).map (·.index)

/-- A roster entry by address (R151). -/
def BranchState.moduleAt (x : BranchState) (addr : Nat) : Option Module := x.roster.find? (fun m => m.addr == addr)

/-- The branch with a roster entry replaced. -/
def BranchState.setModule (x : BranchState) (m : Module) : BranchState :=
  { x with roster := x.roster.map (fun n => if n.addr = m.addr then m else n) }

/-- Append to a list that holds at most `cap` entries, the oldest leaving first (R9, R12, R109). -/
def pushCapped {α : Type} (cap : Nat) (xs : List α) (x : α) : List α := (xs ++ [x]).drop (xs.length + 1 - cap)

/-! ## Timers (R178) -/

/-- A span of milliseconds in reference periods. -/
def periods (ms : Nat) : Nat := ms * Config.periodsPerMs

/-- A timer started now for a span of milliseconds. -/
def startTimer (s : State) (ms : Nat) : Timer := { since := s.now, length := periods ms }

/-- The timer has run its length. -/
def Timer.due (t : Timer) (now : Nat) : Bool := t.since + t.length ≤ now

/-! ## The cell store, queues and transmitters (sections 1.5 and 1.6) -/

/-- A free transmitter of an UP port starts the head of EXPRESS, or else of NORMAL (R23). -/
def startTransmitter (p : Port) (s : State) : State :=
  let q := s.port p
  if q.up && q.sending.isNone then
    match q.express, q.normal with
    | h :: t, _ => s.setPort p { q with express := t, sending := some h }
    | [], h :: t => s.setPort p { q with normal := t, sending := some h }
    | [], [] => s
  else s

/-- A reference joins the tail of a port's queue of its class (R22), and a free transmitter starts (R23). -/
def enqueueRef (express : Bool) (ref : Nat) (p : Port) (s : State) : State :=
  let q := s.port p
  startTransmitter p
    (s.setPort p (if express then { q with express := q.express ++ [ref] } else { q with normal := q.normal ++ [ref] }))

/-- A frame enters the store: its cells are taken, a record is made with one reference for each port, and the references are
queued (R16, R18, R20). -/
def storeFrame (f : Frame) (requester : Option Requester) (ports : List Port) (s : State) : State :=
  let ref := s.nextRef
  let t := { s with
    nextRef := ref + 1
    freeCells := s.freeCells - cellsFor f.length
    frames := s.frames ++ [{ ref := ref, frame := f, refs := ports.length, requester := requester }] }
  ports.foldl (fun t p => enqueueRef f.express ref p t) t

/-- One reference to a stored frame ends. At zero the cells return, the record goes, the AISLE_RESET reply's release is
noticed and the packer has a room notice (R19, R24, R38). -/
def dropRef (ref : Nat) (s : State) : State :=
  match s.frames.find? (fun f => f.ref == ref) with
  | none => s
  | some f =>
    if f.refs ≤ 1 then
      { s with
        frames := s.frames.filter (fun g => g.ref != ref)
        freeCells := s.freeCells + f.cells
        roomNotices := s.roomNotices + 1
        pendingReset :=
          if f.requester = some .requestHandler ∧ s.pendingReset = .awaiting (some ref) then .noticed
          else s.pendingReset }
    else { s with frames := s.frames.map (fun g => if g.ref = ref then { g with refs := g.refs - 1 } else g) }

/-- The ports that are UP, A before B. -/
def State.upPorts (s : State) : List Port :=
  (if s.portA.up then [Port.a] else []) ++ (if s.portB.up then [Port.b] else [])

/-- The relay's answer to a request to originate: no, or yes with the stored frame's reference (none at a repeater-only
station, which discards the frame, R17). -/
inductive Origination where
  | refused
  | accepted (ref : Option Nat)
  deriving DecidableEq, Repr

/-- A frame of this station's own: origin, sequence and hop count are the station's (R20). -/
def State.ownFrame (s : State) (dest : Nat) (kind : Byte) (express : Bool) (payload : List Byte) : Frame :=
  { dest := dest, origin := s.station, kind := kind, express := express, spare := false, hop := s.params.hops,
    seq := s.seq, payload := payload }

/-- Originate a frame (R20, R21, R9; R17 for a repeater-only station). -/
def originate (dest : Nat) (kind : Byte) (express : Bool) (requester : Requester) (payload : List Byte) (s : State) :
    Origination × State :=
  if s.station = 0 then (.accepted none, s)
  else
    let f := s.ownFrame dest kind express payload
    if s.upPorts.isEmpty || s.freeCells < cellsFor f.length then (.refused, s)
    else
      let t := { s with ownSent := pushCapped Config.ownSentFrames s.ownSent s.seq, seq := s.seq + 1 }
      (.accepted (some s.nextRef), storeFrame f (some requester) s.upPorts t)

/-! ## The report packer (chapter 9) -/

/-- Offer a record: it enters at the tail while a place is free; otherwise it is lost and REPORT_LOST sets (R168, R170). A PICK
record always finds a place (R130, R170). -/
def offer (r : Record) (s : State) : State :=
  if s.fifo.length < Config.reportRecords then
    { s with
      fifo := s.fifo ++ [{ record := r, entered := s.now }]
      combine := if s.fifo.isEmpty then some { since := s.now, expired := false } else s.combine
      notes := { s.notes with entered := true } }
  else setFlag .reportLost s

/-- The packer's free places (R168). -/
def State.freePlaces (s : State) : Nat := Config.reportRecords - s.fifo.length

/-- The combine timeout has elapsed since a moment (R171). -/
def State.combineElapsed (s : State) (since : Nat) : Bool := since + periods s.params.combine ≤ s.now

/-- The combine timer has expired while the frame that it made due still waits (R171). -/
def State.combineExpired (s : State) : Bool := s.combine.any fun c => c.expired

/-- A frame is due: eight records wait, or the timeout has elapsed since the oldest entered or the timer has expired and its frame is still
to be built, or an ATTENTION record waits (R171). -/
def State.frameDue (s : State) : Bool :=
  match s.fifo with
  | [] => false
  | w :: _ =>
    Config.recordsPerFrame ≤ s.fifo.length || s.combineElapsed w.entered || s.combineExpired
      || s.fifo.any (fun x => x.record.isAttention)

/-- Once a frame has been built, the combine timer goes on to time the oldest record that remains, from its own entry, and counts as expired
where that record has waited the timeout already (log 31); it stops when none waits (R171). -/
def settleCombine (s : State) : State :=
  { s with combine := s.fifo.head?.map fun w => { since := w.entered, expired := s.combineElapsed w.entered } }

/-- A CONFIG_SET has changed the combine timeout: a timer that had expired stays expired, as its frame stays due until it is built, and any
other is judged by the timeout as it stands (R34, R171, log 36). -/
def rejudgeCombine (s : State) : State :=
  { s with combine := s.fifo.head?.map fun w =>
      { since := w.entered, expired := s.combineExpired || s.combineElapsed w.entered } }

/-- The relay has refused a frame: a combine timer that has run its timeout has expired, and its frame waits for cells (R171, R172, log 31). -/
def holdCombine (s : State) : State :=
  { s with combine := s.combine.map fun c => { c with expired := c.expired || s.combineElapsed c.since } }

/-- Ask the relay for one report frame of the oldest records, up to eight; on a yes they leave the FIFO (R172, R173). -/
def buildFrame (s : State) : Origination × State :=
  let taken := (s.fifo.take Config.recordsPerFrame).map (·.record)
  let payload := BitVec.ofNat 8 taken.length :: taken.flatMap Record.bytes
  match originate s.params.target reportCodeKind (taken.any Record.isAttention) .reportPacker payload s with
  | (.refused, t) => (.refused, holdCombine t)
  | (.accepted ref, t) => (.accepted ref, settleCombine { t with fifo := t.fifo.drop Config.recordsPerFrame })

/-- Build frames while one is due and the relay says yes (R171's fifth occasion, R172); `fuel` bounds the frames. -/
def buildDue : Nat → State → State
  | 0, s => s
  | fuel + 1, s =>
    if s.frameDue then
      match buildFrame s with
      | (.refused, t) => t
      | (.accepted _, t) => buildDue fuel t
    else s

/-- The packer judges whether a frame is due and builds (R171, R172). Every frame takes at least one record. -/
def judgePacker (s : State) : State := buildDue s.fifo.length s

/-! ## The bracket of an event -/

/-- An event begins with nothing noted. -/
def beginEvent (s : State) : State := { s with notes := EventNotes.empty }

/-- The COUNTER_WRAP records of an event, in rising counter number (R182). -/
def offerWraps (s : State) : State :=
  ([CounterNo.c0, .c1, .c2, .c3].flatMap fun k => s.notes.wraps.filter (· == k)).foldl
    (fun t k => offer (.counterWrap k t.clock) t) s

/-- The ATTENTION record of an event: every enabled flag that went from clear to set, if there is one (R187). -/
def offerAttention (s : State) : State :=
  let reported := s.notes.noted &&& s.mask
  if reported = 0 then s else offer (.attention reported s.clock) s

/-- The end of an event: COUNTER_WRAP records, then the ATTENTION record, then the packer's judgement if a record entered
(R171, R182, R187). -/
def endEvent (s : State) : State :=
  let t := offerAttention (offerWraps s)
  let u := if t.notes.entered then judgePacker t else t
  { u with notes := EventNotes.empty }

/-- An event whose own effect is `f`. -/
def event (f : State → State) (s : State) : State := endEvent (f (beginEvent s))

/-! ## Replies (section 2.3) -/

/-- What a block hands back for a reply: the code and what follows it (an index for some refusals, or the body) (R31). -/
structure Answer where
  code : ReplyCode
  rest : List Byte
  deriving DecidableEq, Repr

/-- OK with a body. -/
def Answer.ok (body : List Byte) : Answer := { code := .ok, rest := body }

/-- A refusal that names no index. -/
def Answer.refuse (code : ReplyCode) : Answer := { code := code, rest := [] }

/-- A refusal with the 1-based index of the first bad item, field or parameter (R31). -/
def Answer.refuseAt (code : ReplyCode) (index : Nat) : Answer := { code := code, rest := [BitVec.ofNat 8 index] }

/-- The reply's payload: envelope, then index or body (R31, section 11.3). -/
def replyPayload (r : Request) (a : Answer) : List Byte :=
  [r.kind.code] ++ beBytes 2 r.seq.toNat ++ [a.code.code] ++ a.rest

/-- Answer a request: one reply to its origin in class EXPRESS, or none for a broadcast; a refused reply is discarded and
REPLY_DROP sets (R30, R31, R32). -/
def answer (r : Request) (a : Answer) (s : State) : State :=
  if r.broadcast then s
  else
    match originate r.origin replyCodeKind true .requestHandler (replyPayload r a) s with
    | (.refused, t) => setFlag .replyDrop t
    | (.accepted _, t) => t

end Sys2Proof.Machine
end

