-- ==== Sys2Proof/Machine/Display.lean ====
section
/-!
DEFINITION. The display scheduler (chapter 6): eligibility, rotation sets, shadows, feedback, linger, the notices that recompute
locations, and the meanings of ROTATION_EXPIRY, FEEDBACK_EXPIRY and LINGER_EXPIRY.
-/

namespace Sys2Proof.Machine

open Sys2Proof

/-! ## Location queues and eligibility -/

/-- Whether a location has open groups (R77). -/
def State.hasGroups (s : State) (code : Nat) : Bool := s.groups.any (fun g => g.loc == code)

/-- A picker's priority, as the picker table holds it (R76). -/
def State.priorityOf (s : State) (id : Nat) : Nat := ((s.pickerOf id).map (·.priority)).getD 0

/-- The location queue: the location's groups by priority, 0 first, and within one priority in creation order (R76). -/
def State.queueOf (s : State) (code : Nat) : List Group :=
  let created := s.groups.filter (fun g => g.loc == code)
  [0, 1, 2, 3].flatMap fun k => created.filter (fun g => s.priorityOf g.picker == k)

/-- A slot is reachable: no line fault on its branch, its module in the roster and not MISSING, its number within the slot
count (R96). -/
def State.reachable (s : State) (pos : SlotPos) : Bool :=
  let b := s.branch pos.branch
  !b.fault && ((b.moduleAt pos.addr).elim false fun m => m.presence != .missing && pos.slot ≤ m.slots)

/-- Whether an area is LOCKED (R52). -/
def State.areaLocked (s : State) (area : Nat) : Bool := s.locked.getLsbD area

/-- A group at a map entry's location is eligible (R96). -/
def State.eligible (s : State) (e : MapEntry) (g : Group) : Bool :=
  !s.areaLocked e.area && ((s.pickerOf g.picker).elim false fun p => p.state == .active) && s.reachable e.pos
    && !s.orphaned

/-- The first up to four groups of a queue of eligible groups, at most one of each picker (R97). -/
def rotationSet (eligible : List Group) : List Group :=
  eligible.foldl
    (fun (chosen : List Group) (g : Group) =>
      if chosen.length < Config.rotationGroups && !chosen.any (fun c => c.picker == g.picker) then chosen ++ [g]
      else chosen) []

/-! ## Shadows and the display work queue -/

/-- The DARK shadow (R101). -/
def Shadow.darkShadow : Shadow := { colour := .white, pattern := .dark, digits := .blank }

/-- The held display (R101). -/
def Shadow.heldShadow : Shadow := { colour := .white, pattern := .pulse, digits := .blank }

/-- The feedback display of a symbol (R101, R111). -/
def Shadow.feedbackShadow (sym : Symbol) : Shadow := { colour := .white, pattern := .flash, digits := sym.digits }

/-- The display of a group in its picker's colour (R101). -/
def State.groupShadow (s : State) (g : Group) : Shadow :=
  { colour := ((s.pickerOf g.picker).map (·.colour)).getD .white
    pattern := if g.linger then .blink else .steady
    digits := .number g.display }

/-- The group at a slot's rotation position. -/
def State.groupAtPosition (s : State) (x : SlotState) : Option Group := x.position.bind s.groupOf

/-- The shadow of a mapped slot, by the first row of R101 that applies. -/
def State.deriveShadow (s : State) (x : SlotState) : Shadow :=
  match x.feedback with
  | some f => Shadow.feedbackShadow f.symbol
  | none =>
    match s.groupAtPosition x with
    | some g => s.groupShadow g
    | none =>
      if (s.entryAt x.pos).elim false fun e => s.hasGroups e.code then Shadow.heldShadow else Shadow.darkShadow

/-- A slot enters the tail of its branch's display work queue, unless it is there already (R103). -/
def enqueueSlot (pos : SlotPos) (s : State) : State :=
  let b := s.branch pos.branch
  if b.work.contains pos then s else s.setBranch pos.branch { b with work := b.work ++ [pos] }

/-- Derive a slot's shadow anew; when it differs the slot enters the display work queue (R102, R103). -/
def renewShadow (pos : SlotPos) (s : State) : State :=
  match s.slotAt pos with
  | none => s
  | some x =>
    let shadow := s.deriveShadow x
    if shadow = x.shadow then s else enqueueSlot pos (s.setSlot { x with shadow := shadow })

/-! ## Timers of a slot -/

/-- A fresh rotation interval (R104). -/
def rotationTimer (s : State) : Timer := startTimer s (s.params.rotation * 250)

/-- The linger limit of a group in milliseconds, by the parameters and the pace as they stand (R115). -/
def State.lingerLimit (s : State) (g : Group) : Nat :=
  let base := s.params.lingerBase * 1000
  match s.params.adaptive, (s.pickerOf g.picker).bind (·.pace) with
  | true, some p => max base (min (30 * p) 255000)
  | _, _ => base

/-- The linger timer that starts afresh for a group at the position, where R114's conditions hold. -/
def State.freshLinger (s : State) (x : SlotState) (g : Group) : Option Timer :=
  if s.params.lingerBase ≠ 0 ∧ g.linger = false ∧ g.id ∉ x.lingered then some (startTimer s (s.lingerLimit g)) else none

/-- The linger timer of a slot whose position has moved (R114). -/
def State.lingerAtPosition (s : State) (x : SlotState) : Option Timer :=
  (s.groupAtPosition x).bind fun g => s.freshLinger x g

/-! ## Recomputation (R99) -/

/-- The rotation position after a recomputation (R100). -/
def settlePosition (ids : List Nat) (old : Option Nat) : Option Nat :=
  match old with
  | some g => if ids.contains g then some g else ids.head?
  | none => ids.head?

/-- A group's state, first-shown time and linger flag after a recomputation of its location (R99 steps 2 and 3). -/
def settleGroup (ids : List Nat) (isEligible : Bool) (clock : ClockValue) (g : Group) : Group :=
  if ids.contains g.id then { g with state := .shown, firstShown := some (g.firstShown.getD clock) }
  else { g with state := if isEligible then .waiting else .held, linger := false }

/-- Recompute the rotation set of a location and renew its slot's shadow (R97, R99, R100, R104, R114). -/
def recompute (e : MapEntry) (s : State) : State :=
  match s.slotAt e.pos with
  | none => s
  | some x =>
    let ids := (rotationSet ((s.queueOf e.code).filter (s.eligible e))).map (·.id)
    let t := { s with
      groups := s.groups.map fun (g : Group) =>
        if g.loc = e.code then settleGroup ids (s.eligible e g) s.clock g else g }
    let position := settlePosition ids x.position
    let rotTimer :=
      if ids.length < 2 then none
      else if x.rotation.length < 2 ∨ position ≠ x.position then some (rotationTimer s)
      else x.rotTimer
    let y := { x with
      rotation := ids, position := position, rotTimer := rotTimer
      lingered := x.lingered.filter (fun g => ids.contains g) }
    let y := { y with linger := if position = x.position ∧ position ≠ none then x.linger else t.lingerAtPosition y }
    renewShadow e.pos (t.setSlot y)

/-- Recompute the locations whose map entries satisfy `p`, in ascending order of location code (R98). -/
def recomputeWhere (p : MapEntry → Bool) (s : State) : State :=
  (s.locMap.filter p).foldl (fun t e => recompute e t) s

/-- Recompute the locations of a list of codes (R85). -/
def recomputeCodes (codes : List Nat) (s : State) : State := recomputeWhere (fun e => codes.contains e.code) s

/-- Recompute every location with open groups (R36, R118). -/
def recomputeAll (s : State) : State := recomputeWhere (fun e => s.hasGroups e.code) s

/-- The notice of R119 for all slot positions at a module's address: each location there with open groups is recomputed. -/
def noticeModule (b : Branch) (addr : Nat) (s : State) : State :=
  recomputeWhere (fun e => e.pos.branch == b && e.pos.addr == addr && s.hasGroups e.code) s

/-- The notice of R119 at a line fault's setting or clearing: every slot position that a roster module carries (R160). -/
def noticeBranch (b : Branch) (s : State) : State :=
  recomputeWhere
    (fun e => e.pos.branch == b && ((s.branch b).moduleAt e.pos.addr).isSome && s.hasGroups e.code) s

/-- Derive anew the shadows of the slots that carry a picker's SHOWN groups, in ascending order of location code (R59). -/
def renewColour (picker : Nat) (s : State) : State :=
  (s.locMap.filter fun e =>
      s.groups.any fun (g : Group) => g.loc == e.code && g.picker == picker && g.state == .shown).foldl
    (fun t e => renewShadow e.pos t) s

/-- The slot positions at a module's address that satisfy `p` enter the display work queue, in ascending slot number (log 20). -/
def enqueueSlots (p : SlotPos → Bool) (b : Branch) (addr : Nat) (s : State) : State :=
  [1, 2, 3, 4].foldl
    (fun t n =>
      let pos : SlotPos := { branch := b, addr := addr, slot := n }
      if p pos then enqueueSlot pos t else t) s

/-- A slot position is mapped (R41). -/
def State.mapped (s : State) (pos : SlotPos) : Bool := (s.entryAt pos).isSome

/-- Every mapped slot position of a module that a scan finds replaced or changed enters the display work queue (R162). -/
def enqueueModule (b : Branch) (addr : Nat) (s : State) : State := enqueueSlots s.mapped b addr s

/-- A slot position was passed over, or its SHOW ended without an acknowledge, and it has been sent none since (R147, R158). -/
def State.awaitsShow (s : State) (pos : SlotPos) : Bool := (s.branch pos.branch).unshown.contains pos

/-- When a scan makes a module's entry or raises its slot count, every mapped slot position of it enters the display work queue (R162), and an
unmapped one that was passed over or not acknowledged is put back on it (R158, log 35). -/
def enqueueFound (b : Branch) (addr : Nat) (s : State) : State :=
  enqueueSlots (fun pos => s.mapped pos || s.awaitsShow pos) b addr s

/-- A slot position keeps the display of a LAMP_DIRECT (R108, R166). -/
def State.keepsDirect (s : State) (pos : SlotPos) : Bool := (s.branch pos.branch).directShown.contains pos

/-- When a module returns, every mapped slot position of it enters the display work queue (R156), and so does an unmapped one that keeps a
direct display, which is then replaced (R166), or that was passed over or not acknowledged (R147, R158, log 35). -/
def enqueueReturning (b : Branch) (addr : Nat) (s : State) : State :=
  enqueueSlots (fun pos => s.mapped pos || s.keepsDirect pos || s.awaitsShow pos) b addr s

/-! ## Slots joining and leaving the map (R48, R95) -/

/-- What the scheduler begins with for a slot taken up (R95). -/
def SlotState.fresh (pos : SlotPos) : SlotState :=
  { pos := pos, shadow := Shadow.darkShadow, rotation := [], position := none, rotTimer := none, feedback := none,
    linger := none, lingered := [], history := [] }

/-- A slot position is released: what was held for it goes, and it is queued if its shadow was not DARK (R48). -/
def releaseSlot (pos : SlotPos) (s : State) : State :=
  match s.slotAt pos with
  | none => s
  | some x =>
    let t := { s with slots := s.slots.filter (fun y => y.pos != pos) }
    if x.shadow = Shadow.darkShadow then t else enqueueSlot pos t

/-- A slot position is taken up: its state begins anew and it is queued (R48, R95). -/
def takeUpSlot (pos : SlotPos) (s : State) : State :=
  enqueueSlot pos
    { s with slots := s.slots.filter (fun y => y.pos != pos) ++ [SlotState.fresh pos] }

/-! ## Groups leaving (R75) -/

/-- A slot without a group: it leaves the set, the position with its linger timer, the lingered list and the tag history. -/
def SlotState.dropGroup (g : Nat) (x : SlotState) : SlotState :=
  { x with
    rotation := x.rotation.filter (· != g)
    position := if x.position = some g then none else x.position
    linger := if x.position = some g then none else x.linger
    lingered := x.lingered.filter (· != g)
    history := x.history.filter (fun h => (h.shown.map (·.1)) != some g) }

/-- Remove a group (R75 steps 1 to 3); the location's recomputation follows in the same event. -/
def removeGroup (g : Group) (s : State) : State :=
  let t := { s with groups := s.groups.filter (fun h => h.id != g.id) }
  match (t.entryOf g.loc).bind (fun e => t.slotAt e.pos) with
  | none => t
  | some x => t.setSlot (x.dropGroup g.id)

/-! ## Feedback and linger -/

/-- Show a feedback display on a slot for the feedback time, or restart the one that runs (R111, R112). -/
def showFeedback (pos : SlotPos) (sym : Symbol) (s : State) : State :=
  match s.slotAt pos with
  | none => s
  | some x =>
    renewShadow pos
      (s.setSlot { x with feedback := some { symbol := sym, timer := startTimer s (s.params.feedback * 250) } })

/-- The linger timer of a slot expires for the group at its position (R116). -/
def lingerExpire (x : SlotState) (s : State) : State :=
  match s.groupAtPosition x with
  | none => s.setSlot { x with linger := none }
  | some g =>
    let t := (s.setGroup { g with linger := true }).setSlot
      { x with linger := none, lingered := x.lingered.filter (· != g.id) ++ [g.id] }
    offer (.linger g.id g.picker g.loc s.clock) (renewShadow x.pos t)

/-- Every running linger timer judged under changed parameters, and fresh ones where the base was 0, in ascending order of
location code (R34, R114, R115). DESIGN CHOICE (log 37): each expiry is an event of its own, at whose end the packer judges, so that eight
records or more wait only while the relay refuses a frame (R170). -/
def judgeLinger (oldBase : Nat) (s : State) : State :=
  s.locMap.foldl
    (fun t e =>
      match t.slotAt e.pos with
      | none => t
      | some x =>
        if t.params.lingerBase = 0 then t.setSlot { x with linger := none }
        else
          match x.linger, t.groupAtPosition x with
          | some l, some g =>
            let judged := { l with length := periods (t.lingerLimit g) }
            if judged.due t.now then event (lingerExpire x) t else t.setSlot { x with linger := some judged }
          | none, some g => if oldBase = 0 then t.setSlot { x with linger := t.freshLinger x g } else t
          | _, none => t) s

/-! ## Meanings -/

/-- The next group of a rotation set after one of its groups, from the last to the first (R105). -/
def nextInSet (ids : List Nat) (g : Nat) : Option Nat :=
  match (ids.dropWhile (· != g)).drop 1 with
  | h :: _ => some h
  | [] => ids.head?

/-- A rotation interval that has run its length expires: the position moves, a fresh interval starts, the linger timer is
settled and the shadow derived (R105). -/
def rotationExpire (x : SlotState) (s : State) : State :=
  let position := x.position.bind (nextInSet x.rotation)
  let y := { x with position := position, rotTimer := some (rotationTimer s) }
  renewShadow x.pos (s.setSlot { y with linger := s.lingerAtPosition y })

/-- ROTATION_EXPIRY (R105): acts when the slot's rotation timer has run its length (log 4). -/
def execRotationExpiry (pos : SlotPos) (s : State) : Host.Outcome State Fault Refusal :=
  match s.slotAt pos with
  | none => .next s
  | some x =>
    match x.rotTimer with
    | none => .next s
    | some t => if t.due s.now then .next (event (rotationExpire x) s) else .next s

/-- FEEDBACK_EXPIRY (R113): acts when the slot's feedback timer has run its length (log 4). -/
def execFeedbackExpiry (pos : SlotPos) (s : State) : Host.Outcome State Fault Refusal :=
  match s.slotAt pos with
  | none => .next s
  | some x =>
    match x.feedback with
    | none => .next s
    | some f =>
      if f.timer.due s.now then .next (event (fun t => renewShadow pos (t.setSlot { x with feedback := none })) s)
      else .next s

/-- LINGER_EXPIRY (R116): acts when the slot's linger timer has run its limit (log 4). -/
def execLingerExpiry (pos : SlotPos) (s : State) : Host.Outcome State Fault Refusal :=
  match s.slotAt pos with
  | none => .next s
  | some x =>
    match x.linger with
    | none => .next s
    | some t => if t.due s.now then .next (event (lingerExpire x) s) else .next s

end Sys2Proof.Machine
end

