-- ==== Sys2Proof/Machine/Operands.lean ====
section
/-!
DEFINITION. The operands of the requests: every field of every request payload of section 11.2, as numbers.
-/

namespace Sys2Proof.Machine

open Sys2Proof

/-- `n` bytes of the payload at an offset, as an unsigned number. -/
def Request.field (r : Request) (offset n : Nat) : Nat := fieldAt r.payload offset n

/-- The item count of a request that carries items: its first payload byte. -/
def Request.itemCount (r : Request) : Nat := r.field 0 1

/-- The items of a request, each of `size` bytes, in frame order. -/
def Request.items (r : Request) (size : Nat) : List (List Byte) := pieces size r.itemCount (r.payload.drop 1)

/-- One task of a TASK_POST. -/
structure TaskItem where
  number : Nat
  picker : Nat
  loc : Nat
  quantity : Nat
  deriving DecidableEq, Repr

/-- The tasks of a TASK_POST: task number (4), picker id (2), location code (4), quantity (2). -/
def Request.taskItems (r : Request) : List TaskItem :=
  (r.items 12).map fun b =>
    { number := fieldAt b 0 4, picker := fieldAt b 4 2, loc := fieldAt b 6 4, quantity := fieldAt b 10 2 }

/-- The numbers of a TASK_CANCEL (task numbers) or a MAP_REMOVE (location codes), 4 bytes each. -/
def Request.numberItems (r : Request) : List Nat := (r.items 4).map fun b => fieldAt b 0 4

/-- One entry of a MAP_LOAD, its fields as the bytes carry them. -/
structure LoadItem where
  code : Nat
  branch : Nat
  addr : Nat
  slot : Nat
  area : Nat
  deriving DecidableEq, Repr

/-- The entries of a MAP_LOAD: location code (4), branch, module address, slot, area (1 each). -/
def Request.loadItems (r : Request) : List LoadItem :=
  (r.items 8).map fun b =>
    { code := fieldAt b 0 4, branch := fieldAt b 4 1, addr := fieldAt b 5 1, slot := fieldAt b 6 1, area := fieldAt b 7 1 }

/-- The entries of a RIGHTS_SET: station (1), rights set (1). -/
def Request.rightsItems (r : Request) : List (Nat × Nat) :=
  (r.items 2).map fun b => (fieldAt b 0 1, fieldAt b 1 1)

/-- The picker id of PICKER_PAUSE, PICKER_RESUME, PICKER_LEAVE and PICKER_READ, and the first field of PICKER_SET. -/
def Request.pickerId (r : Request) : Nat := r.field 0 2

/-- PICKER_SET's colour byte. -/
def Request.colourByte (r : Request) : Nat := r.field 2 1

/-- PICKER_SET's priority byte. -/
def Request.priorityByte (r : Request) : Nat := r.field 3 1

/-- The area set of AREA_LOCK and AREA_UNLOCK: bit k names area k. -/
def Request.areaSet (r : Request) : BitVec 16 := BitVec.ofNat 16 (r.field 0 2)

/-- MAP_READ's start code. -/
def Request.startCode (r : Request) : Nat := r.field 0 4

/-- The task number of TASK_AMEND and TASK_QUERY. -/
def Request.taskNumber (r : Request) : Nat := r.field 0 4

/-- TASK_AMEND's new quantity. -/
def Request.newQuantity (r : Request) : Nat := r.field 4 2

/-- Whether CONFIG_SET names parameter `k`, 0 to 8 in the order of section 2.4; bits 9 to 15 are ignored (R192). -/
def Request.names (r : Request) (k : Nat) : Bool := (BitVec.ofNat 16 (r.field 0 2)).getLsbD k

/-- TIME_SET's clock value. -/
def Request.clockValue (r : Request) : ClockValue := BitVec.ofNat 32 (r.field 0 4)

/-- COUNTER_SET's counter number byte. -/
def Request.counterByte (r : Request) : Nat := r.field 0 1

/-- COUNTER_SET's selection byte. -/
def Request.selectionByte (r : Request) : Nat := r.field 1 1

/-- COUNTER_SET's picker mask: bit i is place i. -/
def Request.pickerMask (r : Request) : BitVec 8 := BitVec.ofNat 8 (r.field 2 1)

/-- COUNTER_SET's 24-bit count. -/
def Request.countField (r : Request) : BitVec 24 := BitVec.ofNat 24 (r.field 3 3)

/-- The flag set of ATTENTION_MASK and ATTENTION_CLEAR; bits 21 to 31 are ignored (R192). -/
def Request.flagSet (r : Request) : BitVec 21 := BitVec.ofNat 21 (r.field 0 4)

/-- The branch byte of BRANCH_SCAN, ROSTER_READ and LAMP_DIRECT; none when it names no branch (R192). -/
def Request.branch (r : Request) : Option Branch := branchOfCode (r.field 0 1)

/-- ROSTER_READ's start address. -/
def Request.startAddress (r : Request) : Nat := r.field 1 1

/-- LAMP_DIRECT's module address. -/
def Request.moduleAddress (r : Request) : Nat := r.field 1 1

/-- LAMP_DIRECT's slot. -/
def Request.slotNumber (r : Request) : Nat := r.field 2 1

/-- LAMP_DIRECT's display; none when its colour, pattern or digits are out of range (R165, R192). -/
def Request.display (r : Request) : Option Shadow := do
  let colour ← Colour.ofCode (r.field 3 1)
  let pattern ← Pattern.ofCode (r.field 4 1)
  let digits ← Digits.ofCode (r.field 5 2)
  return { colour := colour, pattern := pattern, digits := digits }

end Sys2Proof.Machine
end

