-- ==== Sys2Proof/Machine/Requests.lean ====
section
/-!
DEFINITION. The request handler (chapter 2): admission of deliveries, the orphan watch, the rights check and item check, and the
meanings of RIGHTS_SET, STATUS_READ and SILENCE_LIMIT_EXPIRY.
-/

namespace Sys2Proof.Machine

open Sys2Proof

/-! ## The orphan watch (section 2.5) -/

/-- The aisle becomes ORPHANED: the live flag sets and every location with open groups is recomputed (R35, R36, R118). -/
def enterOrphaned (s : State) : State := recomputeAll (setFlag .orphaned { s with orphaned := true })

/-- ORPHANED ends: the live flag clears, SUPERVISOR_BACK sets and every location with open groups is recomputed (R36, R118). -/
def leaveOrphaned (s : State) : State :=
  recomputeAll (setFlag .supervisorBack (clearFlag .orphaned { s with orphaned := false }))

/-- The silence timer has reached the limit of a running watch (R35). -/
def State.silenceDue (s : State) : Bool :=
  s.params.silence != 0 && !s.orphaned && s.silenceSince + periods (s.params.silence * 1000) ≤ s.now

/-! ## Admission (section 2.1) -/

/-- A station number of a zone supervisor: 48 to 55. -/
def isSupervisor (n : Nat) : Bool := 48 ≤ n && n ≤ 55

/-- A station number of an aisle: 1 to 30. -/
def isAisle (n : Nat) : Bool := 1 ≤ n && n ≤ 30

/-- The request that a delivered frame is, if it is one: a request kind, from a supervisor, with a payload length in the range of
its kind (R14, R25). -/
def requestOf (f : Frame) : Option Request :=
  match ReqKind.ofCode f.kind with
  | none => none
  | some k =>
    if isSupervisor f.origin && k.form.admits f.payload.length then
      some { kind := k, origin := f.origin, broadcast := f.dest == 63, seq := f.seq, payload := f.payload }
    else none

/-- The request handler takes a delivery: it is discarded, or admitted, which restarts the silence timer, ends ORPHANED and
leaves the request to be carried forward (R25, R35, R36, R38). -/
def takeDelivery (f : Frame) (s : State) : State :=
  match requestOf f with
  | none => signal .requestDiscarded none s
  | some r =>
    if s.pendingReset ≠ .none then signal .requestDiscarded none s
    else
      let t := { s with silenceSince := s.now, admitted := s.admitted ++ [r] }
      if t.orphaned then leaveOrphaned t else t

/-! ## Carrying a request forward (R26 to R28) -/

/-- The rights an origin holds: all four under open admission, else those of its entry (R27). -/
def State.rightsOf (s : State) (station : Nat) : BitVec 4 :=
  if s.rights.isEmpty then BitVec.allOnes 4
  else ((s.rights.find? (fun e => e.station == station)).map (·.rights)).getD 0

/-- Whether an origin holds a right (R27, R28). -/
def State.holds (s : State) (station : Nat) (right : Right) : Bool := (s.rightsOf station).getLsbD right.bit

/-- The item check of R26. -/
def itemRefusal (r : Request) : Option ReplyCode :=
  match r.kind.form with
  | .fixed _ => none
  | .items size least most =>
    if r.itemCount < least || most < r.itemCount then some .badField
    else if r.payload.length ≠ 1 + size * r.itemCount then some .badLength
    else none

/-- The refusal of R26's steps 1 and 2, if there is one. -/
def refusalOf (r : Request) (s : State) : Option ReplyCode :=
  if !s.holds r.origin r.kind.right then some .noRight else itemRefusal r

/-- Carry the admitted request at the head forward, if it is of the kind the command names: while a reset is pending it is
discarded, else refused by R26, else given to `serve`, which applies and answers it (R26, R31, R38, log 2). -/
def carryForward (kind : ReqKind) (serve : Request → State → State) (s : State) : State :=
  match s.admitted with
  | [] => s
  | r :: rest =>
    if r.kind = kind then
      event
        (fun t =>
          let t := { t with admitted := rest }
          if t.pendingReset ≠ .none then signal .requestDiscarded none t
          else
            match refusalOf r t with
            | some code => answer r (Answer.refuse code) t
            | none => serve r t)
        s
    else s

/-- A request answered as soon as its block has applied it (R31). -/
def answered (apply : Request → State → Answer × State) (r : Request) (s : State) : State :=
  let result := apply r s
  answer r result.1 result.2

/-! ## RIGHTS_SET (R29) -/

/-- Check RIGHTS_SET's entries from an index on, against the stations named before (R29). DESIGN CHOICE (log 33): an entry that fails both
checks is refused BAD_FIELD. -/
def checkRights : Nat → List Nat → List (Nat × Nat) → Option Answer
  | _, _, [] => none
  | index, seen, (station, rights) :: rest =>
    if !isSupervisor station || 16 ≤ rights then some (Answer.refuseAt .badField index)
    else if seen.contains station then some (Answer.refuseAt .duplicate index)
    else checkRights (index + 1) (seen ++ [station]) rest

/-- RIGHTS_SET replaces the whole table or changes nothing (R29). -/
def applyRightsSet (r : Request) (s : State) : Answer × State :=
  match checkRights 1 [] r.rightsItems with
  | some refusal => (refusal, s)
  | none =>
    (Answer.ok [],
      { s with rights := r.rightsItems.map fun e => { station := e.1, rights := BitVec.ofNat 4 e.2 } })

/-! ## STATUS_READ (R37) -/

/-- The values STATUS_READ returns, in the order R37 lists them. -/
def statusBody (s : State) : List Byte :=
  [BitVec.ofNat 8 s.station, s.resetCause.code, BitVec.ofNat 8 s.freeCells]
    ++ beBytes 2 s.locMap.length ++ beBytes 2 s.tasks.length ++ beBytes 2 s.groups.length
    ++ [BitVec.ofNat 8 s.pickers.length, BitVec.ofNat 8 s.branchL.roster.length, BitVec.ofNat 8 s.branchR.roster.length]
    ++ beBytes 4 s.clock.toNat
    ++ [indication s.orphaned, indication (!s.portA.up), indication (!s.portB.up), indication s.scanningL,
        indication s.scanningR]

/-- STATUS_READ (R37). -/
def applyStatusRead (_r : Request) (s : State) : Answer × State := (Answer.ok (statusBody s), s)

/-! ## Meanings -/

/-- RIGHTS_SET (R29). -/
def execRightsSet (s : State) : Host.Outcome State Fault Refusal :=
  .next (carryForward .rightsSet (answered applyRightsSet) s)

/-- STATUS_READ (R37). -/
def execStatusRead (s : State) : Host.Outcome State Fault Refusal :=
  .next (carryForward .statusRead (answered applyStatusRead) s)

/-- SILENCE_LIMIT_EXPIRY (R35): acts when the silence timer has reached the limit (log 4). -/
def execSilenceLimitExpiry (s : State) : Host.Outcome State Fault Refusal :=
  if s.silenceDue then .next (event enterOrphaned s) else .next s

end Sys2Proof.Machine
end

