-- ==== Sys2Proof/Machine/Attention.lean ====
section
/-!
DEFINITION. The aisle clock, the statistic counters and the attention flags (chapter 10): the meanings of AISLE_CLOCK_ADVANCE,
TIME_SET, COUNTER_SET, COUNTER_READ, ATTENTION_MASK, ATTENTION_CLEAR and ATTENTION_READ, and the passing of one reference period.
-/

namespace Sys2Proof.Machine

open Sys2Proof

/-! ## Time -/

/-- One period of the 16 MHz reference passes: the prescaler counts it, and at 16,000 returns to 0 and advances the aisle clock
(R176). What step does on an empty queue (log 4). -/
def tick (s : State) : State :=
  if s.residue + 1 < Config.periodsPerMs then { s with now := s.now + 1, residue := s.residue + 1 }
  else { s with now := s.now + 1, residue := 0, clock := s.clock + 1 }

/-- The reference periods up to the prescaler's next return to 0 pass, and the aisle clock advances by one (R176, R178). -/
def advanceClock (s : State) : State :=
  { s with now := s.now + (Config.periodsPerMs - s.residue), residue := 0, clock := s.clock + 1 }

/-- TIME_SET: the clock takes the value given and the residue becomes 0 (R179). -/
def applyTimeSet (r : Request) (s : State) : Answer × State :=
  (Answer.ok (beBytes 4 s.clock.toNat ++ beBytes 4 r.clockValue.toNat), { s with clock := r.clockValue, residue := 0 })

/-! ## Counters -/

/-- A counter in a reply: count (3), selection, mask (R183, R184). -/
def Counter.body (c : Counter) : List Byte :=
  beBytes 3 c.count.toNat ++ [selectionCode c.selection, c.mask]

/-- COUNTER_SET (R183). -/
def applyCounterSet (r : Request) (s : State) : Answer × State :=
  match CounterNo.ofCode r.counterByte, selectionOfCode r.selectionByte with
  | some k, some selection =>
    let c : Counter := { count := r.countField, selection := selection, mask := r.pickerMask }
    (Answer.ok c.body, { s with counters := s.counters.set k c })
  | _, _ => (Answer.refuse .badField, s)

/-- COUNTER_READ (R184). -/
def applyCounterRead (_r : Request) (s : State) : Answer × State :=
  (Answer.ok (s.counters.c0.body ++ s.counters.c1.body ++ s.counters.c2.body ++ s.counters.c3.body), s)

/-! ## Attention -/

/-- A flag set in a reply, in 4 bytes (section 11.3). -/
def flagsBody (f : BitVec 21) : List Byte := beBytes 4 f.toNat

/-- ATTENTION_MASK (R186). -/
def applyAttentionMask (r : Request) (s : State) : Answer × State :=
  let t := { s with mask := r.flagSet }
  (Answer.ok (flagsBody t.mask ++ flagsBody t.enabledFlags), t)

/-- ATTENTION_CLEAR: the latched flags named are cleared, the live flags named are ignored (R189). -/
def applyAttentionClear (r : Request) (s : State) : Answer × State :=
  let t := { s with flags := s.flags &&& ~~~(r.flagSet &&& latchedFlags) }
  (Answer.ok (flagsBody t.enabledFlags), t)

/-- ATTENTION_READ (R188). -/
def applyAttentionRead (_r : Request) (s : State) : Answer × State :=
  (Answer.ok (flagsBody s.enabledFlags ++ flagsBody s.mask), s)

/-! ## Meanings -/

/-- AISLE_CLOCK_ADVANCE (R176). A wrap has no effect of its own. -/
def execAisleClockAdvance (s : State) : Host.Outcome State Fault Refusal := .next (advanceClock s)

/-- TIME_SET (R179). -/
def execTimeSet (s : State) : Host.Outcome State Fault Refusal :=
  .next (carryForward .timeSet (answered applyTimeSet) s)

/-- COUNTER_SET (R183). -/
def execCounterSet (s : State) : Host.Outcome State Fault Refusal :=
  .next (carryForward .counterSet (answered applyCounterSet) s)

/-- COUNTER_READ (R184). -/
def execCounterRead (s : State) : Host.Outcome State Fault Refusal :=
  .next (carryForward .counterRead (answered applyCounterRead) s)

/-- ATTENTION_MASK (R186). -/
def execAttentionMask (s : State) : Host.Outcome State Fault Refusal :=
  .next (carryForward .attentionMask (answered applyAttentionMask) s)

/-- ATTENTION_CLEAR (R189). -/
def execAttentionClear (s : State) : Host.Outcome State Fault Refusal :=
  .next (carryForward .attentionClear (answered applyAttentionClear) s)

/-- ATTENTION_READ (R188). -/
def execAttentionRead (s : State) : Host.Outcome State Fault Refusal :=
  .next (carryForward .attentionRead (answered applyAttentionRead) s)

end Sys2Proof.Machine
end

