-- ==== Sys2Proof/Machine/Branches.lean ====
section
/-!
DEFINITION. The branch controllers (chapter 8): the roster, the miss rule, the arbiter, scans, line faults and direct commands, and
the meanings of their commands and of BRANCH_SCAN, ROSTER_READ and LAMP_DIRECT.
-/

namespace Sys2Proof.Machine

open Sys2Proof

/-! ## Small updates -/

/-- Change a branch controller's state. -/
def onBranch (b : Branch) (f : BranchState → BranchState) (s : State) : State := s.setBranch b (f (s.branch b))

/-- The command in progress ends and the line is free (R144). -/
def clearCommand (b : Branch) (s : State) : State := onBranch b (fun x => { x with command := none }) s

/-- An entry joins the roster in address order (R151). -/
def insertModule (m : Module) : List Module → List Module
  | [] => [m]
  | n :: rest => if m.addr < n.addr then m :: n :: rest else n :: insertModule m rest

/-- The pending direct command is answered and no longer pending (R31, R166). -/
def finishDirect (b : Branch) (code : ReplyCode) (s : State) : State :=
  match (s.branch b).direct with
  | none => s
  | some d => answer d.request { code := code, rest := [] } (onBranch b (fun x => { x with direct := none }) s)

/-- A slot position's place in its branch's table of next tags. -/
def tagIndex (p : SlotPos) : Nat := (p.addr - 1) * 4 + (p.slot - 1)

/-- The next tag of a slot position (R95, R107). -/
def State.nextTagOf (s : State) (pos : SlotPos) : Tag := ((s.branch pos.branch).nextTags[tagIndex pos]?).getD 0

/-- The next tag of a slot position advances by one, from 255 to 0 (R107). -/
def advanceTag (pos : SlotPos) (s : State) : State :=
  onBranch pos.branch (fun x => { x with nextTags := x.nextTags.set (tagIndex pos) (s.nextTagOf pos + 1) }) s

/-! ## The miss rule (section 8.3) -/

/-- A module enters MISSING: MODULE_LOST sets and its slots' locations are recomputed (R155 steps 1 and 2). -/
def markMissing (b : Branch) (m : Module) (s : State) : State :=
  noticeModule b m.addr
    (setFlag .moduleLost (onBranch b (fun x => x.setModule { m with presence := .missing }) s))

/-- The owed ack of a POLL that ends without a valid reply (R148). -/
def settleOwed (b : Branch) (addr : Nat) (drewInvalid : Bool) (s : State) : State :=
  if drewInvalid then
    onBranch b (fun x => { x with roster := x.roster.map fun (m : Module) => if m.addr = addr then { m with owed := 0 } else m }) s
  else s

/-- Slot positions have been passed over, or their SHOW has ended without an acknowledge (R147, R158). -/
def markUnshown (b : Branch) (ps : List SlotPos) (s : State) : State :=
  onBranch b (fun x => { x with unshown := x.unshown ++ ps.filter (fun p => !x.unshown.contains p) }) s

/-- A command's attempts end without a valid reply (R147, R148, R155 step 3, R166). An IDENT's end is taken as an event of its own
(R162, log 9). -/
def endCommand (b : Branch) (c : Command) (s : State) : State :=
  match c.what with
  | .showSlot pos _ _ => markUnshown b [pos] (clearCommand b s)
  | .poll addr => clearCommand b (settleOwed b addr c.invalid s)
  | .ident _ => onBranch b (fun x => { x with command := some { c with ended := true } }) s
  | .direct _ _ => finishDirect b .notOpen (clearCommand b s)
  | .allDark => clearCommand b s

/-- The next attempt of a command, at once (R144, R153). -/
def retryCommand (b : Branch) (c : Command) (s : State) : State :=
  onBranch b (fun x => { x with command := some { c with attempts := c.attempts + 1 } }) s

/-- The command ends or makes its next attempt, by the miss limit (R153). -/
def retryOrEnd (b : Branch) (c : Command) (s : State) : State :=
  if c.attempts < s.params.missLimit then retryCommand b c s else endCommand b c s

/-- A module's entry after an attempt that missed (R154). -/
def Module.missed (m : Module) : Module :=
  { m with
    misses := min 7 (m.misses + 1)
    presence := if m.presence = .present then .silent else m.presence }

/-- An attempt of the command in progress ends in a miss; `drewReply` when an invalid reply came (R144, R148, R153, R154). -/
def missAttempt (b : Branch) (c : Command) (drewReply : Bool) (s : State) : State :=
  let s := signal .moduleMiss none s
  let c := { c with invalid := c.invalid || drewReply, ack := if c.invalid || drewReply then 0 else c.ack }
  match (s.branch b).moduleAt c.what.addr with
  | none => retryOrEnd b c s
  | some m =>
    let s := onBranch b (fun x => x.setModule m.missed) s
    if m.presence = .missing then endCommand b c s
    else if s.params.missLimit ≤ m.missed.misses then endCommand b c (markMissing b m.missed s)
    else retryOrEnd b c s

/-- A MISSING module that gave a valid reply returns (R156). -/
def moduleReturns (b : Branch) (m : Module) (s : State) : State :=
  enqueueReturning b m.addr
    (noticeModule b m.addr
      (setFlag .moduleFound (onBranch b (fun x => x.setModule { m with presence := .present, misses := 0 }) s)))

/-- The miss rule's effects of a valid reply from an address (R154, R156). -/
def validReply (b : Branch) (addr : Nat) (s : State) : State :=
  match (s.branch b).moduleAt addr with
  | none => s
  | some m =>
    if m.presence = .missing then moduleReturns b m s
    else onBranch b (fun x => x.setModule { m with presence := .present, misses := 0 }) s

/-! ## Replies -/

/-- The command whose attempt awaits a reply: one in progress whose attempts have not ended, other than ALL_DARK (R144). -/
def BranchState.awaiting (x : BranchState) : Option Command :=
  match x.command with
  | none => none
  | some c => if c.ended || c.what == .allDark then none else some c

/-- A SHOW, or the SHOW of a LAMP_DIRECT, ends with success (R147, R166). -/
def acknowledge (b : Branch) (c : Command) (s : State) : State :=
  let t := clearCommand b (validReply b c.what.addr s)
  match c.what with
  | .direct _ _ => finishDirect b .ok t
  | .showSlot _ _ _ | .poll _ | .ident _ | .allDark => t

/-- Whether a command is a SHOW, a LAMP_DIRECT's included. -/
def LineCommand.isShow : LineCommand → Bool
  | .showSlot _ _ _ | .direct _ _ => true
  | .poll _ | .ident _ | .allDark => false

/-- The key events of a valid poll reply, in its order (R149). -/
def keyEvents (b : Branch) (addr : Nat) (bytes : List Byte) : List KeyEvent :=
  (pollEvents bytes).filterMap fun e =>
    (Key.ofCode (fieldAt e 1 1)).map fun key =>
      { pos := { branch := b, addr := addr, slot := fieldAt e 0 1 }, key := key, tag := BitVec.ofNat 8 (fieldAt e 2 1) }

/-- A valid poll reply is taken: the miss rule, the events handed over, the flags, the owed ack (R148, R149). -/
def takePollReply (b : Branch) (addr : Nat) (bytes : List Byte) (s : State) : State :=
  let events := keyEvents b addr bytes
  let flags := BitVec.ofNat 8 (fieldAt bytes 2 1)
  let t := clearCommand b (validReply b addr s)
  let t := onBranch b (fun x => { x with
    keys := x.keys ++ events
    roster := x.roster.map fun (m : Module) => if m.addr = addr then { m with owed := events.length } else m }) t
  let t := if flags.getLsbD 0 then signal .keysLost none (setFlag .keysLost t) else t
  if flags.getLsbD 1 then signal .moduleFault none t else t

/-! ## Scans (section 8.5) -/

/-- The scan completes (R163). -/
def completeScan (b : Branch) (found : Nat) (s : State) : State :=
  let t := offer (.scanDone b found s.clock) (setFlag .scanDone s)
  onBranch b (fun x => { x with scan := none }) (t.setScanning b false)

/-- An IDENT has ended: the scan goes on to the next address, or completes after address 48 (R162, R163). -/
def advanceScan (b : Branch) (addr : Nat) (found : Nat) (s : State) : State :=
  let t := clearCommand b s
  if 48 ≤ addr then completeScan b found t
  else onBranch b (fun x => { x with scan := some { darkFirst := false, next := addr + 1, found := found } }) t

/-- The modules found so far by the running scan (R162). -/
def BranchState.found (x : BranchState) : Nat := (x.scan.map (·.found)).getD 0

/-- A module with the serial, slot count and revision that a valid identity reply gives; a different serial means another module,
which is owed no ack (R162, section 11.5). -/
def Module.identified (m : Module) (bytes : List Byte) : Module :=
  let serial := BitVec.ofNat 48 (fieldAt bytes 2 6)
  { m with
    serial := serial, slots := fieldAt bytes 8 1, revision := BitVec.ofNat 8 (fieldAt bytes 9 1)
    owed := if serial = m.serial then m.owed else 0 }

/-- The entry made for an address that had none (R162). -/
def Module.found (addr : Nat) (bytes : List Byte) : Module :=
  { addr := addr, serial := BitVec.ofNat 48 (fieldAt bytes 2 6), slots := fieldAt bytes 8 1
    revision := BitVec.ofNat 8 (fieldAt bytes 9 1), presence := .present, misses := 0, owed := 0 }

/-- The roster entry of an address takes a given identity. -/
def identifyModule (b : Branch) (addr : Nat) (bytes : List Byte) (s : State) : State :=
  onBranch b (fun x => { x with
    roster := x.roster.map fun (n : Module) => if n.addr = addr then n.identified bytes else n }) s

/-- The identity that a valid reply gives is recorded in the roster (R162). -/
def recordIdentity (b : Branch) (addr : Nat) (bytes : List Byte) (s : State) : State :=
  match (s.branch b).moduleAt addr with
  | none =>
    enqueueFound b addr
      (noticeModule b addr (onBranch b (fun x => { x with roster := insertModule (Module.found addr bytes) x.roster }) s))
  | some m =>
    let t := identifyModule b addr bytes (validReply b addr s)
    let t := if (m.identified bytes).serial = m.serial then t else enqueueModule b addr t
    if (m.identified bytes).slots = m.slots then t
    else if m.slots < (m.identified bytes).slots then enqueueFound b addr (noticeModule b addr t)
    else enqueueModule b addr (noticeModule b addr t)

/-- The end of an IDENT with a valid reply (R162). -/
def identAnswered (b : Branch) (addr : Nat) (bytes : List Byte) (s : State) : State :=
  advanceScan b addr ((s.branch b).found + 1) (recordIdentity b addr bytes s)

/-- The end of an IDENT without one: a roster module that is not MISSING becomes MISSING (R162). -/
def identUnanswered (b : Branch) (addr : Nat) (s : State) : State :=
  let t :=
    match (s.branch b).moduleAt addr with
    | none => s
    | some m => if m.presence = .missing then s else markMissing b m s
  advanceScan b addr (s.branch b).found t

/-! ## The arbiter (section 8.4) -/

/-- The line is free: no fault and no command in progress; an ALL_DARK has no reply, so its command is over when the arbiter runs
(R145, R157, log 8). -/
def BranchState.lineFree (x : BranchState) : Bool :=
  !x.fault && (x.command.elim true fun c => c.what == .allDark)

/-- A command's first attempt is sent. -/
def sendCommand (b : Branch) (what : LineCommand) (ack : Nat) (s : State) : State :=
  onBranch b (fun x => { x with command := some { what := what, attempts := 1, ack := ack, invalid := false, ended := false } }) s

/-- A SHOW has been started since the last POLL; the count stays within 0 to 4 (R157, log 15). -/
def countShow (b : Branch) (s : State) : State :=
  onBranch b (fun x => { x with shows := min Config.showsPerPoll (x.shows + 1) }) s

/-- A queued slot is passed over: its module has no entry, is MISSING or has too small a slot count (R158). -/
def BranchState.passesOver (x : BranchState) (pos : SlotPos) : Bool :=
  (x.moduleAt pos.addr).elim true fun m => m.presence == .missing || m.slots < pos.slot

/-- A tag history after a send: the new entry is the last, an older entry with its tag leaves (DESIGN CHOICE, log 34), and the oldest
leaves where four stand (R107, R109). -/
def recordSend (entry : HistEntry) (history : List HistEntry) : List HistEntry :=
  pushCapped Config.historyEntries (history.filter (fun h => h.tag != entry.tag)) entry

/-- A display of the tag scheme is sent to a slot, which no longer keeps a direct display nor awaits a SHOW (R108, R158, R166). -/
def noteShown (pos : SlotPos) (s : State) : State :=
  onBranch pos.branch (fun x => { x with
    directShown := x.directShown.filter (· != pos), unshown := x.unshown.filter (· != pos) }) s

/-- The SHOW of a LAMP_DIRECT is sent to a slot, which keeps its display (R108, R166, log 35). -/
def keepDirect (b : Branch) (pos : SlotPos) (s : State) : State :=
  onBranch b (fun x => { x with directShown := x.directShown.filter (· != pos) ++ [pos] }) s

/-- A SHOW is started for a slot: the scheduler fixes its content and tag, and for a mapped slot records them (R48, R107, R158). -/
def startShow (pos : SlotPos) (s : State) : State :=
  let tag := s.nextTagOf pos
  let t := countShow pos.branch (noteShown pos (advanceTag pos s))
  match s.slotAt pos with
  | none => sendCommand pos.branch (.showSlot pos Shadow.darkShadow tag) 0 t
  | some x =>
    let shown :=
      if x.feedback.isSome then none else (s.groupAtPosition x).map fun g => (g.id, g.display)
    let y := { x with history := recordSend { tag := tag, shown := shown } x.history }
    sendCommand pos.branch (.showSlot pos x.shadow tag) 0 (t.setSlot y)

/-- The pending LAMP_DIRECT is judged again, and sent as a SHOW with tag 0, or answered IN_USE (R108, R166). -/
def sendDirect (b : Branch) (d : Direct) (s : State) : State :=
  if (s.entryAt d.pos).elim false fun e => s.hasGroups e.code then finishDirect b .inUse s
  else
    let t :=
      match s.slotAt d.pos with
      | none => s
      | some x => s.setSlot { x with history := [] }
    sendCommand b (.direct d.pos d.display) 0 (countShow b (keepDirect b d.pos t))

/-- The next address after the last one polled of a kind, wrapping; the first of the kind where none was polled (R159). -/
def nextAddress (last : Option Nat) (addrs : List Nat) : Option Nat :=
  match last with
  | none => addrs.head?
  | some a => (addrs.find? (fun n => a < n)).orElse fun _ => addrs.head?

/-- The addresses of the PRESENT and SILENT modules, in address order. -/
def BranchState.answering (x : BranchState) : List Nat :=
  (x.roster.filter (fun m => m.presence != .missing)).map (·.addr)

/-- The addresses of the MISSING modules, in address order. -/
def BranchState.missing (x : BranchState) : List Nat :=
  (x.roster.filter (fun m => m.presence == .missing)).map (·.addr)

/-- At least 20 ms have passed since the start of the turn before (R159). -/
def spacingElapsed (x : BranchState) (now : Nat) : Bool :=
  x.lastTurn.elim true fun t => t + periods Config.missingSpacingMs ≤ now

/-- Whether the next poll turn is a missing turn (R159). -/
def BranchState.missingTurn (x : BranchState) : Bool :=
  x.answering.isEmpty || (x.turn == 15 && !x.missing.isEmpty)

/-- A POLL is sent to a module as a poll turn (R148, R157, R159). -/
def startPoll (b : Branch) (isMissingTurn : Bool) (addr : Nat) (s : State) : State :=
  let x := s.branch b
  let owed := ((x.moduleAt addr).map (·.owed)).getD 0
  sendCommand b (.poll addr) owed
    (s.setBranch b { x with
      shows := 0
      turn := (x.turn + 1) % 16
      lastAnswering := if isMissingTurn then x.lastAnswering else some addr
      lastMissing := if isMissingTurn then some addr else x.lastMissing
      lastTurn := some s.now })

/-- A poll turn, where a module can take one (R159). -/
def pollTurn (b : Branch) (s : State) : State :=
  let x := s.branch b
  if x.missingTurn then
    if x.answering.isEmpty && !spacingElapsed x s.now then s
    else (nextAddress x.lastMissing x.missing).elim s fun addr => startPoll b true addr s
  else (nextAddress x.lastAnswering x.answering).elim s fun addr => startPoll b false addr s

/-- The arbiter's choice on a free line (R157, R158). -/
def arbitrate (b : Branch) (s : State) : State :=
  let s := clearCommand b s
  let x := s.branch b
  match x.scan with
  | some scan =>
    if scan.darkFirst then
      sendCommand b .allDark 0 (onBranch b (fun x => { x with scan := some { scan with darkFirst := false } }) s)
    else sendCommand b (.ident scan.next) 0 s
  | none =>
    match x.direct with
    | some d => sendDirect b d s
    | none =>
      if x.shows < Config.showsPerPoll then
        let s := markUnshown b (x.work.takeWhile x.passesOver) s
        match x.work.dropWhile x.passesOver with
        | pos :: rest => startShow pos (onBranch b (fun x => { x with work := rest }) s)
        | [] => pollTurn b (onBranch b (fun x => { x with work := [] }) s)
      else pollTurn b s

/-! ## Line faults (R160) -/

/-- A command in progress is abandoned at a line fault; `taken` when it had been wholly sent (R160 step 1). -/
def abandonCommand (b : Branch) (c : Command) (taken : Bool) (s : State) : State :=
  match c.what with
  | .showSlot pos _ _ => enqueueSlot pos (clearCommand b s)
  | .poll addr => clearCommand b (settleOwed b addr (c.invalid || taken) s)
  | .ident _ => clearCommand b s
  | .direct _ _ => finishDirect b .notOpen (clearCommand b s)
  | .allDark => clearCommand b s

/-- The line fault sets (R160). -/
def setFault (b : Branch) (stillSending : Bool) (s : State) : State :=
  let t := setFlag (branchFaultFlag b) (onBranch b (fun x => { x with fault := true }) s)
  let t :=
    match (t.branch b).command with
    | none => t
    | some c => if c.ended then t else abandonCommand b c (!stillSending) t
  finishDirect b .notOpen (noticeBranch b t)

/-- The line fault clears (R160). -/
def clearFault (b : Branch) (s : State) : State :=
  noticeBranch b (clearFlag (branchFaultFlag b) (onBranch b (fun x => { x with fault := false }) s))

/-! ## Requests to the branch controllers -/

/-- BRANCH_SCAN (R161). -/
def applyBranchScan (r : Request) (s : State) : Answer × State :=
  match r.branch with
  | none => (Answer.refuse .badField, s)
  | some b =>
    if s.scanning b then (Answer.refuse .busy, s)
    else
      (Answer.ok [],
        (onBranch b (fun x => { x with scan := some { darkFirst := false, next := 1, found := 0 } }) s).setScanning b true)

/-- A roster entry in a reply: address, serial, slot count, revision, presence, miss count (R152). -/
def Module.body (m : Module) : List Byte :=
  [BitVec.ofNat 8 m.addr] ++ beBytes 6 m.serial.toNat
    ++ [BitVec.ofNat 8 m.slots, m.revision, m.presence.code, BitVec.ofNat 8 m.misses]

/-- ROSTER_READ (R152). -/
def applyRosterRead (r : Request) (s : State) : Answer × State :=
  match r.branch with
  | none => (Answer.refuse .badField, s)
  | some b =>
    if r.startAddress < 1 ∨ 48 < r.startAddress then (Answer.refuse .badField, s)
    else
      let found := (s.branch b).roster.filter (fun m => r.startAddress ≤ m.addr)
      let given := found.take 16
      (Answer.ok (BitVec.ofNat 8 given.length :: given.flatMap Module.body ++ [indication (16 < found.length)]), s)

/-- The slot position and display that a LAMP_DIRECT names, when they are in range (R165 step 1 but for the roster's slot count). -/
def Request.direct (r : Request) : Option Direct :=
  match r.branch, r.display with
  | some b, some d =>
    if r.moduleAddress < 1 ∨ 48 < r.moduleAddress ∨ r.slotNumber < 1 ∨ 4 < r.slotNumber then none
    else some { pos := { branch := b, addr := r.moduleAddress, slot := r.slotNumber }, display := d, request := r }
  | _, _ => none

/-- LAMP_DIRECT's checks (R165): the answer given at once, or the direct command to hold. -/
def judgeDirect (r : Request) (s : State) : Except ReplyCode Direct :=
  match r.direct with
  | none => .error .badField
  | some d =>
    let x := s.branch d.pos.branch
    if (x.moduleAt d.pos.addr).elim false fun m => m.slots < d.pos.slot then .error .badField
    else if (s.entryAt d.pos).elim false fun e => s.hasGroups e.code then .error .inUse
    else if x.direct.isSome then .error .busy
    else if x.fault then .error .notOpen
    else .ok d

/-- LAMP_DIRECT: refused, or held as the branch's pending direct command without a reply yet (R31, R165). -/
def serveLampDirect (r : Request) (s : State) : State :=
  match judgeDirect r s with
  | .error code => answer r (Answer.refuse code) s
  | .ok d => onBranch d.pos.branch (fun x => { x with direct := some d }) s

/-! ## Meanings -/

/-- BRANCH_ARBITER (R157): acts when the line is free. -/
def execBranchArbiter (b : Branch) (s : State) : Host.Outcome State Fault Refusal :=
  if (s.branch b).lineFree then .next (event (arbitrate b) s) else .next s

/-- MISSING_TURN_SPACING (R159): acts when only MISSING modules remain and 20 ms have passed since the turn before. -/
def execMissingTurnSpacing (b : Branch) (s : State) : Host.Outcome State Fault Refusal :=
  let x := s.branch b
  if x.lineFree && x.answering.isEmpty && !x.missing.isEmpty && spacingElapsed x s.now then
    .next (event (arbitrate b) s)
  else .next s

/-- SHOW_ACKNOWLEDGE (R147): acts on a valid acknowledge of a SHOW in progress (log 11). -/
def execShowAcknowledge (b : Branch) (bytes : List Byte) (s : State) : Host.Outcome State Fault Refusal :=
  match (s.branch b).awaiting with
  | none => .next s
  | some c =>
    if c.what.isShow && c.what.replyValid bytes then .next (event (acknowledge b c) s) else .next s

/-- POLL_REPLY (R149): acts on a valid reply to a POLL in progress (log 11). -/
def execPollReply (b : Branch) (bytes : List Byte) (s : State) : Host.Outcome State Fault Refusal :=
  match (s.branch b).awaiting with
  | none => .next s
  | some c =>
    match c.what with
    | .poll addr => if pollValid addr bytes then .next (event (takePollReply b addr bytes) s) else .next s
    | .showSlot _ _ _ | .ident _ | .direct _ _ | .allDark => .next s

/-- IDENT_REPLY (R162): the end of a scan's IDENT, by a valid identity reply or after its last missed attempt (log 9, log 11). -/
def execIdentReply (b : Branch) (bytes : Option (List Byte)) (s : State) : Host.Outcome State Fault Refusal :=
  match (s.branch b).command with
  | none => .next s
  | some c =>
    match c.what, bytes with
    | .ident addr, some bs =>
      if !c.ended && identValid addr bs then .next (event (identAnswered b addr bs) s) else .next s
    | .ident addr, none => if c.ended then .next (event (identUnanswered b addr) s) else .next s
    | _, _ => .next s

/-- INVALID_REPLY (R144, R154): acts on a reply, to a command that awaits one, that is cut off or not valid (log 11). -/
def execInvalidReply (b : Branch) (cutOff : Bool) (bytes : List Byte) (s : State) : Host.Outcome State Fault Refusal :=
  match (s.branch b).awaiting with
  | none => .next s
  | some c => if cutOff || !c.what.replyValid bytes then .next (event (missAttempt b c true) s) else .next s

/-- REPLY_TIMEOUT (R144, R154): acts when a command awaits a reply. -/
def execReplyTimeout (b : Branch) (s : State) : Host.Outcome State Fault Refusal :=
  match (s.branch b).awaiting with
  | none => .next s
  | some c => .next (event (missAttempt b c false) s)

/-- BRANCH_FAULT_SET (R160): acts on a branch without a fault. -/
def execBranchFaultSet (b : Branch) (stillSending : Bool) (s : State) : Host.Outcome State Fault Refusal :=
  if (s.branch b).fault then .next s else .next (event (setFault b stillSending) s)

/-- BRANCH_FAULT_CLEAR (R160): acts on a branch with a fault. -/
def execBranchFaultClear (b : Branch) (s : State) : Host.Outcome State Fault Refusal :=
  if (s.branch b).fault then .next (event (clearFault b) s) else .next s

/-- BRANCH_SCAN (R161). -/
def execBranchScan (s : State) : Host.Outcome State Fault Refusal :=
  .next (carryForward .branchScan (answered applyBranchScan) s)

/-- ROSTER_READ (R152). -/
def execRosterRead (s : State) : Host.Outcome State Fault Refusal :=
  .next (carryForward .rosterRead (answered applyRosterRead) s)

/-- LAMP_DIRECT (R165). -/
def execLampDirect (s : State) : Host.Outcome State Fault Refusal :=
  .next (carryForward .lampDirect serveLampDirect s)

end Sys2Proof.Machine
end

