-- ==== Sys2Proof/Machine/Configuration.lean ====
section
/-!
DEFINITION. The configuration parameters (section 2.4): the meanings of CONFIG_SET and CONFIG_READ.
-/

namespace Sys2Proof.Machine

open Sys2Proof

/-! ## The values a CONFIG_SET gives -/

/-- A number clamped to the nearest end of its range (R33). -/
def clampTo (least most n : Nat) : Nat := max least (min most n)

/-- CONFIG_SET's value bytes, in the order of section 2.4, as unsigned numbers. -/
def Request.rotationByte (r : Request) : Nat := r.field 2 1

/-- The feedback time offered. -/
def Request.feedbackByte (r : Request) : Nat := r.field 3 1

/-- The linger base offered. -/
def Request.lingerByte (r : Request) : Nat := r.field 4 1

/-- The adaptive linger offered, OFF 00h or ON 01h. -/
def Request.adaptiveByte (r : Request) : Nat := r.field 5 1

/-- The combine timeout offered. -/
def Request.combineBytes (r : Request) : Nat := r.field 6 2

/-- The silence limit offered. -/
def Request.silenceByte (r : Request) : Nat := r.field 8 1

/-- The initial hop count offered. -/
def Request.hopsByte (r : Request) : Nat := r.field 9 1

/-- The report target offered. -/
def Request.targetByte (r : Request) : Nat := r.field 10 1

/-- The miss limit offered. -/
def Request.missByte (r : Request) : Nat := r.field 11 1

/-- The check of the enumerated parameters named: the index of the first bad one in the order of section 2.4 (R33 step 1). -/
def badParameter (r : Request) : Option Nat :=
  if r.names 3 && 2 ≤ r.adaptiveByte then some 4
  else if r.names 7 && !isSupervisor r.targetByte then some 8
  else none

/-- The parameters after a CONFIG_SET that passes its check: each one named takes its value, clamped where numeric; the others keep
theirs (R33 step 2). -/
def newParams (r : Request) (p : Params) : Params :=
  { rotation := if r.names 0 then clampTo 1 16 r.rotationByte else p.rotation
    feedback := if r.names 1 then clampTo 1 8 r.feedbackByte else p.feedback
    lingerBase := if r.names 2 then clampTo 0 255 r.lingerByte else p.lingerBase
    adaptive := if r.names 3 then r.adaptiveByte == 1 else p.adaptive
    combine := if r.names 4 then clampTo 0 1000 r.combineBytes else p.combine
    silence := if r.names 5 then clampTo 0 60 r.silenceByte else p.silence
    hops := if r.names 6 then clampTo 1 63 r.hopsByte else p.hops
    target := if r.names 7 then r.targetByte else p.target
    missLimit := if r.names 8 then clampTo 1 7 r.missByte else p.missLimit }

/-! ## The effects on what runs (R34), each where its parameter has changed -/

/-- Linger base or adaptive linger: every running linger timer is judged (R34, R115). -/
def applyLingerChange (old : Params) (s : State) : State :=
  if s.params.lingerBase ≠ old.lingerBase ∨ s.params.adaptive ≠ old.adaptive then judgeLinger old.lingerBase s else s

/-- Combine timeout: the oldest waiting record's timer is judged, and a frame that is due is built (R34, R171). -/
def applyCombineChange (old : Params) (s : State) : State :=
  if s.params.combine ≠ old.combine then judgePacker (rejudgeCombine s) else s

/-- Silence limit: the timer, which does not run while the limit is 0, is judged (R34, R35). -/
def applySilenceChange (old : Params) (s : State) : State :=
  let t := if old.silence = 0 ∧ s.params.silence ≠ 0 then { s with silenceSince := s.now } else s
  if t.params.silence ≠ old.silence ∧ t.silenceDue = true then enterOrphaned t else t

/-- A SILENT module at or above the new miss limit becomes MISSING, and a command in progress to it ends (R34, R155). -/
def judgeModule (b : Branch) (addr : Nat) (s : State) : State :=
  match (s.branch b).moduleAt addr with
  | none => s
  | some m =>
    if m.presence = .silent ∧ s.params.missLimit ≤ m.misses then
      let t := markMissing b m s
      match (t.branch b).awaiting with
      | none => t
      | some c => if c.what.addr = addr then endCommand b c t else t
    else s

/-- Miss limit: the modules of branch L and then of branch R are judged, in ascending address (R34, log 16). -/
def applyMissChange (old : Params) (s : State) : State :=
  if s.params.missLimit = old.missLimit then s
  else
    let t := (s.branchL.roster.map (·.addr)).foldl (fun t addr => judgeModule .l addr t) s
    (t.branchR.roster.map (·.addr)).foldl (fun t addr => judgeModule .r addr t) t

/-! ## Replies -/

/-- The nine values, in the order of section 2.4, the combine timeout in 2 bytes and the others in 1 (section 11.3). -/
def Params.body (p : Params) : List Byte :=
  [BitVec.ofNat 8 p.rotation, BitVec.ofNat 8 p.feedback, BitVec.ofNat 8 p.lingerBase, indication p.adaptive]
    ++ beBytes 2 p.combine
    ++ [BitVec.ofNat 8 p.silence, BitVec.ofNat 8 p.hops, BitVec.ofNat 8 p.target, BitVec.ofNat 8 p.missLimit]

/-- A rights table entry in a reply: station and rights set. -/
def RightsEntry.body (e : RightsEntry) : List Byte := [BitVec.ofNat 8 e.station, e.rights.setWidth 8]

/-- CONFIG_SET (R33, R34); the effects in the order of section 2.4 (log 16). -/
def applyConfigSet (r : Request) (s : State) : Answer × State :=
  match badParameter r with
  | some index => (Answer.refuseAt .badField index, s)
  | none =>
    let old := s.params
    let t := { s with params := newParams r old }
    let t := applyMissChange old (applySilenceChange old (applyCombineChange old (applyLingerChange old t)))
    (Answer.ok t.params.body, t)

/-- CONFIG_READ: the nine values and the rights table in table order (R33, log 19). -/
def applyConfigRead (_r : Request) (s : State) : Answer × State :=
  (Answer.ok (s.params.body ++ s.rights.flatMap RightsEntry.body), s)

/-! ## Meanings -/

/-- CONFIG_SET (R33). -/
def execConfigSet (s : State) : Host.Outcome State Fault Refusal :=
  .next (carryForward .configSet (answered applyConfigSet) s)

/-- CONFIG_READ (R33). -/
def execConfigRead (s : State) : Host.Outcome State Fault Refusal :=
  .next (carryForward .configRead (answered applyConfigRead) s)

end Sys2Proof.Machine
end

