-- ==== Sys2Proof/Machine/Tasks.lean ====
section
/-!
DEFINITION. Tasks and pick groups (chapter 5): the meanings of TASK_POST, TASK_CANCEL, TASK_AMEND and TASK_QUERY.
-/

namespace Sys2Proof.Machine

open Sys2Proof

/-! ## Group ids and TASKS_HIGH -/

/-- An advance of the group id counter, from 65535 to 1 (R73). -/
def nextGroupId (c : Nat) : Nat := if 65535 ≤ c then 1 else c + 1

/-- The first id from the counter on that no group has; `fuel` bounds the tries (R73: within 257). -/
def freeGroupId : Nat → Nat → List Group → Nat
  | 0, c, _ => c
  | fuel + 1, c, groups => if groups.any (fun g => g.id == c) then freeGroupId fuel (nextGroupId c) groups else c

/-- TASKS_HIGH follows the open task count (R92). -/
def judgeTasksHigh (s : State) : State := followFlag .tasksHigh (Config.tasksHigh ≤ s.tasks.length) s

/-! ## Opening, joining and closing -/

/-- The remaining-change rule on a group's counts (R86 step 1). -/
def Group.remainingChange (g : Group) (newR : Nat) : Group :=
  { g with remaining := newR, display := if g.display = g.remaining then newR else min g.display newR }

/-- A task joins a group (R81). -/
def Group.join (g : Group) (number quantity : Nat) : Group :=
  { g with
    members := g.members ++ [number]
    display := if g.display = g.remaining then g.remaining + quantity else g.display
    remaining := g.remaining + quantity }

/-- A group that a task starts (R74, R82). -/
def Group.start (id : Nat) (t : TaskItem) : Group :=
  { id := id, picker := t.picker, loc := t.loc, members := [t.number], remaining := t.quantity, display := t.quantity,
    state := .waiting, firstShown := none, linger := false }

/-- A group that takes a task of a picker and quantity (R80). -/
def Group.takes (g : Group) (t : TaskItem) : Bool :=
  g.picker == t.picker && g.state != .shown && g.members.length < Config.groupMembers
    && g.remaining + t.quantity ≤ Config.maxQuantity

/-- The group an accepted task joins: the last in the location's queue that takes it (R80). -/
def joinTarget (t : TaskItem) (s : State) : Option Group :=
  ((s.queueOf t.loc).filter (fun g => g.takes t)).getLast?

/-- The result of one item of a TASK_POST or TASK_CANCEL (section 11.3): the code, the group id (0 for none) and the placement (0
none, 1 started, 2 joined). -/
structure ItemResult where
  code : ReplyCode
  group : Nat
  placement : Nat
  deriving DecidableEq, Repr

/-- The refusal of one posted task, by the first check of R79 that fails. -/
def taskRefusal (t : TaskItem) (s : State) : Option ReplyCode :=
  if t.number = 0 ∨ t.quantity < 1 ∨ Config.maxQuantity < t.quantity then some .badField
  else if (s.taskOf t.number).isSome then some .duplicate
  else if (s.pickerOf t.picker).isNone then some .unknownPicker
  else if (s.entryOf t.loc).isNone then some .unknownLocation
  else if Config.openTasks ≤ s.tasks.length then some .tableFull
  else none

/-- A picker's open task count changes (R61). -/
def changeOpen (id : Nat) (f : Nat → Nat) (s : State) : State :=
  match s.pickerOf id with
  | none => s
  | some p => s.setPicker { p with openTasks := f p.openTasks }

/-- An accepted task joins or starts a group (R80 to R82). -/
def placeTask (t : TaskItem) (s : State) : ItemResult × State :=
  match joinTarget t s with
  | some g => ({ code := .ok, group := g.id, placement := 2 }, s.setGroup (g.join t.number t.quantity))
  | none =>
    let id := freeGroupId 257 s.nextGroup s.groups
    ({ code := .ok, group := id, placement := 1 },
      { s with groups := s.groups ++ [Group.start id t], nextGroup := nextGroupId id })

/-- One task of a TASK_POST is refused, or accepted, placed and recorded (R79 to R83). -/
def postTask (t : TaskItem) (s : State) : ItemResult × State :=
  match taskRefusal t s with
  | some code => ({ code := code, group := 0, placement := 0 }, s)
  | none =>
    let placed := placeTask t s
    let u := placed.2
    let u := { u with
      tasks := u.tasks ++ [{ number := t.number, picker := t.picker, loc := t.loc, quantity := t.quantity,
                             group := placed.1.group, posted := u.clock }] }
    (placed.1, judgeTasksHigh (signal .taskPosted (u.placeOf t.picker) (changeOpen t.picker (· + 1) u)))

/-- The tasks of a TASK_POST one by one in frame order, with the locations of those accepted (R78). -/
def postTasks : List TaskItem → State → List ItemResult × List Nat × State
  | [], s => ([], [], s)
  | t :: rest, s =>
    let one := postTask t s
    let more := postTasks rest one.2
    (one.1 :: more.1, (if one.1.code = .ok then [t.loc] else []) ++ more.2.1, more.2.2)

/-- The body of a TASK_POST or TASK_CANCEL reply: the item count, then 4 bytes for each item (section 11.3). -/
def resultsBody (results : List ItemResult) : List Byte :=
  BitVec.ofNat 8 results.length
    :: results.flatMap fun x => [x.code.code] ++ beBytes 2 x.group ++ [BitVec.ofNat 8 x.placement]

/-- TASK_POST (R78 to R83, R85). -/
def applyTaskPost (r : Request) (s : State) : Answer × State :=
  let posted := postTasks r.taskItems s
  (Answer.ok (resultsBody posted.1), recomputeCodes posted.2.1 posted.2.2)

/-- A task's record is deleted and its picker's open count falls (R70 steps 1 and 3). -/
def closeTask (t : Task) (s : State) : State :=
  changeOpen t.picker (· - 1) { s with tasks := s.tasks.filter (fun x => x.number != t.number) }

/-- One number of a TASK_CANCEL: unknown, or its task closes CANCELLED and its group's counts change or the group is removed
(R70, R86, R87). -/
def cancelTask (number : Nat) (s : State) : ItemResult × List Nat × State :=
  match s.taskOf number with
  | none => ({ code := .unknownTask, group := 0, placement := 0 }, [], s)
  | some t =>
    let u := closeTask t s
    ({ code := .ok, group := 0, placement := 0 }, [t.loc],
      match u.groupOf t.group with
      | none => u
      | some g =>
        let h := Group.remainingChange { g with members := g.members.filter (· != number) } (g.remaining - t.quantity)
        if h.members.isEmpty then removeGroup h u else u.setGroup h)

/-- The numbers of a TASK_CANCEL one by one in frame order, with the locations changed (R87). -/
def cancelTasks : List Nat → State → List ItemResult × List Nat × State
  | [], s => ([], [], s)
  | n :: rest, s =>
    let one := cancelTask n s
    let more := cancelTasks rest one.2.2
    (one.1 :: more.1, one.2.1 ++ more.2.1, more.2.2)

/-- TASK_CANCEL (R85 to R87, R92). -/
def applyTaskCancel (r : Request) (s : State) : Answer × State :=
  let closed := cancelTasks r.numberItems s
  (Answer.ok (resultsBody closed.1), recomputeCodes closed.2.1 (judgeTasksHigh closed.2.2))

/-- TASK_AMEND (R86, R88). -/
def applyTaskAmend (r : Request) (s : State) : Answer × State :=
  match s.taskOf r.taskNumber with
  | none => (Answer.refuse .unknownTask, s)
  | some t =>
    let q := r.newQuantity
    if q < 1 ∨ Config.maxQuantity < q then (Answer.refuse .badField, s)
    else
      match s.groupOf t.group with
      | none => (Answer.refuse .unknownTask, s)
      | some g =>
        let newR := g.remaining - t.quantity + q
        if Config.maxQuantity < newR then (Answer.refuse .badField, s)
        else
          let h := g.remainingChange newR
          let u := { s with
            tasks := s.tasks.map fun (x : Task) => if x.number = t.number then { x with quantity := q } else x }
          (Answer.ok (beBytes 2 h.id ++ beBytes 2 h.remaining ++ beBytes 2 h.display),
            if q = t.quantity then u else recomputeCodes [t.loc] (u.setGroup h))

/-- What TASK_QUERY returns for a task and its group, in the order R91 lists it. -/
def queryBody (t : Task) (g : Group) : List Byte :=
  beBytes 4 t.number ++ beBytes 2 t.picker ++ beBytes 4 t.loc ++ beBytes 2 t.quantity ++ beBytes 2 t.group
    ++ beBytes 4 t.posted.toNat
    ++ [BitVec.ofNat 8 (g.members.idxOf t.number + 1), BitVec.ofNat 8 g.members.length, g.state.code]
    ++ beBytes 2 g.remaining ++ beBytes 2 g.display
    ++ beBytes 4 (g.firstShown.getD 0).toNat ++ [indication g.firstShown.isSome, indication g.linger]

/-- TASK_QUERY (R91). -/
def applyTaskQuery (r : Request) (s : State) : Answer × State :=
  match s.taskOf r.taskNumber with
  | none => (Answer.refuse .unknownTask, s)
  | some t =>
    match s.groupOf t.group with
    | none => (Answer.refuse .unknownTask, s)
    | some g => (Answer.ok (queryBody t g), s)

/-! ## Meanings -/

/-- TASK_POST (R78). -/
def execTaskPost (s : State) : Host.Outcome State Fault Refusal :=
  .next (carryForward .taskPost (answered applyTaskPost) s)

/-- TASK_CANCEL (R87). -/
def execTaskCancel (s : State) : Host.Outcome State Fault Refusal :=
  .next (carryForward .taskCancel (answered applyTaskCancel) s)

/-- TASK_AMEND (R88). -/
def execTaskAmend (s : State) : Host.Outcome State Fault Refusal :=
  .next (carryForward .taskAmend (answered applyTaskAmend) s)

/-- TASK_QUERY (R91). -/
def execTaskQuery (s : State) : Host.Outcome State Fault Refusal :=
  .next (carryForward .taskQuery (answered applyTaskQuery) s)

end Sys2Proof.Machine
end

