-- ==== Sys2Proof/Machine/Pickers.lean ====
section
/-!
DEFINITION. The picker table (chapter 4): the meanings of PICKER_SET, PICKER_PAUSE, PICKER_RESUME, PICKER_LEAVE and PICKER_READ,
and the pace.
-/

namespace Sys2Proof.Machine

open Sys2Proof

/-- The free place with the lowest index, if there is one (R56). -/
def State.freePlace (s : State) : Option Nat :=
  (List.range Config.pickerPlaces).find? fun i => !s.pickers.any (fun p => p.index == i)

/-- An entry joins the picker table in index order. -/
def insertPicker (x : Picker) : List Picker → List Picker
  | [] => [x]
  | p :: rest => if x.index < p.index then x :: p :: rest else p :: insertPicker x rest

/-- The picker colour a byte names; WHITE and unassigned codes name none (R57, R192). -/
def pickerColour (byte : Nat) : Option Colour :=
  match Colour.ofCode byte with
  | some .white => none
  | c => c

/-- An entry in a reply: id, colour, priority, state, open task count, pace and whether it is present (R58, R65). -/
def Picker.body (p : Picker) : List Byte :=
  beBytes 2 p.id ++ [p.colour.code, BitVec.ofNat 8 p.priority, p.state.code] ++ beBytes 2 p.openTasks
    ++ beBytes 2 (p.pace.getD 0) ++ [indication p.pace.isSome]

/-- PICKER_SET's first check (R57): the index of the first bad field. -/
def badPickerField (r : Request) : Option Nat :=
  if r.pickerId = 0 then some 1
  else if (pickerColour r.colourByte).isNone then some 2
  else if 3 < r.priorityByte then some 3
  else none

/-- Whether a colour is held by an entry with a different picker id (R57). -/
def State.colourHeld (s : State) (c : Colour) (id : Nat) : Bool := s.pickers.any fun p => p.colour == c && p.id != id

/-- The notice of an updated entry: locations recomputed after a changed priority, else shadows derived after a changed colour
(R59, R60). -/
def pickerNotice (old new : Picker) (s : State) : State :=
  if old.priority ≠ new.priority then
    recomputeWhere (fun e => s.groups.any fun (g : Group) => g.loc == e.code && g.picker == new.id) s
  else if old.colour ≠ new.colour then renewColour new.id s
  else s

/-- PICKER_SET (R57 to R60). -/
def applyPickerSet (r : Request) (s : State) : Answer × State :=
  match badPickerField r with
  | some index => (Answer.refuseAt .badField index, s)
  | none =>
    let colour := (pickerColour r.colourByte).getD .white
    match s.pickerOf r.pickerId, s.freePlace with
    | none, none => (Answer.refuse .tableFull, s)
    | found, place =>
      if s.colourHeld colour r.pickerId then (Answer.refuse .colourInUse, s)
      else
        match found with
        | some p =>
          let q := { p with colour := colour, priority := r.priorityByte }
          (Answer.ok ([indication false, BitVec.ofNat 8 q.index] ++ q.body), pickerNotice p q (s.setPicker q))
        | none =>
          let q : Picker :=
            { index := place.getD 0, id := r.pickerId, colour := colour, priority := r.priorityByte, state := .active,
              openTasks := 0, pace := none }
          (Answer.ok ([indication true, BitVec.ofNat 8 q.index] ++ q.body),
            { s with pickers := insertPicker q s.pickers })

/-- The locations that hold a group of a picker are recomputed (R62, R63). -/
def noticePicker (id : Nat) (s : State) : State :=
  recomputeWhere (fun e => s.groups.any fun (g : Group) => g.loc == e.code && g.picker == id) s

/-- PICKER_PAUSE and PICKER_RESUME: the state changes and the picker's locations are recomputed; a picker already in the state
gives no notice (R62, R63). -/
def setPickerState (goal : PickerState) (r : Request) (s : State) : Answer × State :=
  match s.pickerOf r.pickerId with
  | none => (Answer.refuse .unknownPicker, s)
  | some p =>
    (Answer.ok ([goal.code] ++ beBytes 2 p.openTasks),
      if p.state = goal then s else noticePicker p.id (s.setPicker { p with state := goal }))

/-- PICKER_LEAVE: the picker's tasks are withdrawn, its groups removed, the locations recomputed and the place freed (R64). -/
def applyPickerLeave (r : Request) (s : State) : Answer × State :=
  match s.pickerOf r.pickerId with
  | none => (Answer.refuse .unknownPicker, s)
  | some p =>
    let own := s.groups.filter (fun g => g.picker == p.id)
    let withdrawn := (s.tasks.filter (fun t => t.picker == p.id)).length
    let t := { s with tasks := s.tasks.filter (fun t => t.picker != p.id) }
    let t := judgeTasksHigh (own.foldl (fun t g => removeGroup g t) t)
    let t := recomputeCodes (own.map (·.loc)) t
    (Answer.ok (beBytes 2 withdrawn ++ [BitVec.ofNat 8 p.index]),
      { t with pickers := t.pickers.filter (fun q => q.id != p.id) })

/-- PICKER_READ: one entry, or with id 0 the whole table in index order (R65). -/
def applyPickerRead (r : Request) (s : State) : Answer × State :=
  if r.pickerId = 0 then
    (Answer.ok (BitVec.ofNat 8 s.pickers.length
      :: s.pickers.flatMap fun p => BitVec.ofNat 8 p.index :: p.body), s)
  else
    match s.pickerOf r.pickerId with
    | none => (Answer.refuse .unknownPicker, s)
    | some p => (Answer.ok (BitVec.ofNat 8 p.index :: p.body), s)

/-! ## Pace (section 4.6) -/

/-- The dwell of a confirm in units of 10 ms: the times' difference modulo 2 to the power 32, divided by 10, clamped (R66). -/
def dwell10 (firstShown press : ClockValue) : Nat := min ((press - firstShown).toNat / 10) 65535

/-- The new pace after a sample (R66). -/
def newPace (old : Option Nat) (d10 : Nat) : Nat := old.elim d10 fun p => (7 * p + d10 + 4) / 8

/-- A pace sample for a picker (R66). -/
def samplePace (id : Nat) (firstShown press : ClockValue) (s : State) : State :=
  match s.pickerOf id with
  | none => s
  | some p => s.setPicker { p with pace := some (newPace p.pace (dwell10 firstShown press)) }

/-! ## Meanings -/

/-- PICKER_SET (R57). -/
def execPickerSet (s : State) : Host.Outcome State Fault Refusal :=
  .next (carryForward .pickerSet (answered applyPickerSet) s)

/-- PICKER_PAUSE (R62). -/
def execPickerPause (s : State) : Host.Outcome State Fault Refusal :=
  .next (carryForward .pickerPause (answered (setPickerState .paused)) s)

/-- PICKER_RESUME (R63). -/
def execPickerResume (s : State) : Host.Outcome State Fault Refusal :=
  .next (carryForward .pickerResume (answered (setPickerState .active)) s)

/-- PICKER_LEAVE (R64). -/
def execPickerLeave (s : State) : Host.Outcome State Fault Refusal :=
  .next (carryForward .pickerLeave (answered applyPickerLeave) s)

/-- PICKER_READ (R65). -/
def execPickerRead (s : State) : Host.Outcome State Fault Refusal :=
  .next (carryForward .pickerRead (answered applyPickerRead) s)

end Sys2Proof.Machine
end

