-- ==== Sys2Proof/Machine/Keys.lean ====
section
/-!
DEFINITION. The key handler (chapter 7): the meanings of CONFIRM_KEY and ADJUST_KEY, and the quantity allocation.
-/

namespace Sys2Proof.Machine

open Sys2Proof

/-- The slot's tag history (R110). -/
def State.historyAt (s : State) (pos : SlotPos) : List HistEntry := ((s.slotAt pos).map (·.history)).getD []

/-! ## UP and DOWN (section 7.2) -/

/-- The group that an UP or DOWN event is accepted for: the group of the newest entry, which carries the event's tag, while SHOWN
(R122). -/
def adjustTarget (k : KeyEvent) (s : State) : Option Group :=
  match (s.historyAt k.pos).getLast? with
  | none => none
  | some h =>
    if h.tag = k.tag then
      match (h.shown.map (·.1)).bind s.groupOf with
      | some g => if g.state = .shown then some g else none
      | none => none
    else none

/-- The new count of an UP or DOWN press (R123). -/
def adjustedCount (key : Key) (g : Group) : Nat :=
  match key with
  | .up => min (g.display + 1) g.remaining
  | .down => max (g.display - 1) 0
  | .confirm => g.display

/-- The notice of R106 on the slot's timers: a running rotation interval starts afresh, and the running linger timer of the credited
group at the position restarts. -/
def SlotState.heldFor (x : SlotState) (g : Group) (s : State) : SlotState :=
  { x with
    rotTimer := x.rotTimer.map fun _ => rotationTimer s
    linger := if x.position = some g.id then x.linger.map fun _ => startTimer s (s.lingerLimit g) else x.linger }

/-- An accepted UP or DOWN press (R89, R106, R117, R123). -/
def acceptAdjust (k : KeyEvent) (g : Group) (s : State) : State :=
  let count := adjustedCount k.key g
  let changed := count != g.display
  let t := if changed then s.setGroup { g with display := count, linger := false } else s
  let t :=
    match t.slotAt k.pos with
    | none => t
    | some x => t.setSlot (x.heldFor g t)
  let t := if changed then recomputeCodes [g.loc] t else renewShadow k.pos t
  signal .adjustAccepted (t.placeOf g.picker) t

/-- An UP or DOWN event is taken (R121, R122, R124). -/
def takeAdjust (k : KeyEvent) (s : State) : State :=
  match s.entryAt k.pos with
  | none => signal .unmappedKey none s
  | some _ =>
    match adjustTarget k s with
    | none => signal .staleAdjust none s
    | some g => acceptAdjust k g s

/-! ## Deciding a CONFIRM (section 7.3) -/

/-- The reasons to refuse a CONFIRM (R131). -/
inductive PressRefusal where
  | stale | locked | orphaned | busy
  deriving DecidableEq, Repr

/-- The feedback symbol of a refusal (table of R131). -/
def PressRefusal.symbol : PressRefusal → Symbol
  | .stale => .err | .locked => .lock | .orphaned => .dashes | .busy => .busy

/-- The reason a PRESS_REFUSED record carries; BUSY writes none (table of R131). -/
def PressRefusal.reason : PressRefusal → Option RefusalReason
  | .stale => some .stale | .locked => some .locked | .orphaned => some .orphaned | .busy => none

/-- The counter event of a refusal; ORPHANED has none (table of R131). -/
def PressRefusal.counterEvent : PressRefusal → Option CounterEvent
  | .stale => some .stalePress | .locked => some .lockedPress | .orphaned => none | .busy => some .busyPress

/-- A CONFIRM's decision on a mapped slot: refused, or accepted with the credited group and the recorded count (R126). -/
inductive Decision where
  | refused (why : PressRefusal)
  | accepted (g : Group) (recorded : Nat)
  deriving DecidableEq, Repr

/-- Decide a CONFIRM event at a mapped slot by the first step of R126 that applies (R127 to R130). A history holds a tag once (R109), by the
choice of log 34. -/
def decideConfirm (e : MapEntry) (k : KeyEvent) (s : State) : Decision :=
  match (s.historyAt k.pos).find? (fun h => h.tag == k.tag) with
  | none => .refused .stale
  | some h =>
    match h.shown.bind fun x => (s.groupOf x.1).map fun g => (g, x.2) with
    | none =>
      if s.areaLocked e.area then .refused .locked
      else if s.orphaned then .refused .orphaned
      else .refused .stale
    | some (g, recorded) =>
      if s.areaLocked e.area then .refused .locked
      else if s.orphaned then .refused .orphaned
      else if s.freePlaces < g.members.length then .refused .busy
      else .accepted g recorded

/-- A refused CONFIRM: feedback, PRESS_REFUSED record and counter event by its reason (R131). -/
def refusePress (e : MapEntry) (k : KeyEvent) (why : PressRefusal) (s : State) : State :=
  let t := showFeedback k.pos why.symbol s
  let t := why.reason.elim t fun reason => offer (.pressRefused e.code k.pos k.key k.tag reason s.clock) t
  why.counterEvent.elim t fun c => signal c none t

/-! ## An accepted CONFIRM (section 7.4) -/

/-- The allocation of a credited count over requested quantities in joining order (R133): each takes the smaller of its quantity and
what is left. -/
def allocate : Nat → List Nat → List Nat
  | _, [] => []
  | left, q :: rest => min q left :: allocate (left - min q left) rest

/-- The outcome of a share (R133). -/
def outcomeOf (requested share : Nat) : PickOutcome := if share = requested then .confirmed else .short

/-- One member closes with its share: its record is deleted, its PICK record offered, and TASK_SHORT signalled for a SHORT one (R70,
R134 step 2, R135). -/
def closeMember (g : Group) (t : Task) (share : Nat) (s : State) : State :=
  let outcome := outcomeOf t.quantity share
  let u := closeTask t s
  let u := offer (.pick t.number g.picker g.loc t.quantity share outcome (g.firstShown.getD 0) s.clock) u
  if outcome = .short then signal .taskShort (u.placeOf g.picker) u else u

/-- The credited group's tasks, in joining order. -/
def State.membersOf (s : State) (g : Group) : List Task := g.members.filterMap s.taskOf

/-- An accepted CONFIRM (R132 to R136). -/
def acceptConfirm (g : Group) (recorded : Nat) (s : State) : State :=
  let members := s.membersOf g
  let credited := min recorded g.remaining
  let shares := allocate credited (members.map (·.quantity))
  let t := (members.zip shares).foldl (fun t m => closeMember g m.1 m.2 t) s
  let t := removeGroup g t
  let t := g.firstShown.elim t fun shown => samplePace g.picker shown s.clock t
  let t := signal .confirmAccepted (t.placeOf g.picker) (judgeTasksHigh t)
  recomputeCodes [g.loc] t

/-- A CONFIRM event is taken (R121, R126). -/
def takeConfirm (k : KeyEvent) (s : State) : State :=
  match s.entryAt k.pos with
  | none => signal .unmappedKey none s
  | some e =>
    match decideConfirm e k s with
    | .refused why => refusePress e k why s
    | .accepted g recorded => acceptConfirm g recorded s

/-! ## Meanings -/

/-- CONFIRM_KEY (R120, R126): takes the oldest waiting key event of a branch, when it is a CONFIRM (log 3). -/
def execConfirmKey (b : Branch) (s : State) : Host.Outcome State Fault Refusal :=
  match (s.branch b).keys with
  | [] => .next s
  | k :: rest =>
    if k.key = .confirm then
      .next (event (fun t => takeConfirm k (t.setBranch b { t.branch b with keys := rest })) s)
    else .next s

/-- ADJUST_KEY (R120, R123): takes the oldest waiting key event of a branch, when it is an UP or a DOWN (log 3). -/
def execAdjustKey (b : Branch) (s : State) : Host.Outcome State Fault Refusal :=
  match (s.branch b).keys with
  | [] => .next s
  | k :: rest =>
    if k.key = .confirm then .next s
    else .next (event (fun t => takeAdjust k (t.setBranch b { t.branch b with keys := rest })) s)

end Sys2Proof.Machine
end

