-- ==== Sys2Proof/Machine/Locations.lean ====
section
/-!
DEFINITION. The location map and the areas (chapter 3): the meanings of MAP_LOAD, MAP_REMOVE, MAP_READ, AREA_LOCK and AREA_UNLOCK.
-/

namespace Sys2Proof.Machine

open Sys2Proof

/-! ## MAP_LOAD -/

/-- An entry joins the map in ascending order of location code (R40). -/
def insertEntry (x : MapEntry) : List MapEntry → List MapEntry
  | [] => [x]
  | e :: rest => if x.code < e.code then x :: e :: rest else e :: insertEntry x rest

/-- The entry that an item's fields make, when they pass the field check (R43). -/
def LoadItem.entry (i : LoadItem) : Option MapEntry :=
  match branchOfCode i.branch with
  | none => none
  | some b =>
    if i.code = 0 ∨ i.addr < 1 ∨ 48 < i.addr ∨ i.slot < 1 ∨ 4 < i.slot ∨ 15 < i.area then none
    else some { code := i.code, pos := { branch := b, addr := i.addr, slot := i.slot }, area := i.area }

/-- The slot-count check (R46): a roster entry whose slot count is smaller than the entry's slot. -/
def slotBeyond (pos : SlotPos) (s : State) : Bool :=
  ((s.branch pos.branch).moduleAt pos.addr).elim false fun m => m.slots < pos.slot

/-- A MAP_LOAD's progress: the map as it stands for the next entry, and the counts of entries added and replaced. -/
structure LoadProgress where
  map : List MapEntry
  added : Nat
  replaced : Nat
  deriving DecidableEq, Repr

/-- The checks R43 to R47 on one entry, against the map as it stands for it (R42). -/
def loadOne (s : State) (i : LoadItem) (w : LoadProgress) : Except ReplyCode LoadProgress :=
  match i.entry with
  | none => .error .badField
  | some e =>
    let present := w.map.any (fun x => x.code == e.code)
    if present && s.hasGroups e.code then .error .inUse
    else if w.map.any (fun x => x.pos == e.pos && x.code != e.code) then .error .slotTaken
    else if slotBeyond e.pos s then .error .badField
    else if present then
      .ok { w with
        map := w.map.map fun (x : MapEntry) => if x.code = e.code then e else x
        replaced := w.replaced + 1 }
    else if Config.mapEntries ≤ w.map.length then .error .tableFull
    else .ok { w with map := insertEntry e w.map, added := w.added + 1 }

/-- The entries of a MAP_LOAD in frame order, the first failure with its 1-based index (R42). -/
def loadAll (s : State) : Nat → List LoadItem → LoadProgress → Except (ReplyCode × Nat) LoadProgress
  | _, [], w => .ok w
  | index, i :: rest, w =>
    match loadOne s i w with
    | .error code => .error (code, index)
    | .ok w => loadAll s (index + 1) rest w

/-- The code mapped to a slot position in a map. -/
def codeAt (map : List MapEntry) (pos : SlotPos) : Option Nat := (map.find? (fun e => e.pos == pos)).map (·.code)

/-- The slot positions that a map edit releases: mapped before and unmapped now, in ascending order of the location codes they had
(R48, R103, log 18). -/
def releasedSlots (before after : List MapEntry) : List SlotPos :=
  (before.map (·.pos)).filter fun pos => (codeAt after pos).isNone

/-- The slot positions that a map edit takes up: mapped now, and not to the same code before, in ascending order of location code
(R48, R103). -/
def takenUpSlots (before after : List MapEntry) : List SlotPos :=
  (after.map (·.pos)).filter fun pos => codeAt after pos != codeAt before pos

/-- A changed map is held, and the slot positions that the change releases and takes up are dealt with (R48, log 18). -/
def changeMap (map : List MapEntry) (s : State) : State :=
  let t := (releasedSlots s.locMap map).foldl (fun t pos => releaseSlot pos t) { s with locMap := map }
  (takenUpSlots s.locMap map).foldl (fun t pos => takeUpSlot pos t) t

/-- MAP_LOAD (R42 to R48). -/
def applyMapLoad (r : Request) (s : State) : Answer × State :=
  match loadAll s 1 r.loadItems { map := s.locMap, added := 0, replaced := 0 } with
  | .error (code, index) => (Answer.refuseAt code index, s)
  | .ok w =>
    (Answer.ok (beBytes 2 w.added ++ beBytes 2 w.replaced ++ beBytes 2 w.map.length), changeMap w.map s)

/-! ## MAP_REMOVE and MAP_READ -/

/-- The checks of R49 in frame order, each code against the map as the earlier ones left it: the map without the entries named, or the
first failure with its 1-based index. -/
def removeAll (s : State) : Nat → List Nat → List MapEntry → Except (ReplyCode × Nat) (List MapEntry)
  | _, [], map => .ok map
  | index, code :: rest, map =>
    if !map.any (fun e => e.code == code) then .error (.unknownLocation, index)
    else if s.hasGroups code then .error (.inUse, index)
    else removeAll s (index + 1) rest (map.filter (fun x => x.code != code))

/-- MAP_REMOVE (R49). Every code that passes names an entry of its own, so the count removed is the count of codes. -/
def applyMapRemove (r : Request) (s : State) : Answer × State :=
  match removeAll s 1 r.numberItems s.locMap with
  | .error (code, index) => (Answer.refuseAt code index, s)
  | .ok map => (Answer.ok (beBytes 2 r.numberItems.length ++ beBytes 2 map.length), changeMap map s)

/-- A map entry's five fields in a reply (R51). -/
def MapEntry.body (e : MapEntry) : List Byte :=
  beBytes 4 e.code ++ [branchCode e.pos.branch, BitVec.ofNat 8 e.pos.addr, BitVec.ofNat 8 e.pos.slot, BitVec.ofNat 8 e.area]

/-- MAP_READ (R51). -/
def applyMapRead (r : Request) (s : State) : Answer × State :=
  let found := s.locMap.filter (fun e => r.startCode ≤ e.code)
  let given := found.take 16
  (Answer.ok (beBytes 2 given.length ++ given.flatMap MapEntry.body ++ [indication (16 < found.length)]), s)

/-! ## Areas -/

/-- The states of the sixteen areas in a reply: bit k set where area k is LOCKED (section 11.3). -/
def areasBody (s : State) : List Byte := beBytes 2 s.locked.toNat

/-- The locations with open groups in a set of areas are recomputed (R53, R54). -/
def noticeAreas (areas : BitVec 16) (s : State) : State :=
  recomputeWhere (fun e => areas.getLsbD e.area && s.hasGroups e.code) s

/-- AREA_LOCK (R53). -/
def applyAreaLock (r : Request) (s : State) : Answer × State :=
  let t := noticeAreas (r.areaSet &&& ~~~s.locked) { s with locked := s.locked ||| r.areaSet }
  (Answer.ok (areasBody t), t)

/-- AREA_UNLOCK (R54). -/
def applyAreaUnlock (r : Request) (s : State) : Answer × State :=
  let t := noticeAreas (r.areaSet &&& s.locked) { s with locked := s.locked &&& ~~~r.areaSet }
  (Answer.ok (areasBody t), t)

/-! ## Meanings -/

/-- MAP_LOAD (R42). -/
def execMapLoad (s : State) : Host.Outcome State Fault Refusal :=
  .next (carryForward .mapLoad (answered applyMapLoad) s)

/-- MAP_REMOVE (R49). -/
def execMapRemove (s : State) : Host.Outcome State Fault Refusal :=
  .next (carryForward .mapRemove (answered applyMapRemove) s)

/-- MAP_READ (R51). -/
def execMapRead (s : State) : Host.Outcome State Fault Refusal :=
  .next (carryForward .mapRead (answered applyMapRead) s)

/-- AREA_LOCK (R53). -/
def execAreaLock (s : State) : Host.Outcome State Fault Refusal :=
  .next (carryForward .areaLock (answered applyAreaLock) s)

/-- AREA_UNLOCK (R54). -/
def execAreaUnlock (s : State) : Host.Outcome State Fault Refusal :=
  .next (carryForward .areaUnlock (answered applyAreaUnlock) s)

end Sys2Proof.Machine
end

