-- ==== Sys2Proof/Machine/Reports.lean ====
section
/-!
DEFINITION. The report packer's own events (chapter 9): the meanings of COMBINE_EXPIRY and ROOM_NOTICE_BUILD.
-/

namespace Sys2Proof.Machine

open Sys2Proof

/-- COMBINE_EXPIRY (R171): acts when the combine timer, not yet expired, has run the combine timeout (log 4). -/
def execCombineExpiry (s : State) : Host.Outcome State Fault Refusal :=
  match s.combine with
  | none => .next s
  | some c =>
    if !c.expired && s.combineElapsed c.since then
      .next (event (fun t => judgePacker { t with combine := some { c with expired := true } }) s)
    else .next s

/-- ROOM_NOTICE_BUILD (R171's third occasion, R175): takes one room notice of the relay, where one is outstanding (log 7). -/
def execRoomNoticeBuild (s : State) : Host.Outcome State Fault Refusal :=
  if s.roomNotices = 0 then .next s
  else .next (event (fun t => judgePacker { t with roomNotices := t.roomNotices - 1 }) s)

end Sys2Proof.Machine
end

