-- ==== Sys2Proof/Machine/Resets.lean ====
section
/-!
DEFINITION. The three resets (R6, R39): the meanings of POWER_ON, RESET_PIN, SOFT_RESET and AISLE_RESET.
-/

namespace Sys2Proof.Machine

open Sys2Proof

/-- The station number that the straps give: 1 to 30, or 0, repeater only, for 0 and 31 (R6). -/
def strapStation (straps : BitVec 5) : Nat := if straps.toNat ≤ 30 then straps.toNat else 0

/-- Every piece of state at its value after a reset, but for the commands that wait outside the part (log 26), the station number,
the reset cause and what is taken from the lines (R1, R39, R160). -/
def resetState (station : Nat) (cause : ResetCause) (lines : LineLevels) (s : State) : State :=
  { State.reset with
    pending := s.pending
    station := station
    resetCause := cause
    portA := { PortState.reset with up := lines.activeA }
    portB := { PortState.reset with up := lines.activeB }
    branchL := { BranchState.reset with fault := lines.heldL }
    branchR := { BranchState.reset with fault := lines.heldR } }

/-- At the end of a reset the live flags follow the lines taken, and those that set are noted (R1, R160, R185, R190). -/
def followLines (lines : LineLevels) (s : State) : State :=
  let t := followFlag .linkADown (!lines.activeA) s
  let t := followFlag .linkBDown (!lines.activeB) t
  followFlag .branchRFault lines.heldR (followFlag .branchLFault lines.heldL t)

/-- A reset's effect, within its event. -/
def resetTo (station : Nat) (cause : ResetCause) (lines : LineLevels) (s : State) : State :=
  followLines lines (resetState station cause lines s)

/-- POWER_ON (R6, R39). -/
def execPowerOn (straps : BitVec 5) (lines : LineLevels) (s : State) : Host.Outcome State Fault Refusal :=
  .next (event (resetTo (strapStation straps) .powerOn lines) s)

/-- RESET_PIN (R6, R39). -/
def execResetPin (straps : BitVec 5) (lines : LineLevels) (s : State) : Host.Outcome State Fault Refusal :=
  .next (event (resetTo (strapStation straps) .resetPin lines) s)

/-- SOFT_RESET (R38, R39): acts when the release notice of the AISLE_RESET reply has come (log 7). -/
def execSoftReset (lines : LineLevels) (s : State) : Host.Outcome State Fault Refusal :=
  if s.pendingReset = .noticed then .next (event (resetTo s.station .aisleReset lines) s) else .next s

/-- AISLE_RESET carried forward (R38): a broadcast resets at once; an addressed one is answered OK and awaits the reply's release, or
resets at once where the relay refuses the reply. -/
def serveAisleReset (lines : LineLevels) (r : Request) (s : State) : State :=
  if r.broadcast then resetTo s.station .aisleReset lines s
  else
    match originate r.origin replyCodeKind true .requestHandler (replyPayload r (Answer.ok [])) s with
    | (.refused, t) => resetTo t.station .aisleReset lines (setFlag .replyDrop t)
    | (.accepted ref, t) => { t with pendingReset := .awaiting ref }

/-- AISLE_RESET (R38). -/
def execAisleReset (lines : LineLevels) (s : State) : Host.Outcome State Fault Refusal :=
  .next (carryForward .aisleReset (serveAisleReset lines) s)

end Sys2Proof.Machine
end

