-- ==== Sys2Proof/Machine/Trunk.lean ====
section
/-!
DEFINITION. The ring relay (chapter 1): the meanings of LINE_DOWN, LINE_UP, FRAME_ARRIVAL and TRANSMISSION_END.
-/

namespace Sys2Proof.Machine

open Sys2Proof

/-- A discarded or refused frame: the latched flag sets, where there is one, and FRAME_DROPPED is signalled. -/
def dropFrame (flag : Option Flag) (s : State) : State :=
  signal .frameDropped none (flag.elim s fun f => setFlag f s)

/-- The forwarding test (R15) and the admission to the store (R16), out of the port the frame did not arrive on. -/
def forwardFrame (arrivedOn : Port) (f : Frame) (s : State) : State :=
  let out := otherPort arrivedOn
  if f.hop = 1 then dropFrame (some .hopExpired) s
  else if !(s.port out).up then dropFrame none s
  else if s.freeCells < cellsFor f.length + Config.passThroughReserve then dropFrame (some .storeDrop) s
  else signal .frameForwarded none (storeFrame { f with hop := f.hop - 1 } none [out] s)

/-- The delivery test (R12, R13) and the delivery (R14). -/
def deliverFrame (f : Frame) (s : State) : State :=
  let key := (f.origin, f.seq)
  if s.recent.contains key then
    signal .duplicateDiscarded none { s with recent := s.recent.filter (· != key) }
  else
    takeDelivery f
      (signal .frameDelivered none { s with recent := pushCapped Config.recentFrames s.recent key })

/-- A frame that passes R7 and R8 at an aisle controller is removed as returned (R10), or disposed of by its destination
(R11); a repeater-only station forwards it (R17). -/
def disposeFrame (p : Port) (f : Frame) (s : State) : State :=
  if s.station = 0 then forwardFrame p f s
  else if f.origin = s.station then
    if s.ownSent.contains f.seq then s else setFlag .stationClash s
  else if f.dest = s.station then deliverFrame f s
  else if f.dest = 63 then forwardFrame p f (deliverFrame f s)
  else forwardFrame p f s

/-- The series of tests on the frame in a port's receive buffer, R7 to R16 in order. -/
def takeArrival (p : Port) (s : State) : State :=
  let rx := (s.port p).rx
  let f := Frame.ofBytes rx.bytes
  if rx.lengthFault || !rx.checkOk then dropFrame (some .frameFault) s
  else if !(isAisle f.origin || isSupervisor f.origin) || !(isAisle f.dest || isSupervisor f.dest || f.dest == 63) then
    dropFrame (some .frameFault) s
  else if f.hop = 0 then dropFrame (some .hopExpired) s
  else disposeFrame p f s

/-- The receive buffer holds the bytes received, at most 256 of them, and counts them all (R4). -/
def fillBuffer (p : Port) (bytes : List Byte) (s : State) : State :=
  s.setPort p { s.port p with rx := { bytes := bytes.take 256, received := bytes.length } }

/-- The receive buffer is free for the next frame (R4). -/
def freeBuffer (p : Port) (s : State) : State :=
  s.setPort p { s.port p with rx := { bytes := [], received := 0 } }

/-- FRAME_ARRIVAL (R4, R7 to R17): a frame on a DOWN port is discarded without check; otherwise the relay takes it whole. -/
def execFrameArrival (p : Port) (bytes : List Byte) (s : State) : Host.Outcome State Fault Refusal :=
  let t := fillBuffer p bytes s
  if (s.port p).up then .next (event (fun u => freeBuffer p (takeArrival p u)) t) else .next (freeBuffer p t)

/-- A port's queues flushed and its transmission abandoned, in the order of R3. -/
def flushPort (p : Port) (s : State) : State :=
  let q := s.port p
  let refs := q.sending.toList ++ q.express ++ q.normal
  refs.foldl (fun t ref => dropRef ref t)
    (s.setPort p { q with up := false, sending := none, express := [], normal := [] })

/-- LINE_DOWN (R1, R3): acts on a port that is UP. -/
def execLineDown (p : Port) (s : State) : Host.Outcome State Fault Refusal :=
  if (s.port p).up then .next (event (fun t => setFlag (linkFlag p) (flushPort p t)) s) else .next s

/-- A port comes UP: its LINK flag clears, its transmitter becomes free and the packer has a room notice (R1, R3, R23, R24). -/
def raisePort (p : Port) (s : State) : State :=
  let t := clearFlag (linkFlag p) (s.setPort p { s.port p with up := true })
  startTransmitter p { t with roomNotices := t.roomNotices + 1 }

/-- LINE_UP (R1, R3): acts on a port that is DOWN. -/
def execLineUp (p : Port) (s : State) : Host.Outcome State Fault Refusal :=
  if (s.port p).up then .next s else .next (event (raisePort p) s)

/-- A transmission ends: the reference count falls and the transmitter, free again, starts the next frame (R19, R23). -/
def endTransmission (p : Port) (ref : Nat) (s : State) : State :=
  startTransmitter p (dropRef ref (s.setPort p { s.port p with sending := none }))

/-- TRANSMISSION_END (R23): acts on a port that is sending. -/
def execTransmissionEnd (p : Port) (s : State) : Host.Outcome State Fault Refusal :=
  match (s.port p).sending with
  | none => .next s
  | some ref => .next (event (endTransmission p ref) s)

end Sys2Proof.Machine
end

