-- ==== Sys2Proof/Machine/Dispatch.lean ====
section
/-!
DEFINITION. The meaning of every command: one arm for each constructor of Instr, in the order of the opcode table.
-/

namespace Sys2Proof.Machine

open Sys2Proof

/-- What a command does to everything but the queue it came from. -/
def exec (i : Instr) (s : State) : Host.Outcome State Fault Refusal :=
  match i with
  | .powerOn straps lines => Sys2Proof.Machine.execPowerOn straps lines s
  | .resetPin straps lines => Sys2Proof.Machine.execResetPin straps lines s
  | .softReset lines => Sys2Proof.Machine.execSoftReset lines s
  | .lineDown port => Sys2Proof.Machine.execLineDown port s
  | .lineUp port => Sys2Proof.Machine.execLineUp port s
  | .frameArrival port bytes => Sys2Proof.Machine.execFrameArrival port bytes s
  | .transmissionEnd port => Sys2Proof.Machine.execTransmissionEnd port s
  | .roomNoticeBuild => Sys2Proof.Machine.execRoomNoticeBuild s
  | .taskPost => Sys2Proof.Machine.execTaskPost s
  | .taskCancel => Sys2Proof.Machine.execTaskCancel s
  | .taskAmend => Sys2Proof.Machine.execTaskAmend s
  | .taskQuery => Sys2Proof.Machine.execTaskQuery s
  | .pickerSet => Sys2Proof.Machine.execPickerSet s
  | .pickerPause => Sys2Proof.Machine.execPickerPause s
  | .pickerResume => Sys2Proof.Machine.execPickerResume s
  | .pickerLeave => Sys2Proof.Machine.execPickerLeave s
  | .pickerRead => Sys2Proof.Machine.execPickerRead s
  | .areaLock => Sys2Proof.Machine.execAreaLock s
  | .areaUnlock => Sys2Proof.Machine.execAreaUnlock s
  | .mapLoad => Sys2Proof.Machine.execMapLoad s
  | .mapRemove => Sys2Proof.Machine.execMapRemove s
  | .mapRead => Sys2Proof.Machine.execMapRead s
  | .configSet => Sys2Proof.Machine.execConfigSet s
  | .configRead => Sys2Proof.Machine.execConfigRead s
  | .rightsSet => Sys2Proof.Machine.execRightsSet s
  | .timeSet => Sys2Proof.Machine.execTimeSet s
  | .counterSet => Sys2Proof.Machine.execCounterSet s
  | .counterRead => Sys2Proof.Machine.execCounterRead s
  | .attentionMask => Sys2Proof.Machine.execAttentionMask s
  | .attentionClear => Sys2Proof.Machine.execAttentionClear s
  | .attentionRead => Sys2Proof.Machine.execAttentionRead s
  | .statusRead => Sys2Proof.Machine.execStatusRead s
  | .rosterRead => Sys2Proof.Machine.execRosterRead s
  | .branchScan => Sys2Proof.Machine.execBranchScan s
  | .lampDirect => Sys2Proof.Machine.execLampDirect s
  | .aisleReset lines => Sys2Proof.Machine.execAisleReset lines s
  | .silenceLimitExpiry => Sys2Proof.Machine.execSilenceLimitExpiry s
  | .rotationExpiry pos => Sys2Proof.Machine.execRotationExpiry pos s
  | .feedbackExpiry pos => Sys2Proof.Machine.execFeedbackExpiry pos s
  | .lingerExpiry pos => Sys2Proof.Machine.execLingerExpiry pos s
  | .combineExpiry => Sys2Proof.Machine.execCombineExpiry s
  | .confirmKey branch => Sys2Proof.Machine.execConfirmKey branch s
  | .adjustKey branch => Sys2Proof.Machine.execAdjustKey branch s
  | .aisleClockAdvance => Sys2Proof.Machine.execAisleClockAdvance s
  | .branchArbiter branch => Sys2Proof.Machine.execBranchArbiter branch s
  | .missingTurnSpacing branch => Sys2Proof.Machine.execMissingTurnSpacing branch s
  | .showAcknowledge branch bytes => Sys2Proof.Machine.execShowAcknowledge branch bytes s
  | .pollReply branch bytes => Sys2Proof.Machine.execPollReply branch bytes s
  | .identReply branch bytes => Sys2Proof.Machine.execIdentReply branch bytes s
  | .invalidReply branch cutOff bytes => Sys2Proof.Machine.execInvalidReply branch cutOff bytes s
  | .replyTimeout branch => Sys2Proof.Machine.execReplyTimeout branch s
  | .branchFaultSet branch stillSending => Sys2Proof.Machine.execBranchFaultSet branch stillSending s
  | .branchFaultClear branch => Sys2Proof.Machine.execBranchFaultClear branch s

end Sys2Proof.Machine
end

