-- ==== Sys2Proof/Safety.lean ====
section
/-!
DEFINITION. The terms in which claims are made: the parts of the state, what it means that only some of them change, and the properties
that every step keeps.
-/

namespace Sys2Proof.Machine

open Sys2Proof

/-! ## Frames -/

/-- The parts of the state, each one or a few fields that change together. `waiting` is the queue of commands, `moment` the count of
reference periods, `lines` the ports' line states, `queues` the ports' output queues and transmissions, `turns` the arbiters' counts and
pointers, `records` the packer's FIFO and combine timer, `directs` the pending direct commands, `directShown` the slots that keep the
display of one and `unshown` those that await a SHOW; the rest are named as in the manual. -/
inductive Part where
  | waiting | moment | clock | station | lines | buffers | queues | recent | sequence | store | admitted | rights | params
  | silence | orphaned | scanning | pendingReset | resetCause | locations | areas | pickers | tasks | groups | nextGroup
  | slots | faults | rosters | work | commands | turns | scans | directs | directShown | unshown | keys | nextTags | records | roomNotices
  | counters | flags | mask | notes
  deriving DecidableEq, Repr

/-- A part of the state is the same in both states. -/
def Keeps (p : Part) (s t : State) : Prop :=
  match p with
  | .waiting => t.pending = s.pending
  | .moment => t.now = s.now
  | .clock => t.clock = s.clock ∧ t.residue = s.residue
  | .station => t.station = s.station
  | .lines => t.portA.up = s.portA.up ∧ t.portB.up = s.portB.up
  | .buffers => t.portA.rx = s.portA.rx ∧ t.portB.rx = s.portB.rx
  | .queues => (t.portA.express = s.portA.express ∧ t.portA.normal = s.portA.normal ∧ t.portA.sending = s.portA.sending)
      ∧ t.portB.express = s.portB.express ∧ t.portB.normal = s.portB.normal ∧ t.portB.sending = s.portB.sending
  | .recent => t.recent = s.recent
  | .sequence => t.ownSent = s.ownSent ∧ t.seq = s.seq
  | .store => t.freeCells = s.freeCells ∧ t.frames = s.frames ∧ t.nextRef = s.nextRef
  | .admitted => t.admitted = s.admitted
  | .rights => t.rights = s.rights
  | .params => t.params = s.params
  | .silence => t.silenceSince = s.silenceSince
  | .orphaned => t.orphaned = s.orphaned
  | .scanning => t.scanningL = s.scanningL ∧ t.scanningR = s.scanningR
  | .pendingReset => t.pendingReset = s.pendingReset
  | .resetCause => t.resetCause = s.resetCause
  | .locations => t.locMap = s.locMap
  | .areas => t.locked = s.locked
  | .pickers => t.pickers = s.pickers
  | .tasks => t.tasks = s.tasks
  | .groups => t.groups = s.groups
  | .nextGroup => t.nextGroup = s.nextGroup
  | .slots => t.slots = s.slots
  | .faults => t.branchL.fault = s.branchL.fault ∧ t.branchR.fault = s.branchR.fault
  | .rosters => t.branchL.roster = s.branchL.roster ∧ t.branchR.roster = s.branchR.roster
  | .work => t.branchL.work = s.branchL.work ∧ t.branchR.work = s.branchR.work
  | .commands => t.branchL.command = s.branchL.command ∧ t.branchR.command = s.branchR.command
  | .turns =>
      (t.branchL.shows = s.branchL.shows ∧ t.branchL.turn = s.branchL.turn
        ∧ t.branchL.lastAnswering = s.branchL.lastAnswering ∧ t.branchL.lastMissing = s.branchL.lastMissing
        ∧ t.branchL.lastTurn = s.branchL.lastTurn)
      ∧ t.branchR.shows = s.branchR.shows ∧ t.branchR.turn = s.branchR.turn
        ∧ t.branchR.lastAnswering = s.branchR.lastAnswering ∧ t.branchR.lastMissing = s.branchR.lastMissing
        ∧ t.branchR.lastTurn = s.branchR.lastTurn
  | .scans => t.branchL.scan = s.branchL.scan ∧ t.branchR.scan = s.branchR.scan
  | .directs => t.branchL.direct = s.branchL.direct ∧ t.branchR.direct = s.branchR.direct
  | .directShown => t.branchL.directShown = s.branchL.directShown ∧ t.branchR.directShown = s.branchR.directShown
  | .unshown => t.branchL.unshown = s.branchL.unshown ∧ t.branchR.unshown = s.branchR.unshown
  | .keys => t.branchL.keys = s.branchL.keys ∧ t.branchR.keys = s.branchR.keys
  | .nextTags => t.branchL.nextTags = s.branchL.nextTags ∧ t.branchR.nextTags = s.branchR.nextTags
  | .records => t.fifo = s.fifo ∧ t.combine = s.combine
  | .roomNotices => t.roomNotices = s.roomNotices
  | .counters => t.counters = s.counters
  | .flags => t.flags = s.flags
  | .mask => t.mask = s.mask
  | .notes => t.notes = s.notes

/-- From `s` to `t` no part changes but those listed. -/
def OnlyChanges (ps : List Part) (s t : State) : Prop := ∀ p, p ∈ ps ∨ Keeps p s t

/-- The parts that sending a frame of its own changes in the ring relay (R20 to R23). -/
def relayParts : List Part := [.queues, .sequence, .store]

/-- The parts that the end of an event can change: the packer's records and the frames it sends, and the flags (R171, R182, R187). -/
def eventParts : List Part := [.records, .flags, .notes] ++ relayParts

/-- The parts that recomputing locations changes (R99, R103). -/
def displayParts : List Part := [.groups, .slots, .work]

/-! ## The display -/

/-- The ids of the rotation set that a location's queue gives (R97). -/
def State.rotationIds (s : State) (e : MapEntry) : List Nat :=
  (rotationSet ((s.queueOf e.code).filter (s.eligible e))).map (·.id)

/-- A location of the map stands on the display as its queue gives it: the set in its slot is the queue's, its groups are SHOWN exactly in
the set and HELD exactly where they are not eligible, and the slot's shadow is the derived one (R97, R99, R102). -/
def Displayed (e : MapEntry) (t : State) : Prop :=
  ∀ y, t.slotAt e.pos = some y → y.rotation = t.rotationIds e ∧ y.shadow = t.deriveShadow y
    ∧ ∀ g ∈ t.groups, g.loc = e.code →
        (g.state = .shown ↔ g.id ∈ y.rotation) ∧ (g.state = .held ↔ t.eligible e g = false)

/-- From `s` to `t` the locations that `p` picks have been recomputed, and the groups and slots of all others are as they were (R99). -/
def Redrawn (p : MapEntry → Prop) (s t : State) : Prop :=
  (∀ e ∈ t.locMap, p e → Displayed e t)
    ∧ (∀ g, (∀ e ∈ t.locMap, p e → e.code ≠ g.loc) → (g ∈ t.groups ↔ g ∈ s.groups))
    ∧ ∀ pos, (∀ e ∈ t.locMap, p e → e.pos ≠ pos) → t.slotAt pos = s.slotAt pos

/-- From `s` to `t` the groups that `gone` picks have left the tag histories of their locations' slots, and no other entry has (R75, R109). -/
def Forgotten (gone : Group → Prop) (s t : State) : Prop :=
  ∀ e ∈ s.locMap, ∀ x y, s.slotAt e.pos = some x → t.slotAt e.pos = some y → y.history.Sublist x.history
    ∧ ∀ h ∈ x.history, (h ∈ y.history ↔ ∀ g ∈ s.groups, gone g → g.loc = e.code → h.shown.map (·.1) ≠ some g.id)

/-- The slot positions that enter a branch's display work queue behind those that stand there: of a list, those of the branch that are not
in the queue yet (R103). -/
def WorkGains (b : Branch) (added : List SlotPos) (s t : State) : Prop :=
  (t.branch b).work = (s.branch b).work ++ added.filter (fun q => q.branch = b ∧ q ∉ (s.branch b).work)

/-- A slot position shows something (R48). -/
def Lit (pos : SlotPos) (s : State) : Bool := (s.slotAt pos).any fun x => x.shadow ≠ Shadow.darkShadow

/-! ## Loading the map -/

/-- A map once an entry is held in it, in code order, in place of any entry with its code (R40, R48). -/
def mapWith (map : List MapEntry) (e : MapEntry) : List MapEntry :=
  map.filter (fun x => x.code < e.code) ++ e :: map.filter (fun x => e.code < x.code)

/-- An entry passes the checks against the map as it stands for it: a code that is mapped has no open groups, its slot is mapped to no other
code and is within the roster's slot count, and a new code finds room (R44 to R47). -/
def LoadPasses (s : State) (map : List MapEntry) (e : MapEntry) : Prop :=
  (e.code ∈ map.map (·.code) → ∀ g ∈ s.groups, g.loc ≠ e.code)
    ∧ (∀ x ∈ map, x.pos = e.pos → x.code = e.code)
    ∧ (∀ m, (s.branch e.pos.branch).moduleAt e.pos.addr = some m → e.pos.slot ≤ m.slots)
    ∧ (e.code ∈ map.map (·.code) ∨ map.length < Config.mapEntries)

/-- Each entry of a list passes against the map as the entries before it left it (R42). -/
def AllPass (s : State) (es : List MapEntry) : Prop :=
  ∀ i e, es[i]? = some e → LoadPasses s ((es.take i).foldl mapWith s.locMap) e

/-! ## Frames that enter the store -/

/-- What a port sends or will send: its transmission and its queues (R22, R23). -/
def PortState.references (q : PortState) : List Nat := q.sending.toList ++ q.express ++ q.normal

/-- The frames that entered the store from `s` to `t`, none having left it, in the order in which they were stored. -/
def newFrames (s t : State) : List StoredFrame := t.frames.drop s.frames.length

/-- From `s` to `t` frames only enter the store: each takes the next reference number and its cells (R18). -/
def StoreGrows (s t : State) : Prop :=
  s.frames <+: t.frames ∧ (newFrames s t).map (·.ref) = List.range' s.nextRef (newFrames s t).length
    ∧ t.nextRef = s.nextRef + (newFrames s t).length ∧ t.freeCells + ((newFrames s t).map (·.cells)).sum = s.freeCells

/-- Frames take the numbers of the sequence counter, which goes on by one for each, and each number joins the own-sent list, which holds 32
(R9, R21). -/
def Numbered (fs : List StoredFrame) (s t : State) : Prop :=
  fs.map (·.frame.seq) = (List.range fs.length).map (fun i => s.seq + BitVec.ofNat 16 i)
    ∧ t.seq = s.seq + BitVec.ofNat 16 fs.length
    ∧ t.ownSent = fs.foldl (fun l x => (l ++ [x.frame.seq]).drop (l.length + 1 - 32)) s.ownSent

/-- A port takes the references of frames: behind those of its queues, by class, where it is sending, and where it is empty it starts the
first (R22, R23). -/
def QueuesTake (p : Port) (fs : List StoredFrame) (s t : State) : Prop :=
  let q := s.port p
  let r := t.port p
  let refs (express : Bool) (xs : List StoredFrame) := (xs.filter (fun x => x.frame.express = express)).map (·.ref)
  (q.sending ≠ none → r.sending = q.sending ∧ r.express = q.express ++ refs true fs ∧ r.normal = q.normal ++ refs false fs) ∧
  (q.references = [] → r.sending = fs.head?.map (·.ref) ∧ r.express = refs true (fs.drop 1) ∧ r.normal = refs false (fs.drop 1))

/-- From `s` to `t` the frames that enter the store are this station's own: each is numbered, has a reference for each UP port, and stands at
each of them (R9, R18, R20 to R23). -/
def Originated (s t : State) : Prop :=
  StoreGrows s t ∧ Numbered (newFrames s t) s t
    ∧ (∀ x ∈ newFrames s t, x.frame.origin = s.station ∧ x.refs = s.upPorts.length)
    ∧ ∀ p, QueuesTake p (if (s.port p).up then newFrames s t else []) s t

/-- The relay takes a block's frame as the first of the event's own frames (R20, R21). -/
def SendsFirst (who : Requester) (f : Frame) (s t : State) : Prop :=
  Originated s t
    ∧ (newFrames s t).head? = some { ref := s.nextRef, frame := f, refs := s.upPorts.length, requester := some who }

/-! ## Requests and replies -/

/-- `r` is the admitted request next to be carried forward, of kind `k`; no reset is pending, its origin holds the right its kind needs,
and its items pass the item check (R26, R28, R38). -/
def Carried (k : ReqKind) (r : Request) (s : State) : Prop :=
  s.admitted.head? = some r ∧ r.kind = k ∧ s.pendingReset = .none ∧ s.holds r.origin k.right = true ∧ itemRefusal r = none

/-- The state in which the block that owns a carried request takes it: the request has left the queue and the event has noted nothing. -/
def taken (s : State) : State := { s with admitted := s.admitted.tail, notes := EventNotes.empty }

/-- The relay says yes to a frame with `n` bytes of payload, and the station is no repeater (R17, R20). -/
def RelayTakes (n : Nat) (s : State) : Prop :=
  s.station ≠ 0 ∧ (s.portA.up = true ∨ s.portB.up = true) ∧ cellsFor (9 + n) ≤ s.freeCells

/-- The reply to `r` is sent: to its origin, of class EXPRESS, with the number, hop count and origin that `s` gives, and with the kind and
sequence of the request, the reply code, and then `rest` (R9, R20 to R22, R31). -/
def HasReply (r : Request) (code : ReplyCode) (rest : List Byte) (s t : State) : Prop :=
  SendsFirst .requestHandler (s.ownFrame r.origin 0x80 true ([r.kind.code] ++ beBytes 2 r.seq.toNat ++ [code.code] ++ rest)) s t

/-- From `s` to `t` the request `r` has been taken and answered with a code and what follows it, and its own effect is on the parts `ps`
alone: a broadcast gets no reply, an addressed request gets one where the relay takes it, and otherwise REPLY_DROP sets (R30 to R32). -/
def Answered (ps : List Part) (r : Request) (code : ReplyCode) (rest : List Byte) (s t : State) : Prop :=
  t.admitted = s.admitted.tail ∧ OnlyChanges (ps ++ .admitted :: eventParts) s t
    ∧ (r.broadcast = true → OnlyChanges (ps ++ [.admitted, .notes]) s t)
    ∧ (r.broadcast = false → RelayTakes (4 + rest.length) s →
        HasReply r code rest s t ∧ OnlyChanges (ps ++ [.admitted, .notes] ++ relayParts) s t)
    ∧ (r.broadcast = false → s.station ≠ 0 → ¬ RelayTakes (4 + rest.length) s → t.flagSet .replyDrop = true)

/-- The command that carries a request of each kind forward; the line levels matter to AISLE_RESET alone. -/
def ReqKind.command (lines : LineLevels) : ReqKind → Instr
  | .taskPost => .taskPost | .taskCancel => .taskCancel | .taskAmend => .taskAmend | .pickerSet => .pickerSet
  | .pickerPause => .pickerPause | .pickerResume => .pickerResume | .pickerLeave => .pickerLeave
  | .areaLock => .areaLock | .areaUnlock => .areaUnlock | .mapLoad => .mapLoad | .mapRemove => .mapRemove
  | .configSet => .configSet | .rightsSet => .rightsSet | .timeSet => .timeSet | .counterSet => .counterSet
  | .attentionMask => .attentionMask | .attentionClear => .attentionClear | .branchScan => .branchScan
  | .lampDirect => .lampDirect | .aisleReset => .aisleReset lines | .taskQuery => .taskQuery | .pickerRead => .pickerRead
  | .mapRead => .mapRead | .configRead => .configRead | .counterRead => .counterRead | .attentionRead => .attentionRead
  | .statusRead => .statusRead | .rosterRead => .rosterRead

/-- The counters after one signal: each that selects the event, with the place in its mask where the event is attributed to one, adds one
(R181). -/
def Counters.after (c : Counters) (e : CounterEvent) (place : Option Nat) : Counters :=
  let bump (x : Counter) : Counter := if x.counts e place then { x with count := x.count + 1 } else x
  { c0 := bump c.c0, c1 := bump c.c1, c2 := bump c.c2, c3 := bump c.c3 }

/-- From `s` to `t` no flag changes but those listed; REPORT_LOST and the COUNTER_WRAP flags, which the end of any event may set, are left
open (R170, R182). -/
def FlagsKept (fs : List Flag) (s t : State) : Prop :=
  ∀ f, f ∉ fs → f ≠ .reportLost → (∀ k, f ≠ .counterWrap k) → t.flagSet f = s.flagSet f

/-! ## Resets and arrivals -/

/-- Both trunk lines show activity and both branch lines are free. -/
def linesSound (lines : LineLevels) : Bool := lines.activeA && lines.activeB && !lines.heldL && !lines.heldR

/-- The flags right after a reset: the live flags of the lines taken, and no other (R190). -/
def flagAfterReset (lines : LineLevels) : Flag → Bool
  | .linkADown => !lines.activeA
  | .linkBDown => !lines.activeB
  | .branchLFault => lines.heldL
  | .branchRFault => lines.heldR
  | _ => false

/-- The live flags that set at a reset are reported in one ATTENTION record: where a trunk port is UP it leaves at once in one REPORT frame
with the reset values of target, hop count and sequence, elsewhere it waits in the FIFO, and a repeater-only station discards it (R17, R20, R171,
R190). -/
def LiveFlagsReported (station : Nat) (t : State) : Prop :=
  let record : Record := .attention t.flags 0
  let frame : Frame := { dest := 48, origin := station, kind := 0x81, express := true, spare := false, hop := 32, seq := 0,
                         payload := 1 :: record.bytes }
  (station = 0 → t.fifo = [] ∧ t.frames = [] ∧ t.seq = 0 ∧ t.ownSent = []) ∧
  (station ≠ 0 → t.upPorts = [] → t.fifo = [{ record := record, entered := 0 }] ∧ t.frames = [] ∧ t.seq = 0 ∧ t.ownSent = []) ∧
  (station ≠ 0 → t.upPorts ≠ [] → t.fifo = [] ∧ t.seq = 1 ∧ t.ownSent = [0] ∧ t.freeCells = 95 ∧ ∃ ref,
    t.frames = [{ ref := ref, frame := frame, refs := t.upPorts.length, requester := some .reportPacker }]
      ∧ ∀ p ∈ t.upPorts, (t.port p).references = [ref])

/-- `t` is the machine after a reset from `s`: every part at its reset value, but for the station number, the cause, what the lines give, the
commands that still wait and the report of the live flags (R1, R39, R160, R190). DESIGN CHOICE: the commands stay (log 26), and the model's own
fields are as at State.reset (logs 4, 6). -/
def AfterReset (station : Nat) (cause : ResetCause) (lines : LineLevels) (s t : State) : Prop :=
  t.pending = s.pending ∧ t.station = station ∧ t.resetCause = cause
    ∧ t.portA.up = lines.activeA ∧ t.portB.up = lines.activeB ∧ t.branchL.fault = lines.heldL ∧ t.branchR.fault = lines.heldR
    ∧ (∀ f, t.flagSet f = flagAfterReset lines f)
    ∧ OnlyChanges ([.waiting, .station, .resetCause, .lines, .faults, .flags, .records] ++ relayParts) State.reset t
    ∧ (linesSound lines = true → OnlyChanges [.waiting, .station, .resetCause] State.reset t)
    ∧ (linesSound lines = false → LiveFlagsReported station t)

/-- A frame arrives whole: no length fault, its check passes, its header is in range and its hop count is not 0 (R7, R8). -/
def SoundArrival (bytes : List Byte) (f : Frame) : Prop :=
  let rx : RxBuffer := { bytes := bytes.take 256, received := bytes.length }
  rx.lengthFault = false ∧ rx.checkOk = true ∧ f = Frame.ofBytes (bytes.take 256)
    ∧ (isAisle f.origin || isSupervisor f.origin) = true
    ∧ (isAisle f.dest || isSupervisor f.dest || f.dest == 63) = true ∧ f.hop ≠ 0

/-- A frame that goes on round the ring without a delivery here: every one at a repeater-only station, and elsewhere one neither from nor to
this station, nor to all aisles (R11, R17). -/
def PassesThrough (f : Frame) (s : State) : Prop :=
  s.station = 0 ∨ (f.origin ≠ s.station ∧ f.dest ≠ s.station ∧ f.dest ≠ 63)

/-- From `s` to `t` no frame leaves the store, and every frame that enters it is the packer's: nothing is forwarded and nothing answered. -/
def OnlyReportsAdded (s t : State) : Prop :=
  Originated s t ∧ ∀ x ∈ newFrames s t, x.requester = some .reportPacker

/-- The forwarded copy of a frame, its number unchanged, is the first frame stored, with one reference, at the outgoing port; those behind it
are the packer's own (R15, R16, R22). -/
def ForwardedOn (p : Port) (f : Frame) (s t : State) : Prop :=
  StoreGrows s t ∧ s.nextRef ∈ (t.port (otherPort p)).references
    ∧ QueuesTake (otherPort p) (newFrames s t) s t ∧ QueuesTake p ((newFrames s t).drop 1) s t
    ∧ ∃ rest, newFrames s t = { ref := s.nextRef, frame := { f with hop := f.hop - 1 }, refs := 1, requester := none } :: rest
        ∧ Numbered rest s t ∧ ∀ x ∈ rest, x.requester = some .reportPacker

/-- The packer takes `n` more records without a frame becoming due, and no counter counts: fewer than eight records will wait, none of them
an ATTENTION record and none as old as the combine timeout, and the combine timer has not expired (R171, R181). -/
def PackerQuiet (n : Nat) (s : State) : Prop :=
  s.fifo.length + n < Config.recordsPerFrame
    ∧ (∀ w ∈ s.fifo, w.record.isAttention = false ∧ s.now < w.entered + s.params.combine * 16000)
    ∧ s.combineExpired = false ∧ 1 ≤ s.params.combine ∧ ∀ k, (s.counters.get k).selection = none

/-! ## The branch lines -/

/-- The other branch controller, and the request handler's scanning state of its branch, are as they were. -/
def OtherBranchKept (b : Branch) (s t : State) : Prop := ∀ d, d ≠ b → t.branch d = s.branch d ∧ t.scanning d = s.scanning d

/-- The oldest key event that waited on a branch has been taken, and those of the other branch wait as they did (R120). -/
def KeyTaken (b : Branch) (rest : List KeyEvent) (s t : State) : Prop :=
  (t.branch b).keys = rest ∧ ∀ d, d ≠ b → (t.branch d).keys = (s.branch d).keys

/-- The mapped slot positions of a module are in the display work queue, and of the slots that are not mapped those of the module that `more`
picks have entered it and no other (log 20). -/
def Requeued (b : Branch) (addr : Nat) (more : SlotPos → Prop) (s t : State) : Prop :=
  (∀ i, 1 ≤ i → i ≤ 4 → (s.entryAt { branch := b, addr := addr, slot := i }).isSome = true →
      { branch := b, addr := addr, slot := i } ∈ (t.branch b).work)
    ∧ ∀ pos : SlotPos, s.entryAt pos = none → (pos ∈ (t.branch b).work ↔ pos ∈ (s.branch b).work
        ∨ (pos.branch = b ∧ pos.addr = addr ∧ 1 ≤ pos.slot ∧ pos.slot ≤ 4 ∧ more pos))

/-- When a module returns, its mapped slot positions are queued, and of the others those that keep a direct display, were passed over or were
not acknowledged (R147, R156, R158, R166, log 35). -/
def Resent (b : Branch) (addr : Nat) (s t : State) : Prop :=
  Requeued b addr (fun pos => pos ∈ (s.branch b).directShown ∨ pos ∈ (s.branch b).unshown) s t

/-- The line of a branch is free: no fault, and no command in progress but an ALL_DARK, which has no reply (R145, R157, log 8). -/
def LineFree (b : Branch) (s : State) : Prop :=
  (s.branch b).fault = false ∧ ∀ c, (s.branch b).command = some c → c.what = .allDark

/-- A command at its first attempt (R144). -/
def firstAttempt (what : LineCommand) (ack : Nat) : Command :=
  { what := what, attempts := 1, ack := ack, invalid := false, ended := false }

/-- The address that takes the turn after the last one polled of a kind: the next in address order, wrapping, and the first where none was
polled (R159). -/
def NextPolled (last : Option Nat) (addrs : List Nat) (a : Nat) : Prop :=
  a ∈ addrs ∧
    ((∃ l, last = some l ∧ l < a ∧ ∀ c ∈ addrs, l < c → a ≤ c)
      ∨ ((∀ l, last = some l → ∀ c ∈ addrs, c ≤ l) ∧ ∀ c ∈ addrs, a ≤ c))

/-- The command in progress, one that awaits a reply (R144). -/
def Awaits (b : Branch) (c : Command) (s : State) : Prop :=
  (s.branch b).command = some c ∧ c.ended = false ∧ c.what ≠ .allDark

/-- What the end of a command's attempts without a valid reply leaves: a SHOW or POLL is over, an IDENT waits for its end to be taken, and a
LAMP_DIRECT is over and answered NOT_OPEN; the slot of a SHOW awaits another, and is not queued for it yet (R147, R148, R162, R166). -/
def EndedWithoutReply (b : Branch) (c : Command) (s t : State) : Prop :=
  (∀ q, q ∈ (t.branch b).unshown ↔ q ∈ (s.branch b).unshown ∨ ∃ d tag, c.what = .showSlot q d tag) ∧
  match c.what with
  | .ident _ => (t.branch b).command = some { c with ended := true }
  | .direct _ _ => (t.branch b).command = none ∧ ∀ d, (s.branch b).direct = some d →
      (t.branch b).direct = none ∧ (d.request.broadcast = false → RelayTakes 4 s → HasReply d.request .notOpen [] s t)
  | .showSlot _ _ _ | .poll _ | .allDark => (t.branch b).command = none

/-- The groups at a branch's locations that `p` picks stand on the display as their eligibility says: HELD exactly where they are not
eligible (R97). -/
def HeldAsEligible (p : MapEntry → Prop) (t : State) : Prop :=
  ∀ e ∈ t.locMap, p e → (t.slotAt e.pos).isSome = true → ∀ g ∈ t.groups, g.loc = e.code → (g.state = .held ↔ t.eligible e g = false)

/-! ## What every step keeps -/

/-- The cells of stored frames and the free cells total 96, and stored frames have distinct references, all given before (R18). -/
def StoreOk (s : State) : Prop :=
  s.freeCells + (s.frames.map (·.cells)).sum = Config.cells ∧ (s.frames.map (·.ref)).Nodup
    ∧ ∀ f ∈ s.frames, f.ref < s.nextRef

/-- Each port's transmission and queues name stored frames, each at most once, and a port that is DOWN or sends nothing names none; a stored
frame's reference count is the number of ports that name it, one or two (R19, R22, R23). -/
def QueuesOk (s : State) : Prop :=
  (∀ p, (s.port p).references.Nodup ∧ (∀ r ∈ (s.port p).references, ∃ f ∈ s.frames, f.ref = r)
      ∧ ((s.port p).up = false ∨ (s.port p).sending = none → (s.port p).references = []))
    ∧ ∀ f ∈ s.frames, (1 ≤ f.refs ∧ f.refs ≤ 2)
        ∧ f.refs = s.portA.references.count f.ref + s.portB.references.count f.ref

/-- The relay's two lists are within their sizes, and no pair stands twice in the recent-frame list (R9, R12). -/
def TrunkListsOk (s : State) : Prop :=
  s.recent.length ≤ Config.recentFrames ∧ s.recent.Nodup ∧ s.ownSent.length ≤ Config.ownSentFrames

/-- The location map stands in rising code order, each slot position once, within its size, every field in its range but for the
upper end of the code (R40). -/
def MapOk (s : State) : Prop :=
  (s.locMap.map (·.code)).Pairwise (· < ·) ∧ (s.locMap.map (·.pos)).Nodup ∧ s.locMap.length ≤ Config.mapEntries
    ∧ ∀ e ∈ s.locMap, 1 ≤ e.code ∧ e.pos.wellFormed = true ∧ e.area ≤ 15

/-- The rights table holds up to four entries, each a supervisor, none twice (R27). -/
def RightsOk (s : State) : Prop :=
  s.rights.length ≤ 4 ∧ (s.rights.map (·.station)).Nodup ∧ ∀ e ∈ s.rights, isSupervisor e.station = true

/-- The picker table stands in index order within its eight places, and no two entries share an id or a colour (R55). -/
def PickersOk (s : State) : Prop :=
  (s.pickers.map (·.index)).Pairwise (· < ·) ∧ (s.pickers.map (·.id)).Nodup ∧ (s.pickers.map (·.colour)).Nodup
    ∧ ∀ p ∈ s.pickers, p.index < Config.pickerPlaces ∧ p.id ≠ 0 ∧ p.colour ≠ .white ∧ p.priority ≤ 3

/-- The nine configuration parameters are in their ranges (section 2.4). -/
def ParamsOk (p : Params) : Prop :=
  (1 ≤ p.rotation ∧ p.rotation ≤ 16) ∧ (1 ≤ p.feedback ∧ p.feedback ≤ 8) ∧ p.lingerBase ≤ 255 ∧ p.combine ≤ 1000
    ∧ p.silence ≤ 60 ∧ (1 ≤ p.hops ∧ p.hops ≤ 63) ∧ (48 ≤ p.target ∧ p.target ≤ 55)
    ∧ 1 ≤ p.missLimit ∧ p.missLimit ≤ 7

/-- Each live flag is set exactly while its condition holds (R185). -/
def LiveFlagsOk (s : State) : Prop :=
  s.flagSet .orphaned = s.orphaned ∧ s.flagSet .linkADown = !s.portA.up ∧ s.flagSet .linkBDown = !s.portB.up
    ∧ s.flagSet .branchLFault = s.branchL.fault ∧ s.flagSet .branchRFault = s.branchR.fault
    ∧ s.flagSet .tasksHigh = decide (Config.tasksHigh ≤ s.tasks.length)

/-- The record FIFO is within its size, and the combine timer runs exactly while a record waits and times the oldest (R168, R171). -/
def PackerOk (s : State) : Prop :=
  s.fifo.length ≤ Config.reportRecords ∧ s.combine.map (·.since) = s.fifo.head?.map (·.entered)

/-- The task table is within its size and no two open tasks share a number (R68). -/
def TasksOk (s : State) : Prop := s.tasks.length ≤ Config.openTasks ∧ (s.tasks.map (·.number)).Nodup

/-- Every group's D is at most its R, its R at most 9999, and its members at most eight (R71, R72). -/
def GroupsOk (s : State) : Prop :=
  ∀ g ∈ s.groups, g.display ≤ g.remaining ∧ g.remaining ≤ Config.maxQuantity ∧ g.members.length ≤ Config.groupMembers

/-- The groups and the task table fit: group ids are distinct; every open task belongs to a group of its picker and location that counts
it among its members, and to a picker entry; a group's members are distinct open tasks of its own, at least one, whose quantities sum
to its R; each entry's open task count is the number of its open tasks (R61, R68, R71, R74). -/
def LinksOk (s : State) : Prop :=
  (s.groups.map (·.id)).Nodup ∧ (1 ≤ s.nextGroup ∧ s.nextGroup ≤ 65535)
    ∧ (∀ t ∈ s.tasks, (∃ g ∈ s.groups, g.id = t.group ∧ t.number ∈ g.members) ∧ ∃ p ∈ s.pickers, p.id = t.picker)
    ∧ (∀ g ∈ s.groups, g.members ≠ [] ∧ g.members.Nodup
        ∧ (∀ n ∈ g.members, ∃ t ∈ s.tasks, t.number = n ∧ t.group = g.id ∧ t.picker = g.picker ∧ t.loc = g.loc)
        ∧ g.remaining = ((s.tasks.filter (fun t => t.group = g.id)).map (·.quantity)).sum)
    ∧ ∀ p ∈ s.pickers, p.openTasks = (s.tasks.filter (fun t => t.picker = p.id)).length

/-- A branch's display work queue holds each slot position of that branch at most once; its roster stands in rising address order with
every address and count in range; its SHOW count and turn number are in range; it has a next tag for each of its slot positions; a
running scan's next address is in range; an IDENT is in progress only while a scan runs; and the pending direct command, the slots that keep a
direct display or await a SHOW, each listed once, and the slot of a SHOW in progress are of that branch (R95, R103, R147, R151, R157, R158,
R159, R162, R165, R166). -/
def BranchOk (b : Branch) (x : BranchState) : Prop :=
  (x.work.Nodup ∧ ∀ p ∈ x.work, p.branch = b)
    ∧ (x.roster.map (·.addr)).Pairwise (· < ·)
    ∧ (∀ m ∈ x.roster, 1 ≤ m.addr ∧ m.addr ≤ 48 ∧ 1 ≤ m.slots ∧ m.slots ≤ 4 ∧ m.misses ≤ 7 ∧ m.owed ≤ 4)
    ∧ (x.shows ≤ Config.showsPerPoll ∧ x.turn < 16 ∧ x.nextTags.length = Config.slotsPerBranch)
    ∧ (∀ sc, x.scan = some sc → 1 ≤ sc.next ∧ sc.next ≤ 48)
    ∧ (∀ c, x.command = some c → ∀ a, c.what = .ident a → 1 ≤ a ∧ a ≤ 48 ∧ x.scan.isSome = true)
    ∧ (∀ d, x.direct = some d → d.pos.branch = b) ∧ (x.directShown.Nodup ∧ ∀ p ∈ x.directShown, p.branch = b)
    ∧ (x.unshown.Nodup ∧ ∀ p ∈ x.unshown, p.branch = b)
    ∧ ∀ c pos d tag, x.command = some c → c.what = .showSlot pos d tag → pos.branch = b

/-- Both branches keep the branch property, and the request handler holds a branch as scanning exactly while its scan runs (R37). -/
def BranchesOk (s : State) : Prop :=
  BranchOk .l s.branchL ∧ BranchOk .r s.branchR ∧ s.scanningL = s.branchL.scan.isSome ∧ s.scanningR = s.branchR.scan.isSome

/-- A tag history holds at most four entries with distinct tags, and each group it names is an open one of the slot's location that has been
shown (R75, R107, R109, log 34). -/
def HistoryOk (x : SlotState) (s : State) : Prop :=
  x.history.length ≤ Config.historyEntries ∧ (x.history.map (·.tag)).Nodup
    ∧ ∀ h ∈ x.history, ∀ i, h.shown = some i →
        ∃ g ∈ s.groups, g.id = i.1 ∧ (s.entryAt x.pos).map (·.code) = some g.loc ∧ g.firstShown.isSome = true

/-- A slot's set holds at most four groups, no two of one picker, each an open SHOWN group of its location; the position is in the set, and
there is one exactly where the set is not empty; the interval runs exactly for two groups or more; the linger timer runs only at a position,
and the lingered groups are in the set (R97, R100, R104, R114, R117). -/
def SetOk (x : SlotState) (s : State) : Prop :=
  (x.rotation.length ≤ Config.rotationGroups ∧ x.rotation.Nodup ∧ (x.rotation.filterMap s.groupOf |>.map (·.picker)).Nodup)
    ∧ (∀ i ∈ x.rotation, ∃ g ∈ s.groups, g.id = i ∧ g.state = .shown ∧ (s.entryAt x.pos).map (·.code) = some g.loc)
    ∧ ((∀ i, x.position = some i → i ∈ x.rotation) ∧ (x.position = none ↔ x.rotation = []))
    ∧ x.rotTimer.isSome = decide (2 ≤ x.rotation.length)
    ∧ (x.linger.isSome = true → x.position.isSome = true)
    ∧ x.lingered.Nodup ∧ ∀ i ∈ x.lingered, i ∈ x.rotation

/-- The scheduler holds one record for each mapped slot position and no other, each with its history and set in order; every group's location
is mapped; and a SHOWN group has a first-shown time and stands in its slot's set (R71, R95, R97). -/
def SlotsOk (s : State) : Prop :=
  (s.slots.map (·.pos)).Nodup ∧ (∀ pos, (s.slotAt pos).isSome = (s.entryAt pos).isSome)
    ∧ (∀ x ∈ s.slots, HistoryOk x s ∧ SetOk x s)
    ∧ ∀ g ∈ s.groups, (∃ e ∈ s.locMap, e.code = g.loc ∧ (g.state = .shown → ∀ x, s.slotAt e.pos = some x → g.id ∈ x.rotation))
        ∧ (g.state = .shown → g.firstShown.isSome = true)
        ∧ (g.linger = true → g.state = .shown)

/-- Every location of the map stands on the display as its queue gives it (R97, R99, R102). -/
def DisplayOk (s : State) : Prop := ∀ e ∈ s.locMap, Displayed e s

end Sys2Proof.Machine
end

