-- ==== Sys2Proof/Certificates/Slice0/Obligations.lean ====
section
/-!
DEFINITION. The statements about the GTH2416 that are to be proved: one definition each, with the rules it formalises.
-/

open Sys2Proof Sys2Proof.Machine

/-! ## The machine as a whole -/

/-- A step runs the command at the front of the queue with the queue's rest (how commands reach the block: log 1).
The model's choice: log 26. -/
def Obligations.StepRunsFrontCommand : Prop :=
  ∀ (c : Instr) (rest : List Instr) (s : State), s.pending = c :: rest → step s = exec c { s with pending := rest }

/-- R176 with log 4: each idle step is one reference period, the prescaler counts the periods, and as many idle steps as bring it back to 0
are AISLE_CLOCK_ADVANCE, which advances the aisle clock by one and changes nothing but the time. -/
def Obligations.IdleStepsMakeClockAdvance : Prop :=
  ∀ s : State, s.pending = [] → s.residue < 16000 →
    (∀ n, n < 16000 - s.residue → ∃ u, Sys2Proof.core.run n s = .next u ∧ u.clock = s.clock
      ∧ u.residue = s.residue + n ∧ u.now = s.now + n ∧ OnlyChanges [.moment, .clock] s u) ∧
    ∃ t, exec .aisleClockAdvance s = .next t ∧ Sys2Proof.core.run (16000 - s.residue) s = .next t
      ∧ t.clock = s.clock + 1 ∧ t.residue = 0 ∧ t.now = s.now + (16000 - s.residue) ∧ OnlyChanges [.moment, .clock] s t

/-! ## Resets -/

/-- The values that the manual gives to the trunk ring, the request handler, the map and the pickers for after a reset (R9, R12, R18, R21, R22, R27,
R33, R35, R40, R52, R55): lists, tables and queues are empty, the store is free, the parameters hold their reset values. -/
def Obligations.ResetValues : Prop :=
  let s := State.reset
  (s.recent = [] ∧ s.ownSent = [] ∧ s.seq = 0 ∧ s.freeCells = 96 ∧ s.frames = [])
    ∧ (s.portA.references = [] ∧ s.portB.references = [])
    ∧ (s.rights = [] ∧ s.orphaned = false ∧ s.silenceSince = s.now)
    ∧ s.params = { rotation := 6, feedback := 4, lingerBase := 30, adaptive := false, combine := 50, silence := 5, hops := 32,
                   target := 48, missLimit := 3 }
    ∧ s.locMap = [] ∧ s.locked = 0 ∧ s.pickers = []

/-- The values that the manual gives to tasks, groups, displays, branch controllers, packer, counters and flags for after a reset (R68, R73, R95,
R107, R151, R164, R168, R176, R180, R185, R186): no task, group, slot, module or record, a scan to run on each branch, every flag enabled. Every
flag is clear, since State.reset stands for a reset with sound lines, which is the model's choice of log 6. -/
def Obligations.ResetValuesOfWork : Prop :=
  let s := State.reset
  (s.tasks = [] ∧ s.groups = [] ∧ s.nextGroup = 1 ∧ s.slots = [])
    ∧ (∀ b, (s.branch b).roster = [] ∧ (s.branch b).work = [] ∧ (s.branch b).command = none ∧ (s.branch b).shows = 0
        ∧ (s.branch b).turn = 0 ∧ (s.branch b).direct = none ∧ (s.branch b).nextTags = List.replicate 192 0
        ∧ (s.branch b).scan = some { darkFirst := true, next := 1, found := 0 } ∧ s.scanning b = true)
    ∧ (s.fifo = [] ∧ s.combine = none)
    ∧ (∀ k, s.counters.get k = { count := 0, selection := none, mask := 0 })
    ∧ (∀ f : Flag, s.flagSet f = false) ∧ (∀ f : Flag, s.mask.getLsbD f.position = true)
    ∧ s.clock = 0 ∧ s.residue = 0

/-- R6, R38, R39, R190: power-on and the release of the reset pin reset everything and sample the straps, with 31 read as 0; the soft reset,
once the reply's release is noticed, resets everything and keeps the station number. The live flags that set at any of them are reported in one
ATTENTION record, which leaves in one REPORT frame where a trunk port is UP, waits in the FIFO where none is, and is discarded at a
repeater-only station. That the commands still waiting outlast a reset is the model's choice of log 26, and that its own fields, such as the count
of periods and the requests and keys in hand, then stand as at State.reset is that of logs 4 and 6.
The model's choices: log 4, log 5, log 6, log 7, log 26. -/
def Obligations.ResetsRestoreEverything : Prop :=
  ∀ (straps : BitVec 5) (lines : LineLevels) (s : State),
    (∃ t, exec (.powerOn straps lines) s = .next t
      ∧ AfterReset (if straps.toNat ≤ 30 then straps.toNat else 0) .powerOn lines s t) ∧
    (∃ t, exec (.resetPin straps lines) s = .next t
      ∧ AfterReset (if straps.toNat ≤ 30 then straps.toNat else 0) .resetPin lines s t) ∧
    (s.pendingReset = .noticed → ∃ t, exec (.softReset lines) s = .next t ∧ AfterReset s.station .aisleReset lines s t)

/-- R38: an addressed AISLE_RESET that the relay takes the reply of is answered OK and then awaits that reply's release; a broadcast, or one
whose reply the relay refuses, resets at once with the station number kept. That the commands still waiting outlast the reset is the model's choice
of log 26, and that its own fields then stand as at State.reset is that of logs 4 and 6.
The model's choices: log 2, log 4, log 5, log 6, log 7, log 26. -/
def Obligations.AisleResetAnswersThenResets : Prop :=
  ∀ (r : Request) (lines : LineLevels) (s : State), Carried .aisleReset r s →
    (r.broadcast = false → RelayTakes 4 s →
      ∃ t, exec (.aisleReset lines) s = .next t ∧ t.pendingReset = .awaiting (some s.nextRef)
        ∧ t.admitted = s.admitted.tail ∧ HasReply r .ok [] s t
        ∧ OnlyChanges ([.admitted, .pendingReset, .notes] ++ relayParts) s t) ∧
    (r.broadcast = true ∨ (s.station ≠ 0 ∧ ¬ RelayTakes 4 s) →
      ∃ t, exec (.aisleReset lines) s = .next t ∧ AfterReset s.station .aisleReset lines s t)

/-! ## The ring relay (chapter 1) -/

/-- R4, R7, R8: a frame on a DOWN port is discarded without check; on an UP port a length, check or header fault discards it with FRAME_FAULT,
and then a hop count of 0 with HOP_EXPIRED, each signalling FRAME_DROPPED; only reports enter the store, and the receive buffer is free again.
The model's choices: log 7, log 27. -/
def Obligations.UnsoundArrivalDropped : Prop :=
  ∀ (p : Port) (bytes : List Byte) (s : State),
    let rx : RxBuffer := { bytes := bytes.take 256, received := bytes.length }
    let f := Frame.ofBytes rx.bytes
    let faulty := rx.lengthFault = true ∨ rx.checkOk = false ∨ (isAisle f.origin || isSupervisor f.origin) = false
      ∨ (isAisle f.dest || isSupervisor f.dest || f.dest == 63) = false
    let dropped (flag : Flag) (t : State) := (t.port p).rx = { bytes := [], received := 0 } ∧ t.flagSet flag = true
      ∧ FlagsKept [flag] s t ∧ t.counters = s.counters.after .frameDropped none ∧ OnlyReportsAdded s t
      ∧ OnlyChanges ([.buffers, .counters] ++ eventParts) s t
    ((s.port p).up = false →
      ∃ t, exec (.frameArrival p bytes) s = .next t ∧ (t.port p).rx = { bytes := [], received := 0 }
        ∧ OnlyChanges [.buffers] s t) ∧
    ((s.port p).up = true → faulty → ∃ t, exec (.frameArrival p bytes) s = .next t ∧ dropped .frameFault t) ∧
    ((s.port p).up = true → ¬ faulty → f.hop = 0 → ∃ t, exec (.frameArrival p bytes) s = .next t ∧ dropped .hopExpired t)

/-- R10: a sound frame with this station's origin is neither delivered nor forwarded; it changes nothing when its sequence is in the own-sent
list, and otherwise sets STATION_CLASH, and only the packer's own reports enter the store. -/
def Obligations.OwnFrameRemoved : Prop :=
  ∀ (p : Port) (bytes : List Byte) (f : Frame) (s : State), (s.port p).up = true → SoundArrival bytes f →
    f.origin = s.station →
    (f.seq ∈ s.ownSent → ∃ t, exec (.frameArrival p bytes) s = .next t ∧ OnlyChanges [.buffers, .notes] s t) ∧
    (f.seq ∉ s.ownSent → ∃ t, exec (.frameArrival p bytes) s = .next t ∧ t.flagSet .stationClash = true
      ∧ FlagsKept [.stationClash] s t ∧ OnlyReportsAdded s t ∧ OnlyChanges (.buffers :: eventParts) s t)

/-- R15, R16, R22, R23: a frame that passes through, with a hop count of 2 or more, an UP outgoing port and enough free cells, is stored with
its hop count reduced by one and stands in the outgoing port's queue of its class, or is sent at once where that port is idle.
The model's choices: log 7, log 27. -/
def Obligations.FrameForwarded : Prop :=
  ∀ (p : Port) (bytes : List Byte) (f : Frame) (s : State), (s.port p).up = true → SoundArrival bytes f →
    PassesThrough f s → 2 ≤ f.hop → (s.port (otherPort p)).up = true → cellsFor f.length + 8 ≤ s.freeCells →
    ∃ t, exec (.frameArrival p bytes) s = .next t ∧ ForwardedOn p f s t
      ∧ t.counters = s.counters.after .frameForwarded none
      ∧ ((s.port (otherPort p)).sending ≠ none →
          s.nextRef ∈ if f.express then (t.port (otherPort p)).express else (t.port (otherPort p)).normal)
      ∧ ((s.port (otherPort p)).references = [] → (t.port (otherPort p)).sending = some s.nextRef)
      ∧ FlagsKept [] s t ∧ OnlyChanges ([.buffers, .counters] ++ eventParts) s t

/-- R15, R16: a frame that passes through is discarded with HOP_EXPIRED at a hop count of 1, else without a flag where the outgoing port is
DOWN, else with STORE_DROP where fewer than 8 cells would stay free; each signals FRAME_DROPPED, and only reports enter the store.
The model's choices: log 7, log 27. -/
def Obligations.ForwardingRefused : Prop :=
  ∀ (p : Port) (bytes : List Byte) (f : Frame) (s : State), (s.port p).up = true → SoundArrival bytes f →
    PassesThrough f s →
    let dropped (flags : List Flag) (t : State) := (∀ x ∈ flags, t.flagSet x = true) ∧ FlagsKept flags s t
      ∧ t.counters = s.counters.after .frameDropped none ∧ OnlyReportsAdded s t
      ∧ OnlyChanges ([.buffers, .counters] ++ eventParts) s t
    (f.hop = 1 → ∃ t, exec (.frameArrival p bytes) s = .next t ∧ dropped [.hopExpired] t) ∧
    (f.hop ≠ 1 → (s.port (otherPort p)).up = false → ∃ t, exec (.frameArrival p bytes) s = .next t ∧ dropped [] t) ∧
    (f.hop ≠ 1 → (s.port (otherPort p)).up = true → s.freeCells < cellsFor f.length + 8 →
      ∃ t, exec (.frameArrival p bytes) s = .next t ∧ dropped [.storeDrop] t)

/-- R13, R14, R25, R35, R36: a frame for this station whose pair is not in the recent-frame list is delivered; where it is a request, it is
admitted last, restarts the silence timer, and ends ORPHANED with SUPERVISOR_BACK and every location with open groups recomputed.
The model's choices: log 2, log 7, log 27. -/
def Obligations.RequestAdmitted : Prop :=
  ∀ (p : Port) (bytes : List Byte) (f : Frame) (k : ReqKind) (s : State), (s.port p).up = true → SoundArrival bytes f →
    s.station ≠ 0 → f.origin ≠ s.station → f.dest = s.station → (f.origin, f.seq) ∉ s.recent → s.pendingReset = .none →
    f.kind = k.code → isSupervisor f.origin = true → k.form.admits f.payload.length = true →
    ∃ t, exec (.frameArrival p bytes) s = .next t
      ∧ t.admitted = s.admitted ++ [{ kind := k, origin := f.origin, broadcast := f.dest == 63, seq := f.seq, payload := f.payload }]
      ∧ t.recent = (s.recent ++ [(f.origin, f.seq)]).drop (s.recent.length + 1 - 64)
      ∧ t.silenceSince = s.now ∧ t.orphaned = false ∧ t.counters = s.counters.after .frameDelivered none ∧ OnlyReportsAdded s t
      ∧ (s.orphaned = true → t.flagSet .orphaned = false ∧ t.flagSet .supervisorBack = true
          ∧ FlagsKept [.orphaned, .supervisorBack] s t
          ∧ (MapOk s → (s.groups.map (·.id)).Nodup → Redrawn (fun e => ∃ g ∈ s.groups, g.loc = e.code) s t)
          ∧ OnlyChanges ([.buffers, .recent, .silence, .orphaned, .admitted, .counters] ++ displayParts ++ eventParts) s t)
      ∧ (s.orphaned = false → FlagsKept [] s t
          ∧ OnlyChanges ([.buffers, .recent, .silence, .admitted, .counters] ++ eventParts) s t)

/-- R12, R13, R25, R38: a frame for this station whose pair is in the recent-frame list loses its pair and is discarded as a duplicate; one that
is no request of a supervisor, or comes while a reset is pending, is delivered and then discarded by the request handler; only reports enter the
store.
The model's choices: log 7, log 27. -/
def Obligations.DeliveryDiscarded : Prop :=
  ∀ (p : Port) (bytes : List Byte) (f : Frame) (s : State), (s.port p).up = true → SoundArrival bytes f →
    s.station ≠ 0 → f.origin ≠ s.station → f.dest = s.station →
    ((f.origin, f.seq) ∈ s.recent →
      ∃ t, exec (.frameArrival p bytes) s = .next t ∧ t.recent = s.recent.filter (· != (f.origin, f.seq))
        ∧ t.counters = s.counters.after .duplicateDiscarded none ∧ FlagsKept [] s t ∧ OnlyReportsAdded s t
        ∧ OnlyChanges ([.buffers, .recent, .counters] ++ eventParts) s t) ∧
    ((f.origin, f.seq) ∉ s.recent →
      (isSupervisor f.origin = false ∨ s.pendingReset ≠ .none ∨ ∀ k : ReqKind, f.kind = k.code → k.form.admits f.payload.length = false) →
      ∃ t, exec (.frameArrival p bytes) s = .next t
        ∧ t.recent = (s.recent ++ [(f.origin, f.seq)]).drop (s.recent.length + 1 - 64)
        ∧ t.counters = (s.counters.after .frameDelivered none).after .requestDiscarded none ∧ FlagsKept [] s t ∧ OnlyReportsAdded s t
        ∧ OnlyChanges ([.buffers, .recent, .counters] ++ eventParts) s t)

/-- R11 to R16, R25, R30, R35, R36: a frame for all aisles takes the delivery test and the forwarding test, each with its own outcome: it is a
duplicate, or delivered and then discarded as no request, or admitted; and it is stored for the outgoing port, or discarded for its hop count, for
a DOWN port or for the cells.
The model's choices: log 2, log 7, log 27, log 30. -/
def Obligations.BroadcastDeliveredAndForwarded : Prop :=
  ∀ (p : Port) (bytes : List Byte) (f : Frame) (s : State), (s.port p).up = true → SoundArrival bytes f →
    s.station ≠ 0 → s.station ≠ 63 → f.origin ≠ s.station → f.dest = 63 →
    let out := s.port (otherPort p)
    let short := s.freeCells < cellsFor f.length + 8
    let duplicate := (f.origin, f.seq) ∈ s.recent
    let request (k : ReqKind) := s.pendingReset = .none ∧ f.kind = k.code ∧ isSupervisor f.origin = true
      ∧ k.form.admits f.payload.length = true
    let unadmitted (t : State) := Keeps .admitted s t ∧ Keeps .silence s t ∧ t.orphaned = s.orphaned
    ∃ (t : State) (c : Counters), exec (.frameArrival p bytes) s = .next t
      ∧ (duplicate → t.recent = s.recent.filter (· != (f.origin, f.seq)) ∧ c = s.counters.after .duplicateDiscarded none ∧ unadmitted t)
      ∧ (¬ duplicate → t.recent = (s.recent ++ [(f.origin, f.seq)]).drop (s.recent.length + 1 - 64))
      ∧ (¬ duplicate → (∀ k, ¬ request k) →
          c = (s.counters.after .frameDelivered none).after .requestDiscarded none ∧ unadmitted t)
      ∧ (∀ k, ¬ duplicate → request k → c = s.counters.after .frameDelivered none ∧ t.silenceSince = s.now ∧ t.orphaned = false
          ∧ t.admitted = s.admitted ++ [{ kind := k, origin := f.origin, broadcast := true, seq := f.seq, payload := f.payload }])
      ∧ (f.hop = 1 → t.flagSet .hopExpired = true ∧ t.counters = c.after .frameDropped none ∧ OnlyReportsAdded s t)
      ∧ (f.hop ≠ 1 → out.up = false → t.counters = c.after .frameDropped none ∧ OnlyReportsAdded s t)
      ∧ (f.hop ≠ 1 → out.up = true → short →
          t.flagSet .storeDrop = true ∧ t.counters = c.after .frameDropped none ∧ OnlyReportsAdded s t)
      ∧ (f.hop ≠ 1 → out.up = true → ¬ short → ForwardedOn p f s t ∧ t.counters = c.after .frameForwarded none)
      ∧ FlagsKept ((if f.hop = 1 then [.hopExpired] else if out.up = true ∧ short then [.storeDrop] else [])
          ++ if s.orphaned then [.orphaned, .supervisorBack] else []) s t
      ∧ (s.orphaned = true → t.orphaned = false → t.flagSet .orphaned = false ∧ t.flagSet .supervisorBack = true
          ∧ (MapOk s → (s.groups.map (·.id)).Nodup → Redrawn (fun e => ∃ g ∈ s.groups, g.loc = e.code) s t))
      ∧ (s.orphaned = true → t.orphaned = true → FlagsKept [.hopExpired, .storeDrop] s t)
      ∧ (s.orphaned = t.orphaned → OnlyChanges ([.buffers, .recent, .silence, .admitted, .counters] ++ eventParts) s t)
      ∧ OnlyChanges ([.buffers, .recent, .silence, .orphaned, .admitted, .counters] ++ displayParts ++ eventParts) s t

/-- R1, R3, R19, R24, R38: a port that goes DOWN sends nothing more and holds no reference, and its LINK flag sets; each stored frame that it
named loses a reference, and at its last one leaves the store with its cells returned, a room notice, and the release notice of an awaited
AISLE_RESET reply; other frames and the other port's queues stay; a port that comes UP clears its flag and gives the packer a room notice.
The model's choices: log 5, log 7. -/
def Obligations.LineDownAndUp : Prop :=
  ∀ (p : Port) (s : State), StoreOk s → (s.port p).references.Nodup →
    let named := fun x : StoredFrame => x.ref ∈ (s.port p).references
    let freed := s.frames.filter (fun x => x.ref ∈ (s.port p).references ∧ x.refs ≤ 1)
    let other := s.port (otherPort p)
    ((s.port p).up = true →
      ∃ t, exec (.lineDown p) s = .next t ∧ (t.port p).up = false ∧ (t.port p).references = []
        ∧ t.flagSet (linkFlag p) = true ∧ FlagsKept [linkFlag p] s t
        ∧ (∀ x ∈ s.frames, ¬ named x → x ∈ t.frames)
        ∧ (∀ x ∈ s.frames, named x → 1 < x.refs → { x with refs := x.refs - 1 } ∈ t.frames)
        ∧ (∀ x ∈ freed, ∀ y ∈ t.frames, y.ref ≠ x.ref)
        ∧ (∀ y ∈ t.frames, (s.nextRef ≤ y.ref ∧ y.requester = some .reportPacker)
            ∨ ∃ x ∈ s.frames, x.ref = y.ref ∧ y = { x with refs := y.refs })
        ∧ t.roomNotices = s.roomNotices + freed.length
        ∧ ((∀ x ∈ freed, x.requester = some .requestHandler → s.pendingReset ≠ .awaiting (some x.ref)) →
            t.pendingReset = s.pendingReset)
        ∧ (∀ x ∈ freed, x.requester = some .requestHandler → s.pendingReset = .awaiting (some x.ref) → t.pendingReset = .noticed)
        ∧ (t.port (otherPort p)).up = other.up
        ∧ (other.sending ≠ none → (t.port (otherPort p)).sending = other.sending
            ∧ other.express <+: (t.port (otherPort p)).express ∧ other.normal <+: (t.port (otherPort p)).normal)
        ∧ (s.flagSet (linkFlag p) = true ∨ s.mask.getLsbD (linkFlag p).position = false →
            t.port (otherPort p) = other ∧ t.freeCells = s.freeCells + (freed.map (·.cells)).sum
              ∧ OnlyChanges [.lines, .queues, .store, .roomNotices, .pendingReset, .flags, .notes] s t)
        ∧ OnlyChanges ([.lines, .roomNotices, .pendingReset] ++ eventParts) s t) ∧
    ((s.port p).up = false →
      ∃ t, exec (.lineUp p) s = .next t ∧ (t.port p).up = true ∧ t.flagSet (linkFlag p) = false ∧ FlagsKept [linkFlag p] s t
        ∧ t.roomNotices = s.roomNotices + 1 ∧ (t.port (otherPort p)).up = other.up
        ∧ OnlyChanges [.lines, .queues, .roomNotices, .flags, .notes] s t)

/-- R19, R23, R24, R38: at the end of a transmission the frame loses a reference; with its last one it is released, its cells return and the
packer has a room notice, and the release of an awaited AISLE_RESET reply is noticed; an UP port goes on with its next frame, EXPRESS first.
The model's choices: log 7, log 24. -/
def Obligations.TransmissionEndReleases : Prop :=
  ∀ (p : Port) (ref : Nat) (x : StoredFrame) (s : State), StoreOk s → (s.port p).sending = some ref → x ∈ s.frames →
    x.ref = ref →
    ∃ t, exec (.transmissionEnd p) s = .next t
      ∧ (x.refs ≤ 1 → (∀ y, y ∈ t.frames ↔ y ∈ s.frames ∧ y ≠ x) ∧ t.freeCells = s.freeCells + cellsFor x.frame.length
          ∧ t.roomNotices = s.roomNotices + 1
          ∧ t.pendingReset = if x.requester = some .requestHandler ∧ s.pendingReset = .awaiting (some ref) then .noticed
              else s.pendingReset)
      ∧ (1 < x.refs → { x with refs := x.refs - 1 } ∈ t.frames ∧ t.freeCells = s.freeCells
          ∧ t.roomNotices = s.roomNotices ∧ t.pendingReset = s.pendingReset)
      ∧ ((s.port p).up = true → (t.port p).sending = ((s.port p).express ++ (s.port p).normal).head?
          ∧ (t.port p).express ++ (t.port p).normal = ((s.port p).express ++ (s.port p).normal).tail)
      ∧ t.port (otherPort p) = s.port (otherPort p)
      ∧ OnlyChanges [.queues, .store, .roomNotices, .pendingReset, .notes] s t

/-! ## The report packer (chapter 9) -/

/-- R9, R17, R20 to R22, R171 to R175, section 11.4: when a frame is due, the packer taking a room notice, or finding the combine timer expired, sends
the oldest records, up to eight, in one REPORT frame to the report target, EXPRESS with an ATTENTION record among them, numbered by the sequence
counter and queued at every UP port; refused or not due, it keeps them; an expired timer keeps its frame due until it is built; at a repeater-only
station every origination is answered yes and leaves no trace, and the packer's due records go.
The model's choices: log 4, log 7, log 31, log 36. -/
def Obligations.ReportFrameSent : Prop :=
  (∀ dest kind express requester payload (s : State), s.station = 0 →
    originate dest kind express requester payload s = (.accepted none, s)) ∧
  ∀ (w : Waiting) (rest : List Waiting) (s : State), s.fifo = w :: rest →
    let records := (s.fifo.take 8).map (·.record)
    let payload := BitVec.ofNat 8 records.length :: records.flatMap Record.bytes
    let due (u : State) := 8 ≤ u.fifo.length ∨ (∃ x, u.fifo.head? = some x ∧ x.entered + u.params.combine * 16000 ≤ u.now)
      ∨ (u.fifo ≠ [] ∧ u.combineExpired = true) ∨ ∃ x ∈ u.fifo, x.record.isAttention = true
    let sent (t : State) := t.fifo <:+ s.fifo.drop 8
      ∧ SendsFirst .reportPacker (s.ownFrame s.params.target 0x81 (records.any Record.isAttention) payload) s t
    (s.roomNotices ≠ 0 → due s → RelayTakes payload.length s →
      ∃ t, exec .roomNoticeBuild s = .next t ∧ sent t ∧ t.roomNotices = s.roomNotices - 1
        ∧ OnlyChanges ([.roomNotices, .records, .notes] ++ relayParts) s t) ∧
    (s.roomNotices ≠ 0 → ¬ due s →
      ∃ t, exec .roomNoticeBuild s = .next t ∧ t.roomNotices = s.roomNotices - 1 ∧ OnlyChanges [.roomNotices, .notes] s t) ∧
    (s.roomNotices ≠ 0 → due s → s.station ≠ 0 → ¬ RelayTakes payload.length s →
      ∃ t, exec .roomNoticeBuild s = .next t ∧ t.roomNotices = s.roomNotices - 1 ∧ t.fifo = s.fifo
        ∧ t.combine = s.combine.map (fun c => { c with expired := c.expired || decide (c.since + s.params.combine * 16000 ≤ s.now) })
        ∧ OnlyChanges [.roomNotices, .records, .notes] s t) ∧
    (s.roomNotices ≠ 0 → due s → s.station = 0 →
      ∃ t, exec .roomNoticeBuild s = .next t ∧ t.fifo <:+ s.fifo.drop 8 ∧ ¬ due t ∧ t.roomNotices = s.roomNotices - 1
        ∧ OnlyChanges [.roomNotices, .records, .notes] s t) ∧
    (s.combine = some { since := w.entered, expired := false } → w.entered + s.params.combine * 16000 ≤ s.now →
      (RelayTakes payload.length s → ∃ t, exec .combineExpiry s = .next t ∧ sent t
        ∧ OnlyChanges ([.records, .notes] ++ relayParts) s t) ∧
      (s.station ≠ 0 → ¬ RelayTakes payload.length s → ∃ t, exec .combineExpiry s = .next t ∧ t.fifo = s.fifo
        ∧ t.combine = some { since := w.entered, expired := true } ∧ OnlyChanges [.records, .notes] s t) ∧
      (s.station = 0 → ∃ t, exec .combineExpiry s = .next t ∧ t.fifo <:+ s.fifo.drop 8 ∧ ¬ due t ∧ OnlyChanges [.records, .notes] s t))

/-- R170, R181, R182, R187: a counter that counts a signal at 16,777,215 takes 0, sets its COUNTER_WRAP flag and owes a record. At the end of an event
from which no frame can leave, a COUNTER_WRAP record for each counter that wrapped, in ascending number, and then one ATTENTION record of the enabled
flags that went from clear to set enter the FIFO behind the event's own records, or, when it is full, are lost with REPORT_LOST. A CONFIRM of an
unmapped slot shows it: its one signal, the records of the counters it wraps, and their flags under the mask.
The model's choice: log 3. -/
def Obligations.EventEndOffersRecords : Prop :=
  (∀ (e : CounterEvent) (place : Option Nat) (k : CounterNo) (s : State),
    let c := s.counters.get k
    let t := signal e place s
    t.counters = s.counters.after e place ∧
    (c.counts e place = true → c.count = 0xFFFFFF#24 → (t.counters.get k).count = 0 ∧ t.flagSet (.counterWrap k) = true
      ∧ t.notes.wraps.count k = s.notes.wraps.count k + 1) ∧
    (c.counts e place = false ∨ c.count ≠ 0xFFFFFF#24 → t.flagSet (.counterWrap k) = s.flagSet (.counterWrap k)
      ∧ t.notes.wraps.count k = s.notes.wraps.count k)) ∧
  (∀ (f : State → State) (s : State),
    let u := f { s with notes := EventNotes.empty }
    let wraps := [CounterNo.c0, .c1, .c2, .c3].flatMap fun k => List.replicate (u.notes.wraps.count k) (Record.counterWrap k u.clock)
    let newly := u.notes.noted &&& u.mask
    let records := wraps ++ if newly = 0 then [] else [.attention newly u.clock]
    u.station ≠ 0 → u.portA.up = false → u.portB.up = false →
    (u.fifo.length + records.length ≤ 32 →
      (event f s).fifo = u.fifo ++ records.map (fun r => { record := r, entered := u.now })
        ∧ OnlyChanges [.records, .notes] u (event f s)) ∧
    (u.fifo.length = 32 → records ≠ [] → (event f s).fifo = u.fifo ∧ (event f s).flagSet .reportLost = true
      ∧ ∀ g, g ≠ .reportLost → (event f s).flagSet g = u.flagSet g)) ∧
  ∀ (b : Branch) (k : KeyEvent) (rest : List KeyEvent) (s : State), (s.branch b).keys = k :: rest → k.key = .confirm →
    s.entryAt k.pos = none → s.station ≠ 0 → s.portA.up = false → s.portB.up = false →
    let wrapped := [CounterNo.c0, .c1, .c2, .c3].filter fun n => (s.counters.get n).counts .unmappedKey none && (s.counters.get n).count = 0xFFFFFF#24
    let records (t : State) := wrapped.map (fun n => Record.counterWrap n s.clock)
      ++ if t.flags &&& ~~~s.flags &&& s.mask = 0 then [] else [.attention (t.flags &&& ~~~s.flags &&& s.mask) s.clock]
    s.fifo.length + wrapped.length < 32 →
    ∃ t, exec (.confirmKey b) s = .next t ∧ KeyTaken b rest s t ∧ t.counters = s.counters.after .unmappedKey none
      ∧ (∀ g, t.flagSet g = (s.flagSet g || decide (∃ n ∈ wrapped, g = .counterWrap n)))
      ∧ t.fifo = s.fifo ++ (records t).map (fun r => { record := r, entered := s.now })
      ∧ OnlyChanges [.keys, .counters, .flags, .records, .notes] s t

/-! ## Requests, rights and replies (chapter 2) -/

/-- R26, R27, R28, R38: a request of any kind whose origin lacks the right it needs is refused NO_RIGHT, and else one whose item count is out of
range BAD_FIELD, and else one whose length does not fit its count BAD_LENGTH, with no other effect; under open admission every right is held,
and with a loaded table those of the origin's entry; while a reset is pending it is discarded with REQUEST_DISCARDED, without a reply.
The model's choice: log 2. -/
def Obligations.RequestsRefusedOrDiscarded : Prop :=
  ∀ (k : ReqKind) (r : Request) (lines : LineLevels) (s : State), s.admitted.head? = some r → r.kind = k →
    (s.pendingReset = .none → s.holds r.origin k.right = false → ∃ t, exec (k.command lines) s = .next t ∧ Answered [] r .noRight [] s t) ∧
    (∀ size least most, k.form = .items size least most → s.pendingReset = .none → s.holds r.origin k.right = true →
      (r.field 0 1 < least ∨ most < r.field 0 1 →
        ∃ t, exec (k.command lines) s = .next t ∧ Answered [] r .badField [] s t) ∧
      (least ≤ r.field 0 1 → r.field 0 1 ≤ most → r.payload.length ≠ 1 + size * r.field 0 1 →
        ∃ t, exec (k.command lines) s = .next t ∧ Answered [] r .badLength [] s t)) ∧
    (s.rights = [] → ∀ o x, s.holds o x = true) ∧
    (s.rights ≠ [] → RightsOk s → ∀ o x, s.holds o x = true ↔ ∃ e ∈ s.rights, e.station = o ∧ e.rights.getLsbD x.bit = true) ∧
    (s.pendingReset ≠ .none →
      ∃ t, exec (k.command lines) s = .next t ∧ t.admitted = s.admitted.tail
        ∧ t.counters = s.counters.after .requestDiscarded none ∧ FlagsKept [] s t ∧ OnlyReportsAdded s t
        ∧ OnlyChanges ([.admitted, .counters] ++ eventParts) s t)

/-- R29: RIGHTS_SET replaces the whole table in frame order, or is refused at its first bad entry, with its 1-based index, and changes nothing.
The model's choices: log 2, log 33. -/
def Obligations.RightsSetWholeOrNothing : Prop :=
  ∀ (r : Request) (s : State), Carried .rightsSet r s →
    let items := r.rightsItems
    let good := fun e : Nat × Nat => 48 ≤ e.1 ∧ e.1 ≤ 55 ∧ e.2 < 16
    ((∀ e ∈ items, good e) → (items.map (·.1)).Nodup →
      ∃ t, exec .rightsSet s = .next t ∧ t.rights = items.map (fun e => { station := e.1, rights := BitVec.ofNat 4 e.2 })
        ∧ Answered [.rights] r .ok [] s t) ∧
    (∀ (i : Nat) (e : Nat × Nat), items[i]? = some e → (∀ d ∈ items.take i, good d) → ((items.take i).map (·.1)).Nodup →
      (¬ good e → ∃ t, exec .rightsSet s = .next t ∧ Answered [] r .badField [BitVec.ofNat 8 (i + 1)] s t) ∧
      (good e → e.1 ∈ (items.take i).map (·.1) →
        ∃ t, exec .rightsSet s = .next t ∧ Answered [] r .duplicate [BitVec.ofNat 8 (i + 1)] s t))

/-- R33, R35, R36, R118: CONFIG_SET refuses a bad enumerated parameter with its index; else each numeric parameter named takes its value clamped to
its range and the others are kept; a silence limit that leaves 0 starts the silence timer, and a changed one is judged at once; the reply carries the
nine values and the hop count they give, in a frame of its own or lost with REPLY_DROP.
The model's choices: log 2, log 16, log 19, log 29. -/
def Obligations.ConfigSetClampsAndApplies : Prop :=
  ∀ (r : Request) (s : State), Carried .configSet r s →
    let body (p : Params) := [BitVec.ofNat 8 p.rotation, BitVec.ofNat 8 p.feedback, BitVec.ofNat 8 p.lingerBase, indication p.adaptive]
      ++ beBytes 2 p.combine
      ++ [BitVec.ofNat 8 p.silence, BitVec.ofNat 8 p.hops, BitVec.ofNat 8 p.target, BitVec.ofNat 8 p.missLimit]
    (r.names 3 = true → 2 ≤ r.field 5 1 → ∃ t, exec .configSet s = .next t ∧ Answered [] r .badField [4] s t) ∧
    ((r.names 3 = true → r.field 5 1 < 2) → r.names 7 = true → (r.field 10 1 < 48 ∨ 55 < r.field 10 1) →
      ∃ t, exec .configSet s = .next t ∧ Answered [] r .badField [8] s t) ∧
    ((r.names 3 = true → r.field 5 1 < 2) → (r.names 7 = true → 48 ≤ r.field 10 1 ∧ r.field 10 1 ≤ 55) →
      ∃ t, exec .configSet s = .next t ∧ t.admitted = s.admitted.tail
        ∧ t.params.rotation = (if r.names 0 then max 1 (min 16 (r.field 2 1)) else s.params.rotation)
        ∧ t.params.feedback = (if r.names 1 then max 1 (min 8 (r.field 3 1)) else s.params.feedback)
        ∧ t.params.lingerBase = (if r.names 2 then min 255 (r.field 4 1) else s.params.lingerBase)
        ∧ t.params.adaptive = (if r.names 3 then r.field 5 1 == 1 else s.params.adaptive)
        ∧ t.params.combine = (if r.names 4 then min 1000 (r.field 6 2) else s.params.combine)
        ∧ t.params.silence = (if r.names 5 then min 60 (r.field 8 1) else s.params.silence)
        ∧ t.params.hops = (if r.names 6 then max 1 (min 63 (r.field 9 1)) else s.params.hops)
        ∧ t.params.target = (if r.names 7 then r.field 10 1 else s.params.target)
        ∧ t.params.missLimit = (if r.names 8 then max 1 (min 7 (r.field 11 1)) else s.params.missLimit)
        ∧ t.silenceSince = (if s.params.silence = 0 ∧ t.params.silence ≠ 0 then s.now else s.silenceSince)
        ∧ (t.orphaned = true ↔ s.orphaned = true ∨ (t.params.silence ≠ s.params.silence ∧ t.params.silence ≠ 0
            ∧ t.silenceSince + t.params.silence * 16000000 ≤ s.now))
        ∧ (t.orphaned = true → s.orphaned = false → t.flagSet .orphaned = true
            ∧ ∀ e ∈ s.locMap, (s.slotAt e.pos).isSome = true → ∀ g ∈ t.groups, g.loc = e.code → g.state = .held)
        ∧ OnlyChanges ([.admitted, .params, .silence, .orphaned, .rosters, .commands, .directs, .unshown, .counters] ++ displayParts
            ++ eventParts) s t
        ∧ Originated s t
        ∧ (r.broadcast = false → s.station ≠ 0 → t.flagSet .replyDrop = true
            ∨ ∃ x ∈ newFrames s t, x.requester = some .requestHandler
              ∧ ∃ q, x.frame = { s.ownFrame r.origin 0x80 true ([r.kind.code] ++ beBytes 2 r.seq.toNat ++ [ReplyCode.ok.code] ++ body t.params) with
                                 hop := t.params.hops, seq := q })
        ∧ (t.params.lingerBase = s.params.lingerBase → t.params.adaptive = s.params.adaptive → t.params.combine = s.params.combine →
            t.params.silence = s.params.silence → t.params.missLimit = s.params.missLimit →
            Answered [] r .ok (body t.params) { s with params := t.params } t))

/-- R34, R114 to R116, R147, R155, R170, R171: what a CONFIG_SET that passes its check does to what runs. Linger parameters: a base of 0 stops every
linger timer, a base that leaves 0 starts fresh ones, and else each running timer is judged, and expires or takes the new limit; however many expire,
no record is lost while the relay takes every frame, since each expiry is an event of its own (log 37). Combine timeout: a frame that is due by it, or
whose timer has expired, is sent or stays due, and else the timer runs on. Miss limit: each SILENT module at or above it becomes MISSING and ends its
command.
The model's choices: log 2, log 16, log 17, log 31, log 35, log 36, log 37. -/
def Obligations.ConfigSetJudgesWhatRuns : Prop :=
  ∀ (r : Request) (s : State), Carried .configSet r s → (r.names 3 = true → r.field 5 1 < 2) →
    (r.names 7 = true → 48 ≤ r.field 10 1 ∧ r.field 10 1 ≤ 55) →
    ∃ t, exec .configSet s = .next t ∧
    -- records
    (s.fifo.length ≤ 7 → s.station = 0 ∨ RelayTakes 193 t → t.fifo.length ≤ 7 ∧ t.flagSet .reportLost = s.flagSet .reportLost) ∧
    -- linger base and adaptive linger
    ((∀ k ∈ [4, 5, 8], r.names k = false) → MapOk s → (s.groups.map (·.id)).Nodup → SlotsOk s →
      let changed := t.params.lingerBase ≠ s.params.lingerBase ∨ t.params.adaptive ≠ s.params.adaptive
      (¬ changed → Keeps .slots s t ∧ Keeps .groups s t) ∧
      ∀ e ∈ s.locMap, ∀ x, s.slotAt e.pos = some x → changed →
        (t.params.lingerBase = 0 → t.slotAt e.pos = some { x with linger := none }) ∧
        (x.position.bind s.groupOf = none → t.params.lingerBase ≠ 0 → t.slotAt e.pos = some x) ∧
        ∀ g, x.position.bind s.groupOf = some g → t.params.lingerBase ≠ 0 →
          let limit := t.lingerLimit g * 16000
          (x.linger = none → s.params.lingerBase ≠ 0 → t.slotAt e.pos = some x) ∧
          (x.linger = none → s.params.lingerBase = 0 → t.slotAt e.pos = some { x with
            linger := if g.linger = false ∧ g.id ∉ x.lingered then some { since := s.now, length := limit } else none }) ∧
          (∀ l, x.linger = some l → s.now < l.since + limit → t.slotAt e.pos = some { x with linger := some { l with length := limit } }) ∧
          (∀ l, x.linger = some l → l.since + limit ≤ s.now →
            (∃ y, t.slotAt e.pos = some y ∧ y.linger = none ∧ y.position = x.position ∧ y.rotation = x.rotation ∧ g.id ∈ y.lingered
              ∧ y.shadow = t.deriveShadow y)
            ∧ { g with linger := true } ∈ t.groups
            ∧ (PackerQuiet s.locMap.length s → ∃ w ∈ t.fifo, w.record = .linger g.id g.picker g.loc s.clock))) ∧
    -- combine timeout
    ((∀ k ∈ [2, 3, 5, 6, 7, 8], r.names k = false) → t.params.combine ≠ s.params.combine → PackerOk s → ∀ w rest, s.fifo = w :: rest →
      let records := (s.fifo.take 8).map (·.record)
      let payload := BitVec.ofNat 8 records.length :: records.flatMap Record.bytes
      let elapsed := s.combineExpired = true ∨ w.entered + t.params.combine * 16000 ≤ s.now
      let due := 8 ≤ s.fifo.length ∨ elapsed ∨ ∃ x ∈ s.fifo, x.record.isAttention = true
      (due → RelayTakes payload.length s → r.broadcast = true ∨ 17 ≤ s.freeCells → t.fifo <:+ s.fifo.drop 8
        ∧ SendsFirst .reportPacker (s.ownFrame s.params.target 0x81 (records.any Record.isAttention) payload) s t) ∧
      (due → s.station ≠ 0 → ¬ RelayTakes payload.length s → r.broadcast = true → t.fifo = s.fifo
        ∧ t.combine = some { since := w.entered, expired := decide elapsed }) ∧
      (¬ due → r.broadcast = true ∨ RelayTakes 14 s → t.fifo = s.fifo ∧ t.combine = some { since := w.entered, expired := false })) ∧
    -- miss limit
    ((∀ k ∈ [2, 3, 4, 5], r.names k = false) → t.params.missLimit ≠ s.params.missLimit → MapOk s → (s.groups.map (·.id)).Nodup → BranchesOk s →
      ∀ b, let lost (m : Module) := m.presence = .silent ∧ t.params.missLimit ≤ m.misses
        let polled (m : Module) : Bool := (s.branch b).command.any fun c => !c.ended && c.what == .poll m.addr && c.invalid
        (t.branch b).roster = (s.branch b).roster.map (fun m => if m.presence = .silent ∧ t.params.missLimit ≤ m.misses then
            { m with presence := .missing, owed := if polled m then 0 else m.owed } else m)
        ∧ (∀ m ∈ (s.branch b).roster, lost m → t.flagSet .moduleLost = true)
        ∧ HeldAsEligible (fun e => e.pos.branch = b ∧ ∃ m ∈ (s.branch b).roster, lost m ∧ m.addr = e.pos.addr) t
        ∧ (∀ c, Awaits b c s → (∃ m ∈ (s.branch b).roster, lost m ∧ m.addr = c.what.addr) →
            match c.what with
            | .ident _ => (t.branch b).command = some { c with ended := true }
            | .direct _ _ => (t.branch b).command = none ∧ (t.branch b).direct = none
            | .showSlot pos _ _ => (t.branch b).command = none ∧ pos ∈ (t.branch b).unshown
            | .poll _ | .allDark => (t.branch b).command = none)
        ∧ ((∀ c, Awaits b c s → ∀ m ∈ (s.branch b).roster, lost m → m.addr ≠ c.what.addr) →
            (t.branch b).command = (s.branch b).command ∧ (t.branch b).direct = (s.branch b).direct))

/-- R33, R37, R184, R188: the reads that take no operand return the state as it stands: the parameters with the rights table, the status values,
the four counters with their settings, and the enabled flags' states with the mask; they change nothing.
The model's choices: log 2, log 19. -/
def Obligations.PlainReadsReturnState : Prop :=
  ∀ (r : Request) (s : State),
    (Carried .configRead r s → ∃ t, exec .configRead s = .next t ∧ Answered [] r .ok
      ([BitVec.ofNat 8 s.params.rotation, BitVec.ofNat 8 s.params.feedback, BitVec.ofNat 8 s.params.lingerBase,
          indication s.params.adaptive] ++ beBytes 2 s.params.combine
        ++ [BitVec.ofNat 8 s.params.silence, BitVec.ofNat 8 s.params.hops, BitVec.ofNat 8 s.params.target,
            BitVec.ofNat 8 s.params.missLimit]
        ++ s.rights.flatMap fun e => [BitVec.ofNat 8 e.station, e.rights.setWidth 8]) s t) ∧
    (Carried .statusRead r s → ∃ t, exec .statusRead s = .next t ∧ Answered [] r .ok
      ([BitVec.ofNat 8 s.station, s.resetCause.code, BitVec.ofNat 8 s.freeCells]
        ++ beBytes 2 s.locMap.length ++ beBytes 2 s.tasks.length ++ beBytes 2 s.groups.length
        ++ [BitVec.ofNat 8 s.pickers.length, BitVec.ofNat 8 s.branchL.roster.length,
            BitVec.ofNat 8 s.branchR.roster.length]
        ++ beBytes 4 s.clock.toNat
        ++ [indication s.orphaned, indication (!s.portA.up), indication (!s.portB.up), indication s.scanningL,
            indication s.scanningR]) s t) ∧
    (Carried .counterRead r s → ∃ t, exec .counterRead s = .next t ∧ Answered [] r .ok
      ([CounterNo.c0, .c1, .c2, .c3].flatMap fun k =>
        beBytes 3 (s.counters.get k).count.toNat ++ [selectionCode (s.counters.get k).selection, (s.counters.get k).mask]) s t) ∧
    (Carried .attentionRead r s → ∃ t, exec .attentionRead s = .next t ∧ Answered [] r .ok
      (beBytes 4 (s.flags &&& s.mask).toNat ++ beBytes 4 s.mask.toNat) s t)

/-- R51, R65, R91, R152: MAP_READ returns the entries from a start code on, and ROSTER_READ a branch's entries from a start address on, up to 16 in
order, with whether more follow; PICKER_READ returns one entry, or with id 0 all of them in index order, and TASK_QUERY an open task with its group; a
branch or start address out of range is refused BAD_FIELD, an id or number that is not held UNKNOWN_PICKER or UNKNOWN_TASK; they change nothing.
The model's choices: log 2, log 19. -/
def Obligations.ReadsReturnEntries : Prop :=
  ∀ (r : Request) (s : State),
    (Carried .mapRead r s →
      let found := s.locMap.filter (fun e => r.field 0 4 ≤ e.code)
      ∃ t, exec .mapRead s = .next t ∧ Answered [] r .ok
        (beBytes 2 (found.take 16).length
          ++ ((found.take 16).flatMap fun e => beBytes 4 e.code
            ++ [branchCode e.pos.branch, BitVec.ofNat 8 e.pos.addr, BitVec.ofNat 8 e.pos.slot, BitVec.ofNat 8 e.area])
          ++ [indication (16 < found.length)]) s t) ∧
    (Carried .rosterRead r s →
      (∀ b, r.field 0 1 = (branchCode b).toNat → 1 ≤ r.field 1 1 → r.field 1 1 ≤ 48 →
        let found := (s.branch b).roster.filter (fun m => r.field 1 1 ≤ m.addr)
        ∃ t, exec .rosterRead s = .next t ∧ Answered [] r .ok
          (BitVec.ofNat 8 (found.take 16).length
            :: ((found.take 16).flatMap fun m => [BitVec.ofNat 8 m.addr] ++ beBytes 6 m.serial.toNat
              ++ [BitVec.ofNat 8 m.slots, m.revision, m.presence.code, BitVec.ofNat 8 m.misses])
            ++ [indication (16 < found.length)]) s t) ∧
      (1 < r.field 0 1 ∨ r.field 1 1 = 0 ∨ 48 < r.field 1 1 →
        ∃ t, exec .rosterRead s = .next t ∧ Answered [] r .badField [] s t)) ∧
    (Carried .pickerRead r s →
      let body := fun p : Picker => [BitVec.ofNat 8 p.index] ++ beBytes 2 p.id
        ++ [p.colour.code, BitVec.ofNat 8 p.priority, p.state.code] ++ beBytes 2 p.openTasks ++ beBytes 2 (p.pace.getD 0)
        ++ [indication p.pace.isSome]
      (r.field 0 2 = 0 → ∃ t, exec .pickerRead s = .next t
        ∧ Answered [] r .ok (BitVec.ofNat 8 s.pickers.length :: s.pickers.flatMap body) s t) ∧
      (r.field 0 2 ≠ 0 → ∀ p, s.pickerOf (r.field 0 2) = some p →
        ∃ t, exec .pickerRead s = .next t ∧ Answered [] r .ok (body p) s t) ∧
      (r.field 0 2 ≠ 0 → (∀ p ∈ s.pickers, p.id ≠ r.field 0 2) →
        ∃ t, exec .pickerRead s = .next t ∧ Answered [] r .unknownPicker [] s t)) ∧
    (Carried .taskQuery r s →
      (∀ x g, s.taskOf (r.field 0 4) = some x → s.groupOf x.group = some g →
        ∃ t, exec .taskQuery s = .next t ∧ Answered [] r .ok
          (beBytes 4 x.number ++ beBytes 2 x.picker ++ beBytes 4 x.loc ++ beBytes 2 x.quantity ++ beBytes 2 x.group
            ++ beBytes 4 x.posted.toNat
            ++ [BitVec.ofNat 8 (g.members.idxOf x.number + 1), BitVec.ofNat 8 g.members.length, g.state.code]
            ++ beBytes 2 g.remaining ++ beBytes 2 g.display ++ beBytes 4 (g.firstShown.getD 0).toNat
            ++ [indication g.firstShown.isSome, indication g.linger]) s t) ∧
      ((∀ x ∈ s.tasks, x.number ≠ r.field 0 4) →
        ∃ t, exec .taskQuery s = .next t ∧ Answered [] r .unknownTask [] s t))

/-! ## Location map and areas (chapter 3) -/

/-- R42 to R48, R103: a MAP_LOAD whose entries all pass, each against the map as the entries before it left it, holds them all in code order: a new
code joins and a held one is replaced. A slot no longer mapped is released, one mapped now and not to the same code before is taken up, the others
keep their records; released slots that are not DARK and then those taken up are queued, each in ascending order of code (log 18).
The model's choices: log 2, log 18, log 19. -/
def Obligations.MapLoadApplied : Prop :=
  ∀ (r : Request) (es : List MapEntry) (s : State), Carried .mapLoad r s → MapOk s →
    r.loadItems.map LoadItem.entry = es.map some → AllPass s es →
    let map := es.foldl mapWith s.locMap
    let released := (s.locMap.filter (fun e => e.pos ∉ map.map (·.pos))).map (·.pos)
    let takenUp := (map.filter (fun e => ¬ ∃ x ∈ s.locMap, x.pos = e.pos ∧ x.code = e.code)).map (·.pos)
    ∃ t, exec .mapLoad s = .next t ∧ t.locMap = map ∧ (map.map (·.code)).Pairwise (· < ·)
      ∧ (∀ pos ∈ released, t.slotAt pos = none)
      ∧ (∀ pos ∈ takenUp, t.slotAt pos = some (SlotState.fresh pos))
      ∧ (∀ pos, pos ∉ released → pos ∉ takenUp → t.slotAt pos = s.slotAt pos)
      ∧ (∀ b, WorkGains b (released.filter (fun pos => Lit pos s) ++ takenUp) s t)
      ∧ Answered [.locations, .slots, .work] r .ok
          (beBytes 2 (map.length - s.locMap.length) ++ beBytes 2 (es.length - (map.length - s.locMap.length)) ++ beBytes 2 map.length) s t

/-- R42 to R46: the first entry of a MAP_LOAD that fails a check, against the map as the entries before it left it, refuses the whole request with
that check's code and the entry's index, and nothing changes: BAD_FIELD for its fields, IN_USE for a held code with open groups, SLOT_TAKEN for a slot
mapped to another code, BAD_FIELD for a slot beyond the roster's count. (In a full map every slot
is mapped, so a new code is refused SLOT_TAKEN before the check of R47.)
The model's choice: log 2. -/
def Obligations.MapLoadRefusedWhole : Prop :=
  ∀ (r : Request) (i : Nat) (item : LoadItem) (es : List MapEntry) (s : State), Carried .mapLoad r s → MapOk s →
    r.loadItems[i]? = some item → (r.loadItems.take i).map LoadItem.entry = es.map some → AllPass s es →
    let map := es.foldl mapWith s.locMap
    let refused (code : ReplyCode) := ∃ t, exec .mapLoad s = .next t ∧ Answered [] r code [BitVec.ofNat 8 (i + 1)] s t
    (item.code = 0 ∨ 1 < item.branch ∨ item.addr = 0 ∨ 48 < item.addr ∨ item.slot = 0 ∨ 4 < item.slot ∨ 15 < item.area → refused .badField) ∧
    (∀ e, item.entry = some e →
      let used := e.code ∈ map.map (·.code) ∧ ∃ g ∈ s.groups, g.loc = e.code
      let slotTaken := ∃ x ∈ map, x.pos = e.pos ∧ x.code ≠ e.code
      let beyond := ∃ m, (s.branch e.pos.branch).moduleAt e.pos.addr = some m ∧ m.slots < e.pos.slot
      (used → refused .inUse) ∧
      (¬ used → slotTaken → refused .slotTaken) ∧
      (¬ used → ¬ slotTaken → beyond → refused .badField))

/-- R48, R49: MAP_REMOVE takes all its codes out of the map when each is mapped, has no open groups and is named once, and releases their slots,
queueing those that are not DARK in ascending order of the codes they had (log 18), with the other slots kept; else the first bad code refuses it whole,
UNKNOWN_LOCATION or IN_USE, with its index.
The model's choices: log 2, log 18, log 19. -/
def Obligations.MapRemoveWholeOrNothing : Prop :=
  ∀ (r : Request) (s : State), Carried .mapRemove r s → MapOk s →
    let codes := r.numberItems
    let free := fun c => (s.entryOf c).isSome = true ∧ ∀ g ∈ s.groups, g.loc ≠ c
    let released := (s.locMap.filter (fun e => e.code ∈ codes)).map (·.pos)
    ((∀ c ∈ codes, free c) → codes.Nodup →
      ∃ t, exec .mapRemove s = .next t ∧ t.locMap = s.locMap.filter (fun e => e.code ∉ codes)
        ∧ (∀ pos, t.slotAt pos = if pos ∈ released then none else s.slotAt pos)
        ∧ (∀ b, WorkGains b (released.filter (fun pos => Lit pos s)) s t)
        ∧ Answered [.locations, .slots, .work] r .ok (beBytes 2 codes.length ++ beBytes 2 t.locMap.length) s t) ∧
    (∀ (i c : Nat), codes[i]? = some c → (∀ d ∈ codes.take i, free d) → (codes.take i).Nodup →
      ((s.entryOf c).isSome = false ∨ c ∈ codes.take i →
        ∃ t, exec .mapRemove s = .next t ∧ Answered [] r .unknownLocation [BitVec.ofNat 8 (i + 1)] s t) ∧
      (c ∉ codes.take i → (s.entryOf c).isSome = true → (∃ g ∈ s.groups, g.loc = c) →
        ∃ t, exec .mapRemove s = .next t ∧ Answered [] r .inUse [BitVec.ofNat 8 (i + 1)] s t))

/-! ## The picker table (chapter 4) -/

/-- R56 to R60: PICKER_SET's checks in order: BAD_FIELD with the index of the first bad field, TABLE_FULL for a new id without a free place,
COLOUR_IN_USE for a colour of another entry; a refused one changes nothing. One that passes gives a new id the free place of lowest index, ACTIVE,
with no tasks and no pace; for an id in the table it writes colour and priority and keeps the rest. A changed priority recomputes the picker's
locations, a changed colour alone renews the shadows of the slots that carry its SHOWN groups, and a change of neither has no further effect.
The model's choices: log 2, log 19. -/
def Obligations.PickerSetRegistersAndUpdates : Prop :=
  ∀ (r : Request) (s : State), Carried .pickerSet r s →
    let id := r.field 0 2
    let valid := fun c : Colour => Colour.ofCode (r.field 2 1) = some c ∧ c ≠ .white
    let fieldsOk := id ≠ 0 ∧ (∃ c, valid c) ∧ r.field 3 1 ≤ 3
    let found := ∃ p ∈ s.pickers, p.id = id
    let place := ∃ i, i < 8 ∧ ∀ p ∈ s.pickers, p.index ≠ i
    let body := fun p : Picker => beBytes 2 p.id ++ [p.colour.code, BitVec.ofNat 8 p.priority, p.state.code]
      ++ beBytes 2 p.openTasks ++ beBytes 2 (p.pace.getD 0) ++ [indication p.pace.isSome]
    (id = 0 → ∃ t, exec .pickerSet s = .next t ∧ Answered [] r .badField [1] s t) ∧
    (id ≠ 0 → (∀ c, ¬ valid c) → ∃ t, exec .pickerSet s = .next t ∧ Answered [] r .badField [2] s t) ∧
    (id ≠ 0 → (∃ c, valid c) → 3 < r.field 3 1 → ∃ t, exec .pickerSet s = .next t ∧ Answered [] r .badField [3] s t) ∧
    (fieldsOk → ¬ found → ¬ place → ∃ t, exec .pickerSet s = .next t ∧ Answered [] r .tableFull [] s t) ∧
    (fieldsOk → found ∨ place → (∃ p ∈ s.pickers, p.id ≠ id ∧ Colour.ofCode (r.field 2 1) = some p.colour) →
      ∃ t, exec .pickerSet s = .next t ∧ Answered [] r .colourInUse [] s t) ∧
    ∀ c, valid c → fieldsOk → (∀ p ∈ s.pickers, p.id ≠ id → p.colour ≠ c) →
      (∀ i, i < 8 → ¬ found → (∀ p ∈ s.pickers, p.index ≠ i) → (∀ j, j < i → ∃ p ∈ s.pickers, p.index = j) →
        let q : Picker := { index := i, id := id, colour := c, priority := r.field 3 1, state := .active, openTasks := 0, pace := none }
        ∃ t, exec .pickerSet s = .next t ∧ (∀ p, p ∈ t.pickers ↔ p ∈ s.pickers ∨ p = q)
          ∧ Answered [.pickers] r .ok ([1, BitVec.ofNat 8 i] ++ body q) s t) ∧
      (∀ p, s.pickerOf id = some p →
        let q := { p with colour := c, priority := r.field 3 1 }
        ∃ t, exec .pickerSet s = .next t ∧ t.pickers = s.pickers.map (fun x => if x.id = p.id then q else x)
          ∧ Answered (.pickers :: displayParts) r .ok ([0, BitVec.ofNat 8 p.index] ++ body q) s t
          ∧ (p.priority ≠ r.field 3 1 → MapOk s → (s.groups.map (·.id)).Nodup →
              Redrawn (fun e => ∃ g ∈ s.groups, g.loc = e.code ∧ g.picker = id) s t)
          ∧ (p.priority = r.field 3 1 → p.colour ≠ c → Keeps .groups s t
              ∧ (MapOk s → ∀ e ∈ s.locMap, ∀ x, s.slotAt e.pos = some x →
                  let shows := ∃ g ∈ s.groups, g.loc = e.code ∧ g.picker = id ∧ g.state = .shown
                  (shows → t.slotAt e.pos = some { x with shadow := t.deriveShadow x }
                    ∧ (t.deriveShadow x ≠ x.shadow → e.pos ∈ (t.branch e.pos.branch).work))
                  ∧ (¬ shows → t.slotAt e.pos = some x)))
          ∧ (p.colour = c → p.priority = r.field 3 1 →
              Answered [.pickers] r .ok ([0, BitVec.ofNat 8 p.index] ++ body q) s t))

/-- R53, R54, R62, R63: AREA_LOCK locks the areas named and AREA_UNLOCK opens them, the others keep their state, and both reply with all sixteen
states; PICKER_PAUSE and PICKER_RESUME write the state and reply with it and the open task count. The locations with open groups in the areas that
changed, or with a group of the picker that changed, are recomputed, and all others keep their groups and slots; an area or picker already in the
state, and an unknown id (UNKNOWN_PICKER), change nothing.
The model's choices: log 2, log 19. -/
def Obligations.AreasAndPickersSwitch : Prop :=
  (∀ (r : Request) (s : State),
    (Carried .areaLock r s → ∃ t, exec .areaLock s = .next t ∧ t.locked = s.locked ||| r.areaSet
      ∧ Answered (.areas :: displayParts) r .ok (beBytes 2 t.locked.toNat) s t
      ∧ (MapOk s → (s.groups.map (·.id)).Nodup → Redrawn (fun e => (∃ g ∈ s.groups, g.loc = e.code)
          ∧ r.areaSet.getLsbD e.area = true ∧ s.locked.getLsbD e.area = false) s t)
      ∧ (r.areaSet &&& ~~~s.locked = 0 → Answered [.areas] r .ok (beBytes 2 t.locked.toNat) s t)) ∧
    (Carried .areaUnlock r s → ∃ t, exec .areaUnlock s = .next t ∧ t.locked = s.locked &&& ~~~r.areaSet
      ∧ Answered (.areas :: displayParts) r .ok (beBytes 2 t.locked.toNat) s t
      ∧ (MapOk s → (s.groups.map (·.id)).Nodup → Redrawn (fun e => (∃ g ∈ s.groups, g.loc = e.code)
          ∧ r.areaSet.getLsbD e.area = true ∧ s.locked.getLsbD e.area = true) s t)
      ∧ (r.areaSet &&& s.locked = 0 → Answered [.areas] r .ok (beBytes 2 t.locked.toNat) s t))) ∧
  (∀ (c : Instr) (goal : PickerState) (k : ReqKind) (r : Request) (s : State),
    (c = .pickerPause ∧ k = .pickerPause ∧ goal = .paused) ∨ (c = .pickerResume ∧ k = .pickerResume ∧ goal = .active) →
    Carried k r s →
    (∀ p, s.pickerOf (r.field 0 2) = some p →
      let body := [goal.code] ++ beBytes 2 p.openTasks
      (p.state ≠ goal → ∃ t, exec c s = .next t
        ∧ t.pickers = s.pickers.map (fun x => if x.id = p.id then { p with state := goal } else x)
        ∧ (MapOk s → (s.groups.map (·.id)).Nodup → Redrawn (fun e => ∃ g ∈ s.groups, g.loc = e.code ∧ g.picker = p.id) s t)
        ∧ Answered (.pickers :: displayParts) r .ok body s t) ∧
      (p.state = goal → ∃ t, exec c s = .next t ∧ Answered [] r .ok body s t)) ∧
    ((∀ p ∈ s.pickers, p.id ≠ r.field 0 2) → ∃ t, exec c s = .next t ∧ Answered [] r .unknownPicker [] s t))

/-- R64, R75, R92, R109: PICKER_LEAVE withdraws the picker's tasks, removes its groups and frees its place, and replies with the number withdrawn
and the index; the groups' locations are recomputed, their entries leave the tag histories, TASKS_HIGH follows the count; no other task, group or
picker goes, and no other location changes.
The model's choices: log 2, log 19. -/
def Obligations.PickerLeaveWithdraws : Prop :=
  ∀ (r : Request) (s : State), Carried .pickerLeave r s → LiveFlagsOk s → (s.groups.map (·.id)).Nodup →
    (∀ p, s.pickerOf (r.field 0 2) = some p →
      ∃ t, exec .pickerLeave s = .next t ∧ t.tasks = s.tasks.filter (fun x => x.picker ≠ p.id)
        ∧ t.pickers = s.pickers.filter (fun x => x.id ≠ p.id)
        ∧ t.groups.map (·.id) = (s.groups.filter (fun g => g.picker ≠ p.id)).map (·.id)
        ∧ t.flagSet .tasksHigh = decide (240 ≤ t.tasks.length)
        ∧ (MapOk s → Redrawn (fun e => ∃ g ∈ s.groups, g.loc = e.code ∧ g.picker = p.id)
              { s with groups := s.groups.filter (fun g => g.picker ≠ p.id) } t
            ∧ Forgotten (fun g => g.picker = p.id) s t)
        ∧ Answered ([.tasks, .pickers, .flags] ++ displayParts) r .ok
            (beBytes 2 (s.tasks.filter (fun x => x.picker = p.id)).length ++ [BitVec.ofNat 8 p.index]) s t) ∧
    ((∀ p ∈ s.pickers, p.id ≠ r.field 0 2) →
      ∃ t, exec .pickerLeave s = .next t ∧ Answered [] r .unknownPicker [] s t)

/-! ## Tasks and pick groups (chapter 5) -/

/-- R73, R79 to R83, R61, R92: one task of a TASK_POST is refused by its first failing check, and nothing changes; otherwise it is recorded with the
clock's value, joins the last group of its location's queue that takes it or starts a new group with the first id from the next group id on, 1
following 65535, that no group has, adds one to its picker's open count, signals TASK_POSTED and lets TASKS_HIGH follow the count. -/
def Obligations.TaskPostedOrRefused : Prop :=
  ∀ (x : TaskItem) (s : State),
    let refused := fun code => postTask x s = ({ code := code, group := 0, placement := 0 }, s)
    let fits := x.number ≠ 0 ∧ 1 ≤ x.quantity ∧ x.quantity ≤ 9999
    let fresh := ∀ y ∈ s.tasks, y.number ≠ x.number
    let known := ∃ p ∈ s.pickers, p.id = x.picker
    let mapped := ∃ e ∈ s.locMap, e.code = x.loc
    (¬ fits → refused .badField) ∧ (fits → ¬ fresh → refused .duplicate) ∧ (fits → fresh → ¬ known → refused .unknownPicker) ∧
    (fits → fresh → known → ¬ mapped → refused .unknownLocation) ∧
    (fits → fresh → known → mapped → 256 ≤ s.tasks.length → refused .tableFull) ∧
    (fits → fresh → known → mapped → s.tasks.length < 256 →
      ∃ result u, postTask x s = (result, u) ∧ result.code = .ok
        ∧ u.tasks = s.tasks ++ [{ number := x.number, picker := x.picker, loc := x.loc, quantity := x.quantity, group := result.group,
                                  posted := s.clock }]
        ∧ u.counters = s.counters.after .taskPosted (s.placeOf x.picker)
        ∧ u.flagSet .tasksHigh = decide (240 ≤ u.tasks.length)
        ∧ (∀ p, s.pickerOf x.picker = some p → u.pickerOf x.picker = some { p with openTasks := p.openTasks + 1 })
        ∧ OnlyChanges [.tasks, .groups, .nextGroup, .pickers, .counters, .flags, .notes] s u
        ∧ (∀ g, ((s.queueOf x.loc).filter (fun g => g.takes x)).getLast? = some g →
            result.group = g.id ∧ result.placement = 2 ∧ u.nextGroup = s.nextGroup
              ∧ u.groups = s.groups.map fun h => if h.id = g.id then
                  { g with
                    members := g.members ++ [x.number], remaining := g.remaining + x.quantity
                    display := if g.display = g.remaining then g.remaining + x.quantity else g.display } else h)
        ∧ ((∀ g ∈ s.groups, g.loc = x.loc → s.priorityOf g.picker ≤ 3 → g.takes x = false) → s.groups.length ≤ 256 →
            1 ≤ s.nextGroup → s.nextGroup ≤ 65535 →
            result.placement = 1 ∧ 1 ≤ result.group ∧ result.group ≤ 65535 ∧ (∀ g ∈ s.groups, g.id ≠ result.group)
              ∧ (∃ k, result.group = (s.nextGroup - 1 + k) % 65535 + 1
                  ∧ ∀ j, j < k → ∃ g ∈ s.groups, g.id = (s.nextGroup - 1 + j) % 65535 + 1)
              ∧ u.nextGroup = result.group % 65535 + 1
              ∧ u.groups = s.groups ++ [{ id := result.group, picker := x.picker, loc := x.loc, members := [x.number],
                                          remaining := x.quantity, display := x.quantity, state := .waiting, firstShown := none,
                                          linger := false }]))

/-- R26, R78, R85, R87, section 11.3: TASK_POST and TASK_CANCEL take their items one by one in frame order, each against the table as the earlier
ones left it, then recompute the locations of the tasks posted or cancelled and no others, and reply OK with the results in frame order.
The model's choice: log 2. -/
def Obligations.TaskRequestsTakeItemsInOrder : Prop :=
  ∀ (r : Request) (s : State),
    let body := fun results : List ItemResult => BitVec.ofNat 8 results.length
      :: results.flatMap fun x => [x.code.code] ++ beBytes 2 x.group ++ [BitVec.ofNat 8 x.placement]
    (Carried .taskPost r s →
      let after := fun n => (r.taskItems.take n).foldl (fun u x => (postTask x u).2) (taken s)
      let last := after r.taskItems.length
      ∃ t results, exec .taskPost s = .next t ∧ t.admitted = s.admitted.tail
        ∧ OnlyChanges (displayParts ++ eventParts) last t
        ∧ (MapOk s → (last.groups.map (·.id)).Nodup → Redrawn (fun e => ∃ i x, r.taskItems[i]? = some x
            ∧ (postTask x (after i)).1.code = .ok ∧ x.loc = e.code) last t)
        ∧ results.length = r.taskItems.length
        ∧ (∀ i x, r.taskItems[i]? = some x → results[i]? = some (postTask x (after i)).1)
        ∧ (r.broadcast = false → RelayTakes (5 + 4 * results.length) s → HasReply r .ok (body results) s t)) ∧
    (Carried .taskCancel r s →
      let after := fun n => (r.numberItems.take n).foldl (fun u x => (cancelTask x u).2.2) (taken s)
      let last := after r.numberItems.length
      ∃ t results, exec .taskCancel s = .next t ∧ t.admitted = s.admitted.tail
        ∧ OnlyChanges (displayParts ++ eventParts) last t
        ∧ t.flagSet .tasksHigh = decide (240 ≤ t.tasks.length)
        ∧ (MapOk s → (s.groups.map (·.id)).Nodup → Redrawn (fun e => ∃ i n x, r.numberItems[i]? = some n
            ∧ (after i).taskOf n = some x ∧ x.loc = e.code) last t)
        ∧ results.length = r.numberItems.length
        ∧ (∀ i x, r.numberItems[i]? = some x → results[i]? = some (cancelTask x (after i)).1)
        ∧ (r.broadcast = false → RelayTakes (5 + 4 * results.length) s → HasReply r .ok (body results) s t))

/-- R70, R75, R86, R87, R109: one number of a TASK_CANCEL that names no open task changes nothing; an open task leaves the table and its picker's
open count, and its group loses it with its quantity, D being kept equal to R or at most the new R; a group left empty goes, and with it its place in
its slot's set and its entries in the tag history. -/
def Obligations.TaskCancelled : Prop :=
  ∀ (n : Nat) (s : State),
    ((∀ x ∈ s.tasks, x.number ≠ n) → cancelTask n s = ({ code := .unknownTask, group := 0, placement := 0 }, [], s)) ∧
    (∀ x g, s.taskOf n = some x → s.groupOf x.group = some g →
      ∃ u, cancelTask n s = ({ code := .ok, group := 0, placement := 0 }, [x.loc], u)
        ∧ u.tasks = s.tasks.filter (fun y => y.number ≠ n)
        ∧ (∀ p, s.pickerOf x.picker = some p → u.pickerOf x.picker = some { p with openTasks := p.openTasks - 1 })
        ∧ (g.members.filter (· ≠ n) = [] → u.groups = s.groups.filter (fun h => h.id ≠ g.id)
            ∧ (∀ e y, s.entryOf g.loc = some e → s.slotAt e.pos = some y → ∃ z, u.slotAt e.pos = some z
                ∧ z.rotation = y.rotation.filter (· ≠ g.id) ∧ z.lingered = y.lingered.filter (· ≠ g.id)
                ∧ z.position = y.position.filter (· ≠ g.id)
                ∧ z.history = y.history.filter (fun h => h.shown.map (·.1) ≠ some g.id))
            ∧ ∀ pos, (∀ e, s.entryOf g.loc = some e → e.pos ≠ pos) → u.slotAt pos = s.slotAt pos)
        ∧ (g.members.filter (· ≠ n) ≠ [] → Keeps .slots s u ∧ u.groups = s.groups.map fun h => if h.id = g.id then
            { g with
              members := g.members.filter (· ≠ n), remaining := g.remaining - x.quantity
              display := if g.display = g.remaining then g.remaining - x.quantity else min g.display (g.remaining - x.quantity) }
            else h)
        ∧ OnlyChanges [.tasks, .pickers, .groups, .slots] s u)

/-- R85, R86, R88: TASK_AMEND refuses an unknown number, a quantity outside 1 to 9999 and a sum above 9999; else the task takes the quantity and its
group's R and D follow by the remaining-change rule, its location is recomputed and no other, and the reply gives the group's id, R and D; an equal
quantity changes nothing.
The model's choice: log 2. -/
def Obligations.TaskAmended : Prop :=
  ∀ (r : Request) (s : State), Carried .taskAmend r s →
    ((∀ x ∈ s.tasks, x.number ≠ r.field 0 4) → ∃ t, exec .taskAmend s = .next t ∧ Answered [] r .unknownTask [] s t) ∧
    (∀ x g, s.taskOf (r.field 0 4) = some x → s.groupOf x.group = some g → x.quantity ≤ g.remaining →
      (r.field 4 2 < 1 ∨ 9999 < r.field 4 2 ∨ 9999 < g.remaining - x.quantity + r.field 4 2 →
        ∃ t, exec .taskAmend s = .next t ∧ Answered [] r .badField [] s t) ∧
      (1 ≤ r.field 4 2 → r.field 4 2 ≤ 9999 → g.remaining - x.quantity + r.field 4 2 ≤ 9999 →
        let newR := g.remaining - x.quantity + r.field 4 2
        let newD := if g.display = g.remaining then newR else min g.display newR
        let changed := s.groups.map fun h => if h.id = g.id then { g with remaining := newR, display := newD } else h
        ∃ t, exec .taskAmend s = .next t
          ∧ t.tasks = s.tasks.map (fun y => if y.number = x.number then { y with quantity := r.field 4 2 } else y)
          ∧ (∃ h ∈ t.groups, h.id = g.id ∧ h.members = g.members ∧ h.remaining = newR
              ∧ (r.field 4 2 ≠ x.quantity ∨ g.display ≤ g.remaining → h.display = newD))
          ∧ (r.field 4 2 ≠ x.quantity → MapOk s → (s.groups.map (·.id)).Nodup →
              Redrawn (fun e => e.code = x.loc) { s with groups := changed } t)
          ∧ Answered (.tasks :: displayParts) r .ok (beBytes 2 g.id ++ beBytes 2 newR ++ beBytes 2 newD) s t
          ∧ (r.field 4 2 = x.quantity → Answered [.tasks] r .ok (beBytes 2 g.id ++ beBytes 2 newR ++ beBytes 2 newD) s t)))

/-! ## Clock, counters and attention (chapter 10) -/

/-- R179, R183, R186, R189: TIME_SET sets the clock, empties the residue and replies with both times; COUNTER_SET loads a counter, or refuses a
number or selection out of range; ATTENTION_MASK replaces the mask; ATTENTION_CLEAR clears the latched flags named and no live one.
The model's choices: log 2, log 19. -/
def Obligations.SettingsTakeTheirValues : Prop :=
  ∀ (r : Request) (s : State),
    (Carried .timeSet r s → ∃ t, exec .timeSet s = .next t ∧ t.clock = BitVec.ofNat 32 (r.field 0 4) ∧ t.residue = 0
      ∧ Answered [.clock] r .ok (beBytes 4 s.clock.toNat ++ beBytes 4 (BitVec.ofNat 32 (r.field 0 4)).toNat) s t) ∧
    (Carried .counterSet r s →
      (∀ k sel, r.field 0 1 = k.index → r.field 1 1 = (selectionCode sel).toNat →
        let c : Counter := { count := BitVec.ofNat 24 (r.field 3 3), selection := sel, mask := BitVec.ofNat 8 (r.field 2 1) }
        ∃ t, exec .counterSet s = .next t ∧ t.counters.get k = c ∧ (∀ j, j ≠ k → t.counters.get j = s.counters.get j)
          ∧ Answered [.counters] r .ok (beBytes 3 c.count.toNat ++ [selectionCode sel, c.mask]) s t) ∧
      (3 < r.field 0 1 ∨ 17 < r.field 1 1 → ∃ t, exec .counterSet s = .next t ∧ Answered [] r .badField [] s t)) ∧
    (Carried .attentionMask r s → ∃ t, exec .attentionMask s = .next t ∧ t.mask = BitVec.ofNat 21 (r.field 0 4)
      ∧ Answered [.mask] r .ok (beBytes 4 t.mask.toNat ++ beBytes 4 (s.flags &&& t.mask).toNat) s t) ∧
    (Carried .attentionClear r s → ∃ t, exec .attentionClear s = .next t
      ∧ (∀ f, f ≠ .replyDrop → f ≠ .reportLost → t.flagSet f =
          (s.flagSet f && !((BitVec.ofNat 21 (r.field 0 4)).getLsbD f.position && decide (f.position < 15))))
      ∧ Answered [.flags] r .ok
          (beBytes 4 (s.flags &&& ~~~(BitVec.ofNat 21 (r.field 0 4) &&& 0x7FFF#21) &&& s.mask).toNat) s t)

/-! ## The lamp branches (chapter 8): requests -/

/-- R31, R37, R161, R165, R166: BRANCH_SCAN starts a scan at address 1 and is held as in progress at once; it is refused BUSY while one runs, and
BAD_FIELD for a branch that is neither. LAMP_DIRECT is checked for its fields, open groups, a pending direct command and a line fault, in that order,
each with its code; one that passes is held without a reply until it has been tried on the line.
The model's choice: log 2. -/
def Obligations.BranchRequestsTaken : Prop :=
  ∀ (r : Request) (s : State),
    (Carried .branchScan r s →
      (∀ b, r.field 0 1 = (branchCode b).toNat → s.scanning b = false →
        ∃ t, exec .branchScan s = .next t ∧ t.scanning b = true
          ∧ (t.branch b).scan = some { darkFirst := false, next := 1, found := 0 }
          ∧ (∀ c, c ≠ b → t.scanning c = s.scanning c ∧ (t.branch c).scan = (s.branch c).scan)
          ∧ Answered [.scans, .scanning] r .ok [] s t) ∧
      (∀ b, r.field 0 1 = (branchCode b).toNat → s.scanning b = true →
        ∃ t, exec .branchScan s = .next t ∧ Answered [] r .busy [] s t) ∧
      (1 < r.field 0 1 → ∃ t, exec .branchScan s = .next t ∧ Answered [] r .badField [] s t)) ∧
    (Carried .lampDirect r s →
      (branchOfCode (r.field 0 1) = none ∨ r.field 1 1 = 0 ∨ 48 < r.field 1 1 ∨ r.field 2 1 = 0 ∨ 4 < r.field 2 1
          ∨ Colour.ofCode (r.field 3 1) = none ∨ Pattern.ofCode (r.field 4 1) = none ∨ Digits.ofCode (r.field 5 2) = none →
        ∃ t, exec .lampDirect s = .next t ∧ Answered [] r .badField [] s t) ∧
      (∀ b colour pattern digits, branchOfCode (r.field 0 1) = some b → 1 ≤ r.field 1 1 → r.field 1 1 ≤ 48 →
        1 ≤ r.field 2 1 → r.field 2 1 ≤ 4 → Colour.ofCode (r.field 3 1) = some colour →
        Pattern.ofCode (r.field 4 1) = some pattern → Digits.ofCode (r.field 5 2) = some digits →
        let pos : SlotPos := { branch := b, addr := r.field 1 1, slot := r.field 2 1 }
        let tooSmall := ∃ m, (s.branch b).moduleAt pos.addr = some m ∧ m.slots < pos.slot
        let occupied := ∃ e, s.entryAt pos = some e ∧ ∃ g ∈ s.groups, g.loc = e.code
        (tooSmall → ∃ t, exec .lampDirect s = .next t ∧ Answered [] r .badField [] s t) ∧
        (¬ tooSmall → occupied → ∃ t, exec .lampDirect s = .next t ∧ Answered [] r .inUse [] s t) ∧
        (¬ tooSmall → ¬ occupied → (s.branch b).direct ≠ none →
          ∃ t, exec .lampDirect s = .next t ∧ Answered [] r .busy [] s t) ∧
        (¬ tooSmall → ¬ occupied → (s.branch b).direct = none → (s.branch b).fault = true →
          ∃ t, exec .lampDirect s = .next t ∧ Answered [] r .notOpen [] s t) ∧
        (¬ tooSmall → ¬ occupied → (s.branch b).direct = none → (s.branch b).fault = false →
          ∃ t, exec .lampDirect s = .next t ∧ t.admitted = s.admitted.tail
            ∧ (t.branch b).direct = some { pos := pos, display := { colour := colour, pattern := pattern, digits := digits },
                                           request := r }
            ∧ (∀ c, c ≠ b → (t.branch c).direct = (s.branch c).direct)
            ∧ OnlyChanges [.admitted, .directs, .notes] s t)))

/-! ## The orphan watch, the display scheduler and its timers (chapters 2 and 6) -/

/-- R35, R36, R118: at the silence limit the aisle becomes ORPHANED, its live flag sets, and every location with open groups is recomputed: its
groups are HELD and its slot shows none of them.
The model's choice: log 4. -/
def Obligations.SilenceLimitOrphans : Prop :=
  ∀ s : State, s.params.silence ≠ 0 → s.orphaned = false → s.silenceSince + s.params.silence * 16000000 ≤ s.now →
    ∃ t, exec .silenceLimitExpiry s = .next t ∧ t.orphaned = true ∧ t.flagSet .orphaned = true ∧ FlagsKept [.orphaned] s t
      ∧ (∀ e ∈ s.locMap, (∃ g ∈ s.groups, g.loc = e.code) → (s.slotAt e.pos).isSome = true →
          (∀ g ∈ t.groups, g.loc = e.code → g.state = .held ∧ g.linger = false)
            ∧ ∃ y, t.slotAt e.pos = some y ∧ y.rotation = [] ∧ y.position = none ∧ y.rotTimer = none)
      ∧ OnlyChanges (.orphaned :: displayParts ++ eventParts) s t

/-- R76, R96, R97, R101, R115: what the scheduler derives: a location queue holds the location's groups by priority and within one priority in
creation order; a group is eligible when its area is open, its picker ACTIVE, its slot reachable and the aisle not ORPHANED; a rotation set takes a
queue's groups in order, up to four, one a picker; a shadow is the first row of R101's table that applies; and a group's linger limit. -/
def Obligations.DerivedDisplay : Prop :=
  ∀ (s : State) (e : MapEntry) (g : Group) (q : List Group) (x : SlotState) (code : Nat),
    (let here := s.groups.filter (fun h => h.loc = code)
     (∀ h ∈ s.queueOf code, h ∈ here) ∧ ((∀ h ∈ here, s.priorityOf h.picker ≤ 3) → (s.queueOf code).Perm here)
      ∧ (s.queueOf code).Pairwise (fun a b => s.priorityOf a.picker ≤ s.priorityOf b.picker)
      ∧ ∀ k, k ≤ 3 → (s.queueOf code).filter (fun h => s.priorityOf h.picker = k) = here.filter (fun h => s.priorityOf h.picker = k)) ∧
    (s.eligible e g = true ↔ s.locked.getLsbD e.area = false ∧ (∃ p, s.pickerOf g.picker = some p ∧ p.state = .active)
      ∧ (s.branch e.pos.branch).fault = false
      ∧ (∃ m, (s.branch e.pos.branch).moduleAt e.pos.addr = some m ∧ m.presence ≠ .missing ∧ e.pos.slot ≤ m.slots)
      ∧ s.orphaned = false) ∧
    ((rotationSet q).length ≤ 4 ∧ (rotationSet q).Sublist q ∧ ((rotationSet q).map (·.picker)).Nodup
      ∧ ∀ i h, q[i]? = some h → (rotationSet (q.take i)).length < 4 → (∀ k ∈ q.take i, k.picker ≠ h.picker) →
          rotationSet (q.take (i + 1)) = rotationSet (q.take i) ++ [h] ∧ h ∈ rotationSet q) ∧
    (∀ f, x.feedback = some f →
      s.deriveShadow x = { colour := .white, pattern := .flash, digits := f.symbol.digits }) ∧
    (x.feedback = none → ∀ h p, x.position.bind s.groupOf = some h → s.pickerOf h.picker = some p →
      s.deriveShadow x = { colour := p.colour, pattern := if h.linger then .blink else .steady, digits := .number h.display }) ∧
    (x.feedback = none → x.position = none → ∀ d, s.entryAt x.pos = some d →
      s.deriveShadow x = { colour := .white, digits := .blank
                           pattern := if ∃ h ∈ s.groups, h.loc = d.code then .pulse else .dark }) ∧
    (s.params.adaptive = false ∨ (s.pickerOf g.picker).bind (·.pace) = none → s.lingerLimit g = s.params.lingerBase * 1000) ∧
    (∀ p, s.params.adaptive = true → (s.pickerOf g.picker).bind (·.pace) = some p →
      s.lingerLimit g = max (s.params.lingerBase * 1000) (min (30 * p) 255000))

/-- R99, R100, R103, R104, R114: a recomputation of a location: the groups of the new set are SHOWN, with a first-shown time, and the others
WAITING or HELD; the position stays on a group that is still in the set and else moves to the first; the two timers run on, start afresh or
stop; and a shadow that differs enters its slot in the display work queue.
The model's choices: log 13, log 23. -/
def Obligations.RecomputeSettlesLocation : Prop :=
  ∀ (e : MapEntry) (x : SlotState) (s : State), s.slotAt e.pos = some x →
    let ids := (rotationSet ((s.queueOf e.code).filter (s.eligible e))).map (·.id)
    let t := recompute e s
    t.groups = s.groups.map (fun g => if g.loc = e.code then
        (if g.id ∈ ids then { g with state := .shown, firstShown := some (g.firstShown.getD s.clock) }
         else { g with state := if s.eligible e g then .waiting else .held, linger := false })
      else g) ∧
    OnlyChanges displayParts s t ∧
    ∃ y, t.slotAt e.pos = some y ∧ y.rotation = ids ∧ y.feedback = x.feedback ∧ y.history = x.history
      ∧ (ids = [] → y.position = none)
      ∧ (∀ g, x.position = some g → g ∈ ids → y.position = some g)
      ∧ ((∀ g, x.position = some g → g ∉ ids) → y.position = ids.head?)
      ∧ (ids.length < 2 → y.rotTimer = none)
      ∧ (2 ≤ ids.length → x.rotation.length < 2 ∨ y.position ≠ x.position →
          y.rotTimer = some { since := s.now, length := s.params.rotation * 250 * 16000 })
      ∧ (2 ≤ ids.length → 2 ≤ x.rotation.length → y.position = x.position → y.rotTimer = x.rotTimer)
      ∧ (∀ g, g ∈ y.lingered ↔ g ∈ x.lingered ∧ g ∈ ids)
      ∧ (y.position = none → y.linger = none)
      ∧ (y.position = x.position → y.position ≠ none → y.linger = x.linger)
      ∧ (y.position ≠ x.position → ∀ g, y.position.bind t.groupOf = some g → y.linger =
          if s.params.lingerBase ≠ 0 ∧ g.linger = false ∧ g.id ∉ y.lingered then
            some { since := s.now, length := s.lingerLimit g * 16000 } else none)
      ∧ y.shadow = t.deriveShadow y
      ∧ (y.shadow ≠ x.shadow → e.pos ∈ (t.branch e.pos.branch).work)
      ∧ (y.shadow = x.shadow → Keeps .work s t)

/-- R103, R105, R113, R116: at a rotation expiry the position moves to the next group of the set, from the last to the first, with a fresh interval; at
a feedback expiry the feedback ends; at a linger expiry the group at the position lingers, with a LINGER record; each derives the shadow anew,
queues the slot where it differs, and changes no other slot and nothing besides.
The model's choice: log 4. -/
def Obligations.SlotTimersExpire : Prop :=
  ∀ (pos : SlotPos) (x : SlotState) (s : State), s.slotAt pos = some x →
    let drawn (y : SlotState) (t : State) := t.slotAt pos = some y ∧ y.shadow = t.deriveShadow y
      ∧ (∀ q, q ≠ pos → t.slotAt q = s.slotAt q) ∧ ∀ b, WorkGains b (if y.shadow = x.shadow then [] else [pos]) s t
    (∀ r, x.rotTimer = some r → r.since + r.length ≤ s.now →
      ∃ t y, exec (.rotationExpiry pos) s = .next t ∧ drawn y t
        ∧ y = { x with shadow := y.shadow, position := y.position, linger := y.linger
                       rotTimer := some { since := s.now, length := s.params.rotation * 250 * 16000 } }
        ∧ (∀ i g, x.rotation.Nodup → x.rotation[i]? = some g → x.position = some g →
            y.position = x.rotation[(i + 1) % x.rotation.length]?)
        ∧ (∀ g, y.position.bind s.groupOf = some g → y.linger =
            if s.params.lingerBase ≠ 0 ∧ g.linger = false ∧ g.id ∉ x.lingered then
              some { since := s.now, length := s.lingerLimit g * 16000 } else none)
        ∧ OnlyChanges [.slots, .work, .notes] s t) ∧
    (∀ f, x.feedback = some f → f.timer.since + f.timer.length ≤ s.now →
      ∃ t y, exec (.feedbackExpiry pos) s = .next t ∧ drawn y t ∧ y = { x with shadow := y.shadow, feedback := none }
        ∧ OnlyChanges [.slots, .work, .notes] s t) ∧
    (∀ l g, x.linger = some l → l.since + l.length ≤ s.now → x.position.bind s.groupOf = some g →
      ∃ t y, exec (.lingerExpiry pos) s = .next t ∧ drawn y t
        ∧ y = { x with shadow := y.shadow, linger := none, lingered := x.lingered.filter (· ≠ g.id) ++ [g.id] }
        ∧ t.groups = s.groups.map (fun h => if h.id = g.id then { g with linger := true } else h)
        ∧ (PackerQuiet 1 s → t.fifo = s.fifo ++ [{ record := .linger g.id g.picker g.loc s.clock, entered := s.now }])
        ∧ FlagsKept [] s t ∧ OnlyReportsAdded s t ∧ OnlyChanges (displayParts ++ eventParts) s t)

/-! ## Key presses (chapter 7) -/

/-- R133: the allocation gives each member in joining order the smaller of its requested quantity and the count left, which falls by it; the
outcome is CONFIRMED when the share equals the quantity and SHORT otherwise. With C at most the sum of the quantities, the shares sum to C. -/
def Obligations.SharesByJoiningOrder : Prop :=
  ∀ (c : Nat) (qs : List Nat),
    (allocate c qs).length = qs.length
    ∧ (∀ i q, qs[i]? = some q → (allocate c qs)[i]? = some (min q (c - ((allocate c qs).take i).sum)))
    ∧ (c ≤ qs.sum → (allocate c qs).sum = c) ∧ (c = qs.sum → allocate c qs = qs) ∧ (c = 0 → ∀ a ∈ allocate c qs, a = 0)
    ∧ ∀ q a, outcomeOf q a = if a = q then .confirmed else .short

/-- R66: a pace sample: the dwell is the press time minus the first-shown time modulo 2 to the power 32; in units of 10 ms, rounded down, it is
clamped to 65535; it becomes an absent pace, and a present pace p becomes 7 p plus it plus 4, divided by 8 and rounded down. -/
def Obligations.PaceSample : Prop :=
  ∀ (id : Nat) (shown press : ClockValue) (p : Picker) (s : State), s.pickerOf id = some p →
    let d := (press.toNat + 2 ^ 32 - shown.toNat) % 2 ^ 32
    let d10 := min (d / 10) 65535
    let new := match p.pace with
      | none => d10
      | some old => (7 * old + d10 + 4) / 8
    (samplePace id shown press s).pickerOf id = some { p with pace := some new }
    ∧ (∀ q ∈ s.pickers, q.id ≠ id → q ∈ (samplePace id shown press s).pickers)
    ∧ ((∀ old, p.pace = some old → old ≤ 65535) → new ≤ 65535)
    ∧ OnlyChanges [.pickers] s (samplePace id shown press s)

/-- R126, R130, R132 to R136, R66, R70, R75, R92, R109: a CONFIRM whose tag names an open group, in an open area of an aisle that is not ORPHANED, with
a free record place for each member, closes every member with its share of the smaller of the recorded count and R; the group goes, its entries leave
the tag history, and its location is recomputed and no other; its picker's open count falls by the members and its pace takes the sample; the counter
events and, with a quiet packer, the PICK records follow.
The model's choices: log 3, log 34. -/
def Obligations.ConfirmAccepted : Prop :=
  ∀ (b : Branch) (k : KeyEvent) (rest : List KeyEvent) (e : MapEntry) (x : SlotState) (h : HistEntry) (g : Group) (n : Nat)
    (p : Picker) (shown : ClockValue) (s : State),
    (s.branch b).keys = k :: rest → k.key = .confirm → s.entryAt k.pos = some e → s.slotAt k.pos = some x →
    x.history.find? (fun y => y.tag = k.tag) = some h → h.shown = some (g.id, n) → s.groupOf g.id = some g →
    s.locked.getLsbD e.area = false → s.orphaned = false → g.members.length + s.fifo.length ≤ 32 →
    s.pickerOf g.picker = some p → g.firstShown = some shown → TasksOk s → LinksOk s → LiveFlagsOk s →
    ∃ (t : State) (tasks : List Task), tasks.map (·.number) = g.members ∧ (∀ y ∈ tasks, y ∈ s.tasks) ∧
      let shares := allocate (min n g.remaining) (tasks.map (·.quantity))
      let new := newPace p.pace (dwell10 shown s.clock)
      exec (.confirmKey b) s = .next t ∧ KeyTaken b rest s t
      ∧ t.tasks = s.tasks.filter (fun y => y.number ∉ g.members)
      ∧ t.groups.map (·.id) = (s.groups.filter (fun y => y.id ≠ g.id)).map (·.id)
      ∧ t.pickerOf g.picker = some { p with openTasks := p.openTasks - g.members.length, pace := some new }
      ∧ (MapOk s → Forgotten (fun y => y.id = g.id) s t
          ∧ Redrawn (fun d => d.code = g.loc) { s with groups := s.groups.filter (fun y => y.id ≠ g.id) } t)
      ∧ t.flagSet .tasksHigh = decide (240 ≤ t.tasks.length) ∧ FlagsKept [.tasksHigh] s t
      ∧ t.counters = ((tasks.zip shares).foldl
          (fun c m => if m.2 = m.1.quantity then c else c.after .taskShort (some p.index)) s.counters).after .confirmAccepted (some p.index)
      ∧ (PackerQuiet g.members.length s → t.fifo = s.fifo ++ (tasks.zip shares).map fun m =>
          { record := .pick m.1.number g.picker g.loc m.1.quantity m.2 (outcomeOf m.1.quantity m.2) shown s.clock, entered := s.now })
      ∧ OnlyChanges ([.keys, .tasks, .pickers, .counters] ++ displayParts ++ eventParts) s t

/-- R121, R126 to R131, R111, R112: a CONFIRM of an unmapped slot is only counted; one of a mapped slot is refused STALE, LOCKED, ORPHANED or BUSY by
the first reason that applies, with its feedback on the slot for the feedback time, its counter event and, but for BUSY, a PRESS_REFUSED record.
The model's choices: log 3, log 34. -/
def Obligations.ConfirmRefused : Prop :=
  ∀ (b : Branch) (k : KeyEvent) (rest : List KeyEvent) (s : State), (s.branch b).keys = k :: rest → k.key = .confirm →
    (s.entryAt k.pos = none →
      ∃ t, exec (.confirmKey b) s = .next t ∧ KeyTaken b rest s t ∧ t.counters = s.counters.after .unmappedKey none
        ∧ FlagsKept [] s t ∧ OnlyChanges ([.keys, .counters] ++ eventParts) s t) ∧
    (∀ e x, s.entryAt k.pos = some e → s.slotAt k.pos = some x →
      let entry := x.history.find? (fun y => y.tag = k.tag)
      let credited := entry.bind fun h => h.shown.bind fun y => s.groupOf y.1
      let locked := s.locked.getLsbD e.area = true
      let refused (sym : Symbol) (reason : Option RefusalReason) (counted : Option CounterEvent) :=
        ∃ t, exec (.confirmKey b) s = .next t ∧ KeyTaken b rest s t
          ∧ t.slotAt k.pos = some { x with
              feedback := some { symbol := sym, timer := { since := s.now, length := s.params.feedback * 250 * 16000 } }
              shadow := { colour := .white, pattern := .flash, digits := sym.digits } }
          ∧ (∀ q, q ≠ k.pos → t.slotAt q = s.slotAt q)
          ∧ (∀ d, WorkGains d (if x.shadow = { colour := .white, pattern := .flash, digits := sym.digits } then [] else [k.pos]) s t)
          ∧ t.counters = (match counted with
              | none => s.counters
              | some c => s.counters.after c none)
          ∧ (PackerQuiet 1 s → t.fifo = s.fifo ++ match reason with
              | none => []
              | some why => [{ record := .pressRefused e.code k.pos k.key k.tag why s.clock, entered := s.now }])
          ∧ FlagsKept [] s t ∧ OnlyReportsAdded s t ∧ OnlyChanges ([.keys, .slots, .work, .counters] ++ eventParts) s t
      (entry = none → refused .err (some .stale) (some .stalePress)) ∧
      (entry ≠ none → locked → refused .lock (some .locked) (some .lockedPress)) ∧
      (entry ≠ none → ¬ locked → s.orphaned = true → refused .dashes (some .orphaned) none) ∧
      (entry ≠ none → ¬ locked → s.orphaned = false → credited = none → refused .err (some .stale) (some .stalePress)) ∧
      (∀ g, ¬ locked → s.orphaned = false → credited = some g → s.fifo.length ≤ 32 → 32 < g.members.length + s.fifo.length →
        refused .busy none (some .busyPress)))

/-- R121 to R125, R89, R106: an UP or DOWN event whose tag is the newest display's, of a group that is SHOWN, changes D by one within 0 to R, clears
the linger flag of a changed group and recomputes its location and no other, starts a running rotation interval and the group's running linger timer
afresh and counts ADJUST_ACCEPTED; any other only counts STALE_ADJUST, or UNMAPPED_KEY on an unmapped slot.
The model's choice: log 3. -/
def Obligations.AdjustPressed : Prop :=
  ∀ (b : Branch) (k : KeyEvent) (rest : List KeyEvent) (s : State), (s.branch b).keys = k :: rest → k.key ≠ .confirm →
    let ignored (c : CounterEvent) := ∃ t, exec (.adjustKey b) s = .next t ∧ KeyTaken b rest s t
      ∧ t.counters = s.counters.after c none ∧ FlagsKept [] s t ∧ OnlyReportsAdded s t ∧ (PackerQuiet 0 s → Keeps .records s t)
      ∧ OnlyChanges ([.keys, .counters] ++ eventParts) s t
    (s.entryAt k.pos = none → ignored .unmappedKey) ∧
    (∀ e x, s.entryAt k.pos = some e → s.slotAt k.pos = some x →
      ((∀ h i g, x.history.getLast? = some h → h.tag = k.tag → h.shown = some i → s.groupOf i.1 = some g → g.state ≠ .shown) →
        ignored .staleAdjust) ∧
      (∀ h n g p, x.history.getLast? = some h → h.tag = k.tag → h.shown = some (g.id, n) → s.groupOf g.id = some g →
        g.state = .shown → s.pickerOf g.picker = some p →
        let count := if k.key = .up then min (g.display + 1) g.remaining else g.display - 1
        ∃ t, exec (.adjustKey b) s = .next t ∧ KeyTaken b rest s t
          ∧ t.counters = s.counters.after .adjustAccepted (some p.index)
          ∧ (∃ y ∈ t.groups, y.id = g.id ∧ y.display = count ∧ y.remaining = g.remaining ∧ y.members = g.members
              ∧ (count ≠ g.display → y.linger = false))
          ∧ (∃ z, t.slotAt k.pos = some z ∧ z.history = x.history
              ∧ (x.rotTimer.isSome = true → z.rotation.length < 2 ∧ count ≠ g.display
                  ∨ z.rotTimer = some { since := s.now, length := s.params.rotation * 250 * 16000 })
              ∧ (x.position = some g.id → z.position = some g.id → x.linger.isSome = true →
                  z.linger = some { since := s.now, length := s.lingerLimit g * 16000 })
              ∧ (count = g.display → z.rotation = x.rotation ∧ z.position = x.position
                  ∧ z.linger = if x.position = some g.id then
                      x.linger.map (fun _ => { since := s.now, length := s.lingerLimit g * 16000 }) else x.linger))
          ∧ (count = g.display → t.groups = s.groups ∧ ∀ pos, pos ≠ k.pos → t.slotAt pos = s.slotAt pos)
          ∧ (count ≠ g.display → MapOk s → (s.groups.map (·.id)).Nodup → g.loc = e.code →
              let changed := s.groups.map fun y => if y.id = g.id then { g with display := count, linger := false } else y
              Redrawn (fun d => d.code = g.loc) { s with groups := changed } t)
          ∧ FlagsKept [] s t ∧ OnlyReportsAdded s t ∧ (PackerQuiet 0 s → Keeps .records s t)
          ∧ OnlyChanges ([.keys, .counters] ++ displayParts ++ eventParts) s t))

/-! ## The lamp branches (chapter 8): the arbiter and the line -/

/-- R148, R157 to R159, R162, R164, section 11.5: on a free line a running scan's command goes first: ALL_DARK where it is still to be sent, else the IDENT of the
scan's next address; on a line that is not free the arbiter sends nothing. With nothing else to send, or after four SHOWs, a poll turn goes to the
next module of its kind in address order, wrapping, with the owed ack; where only MISSING modules remain, once 20 ms have passed since the turn
before; where no module can take one, nothing is sent. Queued slots that are passed over await a SHOW.
The model's choices: log 4, log 8, log 10, log 35. -/
def Obligations.ArbiterScansAndPolls : Prop :=
  (∀ (b : Branch) (s : State),
      (∀ sc, LineFree b s → (s.branch b).scan = some sc →
        let c := firstAttempt (if sc.darkFirst then .allDark else .ident sc.next) 0
        let m : List Byte := if sc.darkFirst then [0x00, 0x04] else [BitVec.ofNat 8 sc.next, 0x03]
        ∃ t, exec (.branchArbiter b) s = .next t ∧ (t.branch b).command = some c ∧ c.bytes = m ++ [crc8 m]
          ∧ (t.branch b).scan = some { sc with darkFirst := false } ∧ (∀ d, d ≠ b → t.branch d = s.branch d)
          ∧ OnlyChanges [.commands, .scans, .notes] s t) ∧
      (¬ LineFree b s → exec (.branchArbiter b) s = .next s)) ∧
  ∀ (b : Branch) (c : Instr) (s : State), LineFree b s → (s.branch b).scan = none → (s.branch b).direct = none → BranchesOk s →
    (4 ≤ (s.branch b).shows ∨ ∀ q ∈ (s.branch b).work, ∀ n, (s.branch b).moduleAt q.addr = some n → n.presence = .missing ∨ n.slots < q.slot) →
    let x := s.branch b
    let answering := (x.roster.filter (fun m => m.presence ≠ .missing)).map (·.addr)
    let missing := (x.roster.filter (fun m => m.presence = .missing)).map (·.addr)
    let rested := ∀ l, x.lastTurn = some l → l + 20 * 16000 ≤ s.now
    let passedOver := fun (t : State) => OtherBranchKept b s t ∧ (t.branch b).work = (if x.shows < 4 then [] else x.work)
      ∧ ∀ q, q ∈ (t.branch b).unshown ↔ q ∈ x.unshown ∨ (x.shows < 4 ∧ q ∈ x.work)
    let polled := fun (a : Nat) (t : State) => (t.branch b).command = some (firstAttempt (.poll a) (((x.moduleAt a).map (·.owed)).getD 0))
      ∧ (let m := [BitVec.ofNat 8 a, 0x02, BitVec.ofNat 8 (((x.moduleAt a).map (·.owed)).getD 0)]
         (t.branch b).command.map Command.bytes = some (m ++ [crc8 m]))
      ∧ (t.branch b).shows = 0 ∧ (t.branch b).turn = (x.turn + 1) % 16 ∧ (t.branch b).lastTurn = some s.now ∧ passedOver t
      ∧ OnlyChanges [.commands, .turns, .work, .unshown, .notes] s t
    (c = .branchArbiter b → answering ≠ [] → x.turn ≠ 15 ∨ missing = [] →
      ∃ a t, exec c s = .next t ∧ NextPolled x.lastAnswering answering a ∧ polled a t
        ∧ (t.branch b).lastAnswering = some a ∧ (t.branch b).lastMissing = x.lastMissing) ∧
    (c = .branchArbiter b → answering ≠ [] → x.turn = 15 → missing ≠ [] →
      ∃ a t, exec c s = .next t ∧ NextPolled x.lastMissing missing a ∧ polled a t
        ∧ (t.branch b).lastMissing = some a ∧ (t.branch b).lastAnswering = x.lastAnswering) ∧
    (c = .branchArbiter b ∨ c = .missingTurnSpacing b → answering = [] → missing ≠ [] → rested →
      ∃ a t, exec c s = .next t ∧ NextPolled x.lastMissing missing a ∧ polled a t
        ∧ (t.branch b).lastMissing = some a ∧ (t.branch b).lastAnswering = x.lastAnswering) ∧
    (c = .branchArbiter b ∨ c = .missingTurnSpacing b → answering = [] → missing = [] ∨ ¬ rested →
      ∃ t, exec c s = .next t ∧ (c = .missingTurnSpacing b → t = s)
        ∧ (c = .branchArbiter b → (t.branch b).command = none ∧ passedOver t ∧ OnlyChanges [.commands, .work, .unshown, .notes] s t))

/-- R107, R108, R109, R157, R158, R166, section 11.5: with no scan, a pending LAMP_DIRECT is sent with tag 0 and empties its slot's history, or is
answered IN_USE; else the head of the display work queue that is not passed over is sent under its next tag, with a history entry for a mapped slot,
the last of at most four with distinct tags. A slot keeps a direct display, and one passed over awaits a SHOW, until a display of the tag scheme is
sent to it.
The model's choices: log 8, log 10, log 15, log 28, log 34, log 35. -/
def Obligations.ArbiterShows : Prop :=
  ∀ (b : Branch) (s : State), LineFree b s → (s.branch b).scan = none → BranchesOk s →
    let shows (t : State) (pos : SlotPos) (display : Shadow) (tag : Tag) :=
      let m : List Byte := [BitVec.ofNat 8 pos.addr, 0x01, BitVec.ofNat 8 pos.slot, display.colour.code, display.pattern.code]
        ++ beBytes 2 display.digits.code ++ [tag]
      (t.branch b).command.map Command.bytes = some (m ++ [crc8 m])
    (∀ d, (s.branch b).direct = some d →
      let occupied := ∃ e, s.entryAt d.pos = some e ∧ ∃ g ∈ s.groups, g.loc = e.code
      (occupied → ∃ t, exec (.branchArbiter b) s = .next t ∧ (t.branch b).direct = none ∧ (t.branch b).command = none
        ∧ OtherBranchKept b s t ∧ (d.request.broadcast = false → RelayTakes 4 s → HasReply d.request .inUse [] s t)
        ∧ OnlyChanges ([.commands, .directs] ++ eventParts) s t) ∧
      (¬ occupied → ∃ t, exec (.branchArbiter b) s = .next t ∧ (t.branch b).direct = some d
        ∧ (t.branch b).command = some (firstAttempt (.direct d.pos d.display) 0) ∧ shows t d.pos d.display 0
        ∧ (∀ q, q ∈ (t.branch b).directShown ↔ q ∈ (s.branch b).directShown ∨ q = d.pos) ∧ OtherBranchKept b s t
        ∧ (∀ x, s.slotAt d.pos = some x → t.slotAt d.pos = some { x with history := [] })
        ∧ (∀ q, q ≠ d.pos → t.slotAt q = s.slotAt q)
        ∧ (t.branch b).shows = min 4 ((s.branch b).shows + 1) ∧ OnlyChanges [.commands, .turns, .directShown, .slots, .notes] s t)) ∧
    (∀ passed pos rest m, (s.branch b).direct = none → (s.branch b).shows < 4 → (s.branch b).work = passed ++ pos :: rest →
      (∀ q ∈ passed, ∀ n, (s.branch b).moduleAt q.addr = some n → n.presence = .missing ∨ n.slots < q.slot) →
      (s.branch b).moduleAt pos.addr = some m → m.presence ≠ .missing → pos.slot ≤ m.slots → pos.wellFormed = true →
      let tag := s.nextTagOf pos
      ∃ t, exec (.branchArbiter b) s = .next t ∧ (t.branch b).work = rest
        ∧ (t.branch b).shows = (s.branch b).shows + 1
        ∧ t.nextTagOf pos = tag + 1 ∧ (∀ q, q.wellFormed = true → q ≠ pos → t.nextTagOf q = s.nextTagOf q)
        ∧ (∀ x, s.slotAt pos = some x →
            (t.branch b).command = some (firstAttempt (.showSlot pos x.shadow tag) 0) ∧ shows t pos x.shadow tag
            ∧ ∃ shown, (let kept := x.history.filter (fun h => h.tag ≠ tag); t.slotAt pos = some { x with history := kept.drop (kept.length - 3) ++ [{ tag := tag, shown := shown }] })
              ∧ (x.feedback ≠ none → shown = none)
              ∧ (x.feedback = none → shown = (x.position.bind s.groupOf).map fun g => (g.id, g.display)))
        ∧ (s.slotAt pos = none →
            (t.branch b).command = some (firstAttempt (.showSlot pos { colour := .white, pattern := .dark, digits := .blank } tag) 0)
            ∧ shows t pos { colour := .white, pattern := .dark, digits := .blank } tag)
        ∧ (∀ q, q ≠ pos → t.slotAt q = s.slotAt q)
        ∧ (∀ q, q ∈ (t.branch b).directShown ↔ q ∈ (s.branch b).directShown ∧ q ≠ pos) ∧ OtherBranchKept b s t
        ∧ (∀ q, q ∈ (t.branch b).unshown ↔ (q ∈ (s.branch b).unshown ∨ q ∈ passed) ∧ q ≠ pos)
        ∧ OnlyChanges [.commands, .turns, .directShown, .unshown, .nextTags, .work, .slots, .notes] s t)

/-- R147, R154, R156, R158, R166: a valid acknowledge, which echoes the tag, ends the SHOW: the module is PRESENT with no misses; one that was MISSING returns
with MODULE_FOUND, its mapped slots queued and those that keep a direct display or await a SHOW too; a LAMP_DIRECT is answered OK.
The model's choices: log 11, log 20, log 35. -/
def Obligations.ShowAcknowledged : Prop :=
  ∀ (b : Branch) (c : Command) (pos : SlotPos) (d : Shadow) (tag : Tag) (s : State), Awaits b c s →
    c.what = .showSlot pos d tag ∨ (c.what = .direct pos d ∧ tag = 0) → pos.addr ≤ 48 →
    let m : List Byte := [BitVec.ofNat 8 pos.addr, 0x81, tag]
    ∃ t, exec (.showAcknowledge b (m ++ [crc8 m])) s = .next t ∧ (t.branch b).command = none ∧ OtherBranchKept b s t
      ∧ (t.branch b).roster = (s.branch b).roster.map (fun n => if n.addr = pos.addr then
          (match (s.branch b).moduleAt pos.addr with
            | none => n
            | some k => { k with presence := .present, misses := 0 }) else n)
      ∧ ((∀ n, (s.branch b).moduleAt pos.addr = some n → n.presence ≠ .missing) → c.what = .showSlot pos d tag →
          OnlyChanges [.rosters, .commands, .notes] s t)
      ∧ (∀ n, (s.branch b).moduleAt pos.addr = some n → n.presence = .missing → t.flagSet .moduleFound = true
          ∧ Resent b pos.addr s t)
      ∧ (∀ e, c.what = .direct pos d → (s.branch b).direct = some e → (t.branch b).direct = none
          ∧ (e.request.broadcast = false → RelayTakes 4 s → HasReply e.request .ok [] s t))
      ∧ FlagsKept [.moduleFound, .replyDrop] s t
      ∧ OnlyChanges ([.rosters, .commands, .directs] ++ displayParts ++ eventParts) s t

/-- R148, R149, R154, R156: a valid poll reply ends the POLL: its events join the key events handed over, in order; their number is the owed ack; the
reply's KEYS_LOST bit sets the flag and both bits signal their counter events; a module that was MISSING returns, the slots at its address being 1 to 4 (log 20).
The model's choices: log 3, log 11, log 20, log 35. -/
def Obligations.PollReplyTaken : Prop :=
  ∀ (b : Branch) (c : Command) (addr : Nat) (flags : Byte) (events : List KeyEvent) (s : State), Awaits b c s →
    c.what = .poll addr → addr ≤ 48 → events.length ≤ 4 →
    (∀ e ∈ events, e.pos.branch = b ∧ e.pos.addr = addr ∧ 1 ≤ e.pos.slot ∧ e.pos.slot ≤ 4) →
    let m : List Byte := [BitVec.ofNat 8 addr, 0x82, flags, BitVec.ofNat 8 events.length]
      ++ events.flatMap fun e => [BitVec.ofNat 8 e.pos.slot, e.key.code, e.tag]
    ∃ t, exec (.pollReply b (m ++ [crc8 m])) s = .next t ∧ (t.branch b).command = none ∧ OtherBranchKept b s t
      ∧ (t.branch b).keys = (s.branch b).keys ++ events
      ∧ (t.branch b).roster = (s.branch b).roster.map (fun n => if n.addr = addr then
          (match (s.branch b).moduleAt addr with
            | none => n
            | some k => { k with presence := .present, misses := 0, owed := events.length }) else n)
      ∧ t.flagSet .keysLost = (flags.getLsbD 0 || s.flagSet .keysLost)
      ∧ t.counters = (if flags.getLsbD 1 then (if flags.getLsbD 0 then s.counters.after .keysLost none else s.counters).after .moduleFault none
          else if flags.getLsbD 0 then s.counters.after .keysLost none else s.counters)
      ∧ (∀ n, (s.branch b).moduleAt addr = some n → n.presence = .missing → t.flagSet .moduleFound = true ∧ Resent b addr s t)
      ∧ FlagsKept [.moduleFound, .keysLost] s t
      ∧ OnlyChanges ([.rosters, .commands, .keys, .counters] ++ displayParts ++ eventParts) s t

/-- R156, R158, R162, R163: the end of a scan's IDENT: a valid reply makes an entry, or rewrites the one there; without one a roster module becomes MISSING;
the scan goes on to the next address and counts the module found, and after address 48 it completes with SCAN_DONE and its record. The module's
mapped slots are queued at its entry, return or change, and at an entry, a return or a raised slot count those that await a SHOW.
The model's choices: log 9, log 11, log 20, log 35. -/
def Obligations.IdentReplyTaken : Prop :=
  ∀ (b : Branch) (c : Command) (sc : Scan) (addr : Nat) (s : State), (s.branch b).command = some c → c.what = .ident addr →
    (s.branch b).scan = some sc → 1 ≤ addr → addr ≤ 48 → BranchesOk s →
    let goesOn := fun (found : Nat) (t : State) => (t.branch b).command = none ∧ OtherBranchKept b s t
      ∧ (addr < 48 → (t.branch b).scan = some { darkFirst := false, next := addr + 1, found := found } ∧ t.scanning b = s.scanning b)
      ∧ (addr = 48 → (t.branch b).scan = none ∧ t.scanning b = false ∧ t.flagSet .scanDone = true
          ∧ (PackerQuiet 1 s → s.mask = 0 → t.fifo = s.fifo ++ [{ record := .scanDone b found s.clock, entered := s.now }]))
      ∧ OnlyChanges ([.rosters, .commands, .scans, .scanning] ++ displayParts ++ eventParts) s t
    (∀ (serial : BitVec 48) (slots : Nat) (revision : Byte), c.ended = false → 1 ≤ slots → slots ≤ 4 →
      let m : List Byte := [BitVec.ofNat 8 addr, 0x83] ++ beBytes 6 serial.toNat ++ [BitVec.ofNat 8 slots, revision]
      ∃ t, exec (.identReply b (some (m ++ [crc8 m]))) s = .next t ∧ goesOn (sc.found + 1) t
        ∧ ((s.branch b).moduleAt addr = none →
            (∀ n, n ∈ (t.branch b).roster ↔ n ∈ (s.branch b).roster
              ∨ n = { addr := addr, serial := serial, slots := slots, revision := revision, presence := .present, misses := 0, owed := 0 })
            ∧ Requeued b addr (fun q => q ∈ (s.branch b).unshown) s t)
        ∧ (∀ k, (s.branch b).moduleAt addr = some k →
            (t.branch b).roster = (s.branch b).roster.map (fun n => if n.addr = addr then
              { k with serial := serial, slots := slots, revision := revision, presence := .present, misses := 0
                       owed := if serial = k.serial then k.owed else 0 } else n)
            ∧ (k.presence = .missing → t.flagSet .moduleFound = true ∧ Resent b addr s t)
            ∧ (k.presence ≠ .missing → k.slots < slots → Requeued b addr (fun q => q ∈ (s.branch b).unshown) s t)
            ∧ (k.presence ≠ .missing → slots ≤ k.slots → ∀ q, s.entryAt q = none → (q ∈ (t.branch b).work ↔ q ∈ (s.branch b).work)))
        ∧ ((∀ k, (s.branch b).moduleAt addr = some k → k.presence = .missing ∨ serial ≠ k.serial ∨ slots ≠ k.slots) →
            ∀ i, 1 ≤ i → i ≤ 4 → (s.entryAt { branch := b, addr := addr, slot := i }).isSome = true →
              { branch := b, addr := addr, slot := i } ∈ (t.branch b).work)) ∧
    (c.ended = true →
      ∃ t, exec (.identReply b none) s = .next t ∧ goesOn sc.found t
        ∧ (t.branch b).roster = (s.branch b).roster.map (fun n => if n.addr = addr then { n with presence := .missing } else n)
        ∧ (∀ k, (s.branch b).moduleAt addr = some k → k.presence ≠ .missing → t.flagSet .moduleLost = true))

/-- R144, R147, R148, R153 to R155, R158: an attempt that ends in a miss, by silence or by an invalid reply, signals MODULE_MISS and adds to its module's miss
count; below the miss limit the command is tried again, with ack 0 after an invalid reply; a module that reaches the limit is MISSING, with
MODULE_LOST and its groups HELD, and the command ends there or after its last attempt; the slot of a SHOW that ends so awaits another.
The model's choices: log 9, log 11, log 14, log 35. -/
def Obligations.AttemptMissed : Prop :=
  ∀ (b : Branch) (i : Instr) (c : Command) (drew : Bool) (s : State), Awaits b c s → MapOk s → BranchesOk s →
    (i = .replyTimeout b ∧ drew = false) ∨ (drew = true ∧ ∃ cut bytes, i = .invalidReply b cut bytes ∧ (cut = true ∨ c.what.replyValid bytes = false)) →
    let d : Command := { c with invalid := c.invalid || drew, ack := if c.invalid || drew then 0 else c.ack }
    let entry := (s.branch b).moduleAt c.what.addr
    let after (m : Module) : Module := { m with misses := min 7 (m.misses + 1) }
    let settled (m : Module) : Module := if c.what = .poll c.what.addr ∧ d.invalid = true then { m with owed := 0 } else m
    let rosterIs (m : Module) (t : State) := (t.branch b).roster = (s.branch b).roster.map (fun n => if n.addr = m.addr then m else n)
    let taken (t : State) := exec i s = .next t ∧ OtherBranchKept b s t
    (∀ m, entry = some m → m.presence ≠ .missing → min 7 (m.misses + 1) < s.params.missLimit → c.attempts < s.params.missLimit →
      ∃ t, taken t ∧ (t.branch b).command = some { d with attempts := c.attempts + 1 }
        ∧ rosterIs { after m with presence := .silent } t ∧ t.counters = s.counters.after .moduleMiss none
        ∧ FlagsKept [] s t ∧ OnlyChanges ([.rosters, .commands, .counters] ++ eventParts) s t) ∧
    (∀ m, entry = some m → m.presence ≠ .missing → s.params.missLimit ≤ min 7 (m.misses + 1) →
      ∃ t, taken t ∧ EndedWithoutReply b d s t ∧ rosterIs (settled { after m with presence := .missing }) t
        ∧ t.counters = s.counters.after .moduleMiss none ∧ t.flagSet .moduleLost = true
        ∧ HeldAsEligible (fun e => e.pos.branch = b ∧ e.pos.addr = m.addr) t
        ∧ OnlyChanges ([.rosters, .commands, .directs, .unshown, .counters] ++ displayParts ++ eventParts) s t) ∧
    (∀ m, entry = some m → m.presence = .missing →
      ∃ t, taken t ∧ EndedWithoutReply b d s t ∧ rosterIs (settled (after m)) t
        ∧ t.counters = s.counters.after .moduleMiss none
        ∧ OnlyChanges ([.rosters, .commands, .directs, .unshown, .counters] ++ eventParts) s t) ∧
    (entry = none → c.attempts < s.params.missLimit →
      ∃ t, taken t ∧ (t.branch b).command = some { d with attempts := c.attempts + 1 }
        ∧ t.counters = s.counters.after .moduleMiss none ∧ OnlyChanges ([.commands, .counters] ++ eventParts) s t) ∧
    (entry = none → s.params.missLimit ≤ c.attempts →
      ∃ t, taken t ∧ EndedWithoutReply b d s t ∧ t.counters = s.counters.after .moduleMiss none
        ∧ OnlyChanges ([.commands, .directs, .unshown, .counters] ++ eventParts) s t)

/-- R160, R96, R119: at a branch line fault the live flag sets, the command in progress is abandoned with its SHOW's slot queued again, a pending
LAMP_DIRECT is answered NOT_OPEN and the branch's groups are HELD; when it clears the flag clears and the groups are recomputed.
The model's choices: log 5, log 8, log 9, log 12. -/
def Obligations.BranchFaultSetAndClear : Prop :=
  ∀ (b : Branch) (s : State), MapOk s → (s.groups.map (·.id)).Nodup →
    let carried := fun e : MapEntry => e.pos.branch = b ∧ ((s.branch b).moduleAt e.pos.addr).isSome = true
    (∀ sending, (s.branch b).fault = false →
      ∃ t, exec (.branchFaultSet b sending) s = .next t
        ∧ (∀ d, d ≠ b → t.branch d = { s.branch d with work := (t.branch d).work } ∧ t.scanning d = s.scanning d)
        ∧ ((∀ c pos d tag, (s.branch b).command = some c → c.what = .showSlot pos d tag → pos.branch = b) → OtherBranchKept b s t)
        ∧ (t.branch b).fault = true ∧ t.flagSet (branchFaultFlag b) = true
        ∧ (∀ c, (s.branch b).command = some c → c.ended = false → (t.branch b).command = none)
        ∧ (∀ c, (s.branch b).command = some c → c.ended = true → (t.branch b).command = some c)
        ∧ (∀ c pos d tag, (s.branch b).command = some c → c.ended = false → c.what = .showSlot pos d tag → pos ∈ (t.branch pos.branch).work)
        ∧ (∀ c a, (s.branch b).command = some c → c.ended = false → c.what = .poll a → c.invalid = true ∨ sending = false →
            (t.branch b).roster = (s.branch b).roster.map (fun m => if m.addr = a then { m with owed := 0 } else m))
        ∧ ((∀ c a, (s.branch b).command = some c → c.what = .poll a → c.invalid = false ∧ sending = true) → Keeps .rosters s t)
        ∧ (∀ d, (s.branch b).direct = some d → (t.branch b).direct = none
            ∧ (d.request.broadcast = false → RelayTakes 4 s → HasReply d.request .notOpen [] s t))
        ∧ (∀ e ∈ s.locMap, carried e → (s.slotAt e.pos).isSome = true → ∀ g ∈ t.groups, g.loc = e.code → g.state = .held)
        ∧ FlagsKept [branchFaultFlag b, .replyDrop] s t
        ∧ OnlyChanges ([.faults, .rosters, .commands, .directs] ++ displayParts ++ eventParts) s t) ∧
    ((s.branch b).fault = true →
      ∃ t, exec (.branchFaultClear b) s = .next t ∧ OtherBranchKept b s t ∧ (t.branch b).fault = false ∧ t.flagSet (branchFaultFlag b) = false
        ∧ FlagsKept [branchFaultFlag b] s t ∧ HeldAsEligible carried t
        ∧ OnlyChanges ([.faults, .flags, .notes] ++ displayParts) s t)

/-! ## The frame's bytes, and what every step keeps -/

/-- R4, R5, R7, R191, section 11.1: a frame whose fields fit their widths leaves the line as 9 bytes and its payload; received, those bytes have no
length fault, pass their check and give the frame back. -/
def Obligations.FrameRoundTrip : Prop :=
  ∀ f : Frame, f.dest < 256 → f.origin < 256 → f.hop < 64 → f.payload.length ≤ 247 →
    let rx : RxBuffer := { bytes := f.bytes, received := f.bytes.length }
    f.bytes.length = 9 + f.payload.length ∧ rx.lengthFault = false ∧ rx.checkOk = true ∧ Frame.ofBytes f.bytes = f

/-- R9, R12, R18, R19, R22, R23: every step keeps the cell store's account (the cells of the stored frames and the free cells total 96, references are
distinct), the sizes of the recent-frame and own-sent lists, no pair standing twice, and the queues: each port names stored frames, each at most once,
and none while it is DOWN or sends nothing, and a frame's reference count is the number of ports that name it. -/
def Obligations.EveryStepKeepsStore : Prop :=
  ∀ s t : State, StoreOk s → step s = .next t →
    StoreOk t ∧ (TrunkListsOk s → TrunkListsOk t) ∧ (QueuesOk s → QueuesOk t)

/-- R27, R33, R40, R55: every step keeps the location map, the rights table, the picker table and the parameters in order and in range. -/
def Obligations.EveryStepKeepsTables : Prop :=
  ∀ s t : State, MapOk s → RightsOk s → PickersOk s → ParamsOk s.params → step s = .next t →
    MapOk t ∧ RightsOk t ∧ PickersOk t ∧ ParamsOk t.params

/-- R68, R71, R72, R92, R168, R171, R176, R185: every step keeps the task table's size and distinct numbers, D at most R at most 9999, the live flags
equal to their conditions, the record FIFO's size with its combine timer, and the prescaler's range. -/
def Obligations.EveryStepKeepsWork : Prop :=
  ∀ s t : State, TasksOk s → GroupsOk s → LiveFlagsOk s → PackerOk s → s.residue < 16000 → step s = .next t →
    TasksOk t ∧ GroupsOk t ∧ LiveFlagsOk t ∧ PackerOk t ∧ t.residue < 16000

/-- R61, R71, R73, R74: every step keeps tasks, groups and pickers fitting each other: each open task in one group of its picker and location, each
group's R the sum of its members' quantities, each open task count the number of open tasks, each group id once. -/
def Obligations.EveryStepKeepsLinks : Prop :=
  ∀ s t : State, TasksOk s → PickersOk s → LinksOk s → step s = .next t → LinksOk t

/-- R71, R75, R95, R97, R100, R104, R107, R109, R114, R117: every step keeps one slot record for each mapped position, its tag history at most four
entries with distinct tags that name open groups of its location, its set at most four SHOWN groups of different pickers, the position in the set and
there exactly where the set is not empty, the lingered groups within the set, and the timers to the sets they belong to.
The model's choice: log 34. -/
def Obligations.EveryStepKeepsSlots : Prop :=
  ∀ s t : State, MapOk s → PickersOk s → TasksOk s → LinksOk s → BranchesOk s → SlotsOk s → step s = .next t → SlotsOk t

/-- R97, R99, R102, R118, R119: every step keeps every location of the map on the display as its queue gives it: the set in its slot is the one that
its eligible groups give, its groups are SHOWN exactly in the set and HELD exactly where they are not eligible, and its shadow is the derived one. So
no event that changes an eligibility, a queue, a count or a colour leaves a display behind. -/
def Obligations.EveryStepKeepsDisplay : Prop :=
  ∀ s t : State, MapOk s → PickersOk s → TasksOk s → LinksOk s → BranchesOk s → SlotsOk s → DisplayOk s → step s = .next t → DisplayOk t

/-- R37, R95, R103, R147, R151, R157 to R159, R162, R165, R166: every step keeps both branch controllers in order: each slot queued once, the roster in
address order and in range, the counts in range, the scan-in-progress states true exactly while a scan runs, and the held LAMP_DIRECT, the SHOW in
progress, the slots that keep a direct display and those that await a SHOW of their own branch. -/
def Obligations.EveryStepKeepsBranches : Prop :=
  ∀ s t : State, BranchesOk s → step s = .next t → BranchesOk t

/-- The state after reset has every property that the steps keep.
The model's choice: log 6. -/
def Obligations.ResetHasEveryInvariant : Prop :=
  let s := State.reset
  (StoreOk s ∧ TrunkListsOk s ∧ QueuesOk s) ∧ (MapOk s ∧ RightsOk s ∧ PickersOk s ∧ ParamsOk s.params)
    ∧ (TasksOk s ∧ GroupsOk s ∧ LiveFlagsOk s ∧ PackerOk s ∧ s.residue < 16000) ∧ LinksOk s ∧ BranchesOk s ∧ SlotsOk s ∧ DisplayOk s
end

