-- ==== Sys2Proof/Laws/State.lean ====
section
/-!
SUPPORT. What each named update of State leaves and sets, field by field.
-/

namespace Sys2Proof.Machine

open Sys2Proof

/-! ## One record of a table replaced -/

@[simp] theorem setPort_pending (s : State) (p : Port) (x : PortState) : (s.setPort p x).pending = s.pending := by cases p <;> rfl
@[simp] theorem setPort_now (s : State) (p : Port) (x : PortState) : (s.setPort p x).now = s.now := by cases p <;> rfl
@[simp] theorem setPort_clock (s : State) (p : Port) (x : PortState) : (s.setPort p x).clock = s.clock := by cases p <;> rfl
@[simp] theorem setPort_residue (s : State) (p : Port) (x : PortState) : (s.setPort p x).residue = s.residue := by cases p <;> rfl
@[simp] theorem setPort_station (s : State) (p : Port) (x : PortState) : (s.setPort p x).station = s.station := by cases p <;> rfl
@[simp] theorem setPort_recent (s : State) (p : Port) (x : PortState) : (s.setPort p x).recent = s.recent := by cases p <;> rfl
@[simp] theorem setPort_ownSent (s : State) (p : Port) (x : PortState) : (s.setPort p x).ownSent = s.ownSent := by cases p <;> rfl
@[simp] theorem setPort_seq (s : State) (p : Port) (x : PortState) : (s.setPort p x).seq = s.seq := by cases p <;> rfl
@[simp] theorem setPort_freeCells (s : State) (p : Port) (x : PortState) : (s.setPort p x).freeCells = s.freeCells := by cases p <;> rfl
@[simp] theorem setPort_frames (s : State) (p : Port) (x : PortState) : (s.setPort p x).frames = s.frames := by cases p <;> rfl
@[simp] theorem setPort_nextRef (s : State) (p : Port) (x : PortState) : (s.setPort p x).nextRef = s.nextRef := by cases p <;> rfl
@[simp] theorem setPort_admitted (s : State) (p : Port) (x : PortState) : (s.setPort p x).admitted = s.admitted := by cases p <;> rfl
@[simp] theorem setPort_rights (s : State) (p : Port) (x : PortState) : (s.setPort p x).rights = s.rights := by cases p <;> rfl
@[simp] theorem setPort_params (s : State) (p : Port) (x : PortState) : (s.setPort p x).params = s.params := by cases p <;> rfl
@[simp] theorem setPort_silenceSince (s : State) (p : Port) (x : PortState) : (s.setPort p x).silenceSince = s.silenceSince := by cases p <;> rfl
@[simp] theorem setPort_orphaned (s : State) (p : Port) (x : PortState) : (s.setPort p x).orphaned = s.orphaned := by cases p <;> rfl
@[simp] theorem setPort_scanningL (s : State) (p : Port) (x : PortState) : (s.setPort p x).scanningL = s.scanningL := by cases p <;> rfl
@[simp] theorem setPort_scanningR (s : State) (p : Port) (x : PortState) : (s.setPort p x).scanningR = s.scanningR := by cases p <;> rfl
@[simp] theorem setPort_pendingReset (s : State) (p : Port) (x : PortState) : (s.setPort p x).pendingReset = s.pendingReset := by cases p <;> rfl
@[simp] theorem setPort_resetCause (s : State) (p : Port) (x : PortState) : (s.setPort p x).resetCause = s.resetCause := by cases p <;> rfl
@[simp] theorem setPort_locMap (s : State) (p : Port) (x : PortState) : (s.setPort p x).locMap = s.locMap := by cases p <;> rfl
@[simp] theorem setPort_locked (s : State) (p : Port) (x : PortState) : (s.setPort p x).locked = s.locked := by cases p <;> rfl
@[simp] theorem setPort_pickers (s : State) (p : Port) (x : PortState) : (s.setPort p x).pickers = s.pickers := by cases p <;> rfl
@[simp] theorem setPort_tasks (s : State) (p : Port) (x : PortState) : (s.setPort p x).tasks = s.tasks := by cases p <;> rfl
@[simp] theorem setPort_groups (s : State) (p : Port) (x : PortState) : (s.setPort p x).groups = s.groups := by cases p <;> rfl
@[simp] theorem setPort_nextGroup (s : State) (p : Port) (x : PortState) : (s.setPort p x).nextGroup = s.nextGroup := by cases p <;> rfl
@[simp] theorem setPort_slots (s : State) (p : Port) (x : PortState) : (s.setPort p x).slots = s.slots := by cases p <;> rfl
@[simp] theorem setPort_branchL (s : State) (p : Port) (x : PortState) : (s.setPort p x).branchL = s.branchL := by cases p <;> rfl
@[simp] theorem setPort_branchR (s : State) (p : Port) (x : PortState) : (s.setPort p x).branchR = s.branchR := by cases p <;> rfl
@[simp] theorem setPort_fifo (s : State) (p : Port) (x : PortState) : (s.setPort p x).fifo = s.fifo := by cases p <;> rfl
@[simp] theorem setPort_combine (s : State) (p : Port) (x : PortState) : (s.setPort p x).combine = s.combine := by cases p <;> rfl
@[simp] theorem setPort_roomNotices (s : State) (p : Port) (x : PortState) : (s.setPort p x).roomNotices = s.roomNotices := by cases p <;> rfl
@[simp] theorem setPort_counters (s : State) (p : Port) (x : PortState) : (s.setPort p x).counters = s.counters := by cases p <;> rfl
@[simp] theorem setPort_flags (s : State) (p : Port) (x : PortState) : (s.setPort p x).flags = s.flags := by cases p <;> rfl
@[simp] theorem setPort_mask (s : State) (p : Port) (x : PortState) : (s.setPort p x).mask = s.mask := by cases p <;> rfl
@[simp] theorem setPort_notes (s : State) (p : Port) (x : PortState) : (s.setPort p x).notes = s.notes := by cases p <;> rfl

@[simp] theorem setBranch_pending (s : State) (b : Branch) (x : BranchState) : (s.setBranch b x).pending = s.pending := by cases b <;> rfl
@[simp] theorem setBranch_now (s : State) (b : Branch) (x : BranchState) : (s.setBranch b x).now = s.now := by cases b <;> rfl
@[simp] theorem setBranch_clock (s : State) (b : Branch) (x : BranchState) : (s.setBranch b x).clock = s.clock := by cases b <;> rfl
@[simp] theorem setBranch_residue (s : State) (b : Branch) (x : BranchState) : (s.setBranch b x).residue = s.residue := by cases b <;> rfl
@[simp] theorem setBranch_station (s : State) (b : Branch) (x : BranchState) : (s.setBranch b x).station = s.station := by cases b <;> rfl
@[simp] theorem setBranch_portA (s : State) (b : Branch) (x : BranchState) : (s.setBranch b x).portA = s.portA := by cases b <;> rfl
@[simp] theorem setBranch_portB (s : State) (b : Branch) (x : BranchState) : (s.setBranch b x).portB = s.portB := by cases b <;> rfl
@[simp] theorem setBranch_recent (s : State) (b : Branch) (x : BranchState) : (s.setBranch b x).recent = s.recent := by cases b <;> rfl
@[simp] theorem setBranch_ownSent (s : State) (b : Branch) (x : BranchState) : (s.setBranch b x).ownSent = s.ownSent := by cases b <;> rfl
@[simp] theorem setBranch_seq (s : State) (b : Branch) (x : BranchState) : (s.setBranch b x).seq = s.seq := by cases b <;> rfl
@[simp] theorem setBranch_freeCells (s : State) (b : Branch) (x : BranchState) : (s.setBranch b x).freeCells = s.freeCells := by cases b <;> rfl
@[simp] theorem setBranch_frames (s : State) (b : Branch) (x : BranchState) : (s.setBranch b x).frames = s.frames := by cases b <;> rfl
@[simp] theorem setBranch_nextRef (s : State) (b : Branch) (x : BranchState) : (s.setBranch b x).nextRef = s.nextRef := by cases b <;> rfl
@[simp] theorem setBranch_admitted (s : State) (b : Branch) (x : BranchState) : (s.setBranch b x).admitted = s.admitted := by cases b <;> rfl
@[simp] theorem setBranch_rights (s : State) (b : Branch) (x : BranchState) : (s.setBranch b x).rights = s.rights := by cases b <;> rfl
@[simp] theorem setBranch_params (s : State) (b : Branch) (x : BranchState) : (s.setBranch b x).params = s.params := by cases b <;> rfl
@[simp] theorem setBranch_silenceSince (s : State) (b : Branch) (x : BranchState) : (s.setBranch b x).silenceSince = s.silenceSince := by cases b <;> rfl
@[simp] theorem setBranch_orphaned (s : State) (b : Branch) (x : BranchState) : (s.setBranch b x).orphaned = s.orphaned := by cases b <;> rfl
@[simp] theorem setBranch_scanningL (s : State) (b : Branch) (x : BranchState) : (s.setBranch b x).scanningL = s.scanningL := by cases b <;> rfl
@[simp] theorem setBranch_scanningR (s : State) (b : Branch) (x : BranchState) : (s.setBranch b x).scanningR = s.scanningR := by cases b <;> rfl
@[simp] theorem setBranch_pendingReset (s : State) (b : Branch) (x : BranchState) : (s.setBranch b x).pendingReset = s.pendingReset := by cases b <;> rfl
@[simp] theorem setBranch_resetCause (s : State) (b : Branch) (x : BranchState) : (s.setBranch b x).resetCause = s.resetCause := by cases b <;> rfl
@[simp] theorem setBranch_locMap (s : State) (b : Branch) (x : BranchState) : (s.setBranch b x).locMap = s.locMap := by cases b <;> rfl
@[simp] theorem setBranch_locked (s : State) (b : Branch) (x : BranchState) : (s.setBranch b x).locked = s.locked := by cases b <;> rfl
@[simp] theorem setBranch_pickers (s : State) (b : Branch) (x : BranchState) : (s.setBranch b x).pickers = s.pickers := by cases b <;> rfl
@[simp] theorem setBranch_tasks (s : State) (b : Branch) (x : BranchState) : (s.setBranch b x).tasks = s.tasks := by cases b <;> rfl
@[simp] theorem setBranch_groups (s : State) (b : Branch) (x : BranchState) : (s.setBranch b x).groups = s.groups := by cases b <;> rfl
@[simp] theorem setBranch_nextGroup (s : State) (b : Branch) (x : BranchState) : (s.setBranch b x).nextGroup = s.nextGroup := by cases b <;> rfl
@[simp] theorem setBranch_slots (s : State) (b : Branch) (x : BranchState) : (s.setBranch b x).slots = s.slots := by cases b <;> rfl
@[simp] theorem setBranch_fifo (s : State) (b : Branch) (x : BranchState) : (s.setBranch b x).fifo = s.fifo := by cases b <;> rfl
@[simp] theorem setBranch_combine (s : State) (b : Branch) (x : BranchState) : (s.setBranch b x).combine = s.combine := by cases b <;> rfl
@[simp] theorem setBranch_roomNotices (s : State) (b : Branch) (x : BranchState) : (s.setBranch b x).roomNotices = s.roomNotices := by cases b <;> rfl
@[simp] theorem setBranch_counters (s : State) (b : Branch) (x : BranchState) : (s.setBranch b x).counters = s.counters := by cases b <;> rfl
@[simp] theorem setBranch_flags (s : State) (b : Branch) (x : BranchState) : (s.setBranch b x).flags = s.flags := by cases b <;> rfl
@[simp] theorem setBranch_mask (s : State) (b : Branch) (x : BranchState) : (s.setBranch b x).mask = s.mask := by cases b <;> rfl
@[simp] theorem setBranch_notes (s : State) (b : Branch) (x : BranchState) : (s.setBranch b x).notes = s.notes := by cases b <;> rfl

@[simp] theorem setScanning_pending (s : State) (b : Branch) (on : Bool) : (s.setScanning b on).pending = s.pending := by cases b <;> rfl
@[simp] theorem setScanning_now (s : State) (b : Branch) (on : Bool) : (s.setScanning b on).now = s.now := by cases b <;> rfl
@[simp] theorem setScanning_clock (s : State) (b : Branch) (on : Bool) : (s.setScanning b on).clock = s.clock := by cases b <;> rfl
@[simp] theorem setScanning_residue (s : State) (b : Branch) (on : Bool) : (s.setScanning b on).residue = s.residue := by cases b <;> rfl
@[simp] theorem setScanning_station (s : State) (b : Branch) (on : Bool) : (s.setScanning b on).station = s.station := by cases b <;> rfl
@[simp] theorem setScanning_portA (s : State) (b : Branch) (on : Bool) : (s.setScanning b on).portA = s.portA := by cases b <;> rfl
@[simp] theorem setScanning_portB (s : State) (b : Branch) (on : Bool) : (s.setScanning b on).portB = s.portB := by cases b <;> rfl
@[simp] theorem setScanning_recent (s : State) (b : Branch) (on : Bool) : (s.setScanning b on).recent = s.recent := by cases b <;> rfl
@[simp] theorem setScanning_ownSent (s : State) (b : Branch) (on : Bool) : (s.setScanning b on).ownSent = s.ownSent := by cases b <;> rfl
@[simp] theorem setScanning_seq (s : State) (b : Branch) (on : Bool) : (s.setScanning b on).seq = s.seq := by cases b <;> rfl
@[simp] theorem setScanning_freeCells (s : State) (b : Branch) (on : Bool) : (s.setScanning b on).freeCells = s.freeCells := by cases b <;> rfl
@[simp] theorem setScanning_frames (s : State) (b : Branch) (on : Bool) : (s.setScanning b on).frames = s.frames := by cases b <;> rfl
@[simp] theorem setScanning_nextRef (s : State) (b : Branch) (on : Bool) : (s.setScanning b on).nextRef = s.nextRef := by cases b <;> rfl
@[simp] theorem setScanning_admitted (s : State) (b : Branch) (on : Bool) : (s.setScanning b on).admitted = s.admitted := by cases b <;> rfl
@[simp] theorem setScanning_rights (s : State) (b : Branch) (on : Bool) : (s.setScanning b on).rights = s.rights := by cases b <;> rfl
@[simp] theorem setScanning_params (s : State) (b : Branch) (on : Bool) : (s.setScanning b on).params = s.params := by cases b <;> rfl
@[simp] theorem setScanning_silenceSince (s : State) (b : Branch) (on : Bool) : (s.setScanning b on).silenceSince = s.silenceSince := by cases b <;> rfl
@[simp] theorem setScanning_orphaned (s : State) (b : Branch) (on : Bool) : (s.setScanning b on).orphaned = s.orphaned := by cases b <;> rfl
@[simp] theorem setScanning_pendingReset (s : State) (b : Branch) (on : Bool) : (s.setScanning b on).pendingReset = s.pendingReset := by cases b <;> rfl
@[simp] theorem setScanning_resetCause (s : State) (b : Branch) (on : Bool) : (s.setScanning b on).resetCause = s.resetCause := by cases b <;> rfl
@[simp] theorem setScanning_locMap (s : State) (b : Branch) (on : Bool) : (s.setScanning b on).locMap = s.locMap := by cases b <;> rfl
@[simp] theorem setScanning_locked (s : State) (b : Branch) (on : Bool) : (s.setScanning b on).locked = s.locked := by cases b <;> rfl
@[simp] theorem setScanning_pickers (s : State) (b : Branch) (on : Bool) : (s.setScanning b on).pickers = s.pickers := by cases b <;> rfl
@[simp] theorem setScanning_tasks (s : State) (b : Branch) (on : Bool) : (s.setScanning b on).tasks = s.tasks := by cases b <;> rfl
@[simp] theorem setScanning_groups (s : State) (b : Branch) (on : Bool) : (s.setScanning b on).groups = s.groups := by cases b <;> rfl
@[simp] theorem setScanning_nextGroup (s : State) (b : Branch) (on : Bool) : (s.setScanning b on).nextGroup = s.nextGroup := by cases b <;> rfl
@[simp] theorem setScanning_slots (s : State) (b : Branch) (on : Bool) : (s.setScanning b on).slots = s.slots := by cases b <;> rfl
@[simp] theorem setScanning_branchL (s : State) (b : Branch) (on : Bool) : (s.setScanning b on).branchL = s.branchL := by cases b <;> rfl
@[simp] theorem setScanning_branchR (s : State) (b : Branch) (on : Bool) : (s.setScanning b on).branchR = s.branchR := by cases b <;> rfl
@[simp] theorem setScanning_fifo (s : State) (b : Branch) (on : Bool) : (s.setScanning b on).fifo = s.fifo := by cases b <;> rfl
@[simp] theorem setScanning_combine (s : State) (b : Branch) (on : Bool) : (s.setScanning b on).combine = s.combine := by cases b <;> rfl
@[simp] theorem setScanning_roomNotices (s : State) (b : Branch) (on : Bool) : (s.setScanning b on).roomNotices = s.roomNotices := by cases b <;> rfl
@[simp] theorem setScanning_counters (s : State) (b : Branch) (on : Bool) : (s.setScanning b on).counters = s.counters := by cases b <;> rfl
@[simp] theorem setScanning_flags (s : State) (b : Branch) (on : Bool) : (s.setScanning b on).flags = s.flags := by cases b <;> rfl
@[simp] theorem setScanning_mask (s : State) (b : Branch) (on : Bool) : (s.setScanning b on).mask = s.mask := by cases b <;> rfl
@[simp] theorem setScanning_notes (s : State) (b : Branch) (on : Bool) : (s.setScanning b on).notes = s.notes := by cases b <;> rfl

@[simp] theorem setSlot_pending (s : State) (x : SlotState) : (s.setSlot x).pending = s.pending := rfl
@[simp] theorem setSlot_now (s : State) (x : SlotState) : (s.setSlot x).now = s.now := rfl
@[simp] theorem setSlot_clock (s : State) (x : SlotState) : (s.setSlot x).clock = s.clock := rfl
@[simp] theorem setSlot_residue (s : State) (x : SlotState) : (s.setSlot x).residue = s.residue := rfl
@[simp] theorem setSlot_station (s : State) (x : SlotState) : (s.setSlot x).station = s.station := rfl
@[simp] theorem setSlot_portA (s : State) (x : SlotState) : (s.setSlot x).portA = s.portA := rfl
@[simp] theorem setSlot_portB (s : State) (x : SlotState) : (s.setSlot x).portB = s.portB := rfl
@[simp] theorem setSlot_recent (s : State) (x : SlotState) : (s.setSlot x).recent = s.recent := rfl
@[simp] theorem setSlot_ownSent (s : State) (x : SlotState) : (s.setSlot x).ownSent = s.ownSent := rfl
@[simp] theorem setSlot_seq (s : State) (x : SlotState) : (s.setSlot x).seq = s.seq := rfl
@[simp] theorem setSlot_freeCells (s : State) (x : SlotState) : (s.setSlot x).freeCells = s.freeCells := rfl
@[simp] theorem setSlot_frames (s : State) (x : SlotState) : (s.setSlot x).frames = s.frames := rfl
@[simp] theorem setSlot_nextRef (s : State) (x : SlotState) : (s.setSlot x).nextRef = s.nextRef := rfl
@[simp] theorem setSlot_admitted (s : State) (x : SlotState) : (s.setSlot x).admitted = s.admitted := rfl
@[simp] theorem setSlot_rights (s : State) (x : SlotState) : (s.setSlot x).rights = s.rights := rfl
@[simp] theorem setSlot_params (s : State) (x : SlotState) : (s.setSlot x).params = s.params := rfl
@[simp] theorem setSlot_silenceSince (s : State) (x : SlotState) : (s.setSlot x).silenceSince = s.silenceSince := rfl
@[simp] theorem setSlot_orphaned (s : State) (x : SlotState) : (s.setSlot x).orphaned = s.orphaned := rfl
@[simp] theorem setSlot_scanningL (s : State) (x : SlotState) : (s.setSlot x).scanningL = s.scanningL := rfl
@[simp] theorem setSlot_scanningR (s : State) (x : SlotState) : (s.setSlot x).scanningR = s.scanningR := rfl
@[simp] theorem setSlot_pendingReset (s : State) (x : SlotState) : (s.setSlot x).pendingReset = s.pendingReset := rfl
@[simp] theorem setSlot_resetCause (s : State) (x : SlotState) : (s.setSlot x).resetCause = s.resetCause := rfl
@[simp] theorem setSlot_locMap (s : State) (x : SlotState) : (s.setSlot x).locMap = s.locMap := rfl
@[simp] theorem setSlot_locked (s : State) (x : SlotState) : (s.setSlot x).locked = s.locked := rfl
@[simp] theorem setSlot_pickers (s : State) (x : SlotState) : (s.setSlot x).pickers = s.pickers := rfl
@[simp] theorem setSlot_tasks (s : State) (x : SlotState) : (s.setSlot x).tasks = s.tasks := rfl
@[simp] theorem setSlot_groups (s : State) (x : SlotState) : (s.setSlot x).groups = s.groups := rfl
@[simp] theorem setSlot_nextGroup (s : State) (x : SlotState) : (s.setSlot x).nextGroup = s.nextGroup := rfl
@[simp] theorem setSlot_branchL (s : State) (x : SlotState) : (s.setSlot x).branchL = s.branchL := rfl
@[simp] theorem setSlot_branchR (s : State) (x : SlotState) : (s.setSlot x).branchR = s.branchR := rfl
@[simp] theorem setSlot_fifo (s : State) (x : SlotState) : (s.setSlot x).fifo = s.fifo := rfl
@[simp] theorem setSlot_combine (s : State) (x : SlotState) : (s.setSlot x).combine = s.combine := rfl
@[simp] theorem setSlot_roomNotices (s : State) (x : SlotState) : (s.setSlot x).roomNotices = s.roomNotices := rfl
@[simp] theorem setSlot_counters (s : State) (x : SlotState) : (s.setSlot x).counters = s.counters := rfl
@[simp] theorem setSlot_flags (s : State) (x : SlotState) : (s.setSlot x).flags = s.flags := rfl
@[simp] theorem setSlot_mask (s : State) (x : SlotState) : (s.setSlot x).mask = s.mask := rfl
@[simp] theorem setSlot_notes (s : State) (x : SlotState) : (s.setSlot x).notes = s.notes := rfl

@[simp] theorem setGroup_pending (s : State) (x : Group) : (s.setGroup x).pending = s.pending := rfl
@[simp] theorem setGroup_now (s : State) (x : Group) : (s.setGroup x).now = s.now := rfl
@[simp] theorem setGroup_clock (s : State) (x : Group) : (s.setGroup x).clock = s.clock := rfl
@[simp] theorem setGroup_residue (s : State) (x : Group) : (s.setGroup x).residue = s.residue := rfl
@[simp] theorem setGroup_station (s : State) (x : Group) : (s.setGroup x).station = s.station := rfl
@[simp] theorem setGroup_portA (s : State) (x : Group) : (s.setGroup x).portA = s.portA := rfl
@[simp] theorem setGroup_portB (s : State) (x : Group) : (s.setGroup x).portB = s.portB := rfl
@[simp] theorem setGroup_recent (s : State) (x : Group) : (s.setGroup x).recent = s.recent := rfl
@[simp] theorem setGroup_ownSent (s : State) (x : Group) : (s.setGroup x).ownSent = s.ownSent := rfl
@[simp] theorem setGroup_seq (s : State) (x : Group) : (s.setGroup x).seq = s.seq := rfl
@[simp] theorem setGroup_freeCells (s : State) (x : Group) : (s.setGroup x).freeCells = s.freeCells := rfl
@[simp] theorem setGroup_frames (s : State) (x : Group) : (s.setGroup x).frames = s.frames := rfl
@[simp] theorem setGroup_nextRef (s : State) (x : Group) : (s.setGroup x).nextRef = s.nextRef := rfl
@[simp] theorem setGroup_admitted (s : State) (x : Group) : (s.setGroup x).admitted = s.admitted := rfl
@[simp] theorem setGroup_rights (s : State) (x : Group) : (s.setGroup x).rights = s.rights := rfl
@[simp] theorem setGroup_params (s : State) (x : Group) : (s.setGroup x).params = s.params := rfl
@[simp] theorem setGroup_silenceSince (s : State) (x : Group) : (s.setGroup x).silenceSince = s.silenceSince := rfl
@[simp] theorem setGroup_orphaned (s : State) (x : Group) : (s.setGroup x).orphaned = s.orphaned := rfl
@[simp] theorem setGroup_scanningL (s : State) (x : Group) : (s.setGroup x).scanningL = s.scanningL := rfl
@[simp] theorem setGroup_scanningR (s : State) (x : Group) : (s.setGroup x).scanningR = s.scanningR := rfl
@[simp] theorem setGroup_pendingReset (s : State) (x : Group) : (s.setGroup x).pendingReset = s.pendingReset := rfl
@[simp] theorem setGroup_resetCause (s : State) (x : Group) : (s.setGroup x).resetCause = s.resetCause := rfl
@[simp] theorem setGroup_locMap (s : State) (x : Group) : (s.setGroup x).locMap = s.locMap := rfl
@[simp] theorem setGroup_locked (s : State) (x : Group) : (s.setGroup x).locked = s.locked := rfl
@[simp] theorem setGroup_pickers (s : State) (x : Group) : (s.setGroup x).pickers = s.pickers := rfl
@[simp] theorem setGroup_tasks (s : State) (x : Group) : (s.setGroup x).tasks = s.tasks := rfl
@[simp] theorem setGroup_nextGroup (s : State) (x : Group) : (s.setGroup x).nextGroup = s.nextGroup := rfl
@[simp] theorem setGroup_slots (s : State) (x : Group) : (s.setGroup x).slots = s.slots := rfl
@[simp] theorem setGroup_branchL (s : State) (x : Group) : (s.setGroup x).branchL = s.branchL := rfl
@[simp] theorem setGroup_branchR (s : State) (x : Group) : (s.setGroup x).branchR = s.branchR := rfl
@[simp] theorem setGroup_fifo (s : State) (x : Group) : (s.setGroup x).fifo = s.fifo := rfl
@[simp] theorem setGroup_combine (s : State) (x : Group) : (s.setGroup x).combine = s.combine := rfl
@[simp] theorem setGroup_roomNotices (s : State) (x : Group) : (s.setGroup x).roomNotices = s.roomNotices := rfl
@[simp] theorem setGroup_counters (s : State) (x : Group) : (s.setGroup x).counters = s.counters := rfl
@[simp] theorem setGroup_flags (s : State) (x : Group) : (s.setGroup x).flags = s.flags := rfl
@[simp] theorem setGroup_mask (s : State) (x : Group) : (s.setGroup x).mask = s.mask := rfl
@[simp] theorem setGroup_notes (s : State) (x : Group) : (s.setGroup x).notes = s.notes := rfl

@[simp] theorem setPicker_pending (s : State) (x : Picker) : (s.setPicker x).pending = s.pending := rfl
@[simp] theorem setPicker_now (s : State) (x : Picker) : (s.setPicker x).now = s.now := rfl
@[simp] theorem setPicker_clock (s : State) (x : Picker) : (s.setPicker x).clock = s.clock := rfl
@[simp] theorem setPicker_residue (s : State) (x : Picker) : (s.setPicker x).residue = s.residue := rfl
@[simp] theorem setPicker_station (s : State) (x : Picker) : (s.setPicker x).station = s.station := rfl
@[simp] theorem setPicker_portA (s : State) (x : Picker) : (s.setPicker x).portA = s.portA := rfl
@[simp] theorem setPicker_portB (s : State) (x : Picker) : (s.setPicker x).portB = s.portB := rfl
@[simp] theorem setPicker_recent (s : State) (x : Picker) : (s.setPicker x).recent = s.recent := rfl
@[simp] theorem setPicker_ownSent (s : State) (x : Picker) : (s.setPicker x).ownSent = s.ownSent := rfl
@[simp] theorem setPicker_seq (s : State) (x : Picker) : (s.setPicker x).seq = s.seq := rfl
@[simp] theorem setPicker_freeCells (s : State) (x : Picker) : (s.setPicker x).freeCells = s.freeCells := rfl
@[simp] theorem setPicker_frames (s : State) (x : Picker) : (s.setPicker x).frames = s.frames := rfl
@[simp] theorem setPicker_nextRef (s : State) (x : Picker) : (s.setPicker x).nextRef = s.nextRef := rfl
@[simp] theorem setPicker_admitted (s : State) (x : Picker) : (s.setPicker x).admitted = s.admitted := rfl
@[simp] theorem setPicker_rights (s : State) (x : Picker) : (s.setPicker x).rights = s.rights := rfl
@[simp] theorem setPicker_params (s : State) (x : Picker) : (s.setPicker x).params = s.params := rfl
@[simp] theorem setPicker_silenceSince (s : State) (x : Picker) : (s.setPicker x).silenceSince = s.silenceSince := rfl
@[simp] theorem setPicker_orphaned (s : State) (x : Picker) : (s.setPicker x).orphaned = s.orphaned := rfl
@[simp] theorem setPicker_scanningL (s : State) (x : Picker) : (s.setPicker x).scanningL = s.scanningL := rfl
@[simp] theorem setPicker_scanningR (s : State) (x : Picker) : (s.setPicker x).scanningR = s.scanningR := rfl
@[simp] theorem setPicker_pendingReset (s : State) (x : Picker) : (s.setPicker x).pendingReset = s.pendingReset := rfl
@[simp] theorem setPicker_resetCause (s : State) (x : Picker) : (s.setPicker x).resetCause = s.resetCause := rfl
@[simp] theorem setPicker_locMap (s : State) (x : Picker) : (s.setPicker x).locMap = s.locMap := rfl
@[simp] theorem setPicker_locked (s : State) (x : Picker) : (s.setPicker x).locked = s.locked := rfl
@[simp] theorem setPicker_tasks (s : State) (x : Picker) : (s.setPicker x).tasks = s.tasks := rfl
@[simp] theorem setPicker_groups (s : State) (x : Picker) : (s.setPicker x).groups = s.groups := rfl
@[simp] theorem setPicker_nextGroup (s : State) (x : Picker) : (s.setPicker x).nextGroup = s.nextGroup := rfl
@[simp] theorem setPicker_slots (s : State) (x : Picker) : (s.setPicker x).slots = s.slots := rfl
@[simp] theorem setPicker_branchL (s : State) (x : Picker) : (s.setPicker x).branchL = s.branchL := rfl
@[simp] theorem setPicker_branchR (s : State) (x : Picker) : (s.setPicker x).branchR = s.branchR := rfl
@[simp] theorem setPicker_fifo (s : State) (x : Picker) : (s.setPicker x).fifo = s.fifo := rfl
@[simp] theorem setPicker_combine (s : State) (x : Picker) : (s.setPicker x).combine = s.combine := rfl
@[simp] theorem setPicker_roomNotices (s : State) (x : Picker) : (s.setPicker x).roomNotices = s.roomNotices := rfl
@[simp] theorem setPicker_counters (s : State) (x : Picker) : (s.setPicker x).counters = s.counters := rfl
@[simp] theorem setPicker_flags (s : State) (x : Picker) : (s.setPicker x).flags = s.flags := rfl
@[simp] theorem setPicker_mask (s : State) (x : Picker) : (s.setPicker x).mask = s.mask := rfl
@[simp] theorem setPicker_notes (s : State) (x : Picker) : (s.setPicker x).notes = s.notes := rfl

/-! ## What the updates set -/

@[simp] theorem setPort_port (s : State) (p : Port) (x : PortState) : (s.setPort p x).port p = x := by cases p <;> rfl

@[simp] theorem setPort_port_other (s : State) (p : Port) (x : PortState) :
    (s.setPort p x).port (otherPort p) = s.port (otherPort p) := by cases p <;> rfl

@[simp] theorem setBranch_branch (s : State) (b : Branch) (x : BranchState) : (s.setBranch b x).branch b = x := by
  cases b <;> rfl

@[simp] theorem setScanning_scanning (s : State) (b : Branch) (on : Bool) : (s.setScanning b on).scanning b = on := by
  cases b <;> rfl

@[simp] theorem setScanning_branch (s : State) (b c : Branch) (on : Bool) : (s.setScanning b on).branch c = s.branch c := by
  cases b <;> cases c <;> rfl

@[simp] theorem setBranch_scanning (s : State) (b c : Branch) (x : BranchState) :
    (s.setBranch b x).scanning c = s.scanning c := by cases b <;> cases c <;> rfl

@[simp] theorem setPort_portA (s : State) (x : PortState) : (s.setPort .a x).portA = x := rfl

@[simp] theorem setPort_portB (s : State) (x : PortState) : (s.setPort .b x).portB = x := rfl

@[simp] theorem setBranch_branchL (s : State) (x : BranchState) : (s.setBranch .l x).branchL = x := rfl

@[simp] theorem setBranch_branchR (s : State) (x : BranchState) : (s.setBranch .r x).branchR = x := rfl

@[simp] theorem onBranch_branch (s : State) (b : Branch) (f : BranchState → BranchState) :
    (onBranch b f s).branch b = f (s.branch b) := by cases b <;> rfl

end Sys2Proof.Machine
end

