-- ==== Sys2Proof/Laws/Frames.lean ====
section
/-!
SUPPORT. What each shared operation leaves unchanged: one lemma each, naming the parts of the state that it may change.
-/

namespace Sys2Proof.Machine

open Sys2Proof

/-! ## OnlyChanges composes -/

theorem Keeps.refl (p : Part) (s : State) : Keeps p s s := by cases p <;> simp [Keeps]

theorem Keeps.trans {p : Part} {s t u : State} (h : Keeps p s t) (k : Keeps p t u) : Keeps p s u := by
  cases p <;> simp_all [Keeps]

theorem onlyChanges_refl (ps : List Part) (s : State) : OnlyChanges ps s s := fun p => .inr (Keeps.refl p s)

theorem OnlyChanges.trans {ps : List Part} {s t u : State} (h : OnlyChanges ps s t) (k : OnlyChanges ps t u) :
    OnlyChanges ps s u := fun p =>
  (h p).elim .inl fun a => (k p).elim .inl fun b => .inr (a.trans b)

theorem OnlyChanges.mono {ps qs : List Part} {s t : State} (h : OnlyChanges ps s t) (hs : ps ⊆ qs) : OnlyChanges qs s t :=
  fun p => (h p).imp (fun m => hs m) id

theorem OnlyChanges.keeps {ps : List Part} {s t : State} (h : OnlyChanges ps s t) {p : Part} (hp : p ∉ ps) :
    Keeps p s t := (h p).resolve_left hp

theorem onlyChanges_foldl {α : Type} {ps : List Part} {f : State → α → State} (h : ∀ t x, OnlyChanges ps t (f t x))
    (xs : List α) : ∀ s : State, OnlyChanges ps s (xs.foldl f s) := by
  induction xs with
  | nil => exact fun s => onlyChanges_refl ps s
  | cons x xs ih => exact fun s => (h s x).trans (ih (f s x))

/-! ## Flags and counters -/

theorem setFlag_only (f : Flag) (s : State) : OnlyChanges [.flags, .notes] s (setFlag f s) := by
  unfold setFlag; split
  · exact onlyChanges_refl _ _
  · intro p; cases p <;> simp [Keeps]

theorem clearFlag_only (f : Flag) (s : State) : OnlyChanges [.flags] s (clearFlag f s) := by
  intro p; cases p <;> simp [Keeps, clearFlag]

theorem followFlag_only (f : Flag) (c : Bool) (s : State) : OnlyChanges [.flags, .notes] s (followFlag f c s) := by
  unfold followFlag; split
  · exact setFlag_only f s
  · exact (clearFlag_only f s).mono (by decide)

theorem countSignal_only (k : CounterNo) (e : CounterEvent) (place : Option Nat) (s : State) :
    OnlyChanges [.counters, .flags, .notes] s (countSignal k e place s) := by
  have counted : ∀ t : State, t = { s with counters := t.counters, notes := t.notes } →
      OnlyChanges [.counters, .flags, .notes] s t := by
    intro t ht p; rw [ht]; cases p <;> simp [Keeps]
  simp only [countSignal]; split
  · split
    · exact (counted _ rfl).trans ((setFlag_only _ _).mono (by decide))
    · exact counted _ rfl
  · exact onlyChanges_refl _ _

theorem signal_only (e : CounterEvent) (place : Option Nat) (s : State) :
    OnlyChanges [.counters, .flags, .notes] s (signal e place s) :=
  (((countSignal_only .c0 e place _).trans (countSignal_only .c1 e place _)).trans (countSignal_only .c2 e place _)).trans
    (countSignal_only .c3 e place _)

/-! ## The relay -/

theorem setPort_queues (s : State) (p : Port) (x : PortState) (hu : x.up = (s.port p).up) (hr : x.rx = (s.port p).rx) :
    OnlyChanges [.queues] s (s.setPort p x) := by
  intro q; cases p <;> cases q <;> simp_all [Keeps, State.setPort, State.port]

theorem startTransmitter_only (p : Port) (s : State) : OnlyChanges [.queues] s (startTransmitter p s) := by
  simp only [startTransmitter]; split
  · split
    · exact setPort_queues s p _ rfl rfl
    · exact setPort_queues s p _ rfl rfl
    · exact onlyChanges_refl _ _
  · exact onlyChanges_refl _ _

theorem enqueueRef_only (express : Bool) (ref : Nat) (p : Port) (s : State) :
    OnlyChanges [.queues] s (enqueueRef express ref p s) := by
  unfold enqueueRef
  refine OnlyChanges.trans ?_ (startTransmitter_only p _)
  cases express <;> exact setPort_queues s p _ rfl rfl

theorem storeFrame_only (f : Frame) (requester : Option Requester) (ports : List Port) (s : State) :
    OnlyChanges [.queues, .store] s (storeFrame f requester ports s) := by
  unfold storeFrame
  refine OnlyChanges.trans ?_ (onlyChanges_foldl (fun t p => (enqueueRef_only _ _ p t).mono (by decide)) ports _)
  intro p; cases p <;> simp [Keeps]

theorem dropRef_only (ref : Nat) (s : State) :
    OnlyChanges [.store, .roomNotices, .pendingReset] s (dropRef ref s) := by
  unfold dropRef; split
  · exact onlyChanges_refl _ _
  · split <;> (intro p; cases p <;> simp [Keeps])

theorem originate_only (dest : Nat) (kind : Byte) (express : Bool) (requester : Requester) (payload : List Byte) (s : State) :
    OnlyChanges relayParts s (originate dest kind express requester payload s).2 := by
  simp only [originate]; split
  · exact onlyChanges_refl _ _
  · split
    · exact onlyChanges_refl _ _
    · refine OnlyChanges.trans (t := { s with
        ownSent := pushCapped Config.ownSentFrames s.ownSent s.seq, seq := s.seq + 1 }) ?_
        ((storeFrame_only _ _ _ _).mono (by decide))
      intro p; cases p <;> simp [Keeps, relayParts]

theorem answer_only (r : Request) (a : Answer) (s : State) :
    OnlyChanges ([.flags, .notes] ++ relayParts) s (answer r a s) := by
  unfold answer; split
  · exact onlyChanges_refl _ _
  · have h := originate_only r.origin replyCodeKind true .requestHandler (replyPayload r a) s
    revert h
    generalize originate r.origin replyCodeKind true .requestHandler (replyPayload r a) s = o
    rcases o with ⟨o, t⟩
    intro h
    cases o
    · exact (h.mono (by decide)).trans ((setFlag_only _ _).mono (by decide))
    · exact h.mono (by decide)

/-! ## The packer and the end of an event -/

theorem offer_only (r : Record) (s : State) : OnlyChanges [.records, .flags, .notes] s (offer r s) := by
  unfold offer; split
  · intro p; cases p <;> simp [Keeps]
  · exact (setFlag_only _ _).mono (by decide)

theorem settleCombine_only (s : State) : OnlyChanges [.records] s (settleCombine s) := by
  intro p; cases p <;> simp [Keeps, settleCombine]

theorem rejudgeCombine_only (s : State) : OnlyChanges [.records] s (rejudgeCombine s) := by
  intro p; cases p <;> simp [Keeps, rejudgeCombine]

theorem holdCombine_only (s : State) : OnlyChanges [.records] s (holdCombine s) := by
  intro p; cases p <;> simp [Keeps, holdCombine]

theorem buildFrame_only (s : State) : OnlyChanges (.records :: relayParts) s (buildFrame s).2 := by
  simp only [buildFrame]
  have h := originate_only s.params.target reportCodeKind (((s.fifo.take Config.recordsPerFrame).map (·.record)).any
    Record.isAttention) .reportPacker (BitVec.ofNat 8 ((s.fifo.take Config.recordsPerFrame).map (·.record)).length
      :: ((s.fifo.take Config.recordsPerFrame).map (·.record)).flatMap Record.bytes) s
  revert h
  generalize originate _ _ _ _ _ s = o
  rcases o with ⟨o, t⟩
  intro h
  cases o
  · exact (h.mono (by decide)).trans ((holdCombine_only _).mono (by decide))
  · refine (h.mono (by decide)).trans (OnlyChanges.trans (t := { t with fifo := t.fifo.drop Config.recordsPerFrame }) ?_
      ((settleCombine_only _).mono (by decide)))
    intro p; cases p <;> simp [Keeps, relayParts]

theorem buildDue_only (fuel : Nat) : ∀ s : State, OnlyChanges (.records :: relayParts) s (buildDue fuel s) := by
  induction fuel with
  | zero => exact fun s => onlyChanges_refl _ _
  | succ n ih =>
    intro s
    simp only [buildDue]; split
    · have h := buildFrame_only s
      revert h
      generalize buildFrame s = o
      rcases o with ⟨o, t⟩
      intro h
      cases o
      · exact h
      · exact h.trans (ih t)
    · exact onlyChanges_refl _ _

theorem judgePacker_only (s : State) : OnlyChanges (.records :: relayParts) s (judgePacker s) := buildDue_only _ s

theorem beginEvent_only (s : State) : OnlyChanges [.notes] s (beginEvent s) := by
  intro p; cases p <;> simp [Keeps, beginEvent]

theorem offerWraps_only (s : State) : OnlyChanges [.records, .flags, .notes] s (offerWraps s) :=
  onlyChanges_foldl (fun t _ => offer_only _ t) _ s

theorem offerAttention_only (s : State) : OnlyChanges [.records, .flags, .notes] s (offerAttention s) := by
  simp only [offerAttention]; split
  · exact onlyChanges_refl _ _
  · exact offer_only _ _

theorem endEvent_only (s : State) : OnlyChanges eventParts s (endEvent s) := by
  have h : OnlyChanges eventParts s (offerAttention (offerWraps s)) :=
    ((offerWraps_only s).trans (offerAttention_only _)).mono (by decide)
  have clean : ∀ t : State, OnlyChanges eventParts t { t with notes := EventNotes.empty } := by
    intro t p; cases p <;> simp [Keeps, eventParts]
  simp only [endEvent]; split
  · exact (h.trans ((judgePacker_only _).mono (by decide))).trans (clean _)
  · exact h.trans (clean _)

/-- An event changes what its own effect changes and what its end can change. -/
theorem event_only {ps : List Part} {f : State → State} {s : State} (h : ∀ t, OnlyChanges ps t (f t)) :
    OnlyChanges (ps ++ eventParts) s (event f s) :=
  (((beginEvent_only s).mono (by simp [eventParts])).trans ((h _).mono (by simp))).trans
    ((endEvent_only _).mono (by simp))

/-! ## The display scheduler -/

theorem setSlot_only (s : State) (x : SlotState) : OnlyChanges [.slots] s (s.setSlot x) := by
  intro p; cases p <;> simp [Keeps, State.setSlot]

theorem setGroup_only (s : State) (x : Group) : OnlyChanges [.groups] s (s.setGroup x) := by
  intro p; cases p <;> simp [Keeps, State.setGroup]

theorem setPicker_only (s : State) (x : Picker) : OnlyChanges [.pickers] s (s.setPicker x) := by
  intro p; cases p <;> simp [Keeps, State.setPicker]

theorem enqueueSlot_only (pos : SlotPos) (s : State) : OnlyChanges [.work] s (enqueueSlot pos s) := by
  simp only [enqueueSlot]; split
  · exact onlyChanges_refl _ _
  · intro p; cases hb : pos.branch <;> cases p <;> simp [Keeps, State.setBranch, State.branch]

theorem renewShadow_only (pos : SlotPos) (s : State) : OnlyChanges [.slots, .work] s (renewShadow pos s) := by
  unfold renewShadow; split
  · exact onlyChanges_refl _ _
  · simp only; split
    · exact onlyChanges_refl _ _
    · exact ((setSlot_only _ _).mono (by decide)).trans ((enqueueSlot_only _ _).mono (by decide))

theorem recompute_only (e : MapEntry) (s : State) : OnlyChanges displayParts s (recompute e s) := by
  unfold recompute; split
  · exact onlyChanges_refl _ _
  · refine OnlyChanges.trans ?_ ((renewShadow_only _ _).mono (by decide))
    refine OnlyChanges.trans ?_ ((setSlot_only _ _).mono (by decide))
    intro p; cases p <;> simp [Keeps, displayParts]

theorem recomputeWhere_only (p : MapEntry → Bool) (s : State) : OnlyChanges displayParts s (recomputeWhere p s) :=
  onlyChanges_foldl (fun t e => recompute_only e t) _ s

theorem recomputeCodes_only (codes : List Nat) (s : State) : OnlyChanges displayParts s (recomputeCodes codes s) :=
  recomputeWhere_only _ s

theorem recomputeAll_only (s : State) : OnlyChanges displayParts s (recomputeAll s) := recomputeWhere_only _ s

theorem noticeModule_only (b : Branch) (addr : Nat) (s : State) : OnlyChanges displayParts s (noticeModule b addr s) :=
  recomputeWhere_only _ s

theorem noticeBranch_only (b : Branch) (s : State) : OnlyChanges displayParts s (noticeBranch b s) :=
  recomputeWhere_only _ s

theorem renewColour_only (picker : Nat) (s : State) : OnlyChanges [.slots, .work] s (renewColour picker s) :=
  onlyChanges_foldl (fun t _ => renewShadow_only _ t) _ s

theorem enqueueSlots_only (q : SlotPos → Bool) (b : Branch) (addr : Nat) (s : State) :
    OnlyChanges [.work] s (enqueueSlots q b addr s) :=
  onlyChanges_foldl
    (fun t n => by
      simp only; split
      · exact enqueueSlot_only _ t
      · exact onlyChanges_refl _ _) _ s

theorem enqueueModule_only (b : Branch) (addr : Nat) (s : State) : OnlyChanges [.work] s (enqueueModule b addr s) :=
  enqueueSlots_only _ _ _ _

theorem enqueueFound_only (b : Branch) (addr : Nat) (s : State) : OnlyChanges [.work] s (enqueueFound b addr s) :=
  enqueueSlots_only _ _ _ _

theorem enqueueReturning_only (b : Branch) (addr : Nat) (s : State) : OnlyChanges [.work] s (enqueueReturning b addr s) :=
  enqueueSlots_only _ _ _ _

theorem releaseSlot_only (pos : SlotPos) (s : State) : OnlyChanges [.slots, .work] s (releaseSlot pos s) := by
  unfold releaseSlot; split
  · exact onlyChanges_refl _ _
  · have h : ∀ xs, OnlyChanges [.slots, .work] s { s with slots := xs } := by
      intro xs p; cases p <;> simp [Keeps]
    simp only; split
    · exact h _
    · exact (h _).trans ((enqueueSlot_only _ _).mono (by decide))

theorem takeUpSlot_only (pos : SlotPos) (s : State) : OnlyChanges [.slots, .work] s (takeUpSlot pos s) := by
  unfold takeUpSlot
  refine OnlyChanges.trans ?_ ((enqueueSlot_only _ _).mono (by decide))
  intro p; cases p <;> simp [Keeps]

theorem removeGroup_only (g : Group) (s : State) : OnlyChanges [.groups, .slots] s (removeGroup g s) := by
  have h : OnlyChanges [.groups, .slots] s { s with groups := s.groups.filter (fun h => h.id != g.id) } := by
    intro p; cases p <;> simp [Keeps]
  simp only [removeGroup]; split
  · exact h
  · exact h.trans ((setSlot_only _ _).mono (by decide))

theorem showFeedback_only (pos : SlotPos) (sym : Symbol) (s : State) :
    OnlyChanges [.slots, .work] s (showFeedback pos sym s) := by
  unfold showFeedback; split
  · exact onlyChanges_refl _ _
  · exact ((setSlot_only _ _).mono (by decide)).trans (renewShadow_only _ _)

theorem lingerExpire_only (x : SlotState) (s : State) :
    OnlyChanges (displayParts ++ [.records, .flags, .notes]) s (lingerExpire x s) := by
  unfold lingerExpire; split
  · exact (setSlot_only _ _).mono (by decide)
  · refine OnlyChanges.trans ?_ ((offer_only _ _).mono (by decide))
    refine OnlyChanges.trans ?_ ((renewShadow_only _ _).mono (by decide))
    exact ((setGroup_only _ _).mono (by decide)).trans ((setSlot_only _ _).mono (by decide))

theorem judgeLinger_only (oldBase : Nat) (s : State) :
    OnlyChanges (displayParts ++ eventParts) s (judgeLinger oldBase s) := by
  refine onlyChanges_foldl (fun t e => ?_) _ s
  simp only; split
  · exact onlyChanges_refl _ _
  · split
    · exact (setSlot_only _ _).mono (by decide)
    · split
      · split
        · exact (event_only (lingerExpire_only _)).mono (by decide)
        · exact (setSlot_only _ _).mono (by decide)
      · split
        · exact (setSlot_only _ _).mono (by decide)
        · exact onlyChanges_refl _ _
      · exact onlyChanges_refl _ _

theorem rotationExpire_only (x : SlotState) (s : State) : OnlyChanges [.slots, .work] s (rotationExpire x s) := by
  unfold rotationExpire
  exact ((setSlot_only _ _).mono (by decide)).trans (renewShadow_only _ _)

/-! ## The request handler -/

theorem enterOrphaned_only (s : State) :
    OnlyChanges (displayParts ++ [.orphaned, .flags, .notes]) s (enterOrphaned s) := by
  unfold enterOrphaned
  refine OnlyChanges.trans ?_ ((recomputeAll_only _).mono (by decide))
  refine OnlyChanges.trans ?_ ((setFlag_only _ _).mono (by decide))
  intro p; cases p <;> simp [Keeps, displayParts]

theorem leaveOrphaned_only (s : State) :
    OnlyChanges (displayParts ++ [.orphaned, .flags, .notes]) s (leaveOrphaned s) := by
  unfold leaveOrphaned
  refine OnlyChanges.trans ?_ ((recomputeAll_only _).mono (by decide))
  refine OnlyChanges.trans ?_ ((setFlag_only _ _).mono (by decide))
  refine OnlyChanges.trans ?_ ((clearFlag_only _ _).mono (by decide))
  intro p; cases p <;> simp [Keeps, displayParts]

theorem takeDelivery_only (f : Frame) (s : State) :
    OnlyChanges (displayParts ++ [.orphaned, .silence, .admitted, .counters, .flags, .notes]) s (takeDelivery f s) := by
  unfold takeDelivery; split
  · exact (signal_only _ _ _).mono (by decide)
  · split
    · exact (signal_only _ _ _).mono (by decide)
    · have h : ∀ n rs, OnlyChanges (displayParts ++ [.orphaned, .silence, .admitted, .counters, .flags, .notes]) s
          { s with silenceSince := n, admitted := rs } := by
        intro n rs p; cases p <;> simp [Keeps, displayParts]
      simp only; split
      · exact (h _ _).trans ((leaveOrphaned_only _).mono (by decide))
      · exact h _ _

/-- A carried-forward request changes what its service changes, the queue of admitted requests, and what a reply, the counters and the end
of an event can change. -/
theorem carryForward_only {ps : List Part} {kind : ReqKind} {serve : Request → State → State}
    (h : ∀ r t, OnlyChanges ps t (serve r t)) (s : State) :
    OnlyChanges (ps ++ .admitted :: .counters :: eventParts) s (carryForward kind serve s) := by
  unfold carryForward; split
  · exact onlyChanges_refl _ _
  · split
    · refine (event_only (ps := ps ++ .admitted :: .counters :: eventParts) fun t => ?_).mono (by
        intro x hx; simp only [List.mem_append, List.mem_cons] at hx ⊢; tauto)
      have adm : ∀ rs, OnlyChanges (ps ++ .admitted :: .counters :: eventParts) t { t with admitted := rs } := by
        intro rs p; cases p <;> simp [Keeps]
      rename_i r rest _ _
      refine (adm rest).trans ?_
      simp only; split
      · exact (signal_only _ _ _).mono (by simp [eventParts])
      · split
        · exact (answer_only _ _ _).mono (by simp [eventParts, relayParts])
        · exact (h _ _).mono (by simp)
    · exact onlyChanges_refl _ _

/-- A request answered at once changes what its block changes and what a reply can change. -/
theorem answered_only {ps : List Part} {apply : Request → State → Answer × State}
    (h : ∀ r t, OnlyChanges ps t (apply r t).2) (r : Request) (s : State) :
    OnlyChanges (ps ++ eventParts) s (answered apply r s) :=
  ((h r s).mono (by simp)).trans ((answer_only _ _ _).mono (by simp [eventParts, relayParts]))

end Sys2Proof.Machine
end

