-- ==== Sys2Proof/Laws/Commands.lean ====
section
/-!
SUPPORT. What each command leaves unchanged, when it gives a next state: one lemma for each meaning.
-/

namespace Sys2Proof.Machine

open Sys2Proof

/-- The next state of a meaning that answers one. -/
theorem next_inj {s t : State} (h : (Host.Outcome.next s : Host.Outcome State Fault Refusal) = .next t) : t = s := by
  cases h; rfl

/-! ## Trunk (chapter 1) -/

theorem dropFrame_only (flag : Option Flag) (s : State) :
    OnlyChanges [.counters, .flags, .notes] s (dropFrame flag s) := by
  unfold dropFrame
  cases flag
  · exact signal_only _ _ _
  · exact ((setFlag_only _ _).mono (by decide)).trans (signal_only _ _ _)

theorem forwardFrame_only (p : Port) (f : Frame) (s : State) :
    OnlyChanges [.queues, .store, .counters, .flags, .notes] s (forwardFrame p f s) := by
  simp only [forwardFrame]
  split
  · exact (dropFrame_only _ _).mono (by decide)
  · split
    · exact (dropFrame_only _ _).mono (by decide)
    · split
      · exact (dropFrame_only _ _).mono (by decide)
      · exact ((storeFrame_only _ _ _ _).mono (by decide)).trans ((signal_only _ _ _).mono (by decide))

/-- The parts that a delivery changes (R13, R14, R25, R36). -/
def deliveryParts : List Part :=
  displayParts ++ [.recent, .orphaned, .silence, .admitted, .counters, .flags, .notes]

theorem deliverFrame_only (f : Frame) (s : State) : OnlyChanges deliveryParts s (deliverFrame f s) := by
  have h : ∀ xs, OnlyChanges deliveryParts s { s with recent := xs } := by
    intro xs p; cases p <;> simp [Keeps, deliveryParts]
  simp only [deliverFrame]; split
  · exact (h _).trans ((signal_only _ _ _).mono (by decide))
  · exact ((h _).trans ((signal_only _ _ _).mono (by decide))).trans ((takeDelivery_only _ _).mono (by decide))

/-- The parts that an arrival on an UP port changes. -/
def arrivalParts : List Part := [.queues, .store] ++ deliveryParts

theorem disposeFrame_only (p : Port) (f : Frame) (s : State) : OnlyChanges arrivalParts s (disposeFrame p f s) := by
  have fwd : ∀ t, OnlyChanges arrivalParts t (forwardFrame p f t) := fun t => (forwardFrame_only p f t).mono (by decide)
  have dlv : ∀ t, OnlyChanges arrivalParts t (deliverFrame f t) := fun t => (deliverFrame_only f t).mono (by decide)
  unfold disposeFrame
  split
  · exact fwd s
  · split
    · split
      · exact onlyChanges_refl _ _
      · exact (setFlag_only _ _).mono (by decide)
    · split
      · exact dlv s
      · split
        · exact (dlv s).trans (fwd _)
        · exact fwd s

theorem takeArrival_only (p : Port) (s : State) : OnlyChanges arrivalParts s (takeArrival p s) := by
  simp only [takeArrival]
  split
  · exact (dropFrame_only _ _).mono (by decide)
  · split
    · exact (dropFrame_only _ _).mono (by decide)
    · split
      · exact (dropFrame_only _ _).mono (by decide)
      · exact disposeFrame_only _ _ _

theorem fillBuffer_only (p : Port) (bytes : List Byte) (s : State) : OnlyChanges [.buffers] s (fillBuffer p bytes s) := by
  intro q; cases p <;> cases q <;> simp [Keeps, fillBuffer, State.setPort, State.port]

theorem freeBuffer_only (p : Port) (s : State) : OnlyChanges [.buffers] s (freeBuffer p s) := by
  intro q; cases p <;> cases q <;> simp [Keeps, freeBuffer, State.setPort, State.port]

theorem execFrameArrival_only {p : Port} {bytes : List Byte} {s t : State} (h : execFrameArrival p bytes s = .next t) :
    OnlyChanges (.buffers :: arrivalParts ++ eventParts) s t := by
  simp only [execFrameArrival] at h
  have fill := (fillBuffer_only p bytes s).mono (qs := .buffers :: arrivalParts ++ eventParts) (by decide)
  split at h <;> rw [next_inj h]
  · refine fill.trans ((event_only (ps := .buffers :: arrivalParts) fun u => ?_).mono (by decide))
    exact ((takeArrival_only p u).mono (by decide)).trans ((freeBuffer_only p _).mono (by decide))
  · exact fill.trans ((freeBuffer_only p _).mono (by decide))

theorem flushPort_only (p : Port) (s : State) :
    OnlyChanges [.lines, .queues, .store, .roomNotices, .pendingReset] s (flushPort p s) := by
  simp only [flushPort]
  refine OnlyChanges.trans ?_ (onlyChanges_foldl (fun t ref => (dropRef_only ref t).mono (by decide)) _ _)
  intro q; cases p <;> cases q <;> simp [Keeps, State.setPort, State.port]

theorem execLineDown_only {p : Port} {s t : State} (h : execLineDown p s = .next t) :
    OnlyChanges ([.lines, .queues, .store, .roomNotices, .pendingReset, .flags, .notes] ++ eventParts) s t := by
  unfold execLineDown at h
  split at h <;> rw [next_inj h]
  · exact event_only fun u => ((flushPort_only p u).mono (by decide)).trans ((setFlag_only _ _).mono (by decide))
  · exact onlyChanges_refl _ _

theorem raisePort_only (p : Port) (s : State) :
    OnlyChanges [.lines, .queues, .roomNotices, .flags] s (raisePort p s) := by
  simp only [raisePort]
  refine OnlyChanges.trans (OnlyChanges.trans (t := s.setPort p { s.port p with up := true }) ?_
    ((clearFlag_only (linkFlag p) _).mono (by decide))) (OnlyChanges.trans
      (t := { clearFlag (linkFlag p) (s.setPort p { s.port p with up := true }) with
        roomNotices := (clearFlag (linkFlag p) (s.setPort p { s.port p with up := true })).roomNotices + 1 }) ?_
      ((startTransmitter_only p _).mono (by decide)))
  · intro q; cases p <;> cases q <;> simp [Keeps, State.setPort, State.port]
  · intro q; cases q <;> simp [Keeps]

theorem execLineUp_only {p : Port} {s t : State} (h : execLineUp p s = .next t) :
    OnlyChanges ([.lines, .queues, .roomNotices, .flags] ++ eventParts) s t := by
  unfold execLineUp at h
  split at h <;> rw [next_inj h]
  · exact onlyChanges_refl _ _
  · exact event_only fun u => raisePort_only p u

theorem endTransmission_only (p : Port) (ref : Nat) (s : State) :
    OnlyChanges [.queues, .store, .roomNotices, .pendingReset] s (endTransmission p ref s) := by
  unfold endTransmission
  refine OnlyChanges.trans (OnlyChanges.trans ?_ ((dropRef_only ref _).mono (by decide)))
    ((startTransmitter_only p _).mono (by decide))
  exact (setPort_queues s p { s.port p with sending := none } rfl rfl).mono (by decide)

theorem execTransmissionEnd_only {p : Port} {s t : State} (h : execTransmissionEnd p s = .next t) :
    OnlyChanges ([.queues, .store, .roomNotices, .pendingReset] ++ eventParts) s t := by
  unfold execTransmissionEnd at h
  split at h <;> rw [next_inj h]
  · exact onlyChanges_refl _ _
  · exact event_only fun u => endTransmission_only p _ u

/-! ## The packer's own events (chapter 9) -/

theorem execRoomNoticeBuild_only {s t : State} (h : execRoomNoticeBuild s = .next t) :
    OnlyChanges (.roomNotices :: eventParts) s t := by
  unfold execRoomNoticeBuild at h
  split at h <;> rw [next_inj h]
  · exact onlyChanges_refl _ _
  · refine (event_only (ps := .roomNotices :: eventParts) fun u => ?_).mono (by decide)
    refine OnlyChanges.trans (t := { u with roomNotices := u.roomNotices - 1 }) ?_ ((judgePacker_only _).mono (by decide))
    intro q; cases q <;> simp [Keeps]

theorem execCombineExpiry_only {s t : State} (h : execCombineExpiry s = .next t) : OnlyChanges eventParts s t := by
  unfold execCombineExpiry at h
  split at h
  · rw [next_inj h]; exact onlyChanges_refl _ _
  · split at h <;> rw [next_inj h]
    · refine (event_only (ps := eventParts) fun u => ?_).mono (by decide)
      rename_i c _ _
      refine OnlyChanges.trans (t := { u with combine := some { c with expired := true } }) ?_
        ((judgePacker_only _).mono (by decide))
      intro q; cases q <;> simp [Keeps, eventParts]
    · exact onlyChanges_refl _ _

/-! ## Tasks (chapter 5) -/

theorem judgeTasksHigh_only (s : State) : OnlyChanges [.flags, .notes] s (judgeTasksHigh s) := followFlag_only _ _ s

theorem changeOpen_only (id : Nat) (f : Nat → Nat) (s : State) : OnlyChanges [.pickers] s (changeOpen id f s) := by
  unfold changeOpen; split
  · exact onlyChanges_refl _ _
  · exact setPicker_only _ _

theorem placeTask_only (t : TaskItem) (s : State) : OnlyChanges [.groups, .nextGroup] s (placeTask t s).2 := by
  unfold placeTask; split
  · exact (setGroup_only _ _).mono (by decide)
  · intro p; cases p <;> simp [Keeps]

/-- The parts that posting tasks changes before the recomputation. -/
def postParts : List Part := [.tasks, .groups, .nextGroup, .pickers, .counters, .flags, .notes]

theorem postTask_only (t : TaskItem) (s : State) : OnlyChanges postParts s (postTask t s).2 := by
  unfold postTask; split
  · exact onlyChanges_refl _ _
  · simp only
    refine OnlyChanges.trans ?_ ((judgeTasksHigh_only _).mono (by decide))
    refine OnlyChanges.trans ?_ ((signal_only _ _ _).mono (by decide))
    refine OnlyChanges.trans ?_ ((changeOpen_only _ _ _).mono (by decide))
    refine ((placeTask_only t s).mono (by decide)).trans ?_
    intro p; cases p <;> simp [Keeps, postParts]

theorem postTasks_only (ts : List TaskItem) : ∀ s : State, OnlyChanges postParts s (postTasks ts s).2.2 := by
  induction ts with
  | nil => exact fun s => onlyChanges_refl _ _
  | cons t ts ih => exact fun s => (postTask_only t s).trans (ih _)

theorem applyTaskPost_only (r : Request) (s : State) :
    OnlyChanges (postParts ++ [.slots, .work]) s (applyTaskPost r s).2 :=
  ((postTasks_only _ s).mono (by decide)).trans ((recomputeCodes_only _ _).mono (by decide))

theorem execTaskPost_only {s t : State} (h : execTaskPost s = .next t) :
    OnlyChanges (postParts ++ [.slots, .work, .admitted] ++ eventParts) s t := by
  rw [next_inj h]
  exact (carryForward_only (fun r u => answered_only applyTaskPost_only r u) s).mono (by decide)

theorem closeTask_only (t : Task) (s : State) : OnlyChanges [.tasks, .pickers] s (closeTask t s) := by
  unfold closeTask
  refine OnlyChanges.trans ?_ ((changeOpen_only _ _ _).mono (by decide))
  intro p; cases p <;> simp [Keeps]

theorem cancelTask_only (n : Nat) (s : State) :
    OnlyChanges [.tasks, .pickers, .groups, .slots] s (cancelTask n s).2.2 := by
  unfold cancelTask; split
  · exact onlyChanges_refl _ _
  · rename_i t _
    refine ((closeTask_only t s).mono (by decide)).trans ?_
    simp only; split
    · exact onlyChanges_refl _ _
    · split
      · exact (removeGroup_only _ _).mono (by decide)
      · exact (setGroup_only _ _).mono (by decide)

theorem cancelTasks_only (ns : List Nat) :
    ∀ s : State, OnlyChanges [.tasks, .pickers, .groups, .slots] s (cancelTasks ns s).2.2 := by
  induction ns with
  | nil => exact fun s => onlyChanges_refl _ _
  | cons n ns ih => exact fun s => (cancelTask_only n s).trans (ih _)

theorem applyTaskCancel_only (r : Request) (s : State) :
    OnlyChanges [.tasks, .pickers, .groups, .slots, .work, .flags, .notes] s (applyTaskCancel r s).2 :=
  (((cancelTasks_only _ s).mono (by decide)).trans ((judgeTasksHigh_only _).mono (by decide))).trans
    ((recomputeCodes_only _ _).mono (by decide))

theorem execTaskCancel_only {s t : State} (h : execTaskCancel s = .next t) :
    OnlyChanges ([.tasks, .pickers, .groups, .slots, .work, .admitted, .counters] ++ eventParts) s t := by
  rw [next_inj h]
  exact (carryForward_only (fun r u => answered_only applyTaskCancel_only r u) s).mono (by decide)

theorem applyTaskAmend_only (r : Request) (s : State) :
    OnlyChanges [.tasks, .groups, .slots, .work] s (applyTaskAmend r s).2 := by
  have h : ∀ xs, OnlyChanges [.tasks, .groups, .slots, .work] s { s with tasks := xs } := by
    intro xs p; cases p <;> simp [Keeps]
  unfold applyTaskAmend; split
  · exact onlyChanges_refl _ _
  · simp only; split
    · exact onlyChanges_refl _ _
    · split
      · exact onlyChanges_refl _ _
      · split
        · exact onlyChanges_refl _ _
        · simp only; split
          · exact h _
          · exact ((h _).trans ((setGroup_only _ _).mono (by decide))).trans ((recomputeCodes_only _ _).mono (by decide))

theorem execTaskAmend_only {s t : State} (h : execTaskAmend s = .next t) :
    OnlyChanges ([.tasks, .groups, .slots, .work, .admitted, .counters] ++ eventParts) s t := by
  rw [next_inj h]
  exact (carryForward_only (fun r u => answered_only applyTaskAmend_only r u) s).mono (by decide)

/-- What a request that only reads can change: the queue of admitted requests, a counter for a discarded one, and what the reply and the
end of the event change. -/
def readParts : List Part := .admitted :: .counters :: eventParts

theorem carryRead_only {kind : ReqKind} {apply : Request → State → Answer × State} (h : ∀ r t, (apply r t).2 = t)
    (s : State) : OnlyChanges readParts s (carryForward kind (answered apply) s) :=
  (carryForward_only (fun r u => answered_only (ps := []) (fun r t => by rw [h]; exact onlyChanges_refl _ _) r u) s).mono
    (by decide)

theorem execTaskQuery_only {s t : State} (h : execTaskQuery s = .next t) : OnlyChanges readParts s t := by
  rw [next_inj h]
  refine carryRead_only (fun r u => ?_) s
  unfold applyTaskQuery; split
  · rfl
  · split <;> rfl

/-! ## Pickers (chapter 4) -/

theorem pickerNotice_only (old new : Picker) (s : State) : OnlyChanges displayParts s (pickerNotice old new s) := by
  unfold pickerNotice; split
  · exact recomputeWhere_only _ _
  · split
    · exact (renewColour_only _ _).mono (by decide)
    · exact onlyChanges_refl _ _

theorem applyPickerSet_only (r : Request) (s : State) :
    OnlyChanges (.pickers :: displayParts) s (applyPickerSet r s).2 := by
  unfold applyPickerSet; split
  · exact onlyChanges_refl _ _
  · simp only; split
    · exact onlyChanges_refl _ _
    · split
      · exact onlyChanges_refl _ _
      · split
        · exact OnlyChanges.trans ((setPicker_only _ _).mono (by decide)) ((pickerNotice_only _ _ _).mono (by decide))
        · intro p; cases p <;> simp [Keeps, displayParts]

theorem execPickerSet_only {s t : State} (h : execPickerSet s = .next t) :
    OnlyChanges (.pickers :: displayParts ++ readParts) s t := by
  rw [next_inj h]
  exact (carryForward_only (fun r u => answered_only applyPickerSet_only r u) s).mono (by decide)

theorem setPickerState_only (goal : PickerState) (r : Request) (s : State) :
    OnlyChanges (.pickers :: displayParts) s (setPickerState goal r s).2 := by
  unfold setPickerState; split
  · exact onlyChanges_refl _ _
  · simp only; split
    · exact onlyChanges_refl _ _
    · exact ((setPicker_only _ _).mono (by decide)).trans ((recomputeWhere_only _ _).mono (by decide))

theorem execPickerPause_only {s t : State} (h : execPickerPause s = .next t) :
    OnlyChanges (.pickers :: displayParts ++ readParts) s t := by
  rw [next_inj h]
  exact (carryForward_only (fun r u => answered_only (setPickerState_only .paused) r u) s).mono (by decide)

theorem execPickerResume_only {s t : State} (h : execPickerResume s = .next t) :
    OnlyChanges (.pickers :: displayParts ++ readParts) s t := by
  rw [next_inj h]
  exact (carryForward_only (fun r u => answered_only (setPickerState_only .active) r u) s).mono (by decide)

theorem applyPickerLeave_only (r : Request) (s : State) :
    OnlyChanges ([.pickers, .tasks, .flags, .notes] ++ displayParts) s (applyPickerLeave r s).2 := by
  unfold applyPickerLeave; split
  · exact onlyChanges_refl _ _
  · have pk : ∀ (u : State) xs, OnlyChanges ([.pickers, .tasks, .flags, .notes] ++ displayParts) u { u with pickers := xs } := by
      intro u xs p; cases p <;> simp [Keeps, displayParts]
    have tk : ∀ (u : State) xs, OnlyChanges ([.pickers, .tasks, .flags, .notes] ++ displayParts) u { u with tasks := xs } := by
      intro u xs p; cases p <;> simp [Keeps, displayParts]
    refine OnlyChanges.trans ?_ (pk _ _)
    refine OnlyChanges.trans ?_ ((recomputeCodes_only _ _).mono (by decide))
    refine OnlyChanges.trans ?_ ((judgeTasksHigh_only _).mono (by decide))
    exact (tk s _).trans (onlyChanges_foldl (fun u g => (removeGroup_only g u).mono (by decide)) _ _)

theorem execPickerLeave_only {s t : State} (h : execPickerLeave s = .next t) :
    OnlyChanges ([.pickers, .tasks] ++ displayParts ++ readParts) s t := by
  rw [next_inj h]
  exact (carryForward_only (fun r u => answered_only applyPickerLeave_only r u) s).mono (by decide)

theorem execPickerRead_only {s t : State} (h : execPickerRead s = .next t) : OnlyChanges readParts s t := by
  rw [next_inj h]
  refine carryRead_only (fun r u => ?_) s
  unfold applyPickerRead; split
  · rfl
  · split <;> rfl

/-! ## Location map and areas (chapter 3) -/

theorem changeMap_only (map : List MapEntry) (s : State) : OnlyChanges [.locations, .slots, .work] s (changeMap map s) := by
  refine OnlyChanges.trans (OnlyChanges.trans ?_
    (onlyChanges_foldl (fun u pos => (releaseSlot_only pos u).mono (by decide)) _ _))
    (onlyChanges_foldl (fun u pos => (takeUpSlot_only pos u).mono (by decide)) _ _)
  intro p; cases p <;> simp [Keeps]

theorem applyMapLoad_only (r : Request) (s : State) :
    OnlyChanges [.locations, .slots, .work] s (applyMapLoad r s).2 := by
  unfold applyMapLoad; split
  · exact onlyChanges_refl _ _
  · exact changeMap_only _ _

theorem execMapLoad_only {s t : State} (h : execMapLoad s = .next t) :
    OnlyChanges ([.locations, .slots, .work] ++ readParts) s t := by
  rw [next_inj h]
  exact (carryForward_only (fun r u => answered_only applyMapLoad_only r u) s).mono (by decide)

theorem applyMapRemove_only (r : Request) (s : State) :
    OnlyChanges [.locations, .slots, .work] s (applyMapRemove r s).2 := by
  unfold applyMapRemove; split
  · exact onlyChanges_refl _ _
  · exact changeMap_only _ _

theorem execMapRemove_only {s t : State} (h : execMapRemove s = .next t) :
    OnlyChanges ([.locations, .slots, .work] ++ readParts) s t := by
  rw [next_inj h]
  exact (carryForward_only (fun r u => answered_only applyMapRemove_only r u) s).mono (by decide)

theorem execMapRead_only {s t : State} (h : execMapRead s = .next t) : OnlyChanges readParts s t := by
  rw [next_inj h]; exact carryRead_only (fun _ _ => rfl) s

theorem applyAreaLock_only (r : Request) (s : State) :
    OnlyChanges (.areas :: displayParts) s (applyAreaLock r s).2 := by
  refine OnlyChanges.trans ?_ ((recomputeWhere_only _ _).mono (by decide))
  intro p; cases p <;> simp [Keeps, displayParts]

theorem execAreaLock_only {s t : State} (h : execAreaLock s = .next t) :
    OnlyChanges (.areas :: displayParts ++ readParts) s t := by
  rw [next_inj h]
  exact (carryForward_only (fun r u => answered_only applyAreaLock_only r u) s).mono (by decide)

theorem applyAreaUnlock_only (r : Request) (s : State) :
    OnlyChanges (.areas :: displayParts) s (applyAreaUnlock r s).2 := by
  refine OnlyChanges.trans ?_ ((recomputeWhere_only _ _).mono (by decide))
  intro p; cases p <;> simp [Keeps, displayParts]

theorem execAreaUnlock_only {s t : State} (h : execAreaUnlock s = .next t) :
    OnlyChanges (.areas :: displayParts ++ readParts) s t := by
  rw [next_inj h]
  exact (carryForward_only (fun r u => answered_only applyAreaUnlock_only r u) s).mono (by decide)

/-! ## Requests to the request handler, the clock, the counters and the flags (chapters 2 and 10) -/

theorem execRightsSet_only {s t : State} (h : execRightsSet s = .next t) : OnlyChanges (.rights :: readParts) s t := by
  rw [next_inj h]
  refine (carryForward_only (ps := .rights :: eventParts) (fun r u => ?_) s).mono (by decide)
  refine (answered_only (ps := [.rights]) (fun r u => ?_) r u).mono (by decide)
  unfold applyRightsSet; split
  · exact onlyChanges_refl _ _
  · intro p; cases p <;> simp [Keeps]

theorem execStatusRead_only {s t : State} (h : execStatusRead s = .next t) : OnlyChanges readParts s t := by
  rw [next_inj h]; exact carryRead_only (fun _ _ => rfl) s

theorem execTimeSet_only {s t : State} (h : execTimeSet s = .next t) : OnlyChanges (.clock :: readParts) s t := by
  rw [next_inj h]
  refine (carryForward_only (ps := .clock :: eventParts) (fun r u => ?_) s).mono (by decide)
  refine (answered_only (ps := [.clock]) (fun r u => ?_) r u).mono (by decide)
  intro p; cases p <;> simp [Keeps, applyTimeSet]

theorem execCounterSet_only {s t : State} (h : execCounterSet s = .next t) : OnlyChanges readParts s t := by
  rw [next_inj h]
  refine (carryForward_only (ps := .counters :: eventParts) (fun r u => ?_) s).mono (by decide)
  refine (answered_only (ps := [.counters]) (fun r u => ?_) r u).mono (by decide)
  unfold applyCounterSet; split
  · intro p; cases p <;> simp [Keeps]
  · exact onlyChanges_refl _ _

theorem execCounterRead_only {s t : State} (h : execCounterRead s = .next t) : OnlyChanges readParts s t := by
  rw [next_inj h]; exact carryRead_only (fun _ _ => rfl) s

theorem execAttentionMask_only {s t : State} (h : execAttentionMask s = .next t) :
    OnlyChanges (.mask :: readParts) s t := by
  rw [next_inj h]
  refine (carryForward_only (ps := .mask :: eventParts) (fun r u => ?_) s).mono (by decide)
  refine (answered_only (ps := [.mask]) (fun r u => ?_) r u).mono (by decide)
  intro p; cases p <;> simp [Keeps, applyAttentionMask]

theorem execAttentionClear_only {s t : State} (h : execAttentionClear s = .next t) : OnlyChanges readParts s t := by
  rw [next_inj h]
  refine (carryForward_only (ps := .flags :: eventParts) (fun r u => ?_) s).mono (by decide)
  refine (answered_only (ps := [.flags]) (fun r u => ?_) r u).mono (by decide)
  intro p; cases p <;> simp [Keeps, applyAttentionClear]

theorem execAttentionRead_only {s t : State} (h : execAttentionRead s = .next t) : OnlyChanges readParts s t := by
  rw [next_inj h]; exact carryRead_only (fun _ _ => rfl) s

theorem execSilenceLimitExpiry_only {s t : State} (h : execSilenceLimitExpiry s = .next t) :
    OnlyChanges (.orphaned :: displayParts ++ eventParts) s t := by
  unfold execSilenceLimitExpiry at h
  split at h <;> rw [next_inj h]
  · exact (event_only fun u => enterOrphaned_only u).mono (by decide)
  · exact onlyChanges_refl _ _

theorem execAisleClockAdvance_only {s t : State} (h : execAisleClockAdvance s = .next t) :
    OnlyChanges [.moment, .clock] s t := by
  rw [next_inj h]; intro p; cases p <;> simp [Keeps, advanceClock]

theorem tick_only (s : State) : OnlyChanges [.moment, .clock] s (tick s) := by
  unfold tick; split <;> (intro p; cases p <;> simp [Keeps])

/-! ## The scheduler's own events (chapter 6) -/

theorem execRotationExpiry_only {pos : SlotPos} {s t : State} (h : execRotationExpiry pos s = .next t) :
    OnlyChanges ([.slots, .work] ++ eventParts) s t := by
  unfold execRotationExpiry at h
  split at h
  · rw [next_inj h]; exact onlyChanges_refl _ _
  · split at h
    · rw [next_inj h]; exact onlyChanges_refl _ _
    · split at h <;> rw [next_inj h]
      · exact event_only fun u => rotationExpire_only _ u
      · exact onlyChanges_refl _ _

theorem execFeedbackExpiry_only {pos : SlotPos} {s t : State} (h : execFeedbackExpiry pos s = .next t) :
    OnlyChanges ([.slots, .work] ++ eventParts) s t := by
  unfold execFeedbackExpiry at h
  split at h
  · rw [next_inj h]; exact onlyChanges_refl _ _
  · split at h
    · rw [next_inj h]; exact onlyChanges_refl _ _
    · split at h <;> rw [next_inj h]
      · exact event_only fun u => ((setSlot_only _ _).mono (by decide)).trans (renewShadow_only _ _)
      · exact onlyChanges_refl _ _

theorem execLingerExpiry_only {pos : SlotPos} {s t : State} (h : execLingerExpiry pos s = .next t) :
    OnlyChanges (displayParts ++ eventParts) s t := by
  unfold execLingerExpiry at h
  split at h
  · rw [next_inj h]; exact onlyChanges_refl _ _
  · split at h
    · rw [next_inj h]; exact onlyChanges_refl _ _
    · split at h <;> rw [next_inj h]
      · exact (event_only fun u => lingerExpire_only _ u).mono (by decide)
      · exact onlyChanges_refl _ _

end Sys2Proof.Machine
end

