-- ==== Sys2Proof/Laws/BranchCommands.lean ====
section
/-!
SUPPORT. What the key commands, the branch commands, CONFIG_SET, CONFIG_READ and the resets leave unchanged, when they give a next state.
-/

namespace Sys2Proof.Machine

open Sys2Proof

/-! ## One branch changed -/

/-- The branch parts that a change of a branch's record leaves: a lemma for any change, from what it does to the record. -/
theorem onBranch_only {ps : List Part} {b : Branch} {f : BranchState → BranchState} {s : State}
    (h : ∀ x : BranchState,
      (Part.faults ∈ ps ∨ (f x).fault = x.fault) ∧ (Part.rosters ∈ ps ∨ (f x).roster = x.roster)
      ∧ (Part.work ∈ ps ∨ (f x).work = x.work) ∧ (Part.commands ∈ ps ∨ (f x).command = x.command)
      ∧ (Part.turns ∈ ps ∨ ((f x).shows = x.shows ∧ (f x).turn = x.turn ∧ (f x).lastAnswering = x.lastAnswering
          ∧ (f x).lastMissing = x.lastMissing ∧ (f x).lastTurn = x.lastTurn))
      ∧ (Part.scans ∈ ps ∨ (f x).scan = x.scan) ∧ (Part.directs ∈ ps ∨ (f x).direct = x.direct)
      ∧ (Part.directShown ∈ ps ∨ (f x).directShown = x.directShown) ∧ (Part.unshown ∈ ps ∨ (f x).unshown = x.unshown)
      ∧ (Part.keys ∈ ps ∨ (f x).keys = x.keys) ∧ (Part.nextTags ∈ ps ∨ (f x).nextTags = x.nextTags)) :
    OnlyChanges ps s (onBranch b f s) := by
  have hl := h s.branchL
  have hr := h s.branchR
  intro p
  by_cases hp : p ∈ ps
  · exact .inl hp
  · right
    cases b <;> cases p <;> simp_all [Keeps, onBranch, State.setBranch, State.branch]

/-! ## Keys (chapter 7) -/

/-- The parts that an accepted or refused press changes. -/
def pressParts : List Part :=
  [.tasks, .pickers, .counters, .records, .flags, .notes] ++ displayParts

theorem acceptAdjust_only (k : KeyEvent) (g : Group) (s : State) : OnlyChanges pressParts s (acceptAdjust k g s) := by
  have sg : ∀ (u : State) x, OnlyChanges pressParts u (u.setGroup x) := fun u x => (setGroup_only u x).mono (by decide)
  have ss : ∀ (u : State) x, OnlyChanges pressParts u (u.setSlot x) := fun u x => (setSlot_only u x).mono (by decide)
  have rc : ∀ (u : State) cs, OnlyChanges pressParts u (recomputeCodes cs u) :=
    fun u cs => (recomputeCodes_only cs u).mono (by decide)
  have rs : ∀ (u : State) pos, OnlyChanges pressParts u (renewShadow pos u) :=
    fun u pos => (renewShadow_only pos u).mono (by decide)
  have held : ∀ u : State, OnlyChanges pressParts u
      (match u.slotAt k.pos with | none => u | some x => u.setSlot (x.heldFor g u)) := by
    intro u; split
    · exact onlyChanges_refl _ _
    · exact ss _ _
  simp only [acceptAdjust]
  refine OnlyChanges.trans ?_ ((signal_only _ _ _).mono (by decide))
  split
  · exact ((sg _ _).trans (held _)).trans (rc _ _)
  · exact (held _).trans (rs _ _)

theorem takeAdjust_only (k : KeyEvent) (s : State) : OnlyChanges pressParts s (takeAdjust k s) := by
  unfold takeAdjust; split
  · exact (signal_only _ _ _).mono (by decide)
  · split
    · exact (signal_only _ _ _).mono (by decide)
    · exact acceptAdjust_only _ _ _

theorem refusePress_only (e : MapEntry) (k : KeyEvent) (why : PressRefusal) (s : State) :
    OnlyChanges pressParts s (refusePress e k why s) := by
  have fb := (showFeedback_only k.pos why.symbol s).mono (qs := pressParts) (by decide)
  cases why
  · exact (fb.trans ((offer_only _ _).mono (by decide))).trans ((signal_only _ _ _).mono (by decide))
  · exact (fb.trans ((offer_only _ _).mono (by decide))).trans ((signal_only _ _ _).mono (by decide))
  · exact fb.trans ((offer_only _ _).mono (by decide))
  · exact fb.trans ((signal_only _ _ _).mono (by decide))

theorem samplePace_only (id : Nat) (a b : ClockValue) (s : State) : OnlyChanges [.pickers] s (samplePace id a b s) := by
  unfold samplePace; split
  · exact onlyChanges_refl _ _
  · exact setPicker_only _ _

theorem closeMember_only (g : Group) (t : Task) (share : Nat) (s : State) :
    OnlyChanges pressParts s (closeMember g t share s) := by
  have h : OnlyChanges pressParts s (offer (.pick t.number g.picker g.loc t.quantity share (outcomeOf t.quantity share)
      (g.firstShown.getD 0) s.clock) (closeTask t s)) :=
    ((closeTask_only t s).mono (by decide)).trans ((offer_only _ _).mono (by decide))
  simp only [closeMember]; split
  · exact h.trans ((signal_only _ _ _).mono (by decide))
  · exact h

theorem acceptConfirm_only (g : Group) (recorded : Nat) (s : State) :
    OnlyChanges pressParts s (acceptConfirm g recorded s) := by
  simp only [acceptConfirm]
  refine OnlyChanges.trans ?_ ((recomputeCodes_only _ _).mono (by decide))
  refine OnlyChanges.trans ?_ ((signal_only _ _ _).mono (by decide))
  refine OnlyChanges.trans ?_ ((judgeTasksHigh_only _).mono (by decide))
  have closed : ∀ ms : List (Task × Nat), OnlyChanges pressParts s
      (removeGroup g (ms.foldl (fun t m => closeMember g m.1 m.2 t) s)) := fun ms =>
    (onlyChanges_foldl (fun u m => closeMember_only g m.1 m.2 u) ms s).trans ((removeGroup_only _ _).mono (by decide))
  cases g.firstShown
  · exact closed _
  · exact (closed _).trans ((samplePace_only _ _ _ _).mono (by decide))

theorem takeConfirm_only (k : KeyEvent) (s : State) : OnlyChanges pressParts s (takeConfirm k s) := by
  unfold takeConfirm; split
  · exact (signal_only _ _ _).mono (by decide)
  · split
    · exact refusePress_only _ _ _ _
    · exact acceptConfirm_only _ _ _

theorem takeKey_only (b : Branch) (ks : List KeyEvent) (s : State) :
    OnlyChanges [.keys] s (s.setBranch b { s.branch b with keys := ks }) :=
  onBranch_only (b := b) (f := fun x => { x with keys := ks }) fun x => by simp

theorem execConfirmKey_only {b : Branch} {s t : State} (h : execConfirmKey b s = .next t) :
    OnlyChanges (.keys :: pressParts ++ eventParts) s t := by
  unfold execConfirmKey at h
  split at h
  · rw [next_inj h]; exact onlyChanges_refl _ _
  · split at h <;> rw [next_inj h]
    · exact event_only (ps := .keys :: pressParts) fun u =>
        ((takeKey_only b _ u).mono (by decide)).trans ((takeConfirm_only _ _).mono (by decide))
    · exact onlyChanges_refl _ _

theorem execAdjustKey_only {b : Branch} {s t : State} (h : execAdjustKey b s = .next t) :
    OnlyChanges (.keys :: pressParts ++ eventParts) s t := by
  unfold execAdjustKey at h
  split at h
  · rw [next_inj h]; exact onlyChanges_refl _ _
  · split at h <;> rw [next_inj h]
    · exact onlyChanges_refl _ _
    · exact event_only (ps := .keys :: pressParts) fun u =>
        ((takeKey_only b _ u).mono (by decide)).trans ((takeAdjust_only _ _).mono (by decide))

/-! ## The branch controllers (chapter 8) -/

/-- The parts that a command's progress on a line changes: the roster, the command, a direct command and its reply, displays, flags. -/
def lineParts : List Part :=
  [.rosters, .commands, .directs, .counters, .flags, .notes] ++ relayParts ++ displayParts

theorem clearCommand_only (b : Branch) (s : State) : OnlyChanges [.commands] s (clearCommand b s) :=
  onBranch_only fun x => by simp

theorem finishDirect_only (b : Branch) (code : ReplyCode) (s : State) :
    OnlyChanges ([.directs, .flags, .notes] ++ relayParts) s (finishDirect b code s) := by
  unfold finishDirect; split
  · exact onlyChanges_refl _ _
  · refine OnlyChanges.trans ?_ ((answer_only _ _ _).mono (by decide))
    exact onBranch_only fun x => by simp

theorem settleOwed_only (b : Branch) (addr : Nat) (drew : Bool) (s : State) :
    OnlyChanges [.rosters] s (settleOwed b addr drew s) := by
  unfold settleOwed; split
  · exact onBranch_only fun x => by simp
  · exact onlyChanges_refl _ _

theorem markMissing_only (b : Branch) (m : Module) (s : State) :
    OnlyChanges ([.rosters, .flags, .notes] ++ displayParts) s (markMissing b m s) := by
  unfold markMissing
  refine OnlyChanges.trans (OnlyChanges.trans ?_ ((setFlag_only _ _).mono (by decide)))
    ((noticeModule_only _ _ _).mono (by decide))
  exact onBranch_only fun x => by simp [BranchState.setModule]

theorem markUnshown_only (b : Branch) (ps : List SlotPos) (s : State) : OnlyChanges [.unshown] s (markUnshown b ps s) :=
  onBranch_only fun x => by simp

theorem endCommand_only (b : Branch) (c : Command) (s : State) : OnlyChanges (.unshown :: lineParts) s (endCommand b c s) := by
  unfold endCommand; split
  · exact ((clearCommand_only _ _).mono (by decide)).trans ((markUnshown_only _ _ _).mono (by decide))
  · exact ((settleOwed_only _ _ _ _).mono (by decide)).trans ((clearCommand_only _ _).mono (by decide))
  · exact onBranch_only fun x => by simp [lineParts]
  · exact ((clearCommand_only _ _).mono (by decide)).trans ((finishDirect_only _ _ _).mono (by decide))
  · exact (clearCommand_only _ _).mono (by decide)

theorem retryOrEnd_only (b : Branch) (c : Command) (s : State) : OnlyChanges (.unshown :: lineParts) s (retryOrEnd b c s) := by
  unfold retryOrEnd; split
  · exact onBranch_only fun x => by simp [lineParts]
  · exact endCommand_only _ _ _

theorem missAttempt_only (b : Branch) (c : Command) (drew : Bool) (s : State) :
    OnlyChanges (.unshown :: lineParts) s (missAttempt b c drew s) := by
  have sig : OnlyChanges (.unshown :: lineParts) s (signal .moduleMiss none s) := (signal_only _ _ _).mono (by decide)
  have mis : ∀ (u : State) m, OnlyChanges (.unshown :: lineParts) u (onBranch b (fun x => x.setModule m) u) := fun u m =>
    onBranch_only fun x => by simp [lineParts, BranchState.setModule]
  simp only [missAttempt]; split
  · exact sig.trans (retryOrEnd_only _ _ _)
  · split
    · exact (sig.trans (mis _ _)).trans (endCommand_only _ _ _)
    · split
      · exact ((sig.trans (mis _ _)).trans ((markMissing_only _ _ _).mono (by decide))).trans (endCommand_only _ _ _)
      · exact (sig.trans (mis _ _)).trans (retryOrEnd_only _ _ _)

theorem validReply_only (b : Branch) (addr : Nat) (s : State) :
    OnlyChanges ([.rosters, .flags, .notes] ++ displayParts) s (validReply b addr s) := by
  have mis : ∀ (u : State) m, OnlyChanges ([.rosters, .flags, .notes] ++ displayParts) u
      (onBranch b (fun x => x.setModule m) u) := fun u m => onBranch_only fun x => by simp [BranchState.setModule]
  unfold validReply; split
  · exact onlyChanges_refl _ _
  · split
    · unfold moduleReturns
      exact (((mis _ _).trans ((setFlag_only _ _).mono (by decide))).trans ((noticeModule_only _ _ _).mono (by decide))).trans
        ((enqueueReturning_only _ _ _).mono (by decide))
    · exact mis _ _

theorem acknowledge_only (b : Branch) (c : Command) (s : State) : OnlyChanges lineParts s (acknowledge b c s) := by
  have h : OnlyChanges lineParts s (clearCommand b (validReply b c.what.addr s)) :=
    ((validReply_only _ _ _).mono (by decide)).trans ((clearCommand_only _ _).mono (by decide))
  unfold acknowledge; simp only; split
  · exact h.trans ((finishDirect_only _ _ _).mono (by decide))
  all_goals exact h

theorem takePollReply_only (b : Branch) (addr : Nat) (bytes : List Byte) (s : State) :
    OnlyChanges (.keys :: lineParts) s (takePollReply b addr bytes s) := by
  have hand : ∀ (u : State) (ks : List KeyEvent) (n : Nat), OnlyChanges (.keys :: lineParts) u (onBranch b (fun x => { x with
      keys := x.keys ++ ks
      roster := x.roster.map fun (m : Module) => if m.addr = addr then { m with owed := n } else m }) u) := fun u ks n =>
    onBranch_only fun x => by simp [lineParts]
  have h : OnlyChanges (.keys :: lineParts) s (clearCommand b (validReply b addr s)) :=
    ((validReply_only _ _ _).mono (by decide)).trans ((clearCommand_only _ _).mono (by decide))
  have lost : ∀ u : State, OnlyChanges (.keys :: lineParts) u (signal .keysLost none (setFlag .keysLost u)) := fun u =>
    ((setFlag_only _ _).mono (by decide)).trans ((signal_only _ _ _).mono (by decide))
  have faulty : ∀ u : State, OnlyChanges (.keys :: lineParts) u (signal .moduleFault none u) := fun u =>
    (signal_only _ _ _).mono (by decide)
  simp only [takePollReply]
  have h2 := h.trans (hand _ (keyEvents b addr bytes) (keyEvents b addr bytes).length)
  split <;> split
  · exact (h2.trans (lost _)).trans (faulty _)
  · exact h2.trans (faulty _)
  · exact h2.trans (lost _)
  · exact h2

/-- The parts that the end of a scan's IDENT changes. -/
def identParts : List Part :=
  [.rosters, .commands, .scans, .scanning, .records, .flags, .notes] ++ displayParts

theorem setScanning_only (s : State) (b : Branch) (on : Bool) : OnlyChanges [.scanning] s (s.setScanning b on) := by
  intro p; cases b <;> cases p <;> simp [Keeps, State.setScanning]

theorem advanceScan_only (b : Branch) (addr found : Nat) (s : State) :
    OnlyChanges identParts s (advanceScan b addr found s) := by
  have clr : OnlyChanges identParts s (clearCommand b s) := (clearCommand_only b s).mono (by decide)
  have scn : ∀ (u : State) y, OnlyChanges identParts u (onBranch b (fun x => { x with scan := y }) u) := fun u y =>
    onBranch_only fun x => by simp [identParts]
  unfold advanceScan; simp only; split
  · unfold completeScan; simp only
    refine (((clr.trans ((setFlag_only _ _).mono (by decide))).trans ((offer_only _ _).mono (by decide))).trans
      ((setScanning_only _ _ _).mono (by decide))).trans (scn _ _)
  · exact clr.trans (scn _ _)

theorem recordIdentity_only (b : Branch) (addr : Nat) (bytes : List Byte) (s : State) :
    OnlyChanges identParts s (recordIdentity b addr bytes s) := by
  have enq : ∀ u : State, OnlyChanges identParts u (enqueueModule b addr u) := fun u =>
    (enqueueModule_only _ _ _).mono (by decide)
  have fnd : ∀ u : State, OnlyChanges identParts u (enqueueFound b addr u) := fun u =>
    (enqueueFound_only _ _ _).mono (by decide)
  have ntc : ∀ u : State, OnlyChanges identParts u (noticeModule b addr u) := fun u =>
    (noticeModule_only _ _ _).mono (by decide)
  have ros : ∀ (u : State) (f : List Module → List Module),
      OnlyChanges identParts u (onBranch b (fun x => { x with roster := f x.roster }) u) := fun u f =>
    onBranch_only fun x => by simp [identParts]
  unfold recordIdentity; split
  · exact ((ros _ (insertModule _)).trans (ntc _)).trans (fnd _)
  · have h : OnlyChanges identParts s (identifyModule b addr bytes (validReply b addr s)) :=
      ((validReply_only b addr s).mono (by decide)).trans
        (ros _ (fun r => r.map fun (n : Module) => if n.addr = addr then n.identified bytes else n))
    have next : ∀ u : State, OnlyChanges identParts s u → ∀ n k : Nat, OnlyChanges identParts s
        (if n = k then u else if k < n then enqueueFound b addr (noticeModule b addr u)
          else enqueueModule b addr (noticeModule b addr u)) := by
      intro u hu n k; split
      · exact hu
      · split
        · exact (hu.trans (ntc _)).trans (fnd _)
        · exact (hu.trans (ntc _)).trans (enq _)
    simp only; refine next _ ?_ _ _; split
    · exact h
    · exact h.trans (enq _)

theorem identAnswered_only (b : Branch) (addr : Nat) (bytes : List Byte) (s : State) :
    OnlyChanges identParts s (identAnswered b addr bytes s) :=
  (recordIdentity_only b addr bytes s).trans (advanceScan_only b addr _ _)

theorem identUnanswered_only (b : Branch) (addr : Nat) (s : State) :
    OnlyChanges identParts s (identUnanswered b addr s) := by
  unfold identUnanswered; simp only
  refine OnlyChanges.trans ?_ (advanceScan_only b addr _ _)
  split
  · exact onlyChanges_refl _ _
  · split
    · exact onlyChanges_refl _ _
    · exact (markMissing_only _ _ _).mono (by decide)

/-- The parts that the arbiter's choice changes. -/
def arbiterParts : List Part :=
  [.commands, .turns, .scans, .directs, .directShown, .unshown, .nextTags, .work, .slots, .flags, .notes] ++ relayParts

theorem sendCommand_only (b : Branch) (what : LineCommand) (ack : Nat) (s : State) :
    OnlyChanges arbiterParts s (sendCommand b what ack s) := onBranch_only fun x => by simp [arbiterParts]

theorem startShow_only (pos : SlotPos) (s : State) : OnlyChanges arbiterParts s (startShow pos s) := by
  have h : OnlyChanges arbiterParts s (countShow pos.branch (noteShown pos (advanceTag pos s))) := by
    unfold countShow noteShown advanceTag
    exact ((onBranch_only fun x => by simp [arbiterParts]).trans (onBranch_only fun x => by simp [arbiterParts])).trans
      (onBranch_only fun x => by simp [arbiterParts])
  simp only [startShow]; split
  · exact h.trans (sendCommand_only _ _ _ _)
  · exact (h.trans ((setSlot_only _ _).mono (by decide))).trans (sendCommand_only _ _ _ _)

theorem sendDirect_only (b : Branch) (d : Direct) (s : State) : OnlyChanges arbiterParts s (sendDirect b d s) := by
  unfold sendDirect; split
  · exact (finishDirect_only _ _ _).mono (by decide)
  · have cnt : ∀ u : State, OnlyChanges arbiterParts u (countShow b (keepDirect b d.pos u)) := fun u =>
      OnlyChanges.trans (onBranch_only fun x => by simp [arbiterParts]) (onBranch_only fun x => by simp [arbiterParts])
    simp only
    refine OnlyChanges.trans (OnlyChanges.trans ?_ (cnt _)) (sendCommand_only _ _ _ _)
    split
    · exact onlyChanges_refl _ _
    · exact (setSlot_only _ _).mono (by decide)

theorem startPoll_only (b : Branch) (isMissingTurn : Bool) (addr : Nat) (s : State) :
    OnlyChanges arbiterParts s (startPoll b isMissingTurn addr s) := by
  simp only [startPoll]
  refine OnlyChanges.trans ?_ (sendCommand_only _ _ _ _)
  exact onBranch_only (b := b) (f := fun x => { x with
      shows := 0
      turn := (x.turn + 1) % 16
      lastAnswering := if isMissingTurn then x.lastAnswering else some addr
      lastMissing := if isMissingTurn then some addr else x.lastMissing
      lastTurn := some s.now }) fun x => by simp [arbiterParts]

theorem pollTurn_only (b : Branch) (s : State) : OnlyChanges arbiterParts s (pollTurn b s) := by
  have go : ∀ (o : Option Nat) (k : Bool), OnlyChanges arbiterParts s (o.elim s fun addr => startPoll b k addr s) := by
    intro o k; cases o
    · exact onlyChanges_refl _ _
    · exact startPoll_only _ _ _ _
  simp only [pollTurn]; split
  · split
    · exact onlyChanges_refl _ _
    · exact go _ _
  · exact go _ _

theorem arbitrate_only (b : Branch) (s : State) : OnlyChanges arbiterParts s (arbitrate b s) := by
  have clr : OnlyChanges arbiterParts s (clearCommand b s) := (clearCommand_only b s).mono (by decide)
  have wrk : ∀ (u : State) w, OnlyChanges arbiterParts u (onBranch b (fun x => { x with work := w }) u) := fun u w =>
    onBranch_only fun x => by simp [arbiterParts]
  have mrk : ∀ (u : State) ps, OnlyChanges arbiterParts u (markUnshown b ps u) := fun u ps =>
    (markUnshown_only b ps u).mono (by decide)
  simp only [arbitrate]
  refine clr.trans ?_
  split
  · split
    · refine OnlyChanges.trans ?_ (sendCommand_only _ _ _ _)
      exact onBranch_only fun x => by simp [arbiterParts]
    · exact sendCommand_only _ _ _ _
  · split
    · exact sendDirect_only _ _ _
    · split
      · split
        · exact ((mrk _ _).trans (wrk _ _)).trans (startShow_only _ _)
        · exact ((mrk _ _).trans (wrk _ _)).trans (pollTurn_only _ _)
      · exact pollTurn_only _ _

theorem execBranchArbiter_only {b : Branch} {s t : State} (h : execBranchArbiter b s = .next t) :
    OnlyChanges (arbiterParts ++ eventParts) s t := by
  unfold execBranchArbiter at h
  split at h <;> rw [next_inj h]
  · exact event_only fun u => arbitrate_only b u
  · exact onlyChanges_refl _ _

theorem execMissingTurnSpacing_only {b : Branch} {s t : State} (h : execMissingTurnSpacing b s = .next t) :
    OnlyChanges (arbiterParts ++ eventParts) s t := by
  simp only [execMissingTurnSpacing] at h
  split at h <;> rw [next_inj h]
  · exact event_only fun u => arbitrate_only b u
  · exact onlyChanges_refl _ _

theorem execShowAcknowledge_only {b : Branch} {bytes : List Byte} {s t : State}
    (h : execShowAcknowledge b bytes s = .next t) : OnlyChanges (lineParts ++ eventParts) s t := by
  unfold execShowAcknowledge at h
  split at h
  · rw [next_inj h]; exact onlyChanges_refl _ _
  · split at h <;> rw [next_inj h]
    · exact event_only fun u => acknowledge_only _ _ u
    · exact onlyChanges_refl _ _

theorem execPollReply_only {b : Branch} {bytes : List Byte} {s t : State} (h : execPollReply b bytes s = .next t) :
    OnlyChanges (.keys :: lineParts ++ eventParts) s t := by
  unfold execPollReply at h
  split at h
  · rw [next_inj h]; exact onlyChanges_refl _ _
  · split at h
    · split at h <;> rw [next_inj h]
      · exact event_only (ps := .keys :: lineParts) fun u => takePollReply_only _ _ _ u
      · exact onlyChanges_refl _ _
    all_goals rw [next_inj h]; exact onlyChanges_refl _ _

theorem execIdentReply_only {b : Branch} {bytes : Option (List Byte)} {s t : State}
    (h : execIdentReply b bytes s = .next t) : OnlyChanges (identParts ++ eventParts) s t := by
  unfold execIdentReply at h
  split at h
  · rw [next_inj h]; exact onlyChanges_refl _ _
  · split at h
    · split at h <;> rw [next_inj h]
      · exact event_only fun u => identAnswered_only _ _ _ u
      · exact onlyChanges_refl _ _
    · split at h <;> rw [next_inj h]
      · exact event_only fun u => identUnanswered_only _ _ u
      · exact onlyChanges_refl _ _
    · rw [next_inj h]; exact onlyChanges_refl _ _

theorem execInvalidReply_only {b : Branch} {cutOff : Bool} {bytes : List Byte} {s t : State}
    (h : execInvalidReply b cutOff bytes s = .next t) : OnlyChanges (.unshown :: lineParts ++ eventParts) s t := by
  unfold execInvalidReply at h
  split at h
  · rw [next_inj h]; exact onlyChanges_refl _ _
  · split at h <;> rw [next_inj h]
    · exact event_only fun u => missAttempt_only _ _ _ u
    · exact onlyChanges_refl _ _

theorem execReplyTimeout_only {b : Branch} {s t : State} (h : execReplyTimeout b s = .next t) :
    OnlyChanges (.unshown :: lineParts ++ eventParts) s t := by
  unfold execReplyTimeout at h
  split at h <;> rw [next_inj h]
  · exact onlyChanges_refl _ _
  · exact event_only fun u => missAttempt_only _ _ _ u

theorem abandonCommand_only (b : Branch) (c : Command) (taken : Bool) (s : State) :
    OnlyChanges lineParts s (abandonCommand b c taken s) := by
  have clr : ∀ u : State, OnlyChanges lineParts u (clearCommand b u) := fun u => (clearCommand_only b u).mono (by decide)
  unfold abandonCommand; split
  · exact (clr _).trans ((enqueueSlot_only _ _).mono (by decide))
  · exact ((settleOwed_only _ _ _ _).mono (by decide)).trans (clr _)
  · exact clr _
  · exact (clr _).trans ((finishDirect_only _ _ _).mono (by decide))
  · exact clr _

theorem setFault_only (b : Branch) (stillSending : Bool) (s : State) :
    OnlyChanges (.faults :: lineParts) s (setFault b stillSending s) := by
  have flt : OnlyChanges (.faults :: lineParts) s (onBranch b (fun x => { x with fault := true }) s) :=
    onBranch_only fun x => by simp [lineParts]
  simp only [setFault]
  refine OnlyChanges.trans (OnlyChanges.trans ?_ ((noticeBranch_only _ _).mono (by decide)))
    ((finishDirect_only _ _ _).mono (by decide))
  refine (flt.trans ((setFlag_only (branchFaultFlag b) _).mono (by decide))).trans ?_
  split
  · exact onlyChanges_refl _ _
  · split
    · exact onlyChanges_refl _ _
    · exact (abandonCommand_only _ _ _ _).mono (by decide)

theorem execBranchFaultSet_only {b : Branch} {stillSending : Bool} {s t : State}
    (h : execBranchFaultSet b stillSending s = .next t) : OnlyChanges (.faults :: lineParts ++ eventParts) s t := by
  unfold execBranchFaultSet at h
  split at h <;> rw [next_inj h]
  · exact onlyChanges_refl _ _
  · exact event_only (ps := .faults :: lineParts) fun u => setFault_only b stillSending u

theorem execBranchFaultClear_only {b : Branch} {s t : State} (h : execBranchFaultClear b s = .next t) :
    OnlyChanges (.faults :: displayParts ++ eventParts) s t := by
  unfold execBranchFaultClear at h
  split at h <;> rw [next_inj h]
  · refine (event_only (ps := [.faults, .flags] ++ displayParts) fun u => ?_).mono (by decide)
    unfold clearFault
    refine OnlyChanges.trans (OnlyChanges.trans ?_ ((clearFlag_only _ _).mono (by decide)))
      ((noticeBranch_only _ _).mono (by decide))
    exact onBranch_only fun x => by simp
  · exact onlyChanges_refl _ _

theorem execBranchScan_only {s t : State} (h : execBranchScan s = .next t) :
    OnlyChanges ([.scans, .scanning] ++ readParts) s t := by
  rw [next_inj h]
  refine (carryForward_only (fun r u => answered_only (ps := [.scans, .scanning]) (fun r u => ?_) r u) s).mono (by decide)
  unfold applyBranchScan; split
  · exact onlyChanges_refl _ _
  · split
    · exact onlyChanges_refl _ _
    · refine OnlyChanges.trans ?_ ((setScanning_only _ _ _).mono (by decide))
      exact onBranch_only fun x => by simp

theorem execRosterRead_only {s t : State} (h : execRosterRead s = .next t) : OnlyChanges readParts s t := by
  rw [next_inj h]
  refine carryRead_only (fun r u => ?_) s
  unfold applyRosterRead; split
  · rfl
  · split <;> rfl

theorem execLampDirect_only {s t : State} (h : execLampDirect s = .next t) :
    OnlyChanges (.directs :: readParts) s t := by
  rw [next_inj h]
  refine (carryForward_only (ps := .directs :: eventParts) (fun r u => ?_) s).mono (by decide)
  unfold serveLampDirect; split
  · exact (answer_only _ _ _).mono (by decide)
  · exact onBranch_only fun x => by simp [eventParts]

/-! ## Configuration (section 2.4) -/

/-- The parts that CONFIG_SET's effects change (R34). -/
def configParts : List Part :=
  [.params, .silence, .orphaned, .rosters, .commands, .directs, .unshown, .records, .counters, .flags, .notes] ++ displayParts
    ++ relayParts

theorem judgeModule_only (b : Branch) (addr : Nat) (s : State) : OnlyChanges configParts s (judgeModule b addr s) := by
  unfold judgeModule; split
  · exact onlyChanges_refl _ _
  · split
    · have h := (markMissing_only b ‹_› s).mono (qs := configParts) (by decide)
      simp only; split
      · exact h
      · split
        · exact h.trans ((endCommand_only _ _ _).mono (by decide))
        · exact h
    · exact onlyChanges_refl _ _

theorem applyLingerChange_only (old : Params) (s : State) : OnlyChanges configParts s (applyLingerChange old s) := by
  unfold applyLingerChange; split
  · exact (judgeLinger_only _ _).mono (by decide)
  · exact onlyChanges_refl _ _

theorem applyCombineChange_only (old : Params) (s : State) : OnlyChanges configParts s (applyCombineChange old s) := by
  unfold applyCombineChange; split
  · exact ((rejudgeCombine_only _).mono (by decide)).trans ((judgePacker_only _).mono (by decide))
  · exact onlyChanges_refl _ _

theorem applySilenceChange_only (old : Params) (s : State) : OnlyChanges configParts s (applySilenceChange old s) := by
  have base : OnlyChanges configParts s
      (if old.silence = 0 ∧ s.params.silence ≠ 0 then { s with silenceSince := s.now } else s) := by
    split
    · intro p; cases p <;> simp [Keeps, configParts]
    · exact onlyChanges_refl _ _
  have judged : ∀ t : State, OnlyChanges configParts s t → OnlyChanges configParts s
      (if t.params.silence ≠ old.silence ∧ t.silenceDue = true then enterOrphaned t else t) := by
    intro t h; split
    · exact h.trans ((enterOrphaned_only _).mono (by decide))
    · exact h
  exact judged _ base

theorem applyMissChange_only (old : Params) (s : State) : OnlyChanges configParts s (applyMissChange old s) := by
  unfold applyMissChange; split
  · exact onlyChanges_refl _ _
  · exact (onlyChanges_foldl (fun t addr => judgeModule_only .l addr t) _ s).trans
      (onlyChanges_foldl (fun t addr => judgeModule_only .r addr t) _ _)

theorem execConfigSet_only {s t : State} (h : execConfigSet s = .next t) :
    OnlyChanges (configParts ++ readParts) s t := by
  rw [next_inj h]
  refine (carryForward_only (fun r u => answered_only (ps := configParts) (fun r u => ?_) r u) s).mono (by decide)
  unfold applyConfigSet; split
  · exact onlyChanges_refl _ _
  · simp only
    refine OnlyChanges.trans (t := { u with params := newParams r u.params }) ?_
      ((((applyLingerChange_only _ _).trans (applyCombineChange_only _ _)).trans (applySilenceChange_only _ _)).trans
        (applyMissChange_only _ _))
    intro p; cases p <;> simp [Keeps, configParts]

theorem execConfigRead_only {s t : State} (h : execConfigRead s = .next t) : OnlyChanges readParts s t := by
  rw [next_inj h]; exact carryRead_only (fun _ _ => rfl) s

end Sys2Proof.Machine
end

