-- ==== Sys2Proof/Laws/Operations.lean ====
section
/-!
SUPPORT. What the shared operations do: flags, the end of an event, bounded lists, the cell store, the packer and the display work queue.
-/

namespace Sys2Proof.Machine

open Sys2Proof

/-! ## Flags -/

theorem flag_position_lt (f : Flag) : f.position < 21 := by
  cases f <;> try decide
  rename_i c; cases c <;> decide

theorem flag_position_injective {f g : Flag} (h : f.position = g.position) : f = g := by
  cases f <;> cases g <;> simp_all [Flag.position] <;> (rename_i c; cases c <;> simp_all [CounterNo.index]) <;>
    (rename_i d; cases d <;> simp_all [CounterNo.index])

theorem flag_bit (f g : Flag) : f.bit.getLsbD g.position = decide (f = g) := by
  rw [Flag.bit, BitVec.getLsbD_twoPow]
  by_cases h : f = g
  · subst h; simp [flag_position_lt]
  · have : f.position ≠ g.position := fun hp => h (flag_position_injective hp)
    simp [h, this]

/-- Setting a flag sets it and no other. -/
@[simp] theorem setFlag_flagSet (f g : Flag) (s : State) :
    (setFlag f s).flagSet g = (decide (f = g) || s.flagSet g) := by
  unfold setFlag; split
  · rename_i h
    by_cases hg : f = g
    · subst hg; simp [h]
    · simp [hg]
  · simp [State.flagSet, BitVec.getLsbD_or, flag_bit, Bool.or_comm]

/-- Clearing a flag clears it and no other. -/
@[simp] theorem clearFlag_flagSet (f g : Flag) (s : State) :
    (clearFlag f s).flagSet g = (!decide (f = g) && s.flagSet g) := by
  have hb := flag_bit f g
  rw [BitVec.getLsbD_eq_getElem (flag_position_lt g)] at hb
  simp [State.flagSet, clearFlag, flag_position_lt, hb, Bool.and_comm]

/-- A followed flag takes its condition, and no other flag changes. -/
@[simp] theorem followFlag_flagSet (f g : Flag) (c : Bool) (s : State) :
    (followFlag f c s).flagSet g = if f = g then c else s.flagSet g := by
  unfold followFlag
  by_cases h : f = g <;> cases c <;> simp [h]

/-- A flag that no counter sets is left by a signal. -/
theorem signal_flagSet (e : CounterEvent) (place : Option Nat) (s : State) {g : Flag} (hg : ∀ c, g ≠ .counterWrap c) :
    (signal e place s).flagSet g = s.flagSet g := by
  have one : ∀ (k : CounterNo) (t : State), (countSignal k e place t).flagSet g = t.flagSet g := by
    intro k t
    have hk : ¬ (Flag.counterWrap k = g) := fun h => hg k h.symm
    simp only [countSignal]; split
    · split
      · rw [setFlag_flagSet]; simp [hk, State.flagSet]
      · simp [State.flagSet]
    · rfl
  simp [signal, one]

/-- A flag that is neither REPORT_LOST nor a COUNTER_WRAP is left by the end of an event. -/
theorem offer_flagSet (r : Record) (s : State) {g : Flag} (hg : g ≠ .reportLost) : (offer r s).flagSet g = s.flagSet g := by
  unfold offer; split
  · simp [State.flagSet]
  · rw [setFlag_flagSet]; simp [Ne.symm hg]

theorem foldl_flagSet {α : Type} {f : State → α → State} {g : Flag} (h : ∀ t x, (f t x).flagSet g = t.flagSet g)
    (xs : List α) : ∀ s : State, (xs.foldl f s).flagSet g = s.flagSet g := by
  induction xs with
  | nil => exact fun s => rfl
  | cons x xs ih => exact fun s => (ih _).trans (h s x)

theorem endEvent_flagSet (s : State) {g : Flag} (hg : g ≠ .reportLost) : (endEvent s).flagSet g = s.flagSet g := by
  have h : (offerAttention (offerWraps s)).flagSet g = s.flagSet g := by
    have hw : (offerWraps s).flagSet g = s.flagSet g := foldl_flagSet (fun t _ => offer_flagSet _ t hg) _ s
    simp only [offerAttention]; split
    · exact hw
    · rw [offer_flagSet _ _ hg, hw]
  have flags : ∀ t u : State, t.flags = u.flags → t.flagSet g = u.flagSet g := fun t u h => by simp [State.flagSet, h]
  simp only [endEvent]; split
  · rw [← h]
    exact flags _ _ (((judgePacker_only _).keeps (p := .flags) (by decide)))
  · rw [← h]; exact flags _ _ rfl

/-! ## Events -/

/-- An event that noted nothing has no more to do at its end. -/
theorem endEvent_quiet {s : State} (h : s.notes = EventNotes.empty) : endEvent s = s := by
  have hw : offerWraps s = s := by simp [offerWraps, h, EventNotes.empty]
  have ha : offerAttention s = s := by simp [offerAttention, h, EventNotes.empty]
  simp only [endEvent, hw, ha]
  have he : s.notes.entered = false := by rw [h]; rfl
  simp only [he]
  rw [← h]; rfl

/-- An event whose own effect leaves the notes alone is its own effect. -/
theorem event_quiet {f : State → State} {s : State} (h : ∀ t, Keeps .notes t (f t)) : event f s = f (beginEvent s) :=
  endEvent_quiet (h (beginEvent s))

/-- After an event nothing is noted. -/
@[simp] theorem event_notes (f : State → State) (s : State) : (event f s).notes = EventNotes.empty := rfl

/-! ## Counters -/

theorem setFlag_counters (f : Flag) (s : State) : (setFlag f s).counters = s.counters :=
  (setFlag_only f s).keeps (p := .counters) (by decide)

theorem countSignal_counters (k : CounterNo) (e : CounterEvent) (place : Option Nat) (s : State) :
    (countSignal k e place s).counters =
      if (s.counters.get k).counts e place then
        s.counters.set k { s.counters.get k with count := (s.counters.get k).count + 1 }
      else s.counters := by
  simp only [countSignal]
  split
  · split
    · rw [setFlag_counters]
    · rfl
  · rfl

/-- A signal leaves the four counters as R181 says. -/
theorem signal_counters (e : CounterEvent) (place : Option Nat) (s : State) :
    (signal e place s).counters = s.counters.after e place := by
  have hg : ∀ (c : Counters) (k : CounterNo) (x : Counter), (c.set k x).get k = x := by intro c k x; cases k <;> rfl
  simp only [signal, countSignal_counters]
  by_cases h0 : s.counters.c0.counts e place = true <;> by_cases h1 : s.counters.c1.counts e place = true <;>
    by_cases h2 : s.counters.c2.counts e place = true <;> by_cases h3 : s.counters.c3.counts e place = true <;>
    simp [Counters.get, Counters.set, Counters.after, h0, h1, h2, h3]

/-- Only flags that a counter's wrap sets change at a signal. -/
theorem signal_kept (e : CounterEvent) (place : Option Nat) (s : State) : FlagsKept [] s (signal e place s) :=
  fun f _ _ hk => signal_flagSet e place s hk

theorem setFlag_kept (f : Flag) (s : State) : FlagsKept [f] s (setFlag f s) := fun g hg _ _ => by
  have : ¬ f = g := fun h => hg (by simp [h])
  simp [this]

theorem clearFlag_kept (f : Flag) (s : State) : FlagsKept [f] s (clearFlag f s) := fun g hg _ _ => by
  have : ¬ f = g := fun h => hg (by simp [h])
  simp [this]

theorem endEvent_kept (s : State) : FlagsKept [] s (endEvent s) := fun _ _ hr _ => endEvent_flagSet s hr

theorem FlagsKept.trans {fs : List Flag} {s t u : State} (h : FlagsKept fs s t) (k : FlagsKept fs t u) : FlagsKept fs s u :=
  fun f h1 h2 h3 => (k f h1 h2 h3).trans (h f h1 h2 h3)

theorem FlagsKept.mono {fs gs : List Flag} {s t : State} (h : FlagsKept fs s t) (hs : fs ⊆ gs) : FlagsKept gs s t :=
  fun f h1 h2 h3 => h f (fun m => h1 (hs m)) h2 h3

/-- An operation that leaves the flags alone keeps each of them. -/
theorem OnlyChanges.flagsKept {ps : List Part} {s t : State} (h : OnlyChanges ps s t) (hp : Part.flags ∉ ps) (fs : List Flag) :
    FlagsKept fs s t := fun f _ _ _ => by
  have : t.flags = s.flags := h.keeps hp
  simp [State.flagSet, this]

/-! ## Bounded lists -/

theorem pushCapped_length {α : Type} (cap : Nat) (xs : List α) (x : α) (h : xs.length ≤ cap) :
    (pushCapped cap xs x).length = min cap (xs.length + 1) := by
  simp [pushCapped]; omega

theorem mem_pushCapped {α : Type} {cap : Nat} {xs : List α} {x y : α} (h : y ∈ pushCapped cap xs x) : y ∈ xs ∨ y = x := by
  simpa using List.mem_of_mem_drop h

/-- The entry added is the newest. -/
theorem pushCapped_getLast {α : Type} (cap : Nat) (xs : List α) (x : α) (h : 1 ≤ cap) :
    (pushCapped cap xs x).getLast? = some x := by
  unfold pushCapped
  rw [List.drop_append_of_le_length (by omega)]
  simp

/-! ## The cell store -/

/-- The fields of the store are left by queueing references. -/
theorem foldl_enqueueRef_store (express : Bool) (ref : Nat) (ports : List Port) (s : State) :
    Keeps .store s (ports.foldl (fun t p => enqueueRef express ref p t) s) :=
  (onlyChanges_foldl (ps := [.queues]) (fun t p => enqueueRef_only express ref p t) ports s).keeps (by decide)

/-- A frame stored: its cells are taken and its record joins the others (R16, R18, R20). -/
theorem storeFrame_store (f : Frame) (requester : Option Requester) (ports : List Port) (s : State) :
    (storeFrame f requester ports s).freeCells = s.freeCells - cellsFor f.length ∧
    (storeFrame f requester ports s).frames
      = s.frames ++ [{ ref := s.nextRef, frame := f, refs := ports.length, requester := requester }] ∧
    (storeFrame f requester ports s).nextRef = s.nextRef + 1 :=
  foldl_enqueueRef_store f.express s.nextRef ports _

/-- A reference dropped is unknown, the last of its frame, or one of two (R19). -/
theorem dropRef_cases (ref : Nat) (s : State) :
    (s.frames.find? (fun f => f.ref == ref) = none ∧ dropRef ref s = s) ∨
    (∃ f, s.frames.find? (fun f => f.ref == ref) = some f ∧ f.refs ≤ 1 ∧
      (dropRef ref s).frames = s.frames.filter (fun g => g.ref != ref) ∧
      (dropRef ref s).freeCells = s.freeCells + f.cells ∧ (dropRef ref s).nextRef = s.nextRef ∧
      (dropRef ref s).roomNotices = s.roomNotices + 1) ∨
    (∃ f, s.frames.find? (fun f => f.ref == ref) = some f ∧ 1 < f.refs ∧
      (dropRef ref s).frames = s.frames.map (fun g => if g.ref = ref then { g with refs := g.refs - 1 } else g) ∧
      (dropRef ref s).freeCells = s.freeCells ∧ (dropRef ref s).nextRef = s.nextRef ∧
      (dropRef ref s).roomNotices = s.roomNotices) := by
  unfold dropRef
  cases h : s.frames.find? (fun f => f.ref == ref) with
  | none => left; simp
  | some f =>
    right
    by_cases hr : f.refs ≤ 1
    · left; exact ⟨f, rfl, hr, by simp [hr]⟩
    · right; exact ⟨f, rfl, by omega, by simp [hr]⟩

/-- An origination is refused and changes nothing, discarded at a repeater-only station, or stored and given the next sequence (R17,
R20, R21). -/
theorem originate_cases (dest : Nat) (kind : Byte) (express : Bool) (requester : Requester) (payload : List Byte) (s : State) :
    (originate dest kind express requester payload s = (.refused, s) ∧ s.station ≠ 0 ∧
      (s.upPorts = [] ∨ s.freeCells < cellsFor (9 + payload.length))) ∨
    (originate dest kind express requester payload s = (.accepted none, s) ∧ s.station = 0) ∨
    (∃ t, originate dest kind express requester payload s = (.accepted (some s.nextRef), t) ∧ s.station ≠ 0 ∧
      s.upPorts ≠ [] ∧ cellsFor (9 + payload.length) ≤ s.freeCells ∧
      t.freeCells = s.freeCells - cellsFor (9 + payload.length) ∧
      t.frames = s.frames
        ++ [{ ref := s.nextRef, frame := s.ownFrame dest kind express payload, refs := s.upPorts.length
              requester := some requester }] ∧
      t.nextRef = s.nextRef + 1 ∧ t.seq = s.seq + 1 ∧
      t.ownSent = pushCapped Config.ownSentFrames s.ownSent s.seq) := by
  simp only [originate]
  by_cases h0 : s.station = 0
  · right; left; simp [h0]
  · by_cases h1 : s.upPorts = []
    · left; simp [h0, h1]
    · by_cases h2 : s.freeCells < cellsFor (9 + payload.length)
      · left; simp [h0, h2, Frame.length, State.ownFrame]
      · right; right
        have hl : (s.ownFrame dest kind express payload).length = 9 + payload.length := rfl
        have hs := storeFrame_store (s.ownFrame dest kind express payload) (some requester) s.upPorts
          { s with ownSent := pushCapped Config.ownSentFrames s.ownSent s.seq, seq := s.seq + 1 }
        have hq := (storeFrame_only (s.ownFrame dest kind express payload) (some requester) s.upPorts
          { s with ownSent := pushCapped Config.ownSentFrames s.ownSent s.seq, seq := s.seq + 1 }).keeps
            (p := .sequence) (by decide)
        refine ⟨storeFrame (s.ownFrame dest kind express payload) (some requester) s.upPorts
          { s with ownSent := pushCapped Config.ownSentFrames s.ownSent s.seq, seq := s.seq + 1 },
          ?_, h0, h1, by omega, hs.1, hs.2.1, hs.2.2, hq.2, hq.1⟩
        simp [h0, h1, h2, hl]

/-! ## The packer -/

/-- A record offered while a place is free enters at the tail (R170). -/
theorem offer_room {r : Record} {s : State} (h : s.fifo.length < Config.reportRecords) :
    (offer r s).fifo = s.fifo ++ [{ record := r, entered := s.now }] := by simp [offer, h]

/-- A record offered to a full FIFO is lost (R170). -/
theorem offer_full {r : Record} {s : State} (h : ¬ s.fifo.length < Config.reportRecords) :
    offer r s = setFlag .reportLost s := by simp [offer, h]

/-! ## The display work queue -/

theorem enqueueSlot_branch (pos : SlotPos) (s : State) :
    ((enqueueSlot pos s).branch pos.branch).work
      = if pos ∈ (s.branch pos.branch).work then (s.branch pos.branch).work
        else (s.branch pos.branch).work ++ [pos] := by
  simp only [enqueueSlot, List.contains_eq_mem, decide_eq_true_eq]
  split <;> simp

/-- A slot stands in its branch's display work queue once it has been entered. -/
theorem mem_enqueueSlot (pos : SlotPos) (s : State) : pos ∈ ((enqueueSlot pos s).branch pos.branch).work := by
  rw [enqueueSlot_branch]; split
  · assumption
  · simp

/-- A slot is never entered a second time (R103). -/
theorem enqueueSlot_nodup (pos : SlotPos) (s : State) (h : (s.branch pos.branch).work.Nodup) :
    ((enqueueSlot pos s).branch pos.branch).work.Nodup := by
  rw [enqueueSlot_branch]; split
  · exact h
  · rename_i hn; exact List.Nodup.append h (by simp) (by simpa using hn)

end Sys2Proof.Machine
end

