-- ==== Sys2Proof/Laws/Display.lean ====
section
/-!
SUPPORT. What the display scheduler's shared operations do: replacing a slot's record, entering a slot in a work queue, renewing a shadow,
and recomputing several locations.
-/

namespace Sys2Proof.Machine

open Sys2Proof

/-! ## Slots -/

theorem slotAt_pos {s : State} {pos : SlotPos} {x : SlotState} (h : s.slotAt pos = some x) : x.pos = pos := by
  simpa using List.find?_some h

theorem find_map_slot {pos : SlotPos} {y : SlotState} (hy : y.pos = pos) :
    ∀ l : List SlotState, (l.find? (fun x => x.pos == pos)).isSome = true →
      (l.map fun x => if x.pos = y.pos then y else x).find? (fun x => x.pos == pos) = some y := by
  intro l
  induction l with
  | nil => intro h; simp at h
  | cons a l ih =>
    intro h
    by_cases ha : a.pos = pos
    · rw [List.map_cons, if_pos (ha.trans hy.symm), List.find?_cons_of_pos (by simpa using hy)]
    · rw [List.find?_cons_of_neg (by simpa using ha)] at h
      rw [List.map_cons, if_neg (by rw [hy]; exact ha), List.find?_cons_of_neg (by simpa using ha)]
      exact ih h

/-- A record put in place of a held one is the one found there. -/
theorem setSlot_slotAt {s : State} {y : SlotState} (h : (s.slotAt y.pos).isSome = true) :
    (s.setSlot y).slotAt y.pos = some y := find_map_slot rfl s.slots h

/-- No other slot's record changes. -/
theorem setSlot_slotAt_other (s : State) (y : SlotState) {pos : SlotPos} (h : y.pos ≠ pos) :
    (s.setSlot y).slotAt pos = s.slotAt pos := by
  unfold State.slotAt State.setSlot
  induction s.slots with
  | nil => rfl
  | cons a l ih =>
    by_cases ha : a.pos = y.pos
    · have hne : a.pos ≠ pos := by rw [ha]; exact h
      simp only [List.map_cons, if_pos ha]
      rw [List.find?_cons_of_neg (by simpa using h), List.find?_cons_of_neg (by simpa using hne)]; exact ih
    · simp only [List.map_cons, if_neg ha, List.find?_cons]; split
      · rfl
      · exact ih

/-- Of two slots' records, one that is held stays held. -/
theorem setSlot_isSome (s : State) (y : SlotState) (pos : SlotPos) :
    ((s.setSlot y).slotAt pos).isSome = (s.slotAt pos).isSome := by
  by_cases h : y.pos = pos
  · subst h
    cases hs : (s.slotAt y.pos).isSome
    · have hn : ∀ x ∈ s.slots, x.pos ≠ y.pos := by
        intro x hx
        have hnone : s.slotAt y.pos = none := by simpa using hs
        simpa using List.find?_eq_none.1 hnone x hx
      have he : (s.setSlot y).slots = s.slots := by
        simp only [State.setSlot]
        conv_rhs => rw [← List.map_id s.slots]
        exact List.map_congr_left fun x hx => by rw [if_neg (hn x hx)]; rfl
      unfold State.slotAt; rw [he]; exact hs
    · rw [setSlot_slotAt hs]; rfl
  · rw [setSlot_slotAt_other s y h]

/-! ## The display work queue -/

theorem enqueueSlot_grows (pos : SlotPos) (s : State) (b : Branch) : (s.branch b).work ⊆ ((enqueueSlot pos s).branch b).work := by
  simp only [enqueueSlot]; split
  · exact List.Subset.refl _
  · by_cases h : b = pos.branch
    · subst h; simp
    · have : (s.setBranch pos.branch { s.branch pos.branch with work := (s.branch pos.branch).work ++ [pos] }).branch b
          = s.branch b := by
        cases b <;> cases hp : pos.branch <;> simp_all [State.setBranch, State.branch]
      rw [this]; exact List.Subset.refl _

theorem enqueueSlot_slotAt (pos p : SlotPos) (s : State) : (enqueueSlot pos s).slotAt p = s.slotAt p := by
  unfold State.slotAt; rw [(enqueueSlot_only pos s).keeps (p := .slots) (by decide)]

/-- Queueing a slot of one branch leaves the other branch as it was. -/
theorem enqueueSlot_branch_other (pos : SlotPos) (s : State) {b : Branch} (h : b ≠ pos.branch) :
    (enqueueSlot pos s).branch b = s.branch b := by
  simp only [enqueueSlot]; split
  · rfl
  · cases b <;> cases hp : pos.branch <;> simp_all [State.setBranch, State.branch]

theorem mem_enqueueSlot_iff (pos q : SlotPos) (s : State) :
    q ∈ ((enqueueSlot pos s).branch pos.branch).work ↔ q ∈ (s.branch pos.branch).work ∨ q = pos := by
  rw [enqueueSlot_branch]
  split
  · rename_i hp; exact ⟨.inl, fun h => h.elim id fun e => by rw [e]; exact hp⟩
  · simp

/-- The slots of a module's address that are entered in the display work queue: those picked, and no other (R156, R162). -/
theorem mem_enqueueSlots (p : SlotPos → Bool) (b : Branch) (addr : Nat) (s : State) (q : SlotPos) :
    q ∈ ((enqueueSlots p b addr s).branch b).work
      ↔ q ∈ (s.branch b).work ∨ (q.branch = b ∧ q.addr = addr ∧ 1 ≤ q.slot ∧ q.slot ≤ 4 ∧ p q = true) := by
  have one : ∀ (n : Nat) (t : State), q ∈ ((if p { branch := b, addr := addr, slot := n } then
        enqueueSlot { branch := b, addr := addr, slot := n } t else t).branch b).work
      ↔ q ∈ (t.branch b).work ∨ (q = { branch := b, addr := addr, slot := n } ∧ p q = true) := by
    intro n t
    split
    · rename_i h
      rw [mem_enqueueSlot_iff { branch := b, addr := addr, slot := n } q t]
      exact ⟨fun k => k.imp id fun e => ⟨e, e ▸ h⟩, fun k => k.imp id And.left⟩
    · rename_i h
      exact ⟨.inl, fun k => k.elim id fun e => absurd (e.1 ▸ e.2) h⟩
  have pos : ∀ n, q = { branch := b, addr := addr, slot := n } ↔ q.branch = b ∧ q.addr = addr ∧ q.slot = n := by
    intro n; cases q; simp
  simp only [enqueueSlots, List.foldl_cons, List.foldl_nil, one, pos]
  constructor
  · rintro ((((h | h) | h) | h) | h) <;> first | exact .inl h | exact .inr ⟨h.1.1, h.1.2.1, by omega, by omega, h.2⟩
  · rintro (h | ⟨h1, h2, h3, h4, h5⟩)
    · simp [h]
    · have : q.slot = 1 ∨ q.slot = 2 ∨ q.slot = 3 ∨ q.slot = 4 := by omega
      rcases this with h | h | h | h <;> simp [h, h1, h2, h5]

@[simp] theorem keepDirect_directShown (b : Branch) (pos : SlotPos) (s : State) :
    ((keepDirect b pos s).branch b).directShown = (s.branch b).directShown.filter (· != pos) ++ [pos] := by
  simp [keepDirect]

@[simp] theorem noteShown_directShown (pos : SlotPos) (s : State) :
    ((noteShown pos s).branch pos.branch).directShown = (s.branch pos.branch).directShown.filter (· != pos) := by
  simp [noteShown]

@[simp] theorem noteShown_unshown (pos : SlotPos) (s : State) :
    ((noteShown pos s).branch pos.branch).unshown = (s.branch pos.branch).unshown.filter (· != pos) := by
  simp [noteShown]

/-- The slots that await a SHOW once some have been passed over: those that did, and these (R158). -/
theorem mem_markUnshown (b : Branch) (ps : List SlotPos) (s : State) (q : SlotPos) :
    q ∈ ((markUnshown b ps s).branch b).unshown ↔ q ∈ (s.branch b).unshown ∨ q ∈ ps := by
  by_cases h : q ∈ (s.branch b).unshown <;> simp [markUnshown, h]

@[simp] theorem holdCombine_fifo (s : State) : (holdCombine s).fifo = s.fifo := rfl

/-- Once the relay has refused a frame, the timer has expired if it had, or if it has run its timeout (R171, log 31). -/
theorem holdCombine_expired (s : State) :
    (holdCombine s).combineExpired = s.combine.any fun c => c.expired || s.combineElapsed c.since := by
  cases h : s.combine <;> simp [holdCombine, State.combineExpired, h]

/-- A timer that had expired is still expired after a change of the combine timeout (R171). -/
theorem rejudgeCombine_expired {s : State} (h : s.combineExpired = true) (hf : s.fifo ≠ []) :
    (rejudgeCombine s).combineExpired = true := by
  cases hs : s.fifo with
  | nil => exact absurd hs hf
  | cons w rest => simp [rejudgeCombine, State.combineExpired, hs] at h ⊢; simp [h]

/-! ## Shadows -/

/-- What deriving a shadow reads is the same in both states. -/
theorem deriveShadow_congr {s t : State} (hg : t.groups = s.groups) (hp : t.pickers = s.pickers) (hm : t.locMap = s.locMap)
    (x : SlotState) : t.deriveShadow x = s.deriveShadow x := by
  unfold State.deriveShadow State.groupAtPosition State.groupOf State.groupShadow State.pickerOf State.entryAt State.hasGroups
  rw [hg, hp, hm]

theorem deriveShadow_shadow (s : State) (x : SlotState) (sh : Shadow) :
    s.deriveShadow { x with shadow := sh } = s.deriveShadow x := rfl

/-- A renewed shadow: the slot holds the shadow derived, and is queued where that differs from what it held. -/
theorem renewShadow_slotAt {s : State} {pos : SlotPos} {x : SlotState} (h : s.slotAt pos = some x) :
    (renewShadow pos s).slotAt pos = some { x with shadow := s.deriveShadow x }
      ∧ (s.deriveShadow x ≠ x.shadow → pos ∈ ((renewShadow pos s).branch pos.branch).work)
      ∧ (s.deriveShadow x = x.shadow → renewShadow pos s = s) := by
  have hx := slotAt_pos h
  unfold renewShadow; rw [h]; simp only
  by_cases hs : s.deriveShadow x = x.shadow
  · rw [if_pos hs]; refine ⟨?_, fun hn => absurd hs hn, fun _ => rfl⟩
    rw [h]; congr 1; cases x; simp_all
  · rw [if_neg hs]
    refine ⟨?_, fun _ => mem_enqueueSlot _ _, fun hn => absurd hn hs⟩
    rw [enqueueSlot_slotAt]
    have hy : ({ x with shadow := s.deriveShadow x } : SlotState).pos = pos := hx
    exact hy ▸ setSlot_slotAt (y := { x with shadow := s.deriveShadow x }) (by rw [hy, h]; rfl)

/-- A renewed shadow touches no other slot and no other branch. -/
theorem renewShadow_slotAt_other (s : State) {pos p : SlotPos} (h : pos ≠ p) : (renewShadow pos s).slotAt p = s.slotAt p := by
  unfold renewShadow; split
  · rfl
  · rename_i x hx
    simp only; split
    · rfl
    · rw [enqueueSlot_slotAt]; exact setSlot_slotAt_other s _ (by show x.pos ≠ p; rw [slotAt_pos hx]; exact h)

theorem renewShadow_branch (pos : SlotPos) (s : State) {b : Branch} (h : b ≠ pos.branch) :
    (renewShadow pos s).branch b = s.branch b := by
  unfold renewShadow; split
  · rfl
  · simp only; split
    · rfl
    · rw [enqueueSlot_branch_other _ _ h]; cases b <;> rfl

/-! ## Recomputation -/

theorem recompute_branch (e : MapEntry) (s : State) {b : Branch} (h : b ≠ e.pos.branch) : (recompute e s).branch b = s.branch b := by
  unfold recompute; split
  · rfl
  · simp only; rw [renewShadow_branch _ _ h]; cases b <;> rfl

/-- A recomputation touches the record of no other slot. -/
theorem recompute_slotAt_other (e : MapEntry) (s : State) {p : SlotPos} (h : e.pos ≠ p) : (recompute e s).slotAt p = s.slotAt p := by
  unfold recompute; split
  · rfl
  · rename_i x hx
    simp only; rw [renewShadow_slotAt_other _ h]
    exact setSlot_slotAt_other _ _ (by show x.pos ≠ p; rw [slotAt_pos hx]; exact h)

theorem renewShadow_isSome (pos : SlotPos) (s : State) (p : SlotPos) :
    ((renewShadow pos s).slotAt p).isSome = (s.slotAt p).isSome := by
  by_cases h : pos = p
  · subst h
    cases hx : s.slotAt pos with
    | none => unfold renewShadow; rw [hx]; simp [hx]
    | some x => rw [(renewShadow_slotAt hx).1]; rfl
  · rw [renewShadow_slotAt_other s h]

theorem recompute_isSome (e : MapEntry) (s : State) (p : SlotPos) : ((recompute e s).slotAt p).isSome = (s.slotAt p).isSome := by
  unfold recompute; split
  · rfl
  · simp only; rw [renewShadow_isSome, setSlot_isSome]; rfl

/-- Eligibility reads nothing that a recomputation changes. -/
theorem eligible_congr {s t : State} (hl : t.locked = s.locked) (hp : t.pickers = s.pickers) (ho : t.orphaned = s.orphaned)
    (hf : Keeps .faults s t) (hr : Keeps .rosters s t) (e : MapEntry) (g : Group) : t.eligible e g = s.eligible e g := by
  have hb : ∀ b, (t.branch b).fault = (s.branch b).fault ∧ (t.branch b).roster = (s.branch b).roster := by
    intro b; cases b
    · exact ⟨hf.1, hr.1⟩
    · exact ⟨hf.2, hr.2⟩
  unfold State.eligible State.areaLocked State.pickerOf State.reachable BranchState.moduleAt
  simp only [hl, hp, ho, (hb e.pos.branch).1, (hb e.pos.branch).2]

end Sys2Proof.Machine
end

