-- ==== Sys2Proof/Laws/Origination.lean ====
section
/-!
SUPPORT. What originating a frame does, said once: the store, the numbers and the ports' queues.
-/

namespace Sys2Proof.Machine

open Sys2Proof

/-! ## One port -/

theorem setPort_portIf (s : State) (p q : Port) (x : PortState) :
    (s.setPort p x).port q = if q = p then x else s.port q := by
  cases p <;> cases q <;> rfl

/-- A port after its transmitter, where free, has started the next frame (R23). -/
def PortState.started (q : PortState) : PortState :=
  match q.up, q.sending, q.express, q.normal with
  | true, none, h :: t, _ => { q with express := t, sending := some h }
  | true, none, [], h :: t => { q with normal := t, sending := some h }
  | _, _, _, _ => q

theorem startTransmitter_port (p q : Port) (s : State) :
    (startTransmitter p s).port q = if q = p then (s.port p).started else s.port q := by
  have self : s.port q = if q = p then s.port p else s.port q := by
    split
    · rename_i h; rw [h]
    · rfl
  have key : ∀ (x : PortState) (t : State), t = s.setPort p x → t.port q = if q = p then x else s.port q := by
    intro x t ht; rw [ht, setPort_portIf]
  simp only [startTransmitter]
  rcases hp : s.port p with ⟨up, rx, ex, nm, sd⟩
  rw [hp] at self
  cases up <;> cases sd <;> cases ex <;> cases nm <;>
    first | exact self | exact key _ _ rfl

theorem PortState.started_busy {q : PortState} {r : Nat} (h : q.sending = some r) : q.started = q := by
  rcases q with ⟨up, rx, ex, nm, sd⟩
  cases up <;> cases sd <;> simp_all [PortState.started]

/-- A port with one more reference waiting in the queue of a class. -/
def PortState.queued (q : PortState) (express : Bool) (ref : Nat) : PortState :=
  if express then { q with express := q.express ++ [ref] } else { q with normal := q.normal ++ [ref] }

theorem enqueueRef_port (express : Bool) (ref : Nat) (p q : Port) (s : State) :
    (enqueueRef express ref p s).port q = if q = p then ((s.port p).queued express ref).started else s.port q := by
  show (startTransmitter p (s.setPort p ((s.port p).queued express ref))).port q = _
  rw [startTransmitter_port, setPort_portIf, setPort_portIf, if_pos rfl]
  split <;> simp [*]

theorem foldl_enqueueRef_port (express : Bool) (ref : Nat) (q : Port) (ports : List Port) (hq : q ∉ ports) : ∀ s : State,
    (ports.foldl (fun t p => enqueueRef express ref p t) s).port q = s.port q := by
  induction ports with
  | nil => exact fun _ => rfl
  | cons p ps ih =>
    intro s
    simp only [List.mem_cons, not_or] at hq
    rw [List.foldl_cons, ih hq.2, enqueueRef_port, if_neg hq.1]

theorem PortState.queued_busy {q : PortState} (express : Bool) (ref : Nat) (h : q.sending ≠ none) :
    (q.queued express ref).started = q.queued express ref := by
  obtain ⟨r, hr⟩ := Option.ne_none_iff_exists'.1 h
  exact PortState.started_busy (r := r) (by cases express <;> exact hr)

theorem PortState.queued_idle {q : PortState} (express : Bool) (ref : Nat) (hu : q.up = true) (h : q.references = []) :
    (q.queued express ref).started = { q with sending := some ref } := by
  rcases q with ⟨up, rx, ex, nm, sd⟩
  cases sd <;> simp_all [PortState.references]
  cases express <;> rfl

/-! ## One frame -/

theorem mem_upPorts (s : State) (p : Port) : p ∈ s.upPorts ↔ (s.port p).up = true := by
  cases p <;> cases ha : s.portA.up <;> cases hb : s.portB.up <;> simp [State.upPorts, State.port, ha, hb]

/-- A reference queued at the UP ports: each of them has it once, and a DOWN port is left as it was (R20, R22, R23). -/
theorem foldl_upPorts_port (express : Bool) (ref : Nat) (s t : State) (hp : ∀ p, t.port p = s.port p) (p : Port) :
    (s.upPorts.foldl (fun t p => enqueueRef express ref p t) t).port p
      = if (s.port p).up then ((s.port p).queued express ref).started else s.port p := by
  have ha := hp .a
  have hb := hp .b
  have ea : (s.port .a).up = s.portA.up := rfl
  have eb : (s.port .b).up = s.portB.up := rfl
  cases p <;> cases hA : s.portA.up <;> cases hB : s.portB.up <;>
    simp [State.upPorts, enqueueRef_port, hA, hB, ha, hb, ea, eb]

/-- A state that agrees with `s` on what the relay sees of it serves as the state before an origination. -/
theorem Originated.of_keeps {s u t : State} (hl : Keeps .lines s u) (hst : u.station = s.station) (hq : Keeps .queues s u)
    (hn : Keeps .sequence s u) (hs : Keeps .store s u) (h : Originated u t) : Originated s t ∧ newFrames u t = newFrames s t := by
  have hnew : newFrames u t = newFrames s t := by simp only [newFrames, hs.2.1]
  have hup : ∀ p, (u.port p).up = (s.port p).up := fun p => by cases p; exacts [hl.1, hl.2]
  have hports : u.upPorts = s.upPorts := by simp only [State.upPorts, hl.1, hl.2]
  have hqt : ∀ p fs, QueuesTake p fs u t → QueuesTake p fs s t := by
    obtain ⟨⟨a, b, c⟩, d, e, f⟩ := hq
    intro p fs hh
    cases p
    · simpa only [QueuesTake, PortState.references, State.port, a, b, c] using hh
    · simpa only [QueuesTake, PortState.references, State.port, d, e, f] using hh
  obtain ⟨⟨g1, g2, g3, g4⟩, ⟨n1, n2, n3⟩, ho, hp⟩ := h
  rw [hnew] at g2 g3 g4 n1 n2 n3 ho
  refine ⟨⟨⟨?_, ?_, ?_, ?_⟩, ⟨?_, ?_, ?_⟩, ?_, fun p => ?_⟩, hnew⟩
  · rw [← hs.2.1]; exact g1
  · rw [← hs.2.2]; exact g2
  · rw [← hs.2.2]; exact g3
  · rw [← hs.1]; exact g4
  · rw [← hn.2]; exact n1
  · rw [← hn.2]; exact n2
  · rw [← hn.1]; exact n3
  · rw [← hst, ← hports]; exact ho
  · have := hp p
    rw [hup p, hnew] at this
    exact hqt p _ this

/-- An origination that the relay takes: the frame is the one that enters the store, numbered, with a reference for each UP port, and queued at
each (R9, R18, R20 to R23). -/
theorem originate_sends {dest : Nat} {kind : Byte} {express : Bool} {requester : Requester} {payload : List Byte} {s t : State}
    {ref : Nat} (h : originate dest kind express requester payload s = (.accepted (some ref), t)) :
    Originated s t ∧ newFrames s t = [{ ref := s.nextRef, frame := s.ownFrame dest kind express payload
                                        refs := s.upPorts.length, requester := some requester }] := by
  rcases originate_cases dest kind express requester payload s with ⟨e, -⟩ | ⟨e, -⟩ | ⟨u, e, h0, hu, hc, hfc, hf, hr, hsq, how⟩
  · rw [e] at h; simp at h
  · rw [e] at h; simp at h
  · rw [e] at h
    obtain ⟨-, rfl⟩ := Prod.mk.inj h
    have hnew : newFrames s u = [{ ref := s.nextRef, frame := s.ownFrame dest kind express payload
                                   refs := s.upPorts.length, requester := some requester }] := by
      simp [newFrames, hf]
    have hport : ∀ p, u.port p = if (s.port p).up then ((s.port p).queued express s.nextRef).started else s.port p := by
      intro p
      simp only [originate, if_neg h0] at e
      have hl : (s.ownFrame dest kind express payload).length = 9 + payload.length := rfl
      have hu' : s.upPorts.isEmpty = false := by cases hh : s.upPorts <;> simp_all
      simp only [hu', hl, Bool.false_or, decide_eq_true_eq, show ¬ s.freeCells < cellsFor (9 + payload.length) by omega, if_false] at e
      obtain ⟨-, rfl⟩ := Prod.mk.inj e
      exact foldl_upPorts_port express s.nextRef s _ (fun p => by cases p <;> rfl) p
    refine ⟨⟨⟨?_, ?_, ?_, ?_⟩, ⟨?_, ?_, ?_⟩, ?_, fun p => ?_⟩, hnew⟩
    · rw [hf]; exact List.prefix_append _ _
    · simp [hnew]
    · simp [hnew, hr]
    · simp [hnew, hfc, StoredFrame.cells, Frame.length, State.ownFrame]; omega
    · simp [hnew, State.ownFrame]
    · simp [hnew, hsq]
    · simp [hnew, how, pushCapped, State.ownFrame, Config.ownSentFrames]
    · simp [hnew, State.ownFrame]
    · rw [hnew]
      refine ⟨fun hs => ?_, fun hs => ?_⟩
      · rw [hport p]
        cases hup : (s.port p).up <;> simp [PortState.queued_busy _ _ hs]
        cases express <;> simp [PortState.queued, State.ownFrame, hs]
      · rw [hport p]
        cases hup : (s.port p).up
        · simp [PortState.references] at hs; simp [hs]
        · simp [PortState.queued_idle _ _ hup hs]
          simp [PortState.references] at hs; simp [hs]

/-! ## Several frames -/

theorem newFrames_eq {s t : State} {fs : List StoredFrame} (h : t.frames = s.frames ++ fs) : newFrames s t = fs := by
  simp [newFrames, h]

theorem StoreGrows.frames {s t : State} (h : StoreGrows s t) : t.frames = s.frames ++ newFrames s t := by
  obtain ⟨fs, hf⟩ := h.1
  rw [newFrames_eq hf.symm, hf]

theorem newFrames_trans {s t u : State} (h : StoreGrows s t) (k : StoreGrows t u) : newFrames s u = newFrames s t ++ newFrames t u :=
  newFrames_eq (by rw [k.frames, h.frames, List.append_assoc])

theorem StoreGrows.trans {s t u : State} (h : StoreGrows s t) (k : StoreGrows t u) : StoreGrows s u := by
  have e := newFrames_trans h k
  refine ⟨h.1.trans k.1, ?_, ?_, ?_⟩
  · rw [e, List.map_append, h.2.1, k.2.1, h.2.2.1, List.length_append, List.range'_append_1]
  · rw [e, k.2.2.1, h.2.2.1, List.length_append]; omega
  · rw [e, List.map_append, List.sum_append]
    have a := h.2.2.2
    have b := k.2.2.2
    omega

theorem Numbered.trans {s t u : State} {fs gs : List StoredFrame} (h : Numbered fs s t) (k : Numbered gs t u) : Numbered (fs ++ gs) s u := by
  refine ⟨?_, ?_, ?_⟩
  · rw [List.map_append, h.1, k.1, List.length_append, List.range_add, List.map_append, List.map_map, h.2.1]
    congr 1
    exact List.map_congr_left fun i _ => by simp [BitVec.ofNat_add, BitVec.add_assoc]
  · rw [k.2.1, h.2.1, List.length_append, BitVec.ofNat_add, BitVec.add_assoc]
  · rw [k.2.2, h.2.2, List.foldl_append]

theorem QueuesTake.trans {s t u : State} {p : Port} {fs gs : List StoredFrame} (h : QueuesTake p fs s t) (k : QueuesTake p gs t u) :
    QueuesTake p (fs ++ gs) s u := by
  refine ⟨fun hs => ?_, fun hs => ?_⟩
  · obtain ⟨a, b, c⟩ := h.1 hs
    obtain ⟨d, e, f⟩ := k.1 (by rw [a]; exact hs)
    simp [a, b, c, d, e, f]
  · obtain ⟨a, b, c⟩ := h.2 hs
    cases fs with
    | nil => exact k.2 (by simp [PortState.references, a, b, c])
    | cons x xs =>
      obtain ⟨d, e, f⟩ := k.1 (by rw [a]; simp)
      simp [a, b, c, d, e, f]

/-- Frames of the station's own that follow each other into the store. -/
theorem Originated.trans {s t u : State} (hl : Keeps .lines s t) (hst : t.station = s.station) (h : Originated s t) (k : Originated t u) :
    Originated s u := by
  have e := newFrames_trans h.1 k.1
  have hports : t.upPorts = s.upPorts := by simp only [State.upPorts, hl.1, hl.2]
  have hup : ∀ p, (t.port p).up = (s.port p).up := fun p => by cases p; exacts [hl.1, hl.2]
  refine ⟨h.1.trans k.1, by rw [e]; exact h.2.1.trans k.2.1, fun x hx => ?_, fun p => ?_⟩
  · rw [e, List.mem_append] at hx
    rcases hx with hx | hx
    · exact h.2.2.1 x hx
    · rw [← hst, ← hports]; exact k.2.2.1 x hx
  · have a := h.2.2.2 p
    have b := k.2.2.2 p
    rw [hup p] at b
    rw [e]
    cases hh : (s.port p).up <;> simp only [hh] at a b ⊢
    · exact a.trans b
    · exact a.trans b

/-- Nothing enters the store where the relay is left alone. -/
theorem Originated.of_same {s t : State} (hq : Keeps .queues s t) (hn : Keeps .sequence s t) (hs : Keeps .store s t) : Originated s t := by
  have e : newFrames s t = [] := newFrames_eq (by rw [hs.2.1, List.append_nil])
  refine ⟨⟨by rw [hs.2.1], by simp [e], by simp [e, hs.2.2], by simp [e, hs.1]⟩, ⟨by simp [e], by simp [e, hn.2], by simp [e, hn.1]⟩,
    by simp [e], fun p => ?_⟩
  obtain ⟨⟨a, b, c⟩, d, f, g⟩ := hq
  rw [e, ite_self]
  cases p
  · refine ⟨fun _ => by simp [State.port, a, b, c], fun h => ?_⟩
    simp [PortState.references, State.port] at h
    simp [State.port, a, b, c, h]
  · refine ⟨fun _ => by simp [State.port, d, f, g], fun h => ?_⟩
    simp [PortState.references, State.port] at h
    simp [State.port, d, f, g, h]

theorem OnlyReportsAdded.trans {s t u : State} (hl : Keeps .lines s t) (hst : t.station = s.station) (h : OnlyReportsAdded s t)
    (k : OnlyReportsAdded t u) : OnlyReportsAdded s u := by
  refine ⟨h.1.trans hl hst k.1, fun x hx => ?_⟩
  rw [newFrames_trans h.1.1 k.1.1, List.mem_append] at hx
  rcases hx with hx | hx
  · exact h.2 x hx
  · exact k.2 x hx

/-- An origination for the packer, whatever the relay answers. -/
theorem originate_reports (dest : Nat) (kind : Byte) (express : Bool) (payload : List Byte) (s : State) :
    OnlyReportsAdded s (originate dest kind express .reportPacker payload s).2 := by
  have none : OnlyReportsAdded s s :=
    ⟨Originated.of_same (by simp [Keeps]) (by simp [Keeps]) (by simp [Keeps]), fun x hx => by
      rw [newFrames_eq (fs := []) (by simp)] at hx; cases hx⟩
  rcases originate_cases dest kind express .reportPacker payload s with ⟨e, -⟩ | ⟨e, -⟩ | ⟨u, e, -⟩
  · rw [e]; exact none
  · rw [e]; exact none
  · obtain ⟨a, b⟩ := originate_sends e
    rw [e]
    refine ⟨a, fun x hx => ?_⟩
    rw [b, List.mem_singleton] at hx
    rw [hx]

end Sys2Proof.Machine
end

