-- ==== Sys2Proof/Laws/Requests.lean ====
section
/-!
SUPPORT. What carrying a request forward does, said once for every request that is answered at once.
-/

namespace Sys2Proof.Machine

open Sys2Proof

theorem taken_only (s : State) : OnlyChanges [.admitted, .notes] s (taken s) := by
  intro p; cases p <;> simp [Keeps, taken, beginEvent]

/-- What carrying the request at the head forward does: it is discarded, refused, or given to its block (R26, R38). -/
theorem carryForward_head {k : ReqKind} {r : Request} {s : State} (serve : Request → State → State)
    (hr : s.admitted.head? = some r) (hk : r.kind = k) :
    carryForward k serve s = endEvent
      (if s.pendingReset ≠ .none then signal .requestDiscarded none (taken s)
       else match refusalOf r s with
        | some code => answer r (Answer.refuse code) (taken s)
        | none => serve r (taken s)) := by
  cases ha : s.admitted with
  | nil => simp [ha] at hr
  | cons x rest =>
    have hx : x = r := by simpa [ha] using hr
    subst hx
    have ht : taken s = { beginEvent s with admitted := rest } := by simp [taken, beginEvent, ha]
    rw [ht]
    unfold carryForward
    rw [ha]
    simp only [hk, if_true, event]
    rfl

/-- A carried request runs its service on the state without it. -/
theorem carryForward_carried {k : ReqKind} {r : Request} {s : State} (serve : Request → State → State)
    (h : Carried k r s) : carryForward k serve s = endEvent (serve r (taken s)) := by
  obtain ⟨hr, hk, hp, hh, hi⟩ := h
  have href : refusalOf r s = none := by simp [refusalOf, hk, hh, hi]
  rw [carryForward_head serve hr hk, if_neg (by simp [hp]), href]

/-- A request that R26 refuses is answered with its code and changes nothing else. -/
theorem carryForward_refused {k : ReqKind} {r : Request} {s : State} (serve : Request → State → State) {code : ReplyCode}
    (hr : s.admitted.head? = some r) (hk : r.kind = k) (hp : s.pendingReset = .none) (hc : refusalOf r s = some code) :
    carryForward k serve s = endEvent (answered (fun _ t => (Answer.refuse code, t)) r (taken s)) := by
  rw [carryForward_head serve hr hk, if_neg (by simp [hp]), hc]; rfl

/-- A request carried forward while a reset is pending is discarded. -/
theorem carryForward_discarded {k : ReqKind} {r : Request} {s : State} (serve : Request → State → State)
    (hr : s.admitted.head? = some r) (hk : r.kind = k) (hp : s.pendingReset ≠ .none) :
    carryForward k serve s = endEvent (signal .requestDiscarded none (taken s)) := by
  rw [carryForward_head serve hr hk, if_pos hp]

theorem upPorts_isEmpty (s : State) : s.upPorts = [] ↔ ¬ (s.portA.up = true ∨ s.portB.up = true) := by
  cases ha : s.portA.up <;> cases hb : s.portB.up <;> simp [State.upPorts, ha, hb]

theorem keeps_up {s t : State} (h : Keeps .lines s t) :
    (t.portA.up = true ∨ t.portB.up = true) ↔ (s.portA.up = true ∨ s.portB.up = true) := by
  rw [h.1, h.2]

/-- Frames once stored stay stored while the packer builds and asks for more. -/
theorem buildDue_frames (fuel : Nat) : ∀ s : State, s.frames ⊆ (buildDue fuel s).frames := by
  induction fuel with
  | zero => exact fun s => List.Subset.refl _
  | succ n ih =>
    intro s
    simp only [buildDue]
    split
    · have h : s.frames ⊆ (buildFrame s).2.frames := by
        simp only [buildFrame]
        rcases originate_cases s.params.target reportCodeKind
            (((s.fifo.take Config.recordsPerFrame).map (·.record)).any Record.isAttention) .reportPacker
            (BitVec.ofNat 8 ((s.fifo.take Config.recordsPerFrame).map (·.record)).length
              :: ((s.fifo.take Config.recordsPerFrame).map (·.record)).flatMap Record.bytes) s with
          ⟨h, -⟩ | ⟨h, -⟩ | ⟨t, h, -, -, -, -, hf, -⟩ <;> rw [h] <;> simp [settleCombine, holdCombine]
        rw [hf]; simp
      revert h
      generalize buildFrame s = o
      rcases o with ⟨o, t⟩
      intro h
      cases o
      · exact h
      · exact List.Subset.trans h (ih t)
    · exact List.Subset.refl _

theorem endEvent_frames (s : State) : s.frames ⊆ (endEvent s).frames := by
  have h : (offerAttention (offerWraps s)).frames = s.frames := by
    have h1 := ((offerWraps_only s).keeps (p := .store) (by decide)).2.1
    have h2 := ((offerAttention_only (offerWraps s)).keeps (p := .store) (by decide)).2.1
    rw [h2, h1]
  simp only [endEvent]; split
  · rw [← h]; exact buildDue_frames _ _
  · rw [← h]; exact List.Subset.refl _

/-- A request that its block takes and answers at once: the block's effect `ps` leaves the relay, the
notes and the hop count alone, so the answer goes out as `Answered` says, and what the block did stands at the end of the event. -/
theorem endEvent_answers {ps : List Part} {r : Request} {s : State}
    {apply : Request → State → Answer × State}
    (h : OnlyChanges ps (taken s) (apply r (taken s)).2)
    (hps : ∀ p ∈ [Part.lines, .station, .queues, .sequence, .store, .admitted, .notes], p ∉ ps)
    (hpm : (apply r (taken s)).2.params.hops = s.params.hops) :
    Answered ps r (apply r (taken s)).1.code (apply r (taken s)).1.rest s (endEvent (answered apply r (taken s))) ∧
    OnlyChanges eventParts (apply r (taken s)).2 (endEvent (answered apply r (taken s))) := by
  have hsub1 : ps ⊆ ps ++ Part.admitted :: eventParts := by simp
  have hall := (taken_only s).mono (qs := ps ++ Part.admitted :: eventParts) (by simp [eventParts])
  simp only [answered]
  generalize ha : apply r (taken s) = au at h hpm ⊢
  rcases au with ⟨a, u⟩
  simp only at h hpm ⊢
  -- what the relay sees is what it saw before
  have fr : ∀ p ∈ [Part.lines, .station, .queues, .sequence, .store], Keeps p s u := by
    intro p hp
    have hp' : p ∉ [Part.admitted, .notes] := by simp at hp; rcases hp with h | h | h | h | h <;> subst h <;> decide
    exact ((taken_only s).keeps hp').trans (h.keeps (hps p (by simp at hp ⊢; tauto)))
  have hst := fr .station (by simp)
  have hln := fr .lines (by simp)
  have hsq := fr .sequence (by simp)
  have hstore := fr .store (by simp)
  have hnotes : u.notes = EventNotes.empty := Eq.trans (show _ = (taken s).notes from h.keeps (hps .notes (by simp))) rfl
  have hadm : u.admitted = s.admitted.tail := Eq.trans (show _ = (taken s).admitted from h.keeps (hps .admitted (by simp))) rfl
  have hown : ∀ d kd e pl, u.ownFrame d kd e pl = s.ownFrame d kd e pl := by
    intro d kd e pl
    have a1 : u.station = s.station := hst
    have a3 : u.seq = s.seq := hsq.2
    simp [State.ownFrame, a1, hpm, a3]
  have hans := answer_only r a u
  have tot : OnlyChanges eventParts u (endEvent (answer r a u)) :=
    (hans.mono (by decide)).trans (endEvent_only _)
  have len : (replyPayload r a).length = 4 + a.rest.length := by simp [replyPayload, beBytes]; omega
  refine ⟨⟨?_, ?_, ?_, ?_, ?_⟩, tot⟩
  · exact Eq.trans (show _ = u.admitted from tot.keeps (p := .admitted) (by decide)) hadm
  · exact (hall.trans (h.mono hsub1)).trans (tot.mono (by simp [eventParts]))
  · intro hb
    have : answer r a u = u := by simp [answer, hb]
    rw [this, endEvent_quiet hnotes]
    exact ((taken_only s).mono (by simp)).trans (h.mono (by simp))
  · intro hb ⟨hs0, hup, hcl⟩
    have key : ∃ t, originate r.origin replyCodeKind true .requestHandler (replyPayload r a) u = (.accepted (some u.nextRef), t) := by
      rcases originate_cases r.origin replyCodeKind true .requestHandler (replyPayload r a) u with
        ⟨-, h0, hbad⟩ | ⟨-, h0⟩ | ⟨t, ht, -⟩
      · exfalso
        rcases hbad with hbad | hbad
        · exact (upPorts_isEmpty u).1 hbad ((keeps_up hln).2 hup)
        · rw [len, hstore.1] at hbad
          have : 9 + (4 + a.rest.length) = 9 + (4 + a.rest.length) := rfl
          omega
      · exact absurd (h0.symm.trans hst).symm hs0
      · exact ⟨t, ht⟩
    obtain ⟨t, ht⟩ := key
    obtain ⟨hor, hnew⟩ := originate_sends ht
    have hports : u.upPorts = s.upPorts := by simp only [State.upPorts, hln.1, hln.2]
    have hta : answer r a u = t := by simp [answer, hb, ht]
    have ho := originate_only r.origin replyCodeKind true .requestHandler (replyPayload r a) u
    rw [ht] at ho
    have hq : t.notes = EventNotes.empty := Eq.trans (show _ = u.notes from ho.keeps (p := .notes) (by decide)) hnotes
    rw [hta, endEvent_quiet hq]
    have hk := hor.of_keeps hln hst (fr .queues (by simp)) hsq hstore
    refine ⟨⟨hk.1, ?_⟩, ?_⟩
    · rw [← hk.2, hnew, hown, hports, hstore.2.2]; rfl
    · exact (((taken_only s).mono (by simp)).trans (h.mono (by simp))).trans (ho.mono (by simp [relayParts]))
  · intro hb hs0 hno
    have key : originate r.origin replyCodeKind true .requestHandler (replyPayload r a) u = (.refused, u) := by
      rcases originate_cases r.origin replyCodeKind true .requestHandler (replyPayload r a) u with
        ⟨ht, -⟩ | ⟨-, h0⟩ | ⟨t, -, -, hu, hcl, -⟩
      · exact ht
      · exact absurd (h0.symm.trans hst).symm hs0
      · exfalso
        refine hno ⟨hs0, ?_, ?_⟩
        · exact (keeps_up hln).1 (by by_contra hx; exact hu ((upPorts_isEmpty u).2 hx))
        · rw [len, hstore.1] at hcl; exact hcl
    have hta : answer r a u = setFlag .replyDrop u := by simp [answer, hb, key]
    rw [hta, endEvent_flagSet _ (by decide), setFlag_flagSet]
    simp

/-- The same for a request as it is carried forward. -/
theorem carryForward_answers {ps : List Part} {k : ReqKind} {r : Request} {s : State}
    {apply : Request → State → Answer × State} (hc : Carried k r s)
    (h : OnlyChanges ps (taken s) (apply r (taken s)).2)
    (hps : ∀ p ∈ [Part.lines, .station, .queues, .sequence, .store, .admitted, .notes], p ∉ ps)
    (hpm : (apply r (taken s)).2.params.hops = s.params.hops) :
    Answered ps r (apply r (taken s)).1.code (apply r (taken s)).1.rest s (carryForward k (answered apply) s) ∧
    OnlyChanges eventParts (apply r (taken s)).2 (carryForward k (answered apply) s) := by
  rw [carryForward_carried _ hc]; exact endEvent_answers h hps hpm

/-- A request that only reads is answered with what it reads. -/
theorem carryForward_reads {k : ReqKind} {r : Request} {s : State} {apply : Request → State → Answer × State}
    (hc : Carried k r s) (h : (apply r (taken s)).2 = taken s) :
    Answered [] r (apply r (taken s)).1.code (apply r (taken s)).1.rest s (carryForward k (answered apply) s) :=
  (carryForward_answers (ps := []) hc (by rw [h]; exact onlyChanges_refl _ _) (by simp) (by rw [h]; rfl)).1

/-- A refused request gets its code and changes nothing else. -/
theorem carryForward_refuses {k : ReqKind} {r : Request} {s : State} (serve : Request → State → State) {code : ReplyCode}
    (hr : s.admitted.head? = some r) (hk : r.kind = k) (hp : s.pendingReset = .none) (hc : refusalOf r s = some code) :
    Answered [] r code [] s (carryForward k serve s) := by
  rw [carryForward_refused serve hr hk hp hc]
  exact (endEvent_answers (apply := fun _ t => (Answer.refuse code, t)) (onlyChanges_refl _ _) (by simp) rfl).1

end Sys2Proof.Machine
end

