-- ==== Sys2Proof/Laws/Queues.lean ====
section
/-!
SUPPORT. What sending frames of its own leaves of the ports' queues: what a port sends or will send stays, and a transmission in progress goes on.
-/

namespace Sys2Proof.Machine

open Sys2Proof

/-- Every reference of a port stays with it, and while the port sends, its queues only grow. -/
def QueuesGrow (s t : State) : Prop :=
  ∀ p, (s.port p).references ⊆ (t.port p).references ∧ ∀ r, (s.port p).sending = some r →
    (t.port p).sending = some r ∧ (s.port p).express ⊆ (t.port p).express ∧ (s.port p).normal ⊆ (t.port p).normal

theorem QueuesGrow.refl (s : State) : QueuesGrow s s :=
  fun _ => ⟨List.Subset.refl _, fun _ h => ⟨h, List.Subset.refl _, List.Subset.refl _⟩⟩

theorem QueuesGrow.trans {s t u : State} (h : QueuesGrow s t) (k : QueuesGrow t u) : QueuesGrow s u := fun p =>
  ⟨List.Subset.trans (h p).1 (k p).1, fun r hr =>
    have a := (h p).2 r hr
    have b := (k p).2 r a.1
    ⟨b.1, List.Subset.trans a.2.1 b.2.1, List.Subset.trans a.2.2 b.2.2⟩⟩

/-- A state with the same queues. -/
theorem QueuesGrow.of_keeps {s t : State} (h : Keeps .queues s t) : QueuesGrow s t := by
  obtain ⟨⟨a, b, c⟩, d, e, f⟩ := h
  intro p
  cases p <;> simp [PortState.references, State.port, a, b, c, d, e, f]

theorem PortState.started_references (q : PortState) : q.references ⊆ q.started.references := by
  rcases q with ⟨up, rx, ex, nm, sd⟩
  cases up <;> cases sd <;> cases ex <;> cases nm <;> simp [PortState.started, PortState.references]

/-- Growth of one port makes growth of the queues. -/
theorem QueuesGrow.of_port {s t : State} {p : Port} {x : PortState} (h : ∀ q, t.port q = if q = p then x else s.port q)
    (hr : (s.port p).references ⊆ x.references) (hs : ∀ r, (s.port p).sending = some r →
      x.sending = some r ∧ (s.port p).express ⊆ x.express ∧ (s.port p).normal ⊆ x.normal) : QueuesGrow s t := by
  intro q
  rw [h q]; split
  · rename_i e; subst e; exact ⟨hr, hs⟩
  · exact QueuesGrow.refl s q

theorem startTransmitter_grows (p : Port) (s : State) : QueuesGrow s (startTransmitter p s) :=
  QueuesGrow.of_port (fun q => startTransmitter_port p q s) (PortState.started_references _) fun r hr => by
    rw [PortState.started_busy hr]; exact ⟨hr, List.Subset.refl _, List.Subset.refl _⟩

theorem PortState.queued_references (q : PortState) (express : Bool) (ref : Nat) :
    q.references ⊆ (q.queued express ref).references ∧ ref ∈ (q.queued express ref).references := by
  cases express <;>
    simp [PortState.queued, PortState.references, List.subset_def] <;> intro a h <;> tauto

theorem enqueueRef_grows (express : Bool) (ref : Nat) (p : Port) (s : State) :
    QueuesGrow s (enqueueRef express ref p s) ∧ ref ∈ ((enqueueRef express ref p s).port p).references := by
  obtain ⟨a, b⟩ := PortState.queued_references (s.port p) express ref
  refine ⟨QueuesGrow.of_port (fun q => enqueueRef_port express ref p q s)
    (List.Subset.trans a (PortState.started_references _)) fun r hr => ?_, ?_⟩
  · have hq : ((s.port p).queued express ref).sending = some r := by cases express <;> exact hr
    rw [PortState.started_busy hq]
    refine ⟨hq, ?_⟩
    cases express <;> simp [PortState.queued]
  · rw [enqueueRef_port, if_pos rfl]; exact PortState.started_references _ b

theorem foldl_enqueueRef_grows (express : Bool) (ref : Nat) (ports : List Port) : ∀ s : State,
    QueuesGrow s (ports.foldl (fun t p => enqueueRef express ref p t) s) ∧
      ∀ p ∈ ports, ref ∈ ((ports.foldl (fun t p => enqueueRef express ref p t) s).port p).references := by
  induction ports with
  | nil => exact fun s => ⟨QueuesGrow.refl s, by simp⟩
  | cons q qs ih =>
    intro s
    obtain ⟨a, b⟩ := enqueueRef_grows express ref q s
    obtain ⟨c, d⟩ := ih (enqueueRef express ref q s)
    refine ⟨a.trans c, fun p hp => ?_⟩
    rcases List.mem_cons.1 hp with rfl | hp
    · exact (c p).1 b
    · exact d p hp

/-- A frame stored stands in a queue, or in transmission, of each of its ports (R22). -/
theorem storeFrame_grows (f : Frame) (requester : Option Requester) (ports : List Port) (s : State) :
    QueuesGrow s (storeFrame f requester ports s) ∧
      ∀ p ∈ ports, s.nextRef ∈ ((storeFrame f requester ports s).port p).references := by
  unfold storeFrame
  have h : QueuesGrow s { s with
      nextRef := s.nextRef + 1, freeCells := s.freeCells - cellsFor f.length
      frames := s.frames ++ [{ ref := s.nextRef, frame := f, refs := ports.length, requester := requester }] } :=
    QueuesGrow.of_keeps (by simp [Keeps])
  obtain ⟨a, b⟩ := foldl_enqueueRef_grows f.express s.nextRef ports { s with
      nextRef := s.nextRef + 1, freeCells := s.freeCells - cellsFor f.length
      frames := s.frames ++ [{ ref := s.nextRef, frame := f, refs := ports.length, requester := requester }] }
  exact ⟨h.trans a, b⟩

theorem originate_grows (dest : Nat) (kind : Byte) (express : Bool) (requester : Requester) (payload : List Byte) (s : State) :
    QueuesGrow s (originate dest kind express requester payload s).2 := by
  simp only [originate]; split
  · exact QueuesGrow.refl s
  · split
    · exact QueuesGrow.refl s
    · refine QueuesGrow.trans (t := { s with
        ownSent := pushCapped Config.ownSentFrames s.ownSent s.seq, seq := s.seq + 1 }) ?_ (storeFrame_grows _ _ _ _).1
      exact QueuesGrow.of_keeps (by simp [Keeps])

/-! ## What holds of every frame the end of an event sends -/

/-- A relation that every origination of the packer's and every change of the packer's records, the flags and the notes keeps holds across the end of an
event. -/
theorem endEvent_rel {R : State → State → Prop} (trans : ∀ s t u, R s t → R t u → R s u)
    (other : ∀ s t, OnlyChanges [.records, .flags, .notes] s t → R s t)
    (send : ∀ dest kind express payload s, R s (originate dest kind express .reportPacker payload s).2) (s : State) :
    R s (endEvent s) := by
  have refl : ∀ s, R s s := fun s => other s s (onlyChanges_refl _ s)
  have frame : ∀ s, R s (buildFrame s).2 := by
    intro s
    simp only [buildFrame]
    have h := send s.params.target reportCodeKind (((s.fifo.take Config.recordsPerFrame).map (·.record)).any
      Record.isAttention) (BitVec.ofNat 8 ((s.fifo.take Config.recordsPerFrame).map (·.record)).length
        :: ((s.fifo.take Config.recordsPerFrame).map (·.record)).flatMap Record.bytes) s
    revert h
    generalize originate _ _ _ _ _ s = o
    rcases o with ⟨o, t⟩
    intro h
    cases o
    · exact trans _ _ _ h (other _ _ ((holdCombine_only _).mono (by decide)))
    · refine trans _ _ _ h (other _ _ (OnlyChanges.trans (t := { t with fifo := t.fifo.drop Config.recordsPerFrame }) ?_
        ((settleCombine_only _).mono (by decide))))
      intro p; cases p <;> simp [Keeps]
  have due : ∀ fuel s, R s (buildDue fuel s) := by
    intro fuel
    induction fuel with
    | zero => exact refl
    | succ n ih =>
      intro s
      simp only [buildDue]; split
      · have h := frame s
        revert h
        generalize buildFrame s = o
        rcases o with ⟨o, t⟩
        intro h
        cases o
        · exact h
        · exact trans _ _ _ h (ih t)
      · exact refl s
  have h : R s (offerAttention (offerWraps s)) :=
    other _ _ (((offerWraps_only s).mono (by decide)).trans ((offerAttention_only _).mono (by decide)))
  have clean : ∀ t : State, R t { t with notes := EventNotes.empty } := fun t => other _ _ (by
    intro p; cases p <;> simp [Keeps])
  simp only [endEvent]; split
  · exact trans _ _ _ (trans _ _ _ h (due _ _)) (clean _)
  · exact trans _ _ _ h (clean _)

theorem endEvent_grows (s : State) : QueuesGrow s (endEvent s) :=
  endEvent_rel (R := QueuesGrow) (fun _ _ _ => QueuesGrow.trans) (fun _ _ h => QueuesGrow.of_keeps (h.keeps (by decide)))
    (fun d k e p => originate_grows d k e _ p) s

/-- A port with its line state, buffer and queues kept is kept. -/
theorem port_of_keeps {s t : State} (hl : Keeps .lines s t) (hb : Keeps .buffers s t) (hq : Keeps .queues s t) (p : Port) :
    t.port p = s.port p := by
  obtain ⟨⟨a, b, c⟩, d, e, f⟩ := hq
  cases p
  · have : t.portA = s.portA := by
      cases ht : t.portA; cases hs : s.portA
      simp_all [Keeps]
    exact this
  · have : t.portB = s.portB := by
      cases ht : t.portB; cases hs : s.portB
      simp_all [Keeps]
    exact this

/-- A frame that joins the store takes a reference not given before, and a port that is DOWN is left as it was. -/
def NewFramesOnly (s t : State) : Prop :=
  (∀ y ∈ t.frames, y ∈ s.frames ∨ s.nextRef ≤ y.ref) ∧ s.nextRef ≤ t.nextRef ∧
    ∀ p, (s.port p).up = false → t.port p = s.port p

theorem NewFramesOnly.trans (s t u : State) (h : NewFramesOnly s t) (k : NewFramesOnly t u) : NewFramesOnly s u := by
  refine ⟨fun y hy => ?_, h.2.1.trans k.2.1, fun p hp => ?_⟩
  · rcases k.1 y hy with a | a
    · exact h.1 y a
    · exact .inr (h.2.1.trans a)
  · have e := h.2.2 p hp
    rw [← e] at hp
    rw [k.2.2 p hp, e]

theorem originate_new (dest : Nat) (kind : Byte) (express : Bool) (requester : Requester) (payload : List Byte) (s : State) :
    NewFramesOnly s (originate dest kind express requester payload s).2 := by
  have refl : NewFramesOnly s s := ⟨fun y hy => .inl hy, le_refl _, fun _ _ => rfl⟩
  simp only [originate]; split
  · exact refl
  · split
    · exact refl
    · have hs := storeFrame_store (s.ownFrame dest kind express payload) (some requester) s.upPorts
          { s with ownSent := pushCapped Config.ownSentFrames s.ownSent s.seq, seq := s.seq + 1 }
      refine ⟨fun y hy => ?_, ?_, fun p hp => ?_⟩
      · simp only [hs.2.1, List.mem_append, List.mem_singleton] at hy
        rcases hy with hy | hy
        · exact .inl hy
        · rw [hy]; exact .inr (le_refl _)
      · simp only [hs.2.2]; omega
      · have hn : p ∉ s.upPorts := by cases p <;> simp_all [State.upPorts, State.port]
        unfold storeFrame
        rw [foldl_enqueueRef_port _ _ _ _ hn]
        cases p <;> rfl

theorem endEvent_new (s : State) : NewFramesOnly s (endEvent s) :=
  endEvent_rel NewFramesOnly.trans
    (fun s t h => by
      have hs := h.keeps (p := .store) (by decide)
      exact ⟨fun y hy => .inl (hs.2.1 ▸ hy), hs.2.2 ▸ le_refl _, fun p _ =>
        port_of_keeps (h.keeps (by decide)) (h.keeps (by decide)) (h.keeps (by decide)) p⟩)
    (fun d k e p => originate_new d k e _ p) s

/-- What the end of an event stores is the packer's reports, numbered and queued as the relay does. -/
theorem endEvent_reports (s : State) : OnlyReportsAdded s (endEvent s) :=
  (endEvent_rel (R := fun s t => (Keeps .lines s t ∧ t.station = s.station) ∧ OnlyReportsAdded s t)
    (fun _ _ _ h k => ⟨⟨⟨k.1.1.1.trans h.1.1.1, k.1.1.2.trans h.1.1.2⟩, k.1.2.trans h.1.2⟩, h.2.trans h.1.1 h.1.2 k.2⟩)
    (fun s t h =>
      have hs := h.keeps (p := .store) (by decide)
      ⟨⟨h.keeps (p := .lines) (by decide), h.keeps (p := .station) (by decide)⟩,
        Originated.of_same (h.keeps (by decide)) (h.keeps (by decide)) hs, fun x hx => by
          rw [newFrames_eq (fs := []) (by rw [hs.2.1, List.append_nil])] at hx; cases hx⟩)
    (fun d k e p s =>
      have h := originate_only d k e .reportPacker p s
      ⟨⟨h.keeps (p := .lines) (by decide), h.keeps (p := .station) (by decide)⟩, originate_reports d k e p s⟩) s).2

end Sys2Proof.Machine
end

