-- ==== Sys2Proof/Tests/Slice0.lean ====
section
/-!
SUPPORT. Tests: the checks of WellFormed, the manual's worked cases and tables, and for each statement for the provers a state and operands
that meet its hypotheses, clause by clause (theorems `witness_…`).
-/

namespace Sys2Proof.Machine.Tests

set_option Elab.async false

open Sys2Proof Sys2Proof.Machine

/-! ## WellFormed and the opcode table's bits -/

/-- A slot position on branch L. -/
def lpos (addr slot : Nat) : SlotPos := { branch := .l, addr := addr, slot := slot }

theorem test_wf_address_zero : (Instr.rotationExpiry (lpos 0 1)).wellFormed = false := by decide
theorem test_wf_address_high : (Instr.feedbackExpiry (lpos 49 1)).wellFormed = false := by decide
theorem test_wf_slot_zero : (Instr.lingerExpiry (lpos 1 0)).wellFormed = false := by decide
theorem test_wf_slot_high : (Instr.lingerExpiry (lpos 48 5)).wellFormed = false := by decide
theorem test_wf_empty_acknowledge : (Instr.showAcknowledge .l []).wellFormed = false := by decide
theorem test_wf_empty_poll_reply : (Instr.pollReply .r []).wellFormed = false := by decide
theorem test_wf_empty_identity : (Instr.identReply .l (some [])).wellFormed = false := by decide
theorem test_wf_empty_invalid_reply : (Instr.invalidReply .l true []).wellFormed = false := by decide
theorem test_wf_accepts : (Instr.lingerExpiry (lpos 48 4)).wellFormed = true ∧ (Instr.identReply .l none).wellFormed = true := by decide

/-- The opcode table gives no row any bits, so a word changes nothing. -/
theorem test_no_word_spells_a_command : decodeTableWord 16 0xFFFF = none ∧ State.reset.withFetchWord 16 0xFFFF = State.reset := by
  constructor <;> rfl

/-! ## Worked cases of the manual -/

/-- Section 4.7: the first case and the three samples of the table. -/
theorem test_pace_arithmetic :
    newPace (some 400) (dwell10 1803655 1806000) = 379 ∧ newPace (some 400) 238 = 380 ∧ newPace none (dwell10 200000 212345) = 1234
      ∧ newPace (some 1234) (dwell10 4294966000 1500) = 1115 ∧ newPace (some 1115) (dwell10 10000 710000) = 9168 := by decide

/-- Sections 7.7 and 7.8: shares in joining order. -/
theorem test_allocation : allocate 7 [3, 5, 2] = [3, 4, 0] ∧ allocate 8 [3, 5, 2] = [3, 5, 0] ∧ allocate 7 [3, 2, 2] = [3, 2, 2] := by decide

/-- Sections 1.7 and 1.8: cells by length. -/
theorem test_cells : cellsFor 34 = 1 ∧ cellsFor 100 = 2 ∧ cellsFor 130 = 3 ∧ cellsFor 200 = 4 ∧ cellsFor 9 = 1 ∧ cellsFor 256 = 4 := by decide

/-- The remaining-change rule along section 5.10: T4101 to 2, T4100 cancelled, T4101 to 4. -/
theorem test_remaining_change :
    let g : Group := { id := 301, picker := 1021, loc := 40217011, members := [4100, 4101], remaining := 4, display := 2,
                       state := .shown, firstShown := none, linger := false }
    let a := g.remainingChange 5
    let b := a.remainingChange 2
    let c := b.remainingChange 4
    (a.remaining, a.display, b.remaining, b.display, c.remaining, c.display) = (5, 2, 2, 2, 4, 4) := by decide

/-- The check value of the trunk's generator and initial value over the digits 1 to 9 (29B1h, the published check value of this code),
and of the lamp branch's (F4h). -/
theorem test_check_values :
    crc16 [0x31, 0x32, 0x33, 0x34, 0x35, 0x36, 0x37, 0x38, 0x39] = 0x29B1#16
      ∧ crc8 [0x31, 0x32, 0x33, 0x34, 0x35, 0x36, 0x37, 0x38, 0x39] = 0xF4#8 := by decide +kernel

/-- Record lengths of R169's table. -/
theorem test_record_lengths :
    (Record.pick 1 2 3 4 4 .confirmed 0 0).bytes.length = 24 ∧ (Record.pressRefused 1 (lpos 1 1) .confirm 0 .stale 0).bytes.length = 15
      ∧ (Record.linger 1 2 3 0).bytes.length = 13 ∧ (Record.attention 0 0).bytes.length = 9
      ∧ (Record.counterWrap .c0 0).bytes.length = 6 ∧ (Record.scanDone .l 0 0).bytes.length = 7 := by decide

/-! ## The state of section 7.7 -/

/-- Picker ORANGE of section 7.7. -/
def orange : Picker :=
  { index := 3, id := 1041, colour := .orange, priority := 2, state := .active, openTasks := 3, pace := some 600 }

/-- The map entry of section 7.7. -/
def shelf : MapEntry := { code := 40217011, pos := lpos 7 2, area := 3 }

/-- Group 520 as it stands at step 4 of section 7.7. -/
def g520 : Group :=
  { id := 520, picker := 1041, loc := 40217011, members := [7101, 7102, 7103], remaining := 10, display := 7, state := .shown,
    firstShown := some 5200000, linger := false }

/-- A task of group 520. -/
def t520 (number quantity : Nat) : Task :=
  { number := number, picker := 1041, loc := 40217011, quantity := quantity, group := 520, posted := 5199000 }

/-- Slot L/7/2 at step 4 of section 7.7. -/
def slot72 : SlotState :=
  { pos := lpos 7 2, shadow := { colour := .orange, pattern := .steady, digits := .number 7 }, rotation := [520],
    position := some 520, rotTimer := none, feedback := none, linger := some { since := 0, length := 480000000 }, lingered := [],
    history := [{ tag := 41, shown := some (520, 10) }, { tag := 42, shown := some (520, 9) }, { tag := 43, shown := some (520, 8) },
                { tag := 44, shown := some (520, 7) }] }

/-- Module 7 of branch L. -/
def module7 : Module := { addr := 7, serial := 0x00A1B2C3D4E5, slots := 4, revision := 2, presence := .present, misses := 0, owed := 0 }

/-- The aisle of section 7.7, at station 7. -/
def aisle : State :=
  { State.reset with
    now := 1000000000, clock := 5209000, station := 7
    locMap := [shelf], pickers := [orange], tasks := [t520 7101 3, t520 7102 5, t520 7103 2], groups := [g520], nextGroup := 521
    slots := [slot72], branchL := { BranchState.reset with roster := [module7], scan := none }, scanningL := false }

/-- A request from supervisor 48. -/
def req (k : ReqKind) (payload : List Byte) : Request :=
  { kind := k, origin := 48, broadcast := false, seq := 700, payload := payload }

/-- The request is the one admitted. -/
def asked (k : ReqKind) (payload : List Byte) (s : State) : State := { s with admitted := [req k payload] }

/-- The code of the first reply in the store, if there is one (byte 3 of the reply envelope). -/
def replyCode (s : State) : Option Byte := s.frames.head?.bind fun f => f.frame.payload[3]?

/-- The state a command leads to. -/
def after (c : Instr) (s : State) : State :=
  match exec c s with
  | .next t => t
  | .fault f => nomatch f
  | .refused _ => s

/-- A key event waits on branch L. -/
def pressed (key : Key) (tag : Tag) (s : State) : State :=
  { s with branchL := { s.branchL with keys := [{ pos := lpos 7 2, key := key, tag := tag }] } }

/-- A CONFIRM at step 4 of section 7.7: tasks, group and history gone, the pace 638, the slot DARK. -/
theorem test_confirm_short_pick :
    let t := after (.confirmKey .l) (pressed .confirm 44 aisle)
    t.tasks = [] ∧ t.groups = [] ∧ t.pickers.map (fun p => (p.openTasks, p.pace)) = [(0, some 638)]
      ∧ t.slots.map (fun x => (x.shadow.pattern, x.history)) = [(.dark, [])] := by decide +kernel

/-- The PICK records of section 7.7, in joining order. -/
theorem test_confirm_records :
    (after (.confirmKey .l) (pressed .confirm 44 aisle)).fifo.map (·.record) =
      [.pick 7101 1041 40217011 3 3 .confirmed 5200000 5209000, .pick 7102 1041 40217011 5 4 .short 5200000 5209000,
       .pick 7103 1041 40217011 2 0 .short 5200000 5209000] := by decide +kernel

/-- Section 10.2: TASK_SHORT twice at a counter standing at 16,777,214 wraps it to 0 and sets its flag; with five records waiting, ten
records leave in two frames, the second EXPRESS. -/
theorem test_counter_wrap_in_confirm :
    let waiting : Waiting := { record := .linger 1 1 1 0, entered := 999999000 }
    let s := { pressed .confirm 44 aisle with
      fifo := List.replicate 5 waiting, combine := some { since := 999999000, expired := false }
      counters := { State.reset.counters with c1 := { count := 16777214, selection := some .taskShort, mask := 0x09 } } }
    let t := after (.confirmKey .l) s
    t.counters.c1.count = 0 ∧ t.flagSet (.counterWrap .c1) = true ∧ t.fifo = []
      ∧ t.frames.map (fun f => (f.frame.express, f.frame.payload.head?)) = [(false, some 8), (true, some 2)] := by decide +kernel

/-- Section 7.9: with two free places the press is refused BUSY, and no record is written. -/
theorem test_confirm_busy :
    let waiting : Waiting := { record := .linger 1 1 1 0, entered := 999999000 }
    let s := { pressed .confirm 44 aisle with
      fifo := List.replicate 30 waiting, combine := some { since := 999999000, expired := false } }
    let t := after (.confirmKey .l) s
    t.fifo = s.fifo ∧ t.groups = s.groups ∧ t.slots.map (·.shadow) = [{ colour := .white, pattern := .flash, digits := .busy }] := by
  decide +kernel

/-- Section 7.7: DOWN under the newest tag takes one off D, and the slot is queued; under an older tag it does nothing. -/
theorem test_adjust_down :
    let t := after (.adjustKey .l) (pressed .down 44 aisle)
    t.groups.map (·.display) = [6] ∧ t.branchL.work = [lpos 7 2]
      ∧ (after (.adjustKey .l) (pressed .down 43 aisle)).groups = aisle.groups := by decide +kernel

/-- Section 7.8: the amend of the second member to 2 in a group with D equal to R: D follows R, and the reply is OK. -/
theorem test_amend_follows :
    let s := { aisle with groups := [{ g520 with display := 10 }] }
    let t := after .taskAmend (asked .taskAmend ([0x00, 0x00, 0x1B, 0xBE] ++ [0x00, 0x02]) s)
    t.groups.map (fun g => (g.remaining, g.display)) = [(7, 7)] ∧ replyCode t = some 0x00 := by decide +kernel

/-- Section 7.9: T7101 cancelled with D 7 and R 10: both are 7 then. -/
theorem test_cancel_clamps :
    let t := after .taskCancel (asked .taskCancel [1, 0x00, 0x00, 0x1B, 0xBD] aisle)
    t.groups.map (fun g => (g.members, g.remaining, g.display)) = [([7102, 7103], 7, 7)] ∧ t.pickers.map (·.openTasks) = [2] := by
  decide +kernel

/-- A task posted for a SHOWN group's picker starts a new group, which takes the counter's id and waits (section 5.9, index 1). -/
theorem test_post_starts_group :
    let t := after .taskPost (asked .taskPost ([1] ++ [0, 0, 0x13, 0x89] ++ [0x04, 0x11] ++ beBytes 4 40217011 ++ [0, 3]) aisle)
    t.groups.map (fun g => (g.id, g.remaining, g.display, g.state)) = [(520, 10, 7, .shown), (521, 3, 3, .waiting)]
      ∧ t.nextGroup = 522 ∧ t.frames.map (fun f => f.frame.payload.drop 3) = [[0x00, 1, 0x00, 0x02, 0x09, 1]] := by decide +kernel

/-- The next group id goes past an id in use and from 65535 to 1 (R73). -/
theorem test_group_id_wraps :
    let s := { aisle with groups := [g520, { g520 with id := 65535, loc := 1 }], nextGroup := 65535 }
    let x : TaskItem := { number := 9000, picker := 1041, loc := 40217011, quantity := 3 }
    (postTask x s).1.group = 1 ∧ (postTask x s).2.nextGroup = 2 := by decide +kernel

/-- Section 3.7: a lock holds the groups and shows the held display. -/
theorem test_area_lock_holds :
    let t := after .areaLock (asked .areaLock [0x00, 0x08] aisle)
    t.groups.map (·.state) = [.held] ∧ t.slots.map (·.shadow) = [{ colour := .white, pattern := .pulse, digits := .blank }]
      ∧ t.branchL.work = [lpos 7 2] := by decide +kernel

/-- Section 3.6: the corrected MAP_LOAD adds three and replaces one; its slots are queued in ascending order of code (R103). -/
theorem test_map_load :
    let entry (code : Nat) (b a n k : Byte) : List Byte := beBytes 4 code ++ [b, a, n, k]
    let s := { State.reset with locMap := [{ code := 40217020, pos := lpos 7 3, area := 3 }, { code := 40217045, pos := lpos 7 1, area := 3 }]
                                slots := [SlotState.fresh (lpos 7 3), SlotState.fresh (lpos 7 1)] }
    let t := after .mapLoad (asked .mapLoad ([4] ++ entry 40217011 0 7 2 3 ++ entry 40217020 0 7 4 3 ++ entry 40217030 0 7 3 3
      ++ entry 40233004 1 12 2 5) s)
    t.locMap.map (·.code) = [40217011, 40217020, 40217030, 40217045, 40233004]
      ∧ t.branchL.work = [lpos 7 2, lpos 7 4, lpos 7 3] ∧ t.branchR.work = [{ branch := .r, addr := 12, slot := 2 }]
      ∧ t.frames.map (fun f => f.frame.payload.drop 3) = [[0x00, 0, 3, 0, 1, 0, 5]] := by decide +kernel

/-- Two new locations named in descending order of code: their slots are queued in ascending order (R48, R103). -/
theorem test_map_load_queues_by_code :
    let entry (code : Nat) (a n : Byte) : List Byte := beBytes 4 code ++ [0, a, n, 1]
    (after .mapLoad (asked .mapLoad ([2] ++ entry 9 3 1 ++ entry 8 3 2) State.reset)).branchL.work = [lpos 3 2, lpos 3 1] := by decide +kernel

/-- A history that already holds the tag of a new display keeps its tags distinct (R109, log 34). -/
theorem test_history_keeps_tags_distinct :
    (recordSend { tag := 41, shown := none } slot72.history).map (·.tag) = [42, 43, 44, 41]
      ∧ (recordSend { tag := 45, shown := none } slot72.history).map (·.tag) = [42, 43, 44, 45] := by decide

/-- Section 1.8: a report frame of 200 bytes is refused at 3 free cells; a reply of 40 bytes is stored at 7. -/
theorem test_store_admission :
    (originate 48 0x81 false .reportPacker (List.replicate 191 0) { aisle with freeCells := 3 }).1 = .refused
      ∧ (originate 48 0x80 true .requestHandler (List.replicate 31 0) { aisle with freeCells := 7 }).2.freeCells = 6 := by decide +kernel

/-- Section 6.9: a linger expiry blinks the group and offers its record. -/
theorem test_linger_expiry :
    let t := after (.lingerExpiry (lpos 7 2)) aisle
    t.slots.map (fun x => (x.shadow.pattern, x.lingered, x.linger)) = [(.blink, [520], none)]
      ∧ t.fifo.map (·.record) = [.linger 520 1041 40217011 5209000] := by decide +kernel

/-- A reset with both trunk lines silent and branch R held reports three live flags in one record (R190). -/
theorem test_power_on_reports_lines :
    let t := after (.powerOn 31#5 { activeA := false, activeB := true, heldL := false, heldR := true }) aisle
    let u := after (.powerOn 5#5 { activeA := false, activeB := false, heldL := false, heldR := true }) aisle
    t.station = 0 ∧ u.station = 5 ∧ u.fifo.map (·.record) = [.attention 0x0B0000#21 0] := by decide +kernel

/-- A frame of section 1.7: a request of 25 payload bytes from supervisor 48 to station 7, with a hop count. -/
def taskPostFrame (hop : Nat) : Frame :=
  { dest := 7, origin := 48, kind := 0x10, express := false, spare := false, hop := hop, seq := 700, payload := List.replicate 25 0 }

/-- Section 1.7, steps 1 and 3: the first copy is delivered and admitted, the second is a duplicate, and the pair leaves the list. -/
theorem test_both_ways_round :
    let t := after (.frameArrival .a (taskPostFrame 30).bytes) aisle
    let u := after (.frameArrival .b (taskPostFrame 31).bytes) t
    t.recent = [(48, 700)] ∧ t.admitted.map (·.kind) = [.taskPost] ∧ u.recent = [] ∧ u.admitted = t.admitted := by decide +kernel

/-- The first command of a scan after reset is ALL_DARK, and then comes the IDENT of address 1 (R164), with their bytes (section 11.5). -/
theorem test_scan_begins :
    let t := after (.branchArbiter .l) State.reset
    let u := after (.branchArbiter .l) t
    t.branchL.command.map (fun c => c.bytes.take 2) = some [0x00, 0x04] ∧ u.branchL.command.map (fun c => c.bytes.take 2) = some [0x01, 0x03] := by
  decide +kernel

/-- Three misses at miss limit 3 make module 7 MISSING, and its group HELD (section 8.8's beginning). -/
theorem test_three_misses :
    let s := { aisle with branchL := { aisle.branchL with command := some (firstAttempt (.poll 7) 0) } }
    let t := after (.replyTimeout .l) (after (.replyTimeout .l) (after (.replyTimeout .l) s))
    t.branchL.roster.map (fun m => (m.presence, m.misses)) = [(.missing, 3)] ∧ t.groups.map (·.state) = [.held]
      ∧ t.flagSet .moduleLost = true ∧ t.branchL.command = none := by decide +kernel

/-! ## Witnesses: the machine, resets and the ring relay -/

/-- Both trunk lines silent. -/
def silent : LineLevels := { activeA := false, activeB := false, heldL := false, heldR := true }

/-- A state and operands for which a statement's hypotheses hold carry this shape throughout: the hypotheses, in the statement's order. -/
theorem witness_StepRunsFrontCommand : ({ aisle with pending := [.statusRead, .branchArbiter .l] } : State).pending = .statusRead :: [.branchArbiter .l] := rfl

theorem witness_IdleStepsMakeClockAdvance :
    (aisle.pending = [] ∧ aisle.residue < 16000 ∧ 0 < 16000 - aisle.residue)
      ∧ ({ aisle with residue := 15999 } : State).residue < 16000 := by decide

theorem witness_ResetsRestoreEverything :
    let half : LineLevels := { silent with activeB := true }
    ({ aisle with pendingReset := .noticed } : State).pendingReset = .noticed
      ∧ linesSound { activeA := true, activeB := true, heldL := false, heldR := false } = true
      ∧ (linesSound silent = false ∧ linesSound half = false)
      ∧ ((after (.powerOn 30#5 silent) aisle).station ≠ 0 ∧ (after (.powerOn 30#5 silent) aisle).upPorts = [])
      ∧ ((after (.resetPin 1#5 half) aisle).station ≠ 0 ∧ (after (.resetPin 1#5 half) aisle).upPorts = [.b])
      ∧ (after (.powerOn 31#5 half) aisle).station = 0 := by decide +kernel

theorem witness_AisleResetAnswersThenResets :
    let r := req .aisleReset []
    let s := asked .aisleReset [] { aisle with freeCells := 1 }
    let full := asked .aisleReset [] { aisle with freeCells := 0 }
    (Carried .aisleReset r s ∧ r.broadcast = false ∧ RelayTakes 4 s)
      ∧ (Carried .aisleReset r full ∧ full.station ≠ 0 ∧ ¬ RelayTakes 4 full)
      ∧ (let b := { r with broadcast := true }
         Carried .aisleReset b { aisle with admitted := [b] } ∧ b.broadcast = true) := by
  unfold Carried RelayTakes; decide +kernel

/-- A frame without payload. -/
def bare (dest origin hop : Nat) : Frame :=
  { dest := dest, origin := origin, kind := 0x44, express := false, spare := false, hop := hop, seq := 9, payload := [] }

/-- A port's line is DOWN. -/
def downB (s : State) : State := { s with portB := { s.portB with up := false } }

theorem witness_UnsoundArrivalDropped :
    let rx := fun bytes : List Byte => ({ bytes := bytes.take 256, received := bytes.length } : RxBuffer)
    ((downB aisle).port .b).up = false ∧ (aisle.port .a).up = true
      ∧ (rx (List.replicate 8 0)).lengthFault = true ∧ (rx (List.replicate 257 0)).lengthFault = true
      ∧ ((rx (List.replicate 9 0)).lengthFault = false ∧ (rx (List.replicate 9 0)).checkOk = false)
      ∧ (isAisle (Frame.ofBytes (bare 7 31 1).bytes).origin || isSupervisor (Frame.ofBytes (bare 7 31 1).bytes).origin) = false
      ∧ (let f := Frame.ofBytes (bare 56 48 1).bytes; (isAisle f.dest || isSupervisor f.dest || f.dest == 63) = false)
      ∧ (let x := rx (bare 30 55 0).bytes; let f := Frame.ofBytes x.bytes
         x.lengthFault = false ∧ x.checkOk = true ∧ (isAisle f.origin || isSupervisor f.origin) = true
           ∧ (isAisle f.dest || isSupervisor f.dest || f.dest == 63) = true ∧ f.hop = 0) := by decide +kernel

theorem witness_OwnFrameRemoved :
    let f := bare 48 7 1
    (aisle.port .a).up = true ∧ SoundArrival f.bytes f ∧ f.origin = aisle.station
      ∧ f.seq ∈ ({ aisle with ownSent := [8, 9] } : State).ownSent ∧ f.seq ∉ aisle.ownSent := by
  unfold SoundArrival; decide +kernel

theorem witness_FrameForwarded :
    let f := bare 30 48 2
    let s := { aisle with freeCells := 9 }
    let sending := { s with portB := { s.portB with sending := some 0 } }
    ((s.port .a).up = true ∧ SoundArrival f.bytes f ∧ PassesThrough f s ∧ 2 ≤ f.hop ∧ (s.port (otherPort .a)).up = true
        ∧ cellsFor f.length + 8 ≤ s.freeCells ∧ (s.port (otherPort .a)).references = [])
      ∧ PassesThrough (bare 7 48 2) { s with station := 0 }
      ∧ ((sending.port .a).up = true ∧ PassesThrough f sending ∧ (sending.port (otherPort .a)).up = true
        ∧ cellsFor f.length + 8 ≤ sending.freeCells ∧ (sending.port (otherPort .a)).sending ≠ none) := by
  unfold SoundArrival PassesThrough; decide +kernel

theorem witness_ForwardingRefused :
    let f := bare 30 48 1
    let g := bare 30 48 2
    let s := { aisle with freeCells := 8 }
    ((s.port .a).up = true ∧ SoundArrival f.bytes f ∧ PassesThrough f s ∧ f.hop = 1)
      ∧ (((downB s).port .a).up = true ∧ SoundArrival g.bytes g ∧ PassesThrough g (downB s) ∧ g.hop ≠ 1
        ∧ ((downB s).port (otherPort .a)).up = false)
      ∧ (PassesThrough g s ∧ (s.port (otherPort .a)).up = true ∧ s.freeCells < cellsFor g.length + 8) := by
  unfold SoundArrival PassesThrough; decide +kernel

theorem witness_RequestAdmitted :
    let f := taskPostFrame 1
    let lost := { aisle with orphaned := true }
    ((aisle.port .a).up = true ∧ SoundArrival f.bytes f ∧ aisle.station ≠ 0 ∧ f.origin ≠ aisle.station ∧ f.dest = aisle.station
        ∧ (f.origin, f.seq) ∉ aisle.recent ∧ aisle.pendingReset = .none ∧ f.kind = ReqKind.taskPost.code ∧ isSupervisor f.origin = true
        ∧ ReqKind.taskPost.form.admits f.payload.length = true ∧ aisle.orphaned = false)
      ∧ ((lost.port .a).up = true ∧ (f.origin, f.seq) ∉ lost.recent ∧ lost.pendingReset = .none ∧ lost.orphaned = true
        ∧ MapOk lost ∧ (lost.groups.map (·.id)).Nodup) := by
  unfold SoundArrival MapOk; decide +kernel

theorem witness_DeliveryDiscarded :
    let f := taskPostFrame 1
    let again := { aisle with recent := [(48, 700)] }
    let resetting := { aisle with pendingReset := .noticed }
    let short := { f with payload := [] }
    let reply := { f with origin := 30 }
    ((again.port .a).up = true ∧ SoundArrival f.bytes f ∧ again.station ≠ 0 ∧ f.origin ≠ again.station ∧ f.dest = again.station
        ∧ (f.origin, f.seq) ∈ again.recent)
      ∧ ((f.origin, f.seq) ∉ resetting.recent ∧ resetting.pendingReset ≠ .none)
      ∧ (SoundArrival short.bytes short ∧ (short.origin, short.seq) ∉ aisle.recent ∧ short.kind = ReqKind.taskPost.code
        ∧ ReqKind.taskPost.form.admits short.payload.length = false)
      ∧ (SoundArrival reply.bytes reply ∧ reply.origin ≠ aisle.station ∧ (reply.origin, reply.seq) ∉ aisle.recent
        ∧ isSupervisor reply.origin = false) := by
  unfold SoundArrival; decide +kernel

theorem witness_DeliveryDiscarded_no_kind :
    let f := { taskPostFrame 1 with payload := [] }
    ∀ k : ReqKind, f.kind = k.code → k.form.admits f.payload.length = false := by
  intro f k; cases k <;> decide

theorem witness_BroadcastDeliveredAndForwarded :
    let f := { taskPostFrame 2 with dest := 63 }
    let s := { aisle with freeCells := 9 }
    let again := { s with recent := [(48, 700)] }
    let lost := { s with orphaned := true }
    let short := { f with payload := [] }
    ((s.port .a).up = true ∧ SoundArrival f.bytes f ∧ s.station ≠ 0 ∧ s.station ≠ 63 ∧ f.origin ≠ s.station ∧ f.dest = 63)
      ∧ (f.origin, f.seq) ∈ again.recent
      ∧ ((f.origin, f.seq) ∉ s.recent ∧ s.pendingReset = .none ∧ f.kind = ReqKind.taskPost.code ∧ isSupervisor f.origin = true
        ∧ ReqKind.taskPost.form.admits f.payload.length = true)
      ∧ (SoundArrival short.bytes short ∧ short.kind = ReqKind.taskPost.code ∧ ReqKind.taskPost.form.admits short.payload.length = false)
      ∧ (let last := { f with hop := 1 }; SoundArrival last.bytes last ∧ last.hop = 1)
      ∧ (f.hop ≠ 1 ∧ ((downB s).port (otherPort .a)).up = false ∧ (s.port (otherPort .a)).up = true ∧ ¬ s.freeCells < cellsFor f.length + 8)
      ∧ ({ s with freeCells := 8 } : State).freeCells < cellsFor f.length + 8
      ∧ (lost.orphaned = true ∧ (after (.frameArrival .a f.bytes) lost).orphaned = false ∧ MapOk lost ∧ (lost.groups.map (·.id)).Nodup)
      ∧ (after (.frameArrival .a f.bytes) { lost with recent := [(48, 700)] }).orphaned = true := by
  unfold SoundArrival MapOk; decide +kernel

/-- The store holds one frame of 2 cells, with `refs` references, that port A sends. -/
def sending (refs : Nat) : State :=
  { aisle with
    frames := [{ ref := 4, frame := { taskPostFrame 9 with payload := List.replicate 91 0 }, refs := refs, requester := some .requestHandler }]
    nextRef := 5, freeCells := 94, portA := { aisle.portA with sending := some 4 }, pendingReset := .awaiting (some 4) }

theorem witness_LineDownAndUp :
    let both := { sending 2 with portB := { aisle.portB with sending := some 4 } }
    (StoreOk (sending 1) ∧ ((sending 1).port .a).references.Nodup ∧ ((sending 1).port .a).up = true
        ∧ (sending 1).frames.map (fun x => (x.ref, x.refs, x.requester)) = [(4, 1, some .requestHandler)]
        ∧ 4 ∈ ((sending 1).port .a).references ∧ (sending 1).pendingReset = .awaiting (some 4))
      ∧ (StoreOk both ∧ (both.port .a).references.Nodup ∧ (both.port .a).up = true ∧ 4 ∈ (both.port .a).references
        ∧ both.frames.map (·.refs) = [2] ∧ (both.port (otherPort .a)).sending ≠ none)
      ∧ (StoreOk (sending 1) ∧ ((sending 1).port .b).up = true ∧ 4 ∉ ((sending 1).port .b).references)
      ∧ ({ sending 1 with mask := 0 } : State).mask.getLsbD (linkFlag .a).position = false
      ∧ (StoreOk (downB (sending 1)) ∧ ((downB (sending 1)).port .b).references.Nodup ∧ ((downB (sending 1)).port .b).up = false) := by
  unfold StoreOk; decide +kernel

theorem witness_TransmissionEndReleases :
    (StoreOk (sending 1) ∧ ((sending 1).port .a).sending = some 4 ∧ (sending 1).frames.map (fun x => (x.ref, x.refs)) = [(4, 1)]
        ∧ ((sending 1).port .a).up = true ∧ (sending 1).pendingReset = .awaiting (some 4))
      ∧ (StoreOk (sending 2) ∧ ((sending 2).port .a).sending = some 4 ∧ (sending 2).frames.map (fun x => (x.ref, x.refs)) = [(4, 2)]) := by
  unfold StoreOk; decide +kernel

/-- Records wait, the oldest for a given number of milliseconds. -/
def waiting (n ms : Nat) : State :=
  { aisle with
    fifo := List.replicate n { record := .linger 1 1 1 0, entered := 1000000000 - ms * 16000 }
    combine := if n = 0 then none else some { since := 1000000000 - ms * 16000, expired := false } }

theorem witness_ReportFrameSent :
    let due := { waiting 8 1 with roomNotices := 1, freeCells := 2 }
    let late := { waiting 1 50 with freeCells := 1 }
    let full := { waiting 1 50 with roomNotices := 1, freeCells := 0 }
    let early := { waiting 7 49 with roomNotices := 1 }
    (8 ≤ due.fifo.length ∧ due.roomNotices ≠ 0
        ∧ RelayTakes (BitVec.ofNat 8 8 :: ((due.fifo.take 8).map (·.record)).flatMap Record.bytes).length due)
      ∧ (late.combine = some { since := 1000000000 - 50 * 16000, expired := false }
        ∧ 1000000000 - 50 * 16000 + late.params.combine * 16000 ≤ late.now ∧ RelayTakes (1 + 13) late)
      ∧ (full.roomNotices ≠ 0 ∧ full.station ≠ 0 ∧ ¬ RelayTakes (1 + 13) full)
      ∧ (early.roomNotices ≠ 0 ∧ early.fifo.length < 8 ∧ early.now < 1000000000 - 49 * 16000 + early.params.combine * 16000
        ∧ ∀ x ∈ early.fifo, x.record.isAttention = false)
      ∧ (let held := { waiting 1 49 with roomNotices := 1, combine := some { since := 1000000000 - 49 * 16000, expired := true } }
         held.fifo ≠ [] ∧ held.combineExpired = true ∧ held.roomNotices ≠ 0 ∧ RelayTakes (1 + 13) held)
      ∧ (let repeater := { due with station := 0 }; 8 ≤ repeater.fifo.length ∧ repeater.roomNotices ≠ 0 ∧ repeater.station = 0) := by
  unfold RelayTakes; decide +kernel

/-- Neither trunk port is UP. -/
def cutOff (s : State) : State := { s with portA := { s.portA with up := false }, portB := { s.portB with up := false } }

/-- Counter 0 counts UNMAPPED_KEY and is about to wrap. -/
def wrapping (s : State) : State :=
  { s with counters := { s.counters with c0 := { count := 0xFFFFFF, selection := some .unmappedKey, mask := 0 } } }

theorem witness_EventEndOffersRecords :
    let s := wrapping aisle
    let u := signal .unmappedKey none (cutOff s)
    let full := signal .unmappedKey none (cutOff (wrapping (waiting 32 1)))
    let k : KeyEvent := { pos := lpos 8 1, key := .confirm, tag := 0 }
    let pressed := cutOff { s with branchL := { s.branchL with keys := [k] } }
    ((s.counters.get .c0).counts .unmappedKey none = true ∧ (s.counters.get .c0).count = 0xFFFFFF#24
        ∧ (s.counters.get .c1).counts .unmappedKey none = false)
      ∧ (u.station ≠ 0 ∧ u.portA.up = false ∧ u.portB.up = false ∧ u.notes.wraps = [.c0] ∧ u.notes.noted &&& u.mask ≠ 0
        ∧ u.fifo.length + 2 ≤ 32)
      ∧ (full.fifo.length = 32 ∧ full.notes.wraps = [.c0] ∧ full.station ≠ 0 ∧ full.portA.up = false ∧ full.portB.up = false)
      ∧ ((pressed.branch .l).keys = [k] ∧ k.key = .confirm ∧ pressed.entryAt k.pos = none ∧ pressed.station ≠ 0
        ∧ pressed.portA.up = false ∧ pressed.portB.up = false ∧ pressed.fifo.length + 1 < 32) := by decide +kernel

/-- The unmapped press of the witness: the counter's record and then the ATTENTION record with its flag, bit 9. -/
theorem test_counter_wrap_records :
    let k : KeyEvent := { pos := lpos 8 1, key := .confirm, tag := 0 }
    let s := cutOff (wrapping { aisle with branchL := { aisle.branchL with keys := [k] } })
    (after (.confirmKey .l) s).fifo.map (·.record) = [.counterWrap .c0 5209000, .attention 0x000200#21 5209000] := by decide +kernel

/-! ## Witnesses: requests -/

theorem witness_RequestsRefusedOrDiscarded :
    let r := req .rightsSet [5]
    let long := req .rightsSet [4, 48]
    let s := asked .rightsSet [5] aisle
    let readOnly := { s with rights := [{ station := 48, rights := 8 }] }
    (s.admitted.head? = some r ∧ r.kind = .rightsSet ∧ s.pendingReset = .none ∧ s.holds r.origin ReqKind.rightsSet.right = true
        ∧ ReqKind.rightsSet.form = .items 2 0 4 ∧ 4 < r.field 0 1 ∧ s.rights = [])
      ∧ (0 ≤ long.field 0 1 ∧ long.field 0 1 ≤ 4 ∧ long.payload.length ≠ 1 + 2 * long.field 0 1)
      ∧ (readOnly.admitted.head? = some r ∧ readOnly.pendingReset = .none ∧ readOnly.holds r.origin ReqKind.rightsSet.right = false
        ∧ readOnly.rights ≠ [] ∧ RightsOk readOnly)
      ∧ ({ s with pendingReset := .noticed } : State).pendingReset ≠ .none := by
  unfold RightsOk; decide +kernel

theorem witness_RightsSetWholeOrNothing :
    let good := fun e : Nat × Nat => 48 ≤ e.1 ∧ e.1 ≤ 55 ∧ e.2 < 16
    let p : List Byte := [2, 48, 15, 55, 0]
    let bad : List Byte := [2, 48, 15, 56, 0]
    let twice : List Byte := [2, 48, 15, 48, 1]
    (Carried .rightsSet (req .rightsSet p) (asked .rightsSet p aisle) ∧ (∀ e ∈ (req .rightsSet p).rightsItems, good e)
        ∧ ((req .rightsSet p).rightsItems.map (·.1)).Nodup)
      ∧ (Carried .rightsSet (req .rightsSet bad) (asked .rightsSet bad aisle) ∧ (req .rightsSet bad).rightsItems[1]? = some (56, 0)
        ∧ (∀ d ∈ (req .rightsSet bad).rightsItems.take 1, good d) ∧ ¬ good (56, 0))
      ∧ (Carried .rightsSet (req .rightsSet twice) (asked .rightsSet twice aisle) ∧ (req .rightsSet twice).rightsItems[1]? = some (48, 1)
        ∧ (∀ d ∈ (req .rightsSet twice).rightsItems.take 1, good d) ∧ good (48, 1)
        ∧ 48 ∈ ((req .rightsSet twice).rightsItems.take 1).map (·.1)) := by
  unfold Carried; decide +kernel

theorem witness_ConfigSetClampsAndApplies :
    let all : List Byte := [0x01, 0xFF, 0, 9, 255, 1, 0xFF, 0xFF, 61, 0, 55, 8]
    let adaptive : List Byte := [0x00, 0x08, 0, 0, 0, 2, 0, 0, 0, 0, 0, 0]
    let target : List Byte := [0x00, 0x80, 0, 0, 0, 0, 0, 0, 0, 0, 47, 0]
    let silence : List Byte := [0x00, 0x20, 0, 0, 0, 0, 0, 0, 1, 0, 0, 0]
    let few : List Byte := [0x00, 0x83, 17, 0, 0, 0, 0, 0, 0, 0, 48, 0]
    (Carried .configSet (req .configSet all) (asked .configSet all aisle) ∧ (∀ k < 9, (req .configSet all).names k = true)
        ∧ (req .configSet all).field 5 1 < 2 ∧ 48 ≤ (req .configSet all).field 10 1 ∧ (req .configSet all).field 10 1 ≤ 55)
      ∧ (Carried .configSet (req .configSet adaptive) (asked .configSet adaptive aisle) ∧ (req .configSet adaptive).names 3 = true
        ∧ 2 ≤ (req .configSet adaptive).field 5 1)
      ∧ (Carried .configSet (req .configSet target) (asked .configSet target aisle) ∧ (req .configSet target).names 3 = false
        ∧ (req .configSet target).names 7 = true ∧ (req .configSet target).field 10 1 < 48)
      ∧ (Carried .configSet (req .configSet few) (asked .configSet few aisle) ∧ (req .configSet few).names 3 = false
        ∧ 48 ≤ (req .configSet few).field 10 1 ∧ (req .configSet few).field 10 1 ≤ 55
        ∧ (let p := (after .configSet (asked .configSet few aisle)).params
           (p.lingerBase, p.adaptive, p.combine, p.silence, p.missLimit) = (30, false, 50, 5, 3)))
      ∧ (let late := asked .configSet silence aisle
         Carried .configSet (req .configSet silence) late ∧ late.orphaned = false ∧ (after .configSet late).orphaned = true) := by
  unfold Carried; decide +kernel

/-- A CONFIG_SET of one parameter by its place, with every value byte given. -/
def setting (names : Nat) (values : List Byte) : List Byte := beBytes 2 names ++ values

/-- Module 7 is SILENT with two misses, and a POLL to it has drawn an invalid reply. -/
def failing : State :=
  { aisle with branchL := { aisle.branchL with
    roster := [{ module7 with presence := .silent, misses := 2, owed := 3 }]
    command := some { firstAttempt (.poll 7) 3 with attempts := 2, invalid := true } } }

/-- A CONFIG_SET of the linger base alone. -/
def lingerSetting (base : Byte) : List Byte := setting 0x0004 [0, 0, base, 0, 0, 0, 0, 0, 0, 0]

/-- The parameters after a CONFIG_SET. -/
def paramsAfter (p : List Byte) (s : State) : Params := (after .configSet (asked .configSet p s)).params

theorem witness_ConfigSetJudgesWhatRuns_linger :
    let from0 := { aisle with params := { aisle.params with lingerBase := 0 }, slots := [{ slot72 with linger := none }] }
    (Carried .configSet (req .configSet (lingerSetting 60)) (asked .configSet (lingerSetting 60) aisle)
        ∧ (∀ k ∈ [3, 4, 5, 7, 8], (req .configSet (lingerSetting 60)).names k = false) ∧ MapOk aisle ∧ (aisle.groups.map (·.id)).Nodup)
      ∧ (aisle.slotAt shelf.pos = some slot72 ∧ slot72.position.bind aisle.groupOf = some g520
        ∧ (paramsAfter (lingerSetting 60) aisle).lingerBase = 60 ∧ slot72.linger = some { since := 0, length := 480000000 }
        ∧ 0 + 60000 * 16000 ≤ aisle.now)
      ∧ ((paramsAfter (lingerSetting 255) aisle).lingerBase = 255 ∧ aisle.now < 0 + 255000 * 16000
        ∧ (paramsAfter (lingerSetting 0) aisle).lingerBase = 0)
      ∧ (from0.params.lingerBase = 0 ∧ from0.slots.map (·.linger) = [none] ∧ (paramsAfter (lingerSetting 1) from0).lingerBase = 1) := by
  unfold Carried MapOk; decide +kernel

theorem witness_ConfigSetJudgesWhatRuns_combine :
    let p := setting 0x0010 [0, 0, 0, 0, 0, 10, 0, 0, 0, 0]
    let r := req .configSet p
    (Carried .configSet r (asked .configSet p (waiting 1 20)) ∧ (∀ k ∈ [2, 3, 5, 6, 7, 8], r.names k = false)
        ∧ (paramsAfter p (waiting 1 20)).combine = 10 ∧ PackerOk (waiting 1 20) ∧ RelayTakes (1 + 13) (waiting 1 20)
        ∧ 17 ≤ (waiting 1 20).freeCells)
      ∧ (let b := { r with broadcast := true }
         let s := { waiting 1 20 with freeCells := 0, admitted := [b] }
         Carried .configSet b s ∧ ¬ RelayTakes (1 + 13) s ∧ b.broadcast = true)
      ∧ (Carried .configSet r (asked .configSet p (waiting 1 9)) ∧ (waiting 1 9).now < 1000000000 - 9 * 16000 + 10 * 16000
        ∧ PackerOk (waiting 1 9) ∧ RelayTakes 14 (waiting 1 9)) := by
  unfold Carried PackerOk RelayTakes; decide +kernel

/-- A frame that the relay refused stays due when a CONFIG_SET raises the combine timeout above its age (R171, log 36). -/
theorem test_refused_frame_stays_due :
    let p := setting 0x0010 [0, 0, 0, 0, 3, 232, 0, 0, 0, 0]
    let t := after .combineExpiry { waiting 1 50 with freeCells := 0 }
    let u := after .configSet (asked .configSet p t)
    t.combine.map (·.expired) = some true ∧ u.params.combine = 1000 ∧ u.combine.map (·.expired) = some true ∧ u.frameDue = true
      ∧ (after .roomNoticeBuild { u with freeCells := 96, roomNotices := 1 }).fifo = [] := by decide +kernel

/-- A LINGER record that the CONFIG_SET itself brings is judged by the new combine timeout and not by the old one of 0 (R34, R171). -/
theorem test_new_record_judged_by_new_timeout :
    let p := setting 0x0014 [0, 0, 60, 0, 3, 232, 0, 0, 0, 0]
    let u := after .configSet (asked .configSet p { aisle with params := { aisle.params with combine := 0 } })
    u.fifo.map (·.record) = [.linger 520 1041 40217011 aisle.clock] ∧ u.frameDue = false
      ∧ u.frames.map (·.requester) = [some .requestHandler] := by decide +kernel

/-- With the combine timeout at 0 the record of a linger expiry leaves at the end of that expiry, before the reply (R171, log 37). -/
theorem test_linger_expiry_in_config_set_judged :
    let u := after .configSet (asked .configSet (lingerSetting 60) { aisle with params := { aisle.params with combine := 0 } })
    u.fifo = [] ∧ u.frames.map (·.requester) = [some .reportPacker, some .requestHandler] := by decide +kernel

theorem witness_ConfigSetJudgesWhatRuns_records :
    aisle.fifo.length ≤ 7 ∧ RelayTakes 193 (after .configSet (asked .configSet (lingerSetting 60) aisle)) := by
  unfold RelayTakes; decide +kernel

theorem witness_ConfigSetJudgesWhatRuns_miss :
    let p := setting 0x0100 [0, 0, 0, 0, 0, 0, 0, 0, 0, 2]
    Carried .configSet (req .configSet p) (asked .configSet p failing) ∧ (∀ k ∈ [2, 3, 4, 5, 7], (req .configSet p).names k = false)
      ∧ (paramsAfter p failing).missLimit = 2 ∧ MapOk failing ∧ (failing.groups.map (·.id)).Nodup
      ∧ Awaits .l { firstAttempt (.poll 7) 3 with attempts := 2, invalid := true } failing
      ∧ failing.branchL.roster.map (fun m => (m.presence, m.misses, m.addr)) = [(.silent, 2, 7)] := by
  unfold Carried MapOk Awaits; decide +kernel

/-- That CONFIG_SET makes module 7 MISSING and ends the POLL to it, whose invalid reply leaves no ack owed. -/
theorem test_miss_limit_lowered :
    let t := after .configSet (asked .configSet (setting 0x0100 [0, 0, 0, 0, 0, 0, 0, 0, 0, 2]) failing)
    t.branchL.roster.map (fun m => (m.presence, m.owed)) = [(.missing, 0)] ∧ t.branchL.command = none
      ∧ t.groups.map (·.state) = [.held] := by decide +kernel

theorem witness_PlainReadsReturnState :
    Carried .configRead (req .configRead []) (asked .configRead [] aisle) ∧ Carried .statusRead (req .statusRead []) (asked .statusRead [] aisle)
      ∧ Carried .counterRead (req .counterRead []) (asked .counterRead [] aisle)
      ∧ Carried .attentionRead (req .attentionRead []) (asked .attentionRead [] aisle) := by
  unfold Carried; decide +kernel

theorem witness_ReadsReturnEntries_by_page :
    let p : List Byte := [0, 0, 0, 0]
    let q : List Byte := [0, 48]
    let bad : List Byte := [2, 1]
    Carried .mapRead (req .mapRead p) (asked .mapRead p aisle)
      ∧ (Carried .rosterRead (req .rosterRead q) (asked .rosterRead q aisle) ∧ (req .rosterRead q).field 0 1 = (branchCode .l).toNat
        ∧ 1 ≤ (req .rosterRead q).field 1 1 ∧ (req .rosterRead q).field 1 1 ≤ 48)
      ∧ (Carried .rosterRead (req .rosterRead bad) (asked .rosterRead bad aisle) ∧ 1 < (req .rosterRead bad).field 0 1)
      ∧ (req .rosterRead [0, 0]).field 1 1 = 0 ∧ 48 < (req .rosterRead [0, 49]).field 1 1 := by
  unfold Carried; decide +kernel

theorem witness_ReadsReturnEntries_by_number :
    let all : List Byte := [0, 0]
    let one : List Byte := [0x04, 0x11]
    let none : List Byte := [0xFF, 0xFF]
    let q : List Byte := [0, 0, 0x1B, 0xBD]
    let noTask : List Byte := [0, 0, 0, 1]
    (Carried .pickerRead (req .pickerRead all) (asked .pickerRead all aisle) ∧ (req .pickerRead all).field 0 2 = 0)
      ∧ (Carried .pickerRead (req .pickerRead one) (asked .pickerRead one aisle) ∧ (req .pickerRead one).field 0 2 ≠ 0
        ∧ aisle.pickerOf ((req .pickerRead one).field 0 2) = some orange)
      ∧ (Carried .pickerRead (req .pickerRead none) (asked .pickerRead none aisle)
        ∧ ∀ p ∈ aisle.pickers, p.id ≠ (req .pickerRead none).field 0 2)
      ∧ (Carried .taskQuery (req .taskQuery q) (asked .taskQuery q aisle)
        ∧ aisle.taskOf ((req .taskQuery q).field 0 4) = some (t520 7101 3) ∧ aisle.groupOf 520 = some g520)
      ∧ (Carried .taskQuery (req .taskQuery noTask) (asked .taskQuery noTask aisle)
        ∧ ∀ x ∈ aisle.tasks, x.number ≠ (req .taskQuery noTask).field 0 4) := by
  unfold Carried; decide +kernel

/-- An entry of a MAP_LOAD. -/
def item (code : Nat) (b a n k : Byte) : List Byte := beBytes 4 code ++ [b, a, n, k]

theorem witness_MapLoadApplied :
    let p := [1] ++ item 4294967295 0 7 4 15
    let e : MapEntry := { code := 4294967295, pos := lpos 7 4, area := 15 }
    let s := asked .mapLoad p aisle
    Carried .mapLoad (req .mapLoad p) s ∧ MapOk s ∧ (req .mapLoad p).loadItems.map LoadItem.entry = [e].map some ∧ AllPass s [e] := by
  refine ⟨by unfold Carried; decide +kernel, by unfold MapOk; decide +kernel, by decide +kernel, ?_⟩
  intro i x hx
  match i, hx with
  | 0, hx =>
    cases hx
    refine ⟨by decide, by decide, fun m hm => ?_, by decide⟩
    cases hm
    decide

/-- Location 40217011 moves to slot 7/4, and the new location 5 takes its old slot. -/
theorem witness_MapLoadApplied_move :
    let idle := { aisle with groups := [], tasks := [] }
    let p := [2] ++ item 40217011 0 7 4 3 ++ item 5 0 7 2 1
    let es : List MapEntry := [{ shelf with pos := lpos 7 4 }, { code := 5, pos := lpos 7 2, area := 1 }]
    let s := asked .mapLoad p idle
    Carried .mapLoad (req .mapLoad p) s ∧ MapOk s ∧ (req .mapLoad p).loadItems.map LoadItem.entry = es.map some ∧ AllPass s es := by
  refine ⟨by unfold Carried; decide +kernel, by unfold MapOk; decide +kernel, by decide +kernel, ?_⟩
  intro i x hx
  match i, hx with
  | 0, hx =>
    cases hx
    refine ⟨by decide, by decide, fun m hm => ?_, by decide⟩
    cases hm
    decide
  | 1, hx =>
    cases hx
    refine ⟨by decide, by decide, fun m hm => ?_, by decide⟩
    cases hm
    decide

/-- What that MAP_LOAD leaves: the two entries in code order, both slots taken up and queued in that order. -/
theorem test_map_load_move :
    let p := [2] ++ item 40217011 0 7 4 3 ++ item 5 0 7 2 1
    let t := after .mapLoad (asked .mapLoad p { aisle with groups := [], tasks := [] })
    t.locMap.map (fun e => (e.code, e.pos.slot)) = [(5, 2), (40217011, 4)] ∧ t.branchL.work = [lpos 7 2, lpos 7 4]
      ∧ t.slots.map (fun x => (x.pos.slot, x.history)) = [(2, []), (4, [])] := by decide +kernel

theorem witness_MapLoadRefusedWhole :
    let zero := [1] ++ item 0 0 7 4 1
    let same := [1] ++ item 40217011 0 7 4 3
    let slot := [1] ++ item 5 0 7 2 3
    let beyond := [1] ++ item 5 0 7 4 3
    let small := { aisle with branchL := { aisle.branchL with roster := [{ module7 with slots := 3 }] } }
    (Carried .mapLoad (req .mapLoad zero) (asked .mapLoad zero aisle) ∧ MapOk aisle ∧ (req .mapLoad zero).loadItems.map (·.code) = [0]
        ∧ ((req .mapLoad zero).loadItems.take 0).map LoadItem.entry = ([] : List MapEntry).map some)
      ∧ (Carried .mapLoad (req .mapLoad same) (asked .mapLoad same aisle) ∧ 40217011 ∈ aisle.locMap.map (·.code)
        ∧ ∃ g ∈ aisle.groups, g.loc = 40217011)
      ∧ (Carried .mapLoad (req .mapLoad slot) (asked .mapLoad slot aisle) ∧ 5 ∉ aisle.locMap.map (·.code)
        ∧ ∃ x ∈ aisle.locMap, x.pos = lpos 7 2 ∧ x.code ≠ 5)
      ∧ (Carried .mapLoad (req .mapLoad beyond) (asked .mapLoad beyond small) ∧ (∀ x ∈ small.locMap, x.pos ≠ lpos 7 4)
        ∧ (small.branch .l).moduleAt 7 = some { module7 with slots := 3 } ∧ (3 : Nat) < 4) := by
  unfold Carried MapOk; decide +kernel

theorem witness_AllPass_nil : AllPass aisle [] := by
  intro i e h; cases h

/-- The second entry names the slot that the first has just taken. -/
theorem witness_MapLoadRefusedWhole_second :
    let p := [2] ++ item 6 0 7 4 3 ++ item 5 0 7 4 3
    let first : MapEntry := { code := 6, pos := lpos 7 4, area := 3 }
    let s := asked .mapLoad p aisle
    Carried .mapLoad (req .mapLoad p) s ∧ MapOk s ∧ ((req .mapLoad p).loadItems.take 1).map LoadItem.entry = [first].map some
      ∧ (req .mapLoad p).loadItems[1]?.bind LoadItem.entry = some { code := 5, pos := lpos 7 4, area := 3 }
      ∧ (∃ x ∈ [first].foldl mapWith s.locMap, x.pos = lpos 7 4 ∧ x.code ≠ 5) ∧ AllPass s [first] := by
  refine ⟨by unfold Carried; decide +kernel, by unfold MapOk; decide +kernel, by decide +kernel, by decide +kernel, by decide +kernel, ?_⟩
  intro i x hx
  match i, hx with
  | 0, hx =>
    cases hx
    refine ⟨by decide, by decide, fun m hm => ?_, by decide⟩
    cases hm
    decide

theorem witness_MapRemoveWholeOrNothing :
    let idle := { aisle with groups := [], tasks := [] }
    let p := [1] ++ beBytes 4 40217011
    let twice := [2] ++ beBytes 4 40217011 ++ beBytes 4 40217011
    (Lit shelf.pos idle = true ∧ Carried .mapRemove (req .mapRemove p) (asked .mapRemove p idle) ∧ MapOk idle ∧ (req .mapRemove p).numberItems.Nodup
        ∧ ∀ c ∈ (req .mapRemove p).numberItems, (idle.entryOf c).isSome = true ∧ ∀ g ∈ idle.groups, g.loc ≠ c)
      ∧ (Carried .mapRemove (req .mapRemove twice) (asked .mapRemove twice idle)
        ∧ (req .mapRemove twice).numberItems[1]? = some 40217011 ∧ 40217011 ∈ (req .mapRemove twice).numberItems.take 1)
      ∧ (Carried .mapRemove (req .mapRemove p) (asked .mapRemove p aisle) ∧ MapOk aisle ∧ (req .mapRemove p).numberItems[0]? = some 40217011
        ∧ (aisle.entryOf 40217011).isSome = true ∧ ∃ g ∈ aisle.groups, g.loc = 40217011) := by
  unfold Carried MapOk; decide +kernel

/-- Picker ORANGE is paused, and the group is HELD. -/
def paused : State :=
  { aisle with pickers := [{ orange with state := .paused }], groups := [{ g520 with state := .held }] }

theorem witness_AreasAndPickersSwitch :
    let p : List Byte := [0x80, 0x09]
    let locked := { aisle with locked := 0x0009 }
    (Carried .areaLock (req .areaLock p) (asked .areaLock p aisle) ∧ (∃ g ∈ aisle.groups, g.loc = shelf.code)
        ∧ (req .areaLock p).areaSet.getLsbD shelf.area = true ∧ aisle.locked.getLsbD shelf.area = false)
      ∧ (Carried .areaUnlock (req .areaUnlock p) (asked .areaUnlock p locked) ∧ (req .areaUnlock p).areaSet.getLsbD shelf.area = true
        ∧ locked.locked.getLsbD shelf.area = true)
      ∧ ((req .areaLock [0, 9]).areaSet &&& ~~~locked.locked = 0 ∧ (req .areaUnlock p).areaSet &&& aisle.locked = 0)
      ∧ (MapOk aisle ∧ (aisle.groups.map (·.id)).Nodup) := by
  unfold Carried MapOk; decide +kernel

theorem witness_AreasAndPickersSwitch_pickers :
    let id : List Byte := [0x04, 0x11]
    (Carried .pickerPause (req .pickerPause id) (asked .pickerPause id aisle) ∧ aisle.pickerOf ((req .pickerPause id).field 0 2) = some orange
        ∧ orange.state ≠ .paused ∧ orange.state = .active ∧ ∃ g ∈ aisle.groups, g.loc = shelf.code ∧ g.picker = orange.id)
      ∧ (Carried .pickerResume (req .pickerResume id) (asked .pickerResume id paused)
        ∧ paused.pickerOf ((req .pickerResume id).field 0 2) = some { orange with state := .paused } ∧ MapOk paused
        ∧ (paused.groups.map (·.id)).Nodup ∧ ∃ g ∈ paused.groups, g.loc = shelf.code ∧ g.picker = orange.id)
      ∧ (Carried .pickerResume (req .pickerResume [0, 1]) (asked .pickerResume [0, 1] aisle)
        ∧ ∀ x ∈ aisle.pickers, x.id ≠ (req .pickerResume [0, 1]).field 0 2) := by
  unfold Carried MapOk; decide +kernel

/-- The resume of the paused picker shows its group again. -/
theorem test_resume_shows_group :
    let t := after .pickerResume (asked .pickerResume [0x04, 0x11] paused)
    t.pickers.map (·.state) = [.active] ∧ t.groups.map (·.state) = [.shown] := by decide +kernel

theorem witness_PickerSetRegistersAndUpdates :
    let new : List Byte := [0xFF, 0xFF, 1, 3]
    let old : List Byte := [0x04, 0x11, 8, 0]
    let tint : List Byte := [0x04, 0x11, 8, 2]
    (Carried .pickerSet (req .pickerSet new) (asked .pickerSet new aisle) ∧ (req .pickerSet new).field 0 2 ≠ 0
        ∧ Colour.ofCode ((req .pickerSet new).field 2 1) = some .red ∧ (req .pickerSet new).field 3 1 ≤ 3
        ∧ (∀ p ∈ aisle.pickers, p.id ≠ (req .pickerSet new).field 0 2 → p.colour ≠ .red)
        ∧ (∀ p ∈ aisle.pickers, p.id ≠ (req .pickerSet new).field 0 2) ∧ ∀ p ∈ aisle.pickers, p.index ≠ 0)
      ∧ (Carried .pickerSet (req .pickerSet old) (asked .pickerSet old aisle)
        ∧ Colour.ofCode ((req .pickerSet old).field 2 1) = some .violet
        ∧ (∀ p ∈ aisle.pickers, p.id ≠ (req .pickerSet old).field 0 2 → p.colour ≠ .violet)
        ∧ aisle.pickerOf ((req .pickerSet old).field 0 2) = some orange ∧ orange.priority ≠ 0 ∧ MapOk aisle ∧ (aisle.groups.map (·.id)).Nodup)
      ∧ (Carried .pickerSet (req .pickerSet tint) (asked .pickerSet tint aisle) ∧ orange.priority = (req .pickerSet tint).field 3 1
        ∧ Colour.ofCode ((req .pickerSet tint).field 2 1) = some .violet ∧ orange.colour ≠ .violet
        ∧ ∃ g ∈ aisle.groups, g.loc = shelf.code ∧ g.picker = orange.id ∧ g.state = .shown) := by
  unfold Carried MapOk; decide +kernel

/-- Eight pickers fill the table. -/
def crowd : State :=
  { aisle with
    pickers := ([Colour.red, .green, .blue, .yellow, .cyan, .magenta, .orange, .violet].zipIdx).map fun c =>
      { index := c.2, id := 2000 + c.2, colour := c.1, priority := 0, state := .active, openTasks := 0, pace := none } }

theorem witness_PickerSetRegistersAndUpdates_refused :
    let f := fun (p : List Byte) (s : State) => Carried .pickerSet (req .pickerSet p) (asked .pickerSet p s)
    (f [0, 0, 1, 0] aisle ∧ (req .pickerSet [0, 0, 1, 0]).field 0 2 = 0)
      ∧ (f [0, 1, 0, 0] aisle ∧ Colour.ofCode ((req .pickerSet [0, 1, 0, 0]).field 2 1) = some .white)
      ∧ (f [0, 1, 9, 0] aisle ∧ Colour.ofCode ((req .pickerSet [0, 1, 9, 0]).field 2 1) = none)
      ∧ (f [0, 1, 1, 4] aisle ∧ 3 < (req .pickerSet [0, 1, 1, 4]).field 3 1)
      ∧ (f [0, 1, 1, 3] crowd ∧ (∀ p ∈ crowd.pickers, p.id ≠ 1) ∧ ∀ i < 8, ∃ p ∈ crowd.pickers, p.index = i)
      ∧ (f [0, 1, 7, 3] aisle ∧ (∀ p ∈ aisle.pickers, p.index ≠ 0)
        ∧ ∃ p ∈ aisle.pickers, p.id ≠ 1 ∧ Colour.ofCode 7 = some p.colour) := by
  unfold Carried; decide +kernel

theorem witness_PickerLeaveWithdraws :
    let p : List Byte := [0x04, 0x11]
    Carried .pickerLeave (req .pickerLeave p) (asked .pickerLeave p aisle) ∧ LiveFlagsOk aisle ∧ (aisle.groups.map (·.id)).Nodup
      ∧ aisle.pickerOf ((req .pickerLeave p).field 0 2) = some orange ∧ MapOk aisle
      ∧ (Carried .pickerLeave (req .pickerLeave [0, 1]) (asked .pickerLeave [0, 1] aisle)
        ∧ ∀ x ∈ aisle.pickers, x.id ≠ (req .pickerLeave [0, 1]).field 0 2) := by
  unfold Carried LiveFlagsOk MapOk; decide +kernel

/-- The task table is full. -/
def fullTable : State := { aisle with tasks := (List.range 256).map fun n => t520 (n + 1) 1 }

theorem witness_TaskPostedOrRefused :
    let x : TaskItem := { number := 4294967295, picker := 1041, loc := 40217011, quantity := 9999 }
    let fits := fun x : TaskItem => x.number ≠ 0 ∧ 1 ≤ x.quantity ∧ x.quantity ≤ 9999
    let fresh := fun (x : TaskItem) (s : State) => ∀ y ∈ s.tasks, y.number ≠ x.number
    let known := fun (x : TaskItem) (s : State) => ∃ p ∈ s.pickers, p.id = x.picker
    let mapped := fun (x : TaskItem) (s : State) => ∃ e ∈ s.locMap, e.code = x.loc
    (¬ fits { x with quantity := 0 } ∧ ¬ fits { x with quantity := 10000 } ∧ ¬ fits { x with number := 0 })
      ∧ (fits { x with number := 7101 } ∧ ¬ fresh { x with number := 7101 } aisle)
      ∧ (fits x ∧ fresh x aisle ∧ ¬ known { x with picker := 1 } aisle)
      ∧ (known x aisle ∧ ¬ mapped { x with loc := 1 } aisle)
      ∧ (fits x ∧ fresh x fullTable ∧ known x fullTable ∧ mapped x fullTable ∧ 256 ≤ fullTable.tasks.length)
      ∧ (mapped x aisle ∧ aisle.tasks.length < 256 ∧ aisle.pickerOf x.picker = some orange
        ∧ (∀ g ∈ aisle.groups, g.loc = x.loc → aisle.priorityOf g.picker ≤ 3 → g.takes x = false) ∧ aisle.groups.length ≤ 256
        ∧ 1 ≤ aisle.nextGroup ∧ aisle.nextGroup ≤ 65535)
      ∧ (let w := { aisle with groups := [{ g520 with state := .waiting }] }
         ((w.queueOf x.loc).filter (fun g => g.takes { x with quantity := 9989 })).getLast? = some { g520 with state := .waiting }) := by
  decide +kernel

theorem witness_TaskRequestsTakeItemsInOrder :
    let p := [1] ++ beBytes 4 9000 ++ beBytes 2 1041 ++ beBytes 4 40217011 ++ beBytes 2 3
    let c := [2] ++ beBytes 4 7101 ++ beBytes 4 7101
    (Carried .taskPost (req .taskPost p) (asked .taskPost p aisle) ∧ (req .taskPost p).taskItems.length = 1
        ∧ (req .taskPost p).broadcast = false ∧ RelayTakes (5 + 4 * 1) (asked .taskPost p aisle))
      ∧ (Carried .taskCancel (req .taskCancel c) (asked .taskCancel c aisle) ∧ (req .taskCancel c).numberItems.length = 2
        ∧ RelayTakes (5 + 4 * 2) (asked .taskCancel c aisle))
      ∧ (MapOk aisle ∧ (aisle.groups.map (·.id)).Nodup
        ∧ (((req .taskPost p).taskItems.foldl (fun u x => (postTask x u).2) (taken (asked .taskPost p aisle))).groups.map (·.id)).Nodup) := by
  unfold Carried RelayTakes MapOk; decide +kernel

theorem witness_TaskCancelled :
    (∀ x ∈ aisle.tasks, x.number ≠ 1)
      ∧ (aisle.taskOf 7101 = some (t520 7101 3) ∧ aisle.groupOf (t520 7101 3).group = some g520
        ∧ g520.members.filter (· ≠ 7101) ≠ [] ∧ aisle.pickerOf (t520 7101 3).picker = some orange)
      ∧ (let s := { aisle with groups := [{ g520 with members := [7101] }] }
         s.taskOf 7101 = some (t520 7101 3) ∧ s.groupOf 520 = some { g520 with members := [7101] }
           ∧ ([7101] : List Nat).filter (· ≠ 7101) = [] ∧ s.entryOf g520.loc = some shelf ∧ s.slotAt shelf.pos = some slot72) := by
  decide +kernel

theorem witness_TaskAmended :
    let p := fun q : Nat => beBytes 4 7101 ++ beBytes 2 q
    let r := fun q : Nat => req .taskAmend (p q)
    (Carried .taskAmend (r 3) (asked .taskAmend (p 3) aisle) ∧ aisle.taskOf ((r 3).field 0 4) = some (t520 7101 3)
        ∧ aisle.groupOf (t520 7101 3).group = some g520 ∧ (t520 7101 3).quantity ≤ g520.remaining
        ∧ 1 ≤ (r 3).field 4 2 ∧ (r 3).field 4 2 ≤ 9999 ∧ g520.remaining - 3 + (r 3).field 4 2 ≤ 9999)
      ∧ ((r 9992).field 4 2 ≤ 9999 ∧ g520.remaining - 3 + (r 9992).field 4 2 ≤ 9999)
      ∧ (9999 < g520.remaining - 3 + (r 9993).field 4 2 ∧ (r 0).field 4 2 < 1 ∧ 9999 < (r 10000).field 4 2)
      ∧ (let none := req .taskAmend (beBytes 4 1 ++ beBytes 2 3)
         Carried .taskAmend none { aisle with admitted := [none] } ∧ ∀ x ∈ aisle.tasks, x.number ≠ none.field 0 4)
      ∧ (MapOk aisle ∧ (aisle.groups.map (·.id)).Nodup) := by
  unfold Carried MapOk; decide +kernel

theorem witness_SettingsTakeTheirValues :
    let time : List Byte := [0xFF, 0xFF, 0xFF, 0xFF]
    let counter : List Byte := [3, 17, 0xFF, 0xFF, 0xFF, 0xFF]
    let noCounter : List Byte := [4, 0, 0, 0, 0, 0]
    let flags : List Byte := [0, 0x1F, 0xFF, 0xFF]
    Carried .timeSet (req .timeSet time) (asked .timeSet time aisle)
      ∧ (Carried .counterSet (req .counterSet counter) (asked .counterSet counter aisle)
        ∧ (req .counterSet counter).field 0 1 = CounterNo.c3.index
        ∧ (req .counterSet counter).field 1 1 = (selectionCode (some .requestDiscarded)).toNat)
      ∧ (Carried .counterSet (req .counterSet noCounter) (asked .counterSet noCounter aisle) ∧ 3 < (req .counterSet noCounter).field 0 1)
      ∧ 17 < (req .counterSet [0, 18, 0, 0, 0, 0]).field 1 1
      ∧ Carried .attentionMask (req .attentionMask flags) (asked .attentionMask flags aisle)
      ∧ Carried .attentionClear (req .attentionClear flags) (asked .attentionClear flags aisle) := by
  unfold Carried; decide +kernel

theorem witness_BranchRequestsTaken_scan :
    (Carried .branchScan (req .branchScan [0]) (asked .branchScan [0] aisle) ∧ (req .branchScan [0]).field 0 1 = (branchCode .l).toNat
        ∧ aisle.scanning .l = false)
      ∧ (Carried .branchScan (req .branchScan [1]) (asked .branchScan [1] aisle) ∧ (req .branchScan [1]).field 0 1 = (branchCode .r).toNat
        ∧ aisle.scanning .r = true)
      ∧ (Carried .branchScan (req .branchScan [2]) (asked .branchScan [2] aisle) ∧ 1 < (req .branchScan [2]).field 0 1) := by
  unfold Carried; decide +kernel

/-- A LAMP_DIRECT waits on branch L. -/
def directed (pos : SlotPos) (s : State) : State :=
  { s with branchL := { s.branchL with
    direct := some { pos := pos, display := { colour := .red, pattern := .flash, digits := .dashes }, request := req .lampDirect [] } } }

theorem witness_BranchRequestsTaken_direct :
    let p : List Byte := [0, 48, 4, 8, 4, 0xFF, 0xF4]
    let here : List Byte := [0, 7, 2, 0, 0, 0, 0]
    let bad : List Byte := [0, 48, 4, 8, 4, 0x27, 0x10]
    let r := req .lampDirect p
    let faulty := { aisle with branchL := { aisle.branchL with fault := true } }
    (Carried .lampDirect (req .lampDirect bad) (asked .lampDirect bad aisle) ∧ Digits.ofCode ((req .lampDirect bad).field 5 2) = none)
      ∧ (Carried .lampDirect r (asked .lampDirect p aisle) ∧ branchOfCode (r.field 0 1) = some .l ∧ 1 ≤ r.field 1 1 ∧ r.field 1 1 ≤ 48
        ∧ 1 ≤ r.field 2 1 ∧ r.field 2 1 ≤ 4 ∧ Colour.ofCode (r.field 3 1) = some .violet ∧ Pattern.ofCode (r.field 4 1) = some .pulse
        ∧ Digits.ofCode (r.field 5 2) = some .err ∧ (aisle.branch .l).moduleAt 48 = none ∧ aisle.entryAt (lpos 48 4) = none
        ∧ (aisle.branch .l).direct = none ∧ (aisle.branch .l).fault = false)
      ∧ (Carried .lampDirect r (asked .lampDirect p faulty) ∧ (faulty.branch .l).direct = none ∧ (faulty.branch .l).fault = true)
      ∧ (Carried .lampDirect r (asked .lampDirect p (directed (lpos 1 1) aisle)) ∧ ((directed (lpos 1 1) aisle).branch .l).direct ≠ none)
      ∧ (Carried .lampDirect (req .lampDirect here) (asked .lampDirect here aisle) ∧ aisle.entryAt (lpos 7 2) = some shelf
        ∧ (∃ g ∈ aisle.groups, g.loc = shelf.code) ∧ (aisle.branch .l).moduleAt 7 = some module7 ∧ ¬ module7.slots < 2)
      ∧ (let small := { aisle with branchL := { aisle.branchL with roster := [{ module7 with slots := 1 }] } }
         Carried .lampDirect (req .lampDirect here) (asked .lampDirect here small)
           ∧ (small.branch .l).moduleAt 7 = some { module7 with slots := 1 } ∧ (1 : Nat) < 2) := by
  unfold Carried; decide +kernel

/-! ## Witnesses: the display scheduler -/

theorem witness_SilenceLimitOrphans :
    let s := { aisle with silenceSince := 1000000000 - 5 * 16000000 }
    s.params.silence ≠ 0 ∧ s.orphaned = false ∧ s.silenceSince + s.params.silence * 16000000 ≤ s.now
      ∧ shelf ∈ s.locMap ∧ (∃ g ∈ s.groups, g.loc = shelf.code) ∧ (s.slotAt shelf.pos).isSome = true := by decide +kernel

/-- Feedback runs on slot L/7/2. -/
def erring : SlotState := { slot72 with feedback := some { symbol := .err, timer := { since := 0, length := 16000000 } } }

theorem witness_DerivedDisplay :
    (aisle.queueOf 40217011 = [g520] ∧ ∀ h ∈ aisle.groups.filter (fun h => h.loc = 40217011), aisle.priorityOf h.picker ≤ 3)
      ∧ (erring.feedback = some { symbol := .err, timer := { since := 0, length := 16000000 } })
      ∧ (slot72.feedback = none ∧ slot72.position.bind aisle.groupOf = some g520 ∧ aisle.pickerOf g520.picker = some orange)
      ∧ (let x := { slot72 with position := none }; x.feedback = none ∧ x.position = none ∧ aisle.entryAt x.pos = some shelf)
      ∧ aisle.params.adaptive = false
      ∧ (let s := { aisle with params := { aisle.params with adaptive := true } }
         s.params.adaptive = true ∧ (s.pickerOf g520.picker).bind (·.pace) = some 600)
      ∧ (let q := [g520]
         q[0]? = some g520 ∧ (rotationSet (q.take 0)).length < 4 ∧ ∀ k ∈ q.take 0, k.picker ≠ g520.picker) := by decide +kernel

/-- A second picker. -/
def cyan : Picker := { orange with index := 4, id := 1042, colour := .cyan, openTasks := 0 }

/-- Two pickers' groups wait at the location, and the slot's position stands on a group that is not in the new set. -/
def two : State :=
  { aisle with
    pickers := [orange, cyan]
    groups := [{ g520 with state := .waiting }, { g520 with id := 521, picker := 1042, members := [7104], state := .waiting }]
    slots := [{ slot72 with rotation := [519], position := some 519 }] }

theorem witness_RecomputeSettlesLocation :
    (aisle.slotAt shelf.pos = some slot72
        ∧ (rotationSet ((aisle.queueOf shelf.code).filter (aisle.eligible shelf))).map (·.id) = [520] ∧ slot72.position = some 520)
      ∧ (two.slotAt shelf.pos = some { slot72 with rotation := [519], position := some 519 }
        ∧ (rotationSet ((two.queueOf shelf.code).filter (two.eligible shelf))).map (·.id) = [520, 521])
      ∧ ({ two with slots := [{ slot72 with rotation := [520, 521] }] } : State).slotAt shelf.pos = some { slot72 with rotation := [520, 521] } := by
  decide +kernel

/-- The recomputation of that location: two groups SHOWN, the position on the first, a fresh interval and linger timer. -/
theorem test_recompute_two :
    let t := recompute shelf two
    t.groups.map (fun g => (g.state, g.firstShown)) = [(.shown, some 5200000), (.shown, some 5200000)]
      ∧ t.slots.map (fun x => (x.rotation, x.position)) = [([520, 521], some 520)]
      ∧ t.slots.map (·.rotTimer) = [some { since := 1000000000, length := 6 * 250 * 16000 }] := by decide +kernel

theorem witness_SlotTimersExpire :
    let x := { slot72 with rotTimer := some { since := 0, length := 24000000 }, rotation := [520, 521] }
    let s := { aisle with slots := [x] }
    let f := { aisle with slots := [erring] }
    (s.slotAt (lpos 7 2) = some x ∧ x.rotTimer = some { since := 0, length := 24000000 } ∧ 0 + 24000000 ≤ s.now ∧ x.rotation.Nodup
        ∧ x.rotation[0]? = some 520 ∧ x.position = some 520)
      ∧ (f.slotAt (lpos 7 2) = some erring ∧ 0 + 16000000 ≤ f.now)
      ∧ (aisle.slotAt (lpos 7 2) = some slot72 ∧ slot72.linger = some { since := 0, length := 480000000 } ∧ 0 + 480000000 ≤ aisle.now
        ∧ slot72.position.bind aisle.groupOf = some g520 ∧ PackerQuiet 1 aisle) := by
  refine ⟨by decide +kernel, by decide +kernel, ?_, ?_, ?_, ?_, ?_, ?_, ?_, ?_, ?_⟩ <;> first | decide +kernel | (intro k; cases k <;> rfl)

/-! ## Witnesses: key presses -/

theorem witness_SharesByJoiningOrder : (7 ≤ ([3, 5, 2] : List Nat).sum ∧ ([3, 5, 2] : List Nat)[0]? = some 3) ∧ 10 = ([3, 5, 2] : List Nat).sum := by decide

theorem witness_PaceSample : aisle.pickerOf 1041 = some orange ∧ orange.pace = some 600 ∧ 600 ≤ 65535 := by decide +kernel

theorem witness_ConfirmAccepted :
    let k : KeyEvent := { pos := lpos 7 2, key := .confirm, tag := 44 }
    let h : HistEntry := { tag := 44, shown := some (520, 7) }
    let s := pressed .confirm 44 aisle
    ((s.branch .l).keys = [k] ∧ k.key = .confirm ∧ s.entryAt k.pos = some shelf ∧ s.slotAt k.pos = some slot72
        ∧ slot72.history.find? (fun y => y.tag = k.tag) = some h ∧ h.shown = some (g520.id, 7) ∧ s.groupOf g520.id = some g520)
      ∧ (s.locked.getLsbD shelf.area = false ∧ s.orphaned = false ∧ g520.members.length + s.fifo.length ≤ 32
        ∧ s.pickerOf g520.picker = some orange ∧ g520.firstShown = some 5200000 ∧ TasksOk s ∧ LinksOk s ∧ LiveFlagsOk s)
      ∧ (g520.members.length + ({ s with fifo := (waiting 29 1).fifo } : State).fifo.length = 32 ∧ MapOk s)
      ∧ PackerQuiet g520.members.length s := by
  refine ⟨by decide +kernel, ?_, ?_, ?_, ?_, ?_, ?_, ?_⟩
  · unfold TasksOk LinksOk LiveFlagsOk; decide +kernel
  · unfold MapOk; decide +kernel
  · decide
  · intro w hw; cases hw
  · decide
  · decide
  · intro k; cases k <;> rfl

theorem witness_ConfirmRefused :
    let k : KeyEvent := { pos := lpos 7 2, key := .confirm, tag := 44 }
    let s := pressed .confirm 44 aisle
    let found := fun (tag : Tag) (x : SlotState) => x.history.find? (fun y => y.tag = tag)
    let locked := { s with locked := 0x0008 }
    let lost := { s with orphaned := true }
    let dark := { slot72 with history := [{ tag := 44, shown := none }] }
    let busy := { s with fifo := (waiting 30 1).fifo }
    ((s.branch .l).keys = [k] ∧ k.key = .confirm ∧ ({ s with locMap := [] } : State).entryAt k.pos = none)
      ∧ (s.entryAt k.pos = some shelf ∧ s.slotAt k.pos = some slot72 ∧ found 40 slot72 = none)
      ∧ (found 44 slot72 ≠ none ∧ locked.locked.getLsbD shelf.area = true)
      ∧ (¬ lost.locked.getLsbD shelf.area = true ∧ lost.orphaned = true)
      ∧ (found 44 dark ≠ none ∧ (found 44 dark).bind (fun h => h.shown.bind fun y => s.groupOf y.1) = none ∧ s.orphaned = false)
      ∧ ((found 44 slot72).bind (fun h => h.shown.bind fun y => busy.groupOf y.1) = some g520 ∧ busy.fifo.length ≤ 32
        ∧ 32 < g520.members.length + busy.fifo.length) := by decide +kernel

theorem witness_AdjustPressed :
    let k : KeyEvent := { pos := lpos 7 2, key := .up, tag := 44 }
    let s := pressed .up 44 aisle
    let h : HistEntry := { tag := 44, shown := some (520, 7) }
    ((s.branch .l).keys = [k] ∧ k.key ≠ .confirm ∧ ({ s with locMap := [] } : State).entryAt k.pos = none)
      ∧ (s.entryAt k.pos = some shelf ∧ s.slotAt k.pos = some slot72 ∧ slot72.history.getLast? = some h ∧ h.tag = k.tag
        ∧ h.shown = some (g520.id, 7) ∧ s.groupOf g520.id = some g520 ∧ g520.state = .shown ∧ s.pickerOf g520.picker = some orange)
      ∧ (slot72.history.getLast?.map (·.tag) ≠ some 43 ∧ slot72.position = some g520.id ∧ slot72.linger ≠ none)
      ∧ (min (g520.display + 1) g520.remaining ≠ g520.display ∧ MapOk s ∧ (s.groups.map (·.id)).Nodup ∧ g520.loc = shelf.code) := by
  unfold MapOk; decide +kernel

/-! ## Witnesses: the lamp branches -/

/-- A command is on branch L's line. -/
def lineBusy (c : Command) (s : State) : State := { s with branchL := { s.branchL with command := some c } }

theorem witness_free : LineFree .l aisle := ⟨rfl, fun _ h => nomatch h⟩

theorem witness_branches : BranchesOk aisle := by
  refine ⟨⟨⟨?_, ?_⟩, ?_, ?_, ⟨?_, ?_, ?_⟩, ?_, ?_, ?_, ?_, ?_, ?_⟩, ⟨⟨?_, ?_⟩, ?_, ?_, ⟨?_, ?_, ?_⟩, ?_, ?_, ?_, ?_, ?_, ?_⟩, ?_, ?_⟩
  all_goals first
    | decide +kernel
    | (intro sc h; cases h; decide)
    | (intro c pos d tag h; cases h; done)
    | (intro sc h; cases h; done)

theorem witness_ArbiterScansAndPolls_scan :
    (LineFree .r aisle ∧ (aisle.branch .r).scan = some { darkFirst := true, next := 1, found := 0 })
      ∧ ¬ LineFree .l (lineBusy (firstAttempt (.poll 7) 0) aisle) := by
  refine ⟨⟨⟨rfl, fun _ h => nomatch h⟩, rfl⟩, fun h => ?_⟩
  exact absurd (h.2 _ rfl) (by decide)

theorem witness_ArbiterShows :
    let d : Direct := { pos := lpos 1 1, display := { colour := .red, pattern := .flash, digits := .dashes }, request := req .lampDirect [] }
    let on72 := directed (lpos 7 2) aisle
    let s := { aisle with branchL := { aisle.branchL with work := [lpos 7 2], shows := 3 } }
    ((aisle.branch .l).scan = none ∧ ((directed (lpos 1 1) aisle).branch .l).direct = some d ∧ (directed (lpos 1 1) aisle).entryAt d.pos = none)
      ∧ ((on72.branch .l).direct.map (·.pos) = some (lpos 7 2) ∧ on72.entryAt (lpos 7 2) = some shelf ∧ ∃ g ∈ on72.groups, g.loc = shelf.code)
      ∧ ((s.branch .l).direct = none ∧ (s.branch .l).shows < 4 ∧ (s.branch .l).work = [] ++ lpos 7 2 :: []
        ∧ (s.branch .l).moduleAt 7 = some module7 ∧ module7.presence ≠ .missing ∧ 2 ≤ module7.slots ∧ (lpos 7 2).wellFormed = true
        ∧ s.slotAt (lpos 7 2) = some slot72)
      ∧ (let s := { s with branchL := { s.branchL with work := [lpos 8 1, lpos 7 2] } }
         (s.branch .l).work = [lpos 8 1] ++ lpos 7 2 :: [] ∧ (s.branch .l).moduleAt 8 = none)
      ∧ (let old := { s with branchL := { s.branchL with nextTags := List.replicate 192 42 } }
         old.nextTagOf (lpos 7 2) = 42 ∧ slot72.history.filter (fun h => h.tag ≠ 42) ≠ slot72.history) := by decide +kernel

/-- Module 7 and its successor, MISSING or not. -/
def twoModules (a b : Presence) (turn : Nat) : State :=
  { aisle with branchL := { aisle.branchL with
    roster := [{ module7 with presence := a }, { module7 with addr := 8, presence := b }], turn := turn, shows := 4 } }

theorem witness_ArbiterScansAndPolls_poll :
    let addrs := fun (p : Presence → Bool) (s : State) => ((s.branch .l).roster.filter (fun m => p m.presence)).map (·.addr)
    let answering := addrs (· ≠ .missing)
    let missing := addrs (· = .missing)
    (4 ≤ ((twoModules .present .missing 14).branch .l).shows ∧ (aisle.branch .l).work = [])
      ∧ (answering (twoModules .present .missing 14) ≠ [] ∧ ((twoModules .present .missing 14).branch .l).turn ≠ 15)
      ∧ (answering (twoModules .present .missing 15) ≠ [] ∧ ((twoModules .present .missing 15).branch .l).turn = 15
        ∧ missing (twoModules .present .missing 15) ≠ [])
      ∧ (answering (twoModules .missing .missing 0) = [] ∧ missing (twoModules .missing .missing 0) ≠ []
        ∧ ((twoModules .missing .missing 0).branch .l).lastTurn = none)
      ∧ (let s := { twoModules .missing .missing 0 with branchL := { (twoModules .missing .missing 0).branchL with lastTurn := some 999680001 } }
         ¬ 999680001 + 20 * 16000 ≤ s.now) := by decide +kernel

theorem witness_ShowAcknowledged :
    let c := firstAttempt (.showSlot (lpos 7 2) slot72.shadow 45) 0
    let d := firstAttempt (.direct (lpos 48 1) slot72.shadow) 0
    let e : Direct := { pos := lpos 48 1, display := { colour := .red, pattern := .flash, digits := .dashes }, request := req .lampDirect [] }
    let s := lineBusy d (directed (lpos 48 1) aisle)
    Awaits .l c (lineBusy c aisle) ∧ (lpos 7 2).addr ≤ 48 ∧ ((lineBusy c aisle).branch .l).moduleAt 7 = some module7
      ∧ module7.presence ≠ .missing ∧ Awaits .l d s ∧ (s.branch .l).direct = some e ∧ e.request.broadcast = false ∧ RelayTakes 4 s
      ∧ (let lost := { aisle with branchL := { aisle.branchL with roster := [{ module7 with presence := .missing }] } }
         Awaits .l c (lineBusy c lost) ∧ ((lineBusy c lost).branch .l).moduleAt 7 = some { module7 with presence := .missing }) := by
  unfold Awaits RelayTakes; decide +kernel

/-- An unmapped slot that keeps a direct display is queued when its module returns, and the display sent to it ends the direct one (R166). -/
theorem test_direct_display_replaced :
    let c := firstAttempt (.poll 7) 0
    let lost := { aisle with branchL := { aisle.branchL with
      roster := [{ module7 with presence := .missing }], directShown := [lpos 7 4, lpos 8 1], command := some c } }
    let m : List Byte := [7, 0x82, 0, 0]
    let t := after (.pollReply .l (m ++ [crc8 m])) lost
    let u := after (.branchArbiter .l) { t with branchL := { t.branchL with work := [lpos 7 4] } }
    t.branchL.work = [lpos 7 2, lpos 7 4] ∧ u.branchL.directShown = [lpos 8 1]
      ∧ u.branchL.command.map (·.what) = some (.showSlot (lpos 7 4) Shadow.darkShadow 0) := by decide +kernel

/-- A released slot that is passed over, its module being MISSING, is queued again at the module's return (R158). -/
theorem test_passed_over_slot_put_back :
    let lost := { aisle with branchL := { aisle.branchL with roster := [{ module7 with presence := .missing }], work := [lpos 7 4] } }
    let m : List Byte := [7, 0x82, 0, 0]
    let t := after (.branchArbiter .l) lost
    let u := after (.pollReply .l (m ++ [crc8 m])) t
    let v := after (.branchArbiter .l) { u with branchL := { u.branchL with work := [lpos 7 4] } }
    (t.branchL.work = [] ∧ t.branchL.unshown = [lpos 7 4]) ∧ u.branchL.work = [lpos 7 2, lpos 7 4]
      ∧ v.branchL.unshown = [] ∧ v.branchL.command.map (·.what) = some (.showSlot (lpos 7 4) Shadow.darkShadow 0) := by decide +kernel

/-- A SHOW to a released slot that ends without an acknowledge leaves the slot to its module's return (R147). -/
theorem test_unacknowledged_slot_put_back :
    let c := { firstAttempt (.showSlot (lpos 7 4) Shadow.darkShadow 9) 0 with attempts := 3 }
    let t := after (.replyTimeout .l) { aisle with branchL := { aisle.branchL with
      roster := [{ module7 with presence := .silent, misses := 2 }], command := some c } }
    let poll := { t with branchL := { t.branchL with command := some (firstAttempt (.poll 7) 0) } }
    let m : List Byte := [7, 0x82, 0, 0]
    t.branchL.unshown = [lpos 7 4] ∧ lpos 7 4 ∉ t.branchL.work
      ∧ lpos 7 4 ∈ (after (.pollReply .l (m ++ [crc8 m])) poll).branchL.work := by decide +kernel

theorem witness_PollReplyTaken :
    let c := firstAttempt (.poll 7) 0
    let e : KeyEvent := { pos := lpos 7 4, key := .down, tag := 255 }
    Awaits .l c (lineBusy c aisle) ∧ c.what = .poll 7 ∧ [e, e, e, e].length ≤ 4
      ∧ ∀ x ∈ [e, e, e, e], x.pos.branch = .l ∧ x.pos.addr = 7 ∧ 1 ≤ x.pos.slot ∧ x.pos.slot ≤ 4 := by
  unfold Awaits; decide +kernel

/-- A scan of branch L has come to an address. -/
def scanned (addr : Nat) (ended : Bool) : State :=
  { aisle with
    scanningL := true
    branchL := { aisle.branchL with
      scan := some { darkFirst := false, next := addr, found := 1 }, command := some { firstAttempt (.ident addr) 0 with ended := ended } } }

theorem witness_IdentReplyTaken :
    ((scanned 7 false).branch .l).command = some (firstAttempt (.ident 7) 0)
      ∧ ((scanned 48 true).branch .l).command = some { firstAttempt (.ident 48) 0 with ended := true }
      ∧ ((scanned 48 true).branch .l).scan = some { darkFirst := false, next := 48, found := 1 }
      ∧ ((scanned 7 false).branch .l).moduleAt 7 = some module7 ∧ ((scanned 48 false).branch .l).moduleAt 48 = none
      ∧ (let s := { scanned 7 false with branchL := { (scanned 7 false).branchL with roster := [{ module7 with slots := 3 }], unshown := [lpos 7 4] } }
         (s.branch .l).moduleAt 7 = some { module7 with slots := 3 } ∧ module7.presence ≠ .missing ∧ s.entryAt (lpos 7 4) = none) := by decide +kernel

theorem witness_IdentReplyTaken_branches : BranchesOk (scanned 7 false) ∧ BranchesOk (scanned 48 true) := by
  refine ⟨⟨⟨⟨?_, ?_⟩, ?_, ?_, ⟨?_, ?_, ?_⟩, ?_, ?_, ?_, ?_, ?_, ?_⟩, witness_branches.2.1, ?_, ?_⟩, ⟨⟨?_, ?_⟩, ?_, ?_, ⟨?_, ?_, ?_⟩, ?_, ?_, ?_, ?_, ?_, ?_⟩, witness_branches.2.1, ?_, ?_⟩
  all_goals first
    | decide +kernel
    | (intro sc h; cases h; decide)
    | (intro c h a ha; cases h; cases ha; decide)
    | (intro c pos d tag h hw; cases h; cases hw)
    | (intro d h; cases h)

theorem witness_AttemptMissed :
    let c := { firstAttempt (.poll 7) 3 with attempts := 3 }
    let early := lineBusy (firstAttempt (.poll 7) 3) aisle
    let last := lineBusy c { aisle with branchL := { aisle.branchL with roster := [{ module7 with presence := .silent, misses := 2 }] } }
    let lost := lineBusy c { aisle with branchL := { aisle.branchL with roster := [{ module7 with presence := .missing, misses := 7 }] } }
    let empty := lineBusy c { aisle with branchL := { aisle.branchL with roster := [] } }
    (Awaits .l (firstAttempt (.poll 7) 3) early ∧ MapOk early ∧ (early.branch .l).moduleAt 7 = some module7 ∧ min 7 (0 + 1) < early.params.missLimit
        ∧ (firstAttempt (.poll 7) 3).attempts < early.params.missLimit ∧ LineCommand.replyValid (.poll 7) [7] = false)
      ∧ (Awaits .l c last ∧ last.params.missLimit ≤ min 7 (2 + 1) ∧ MapOk last)
      ∧ (Awaits .l c lost ∧ (lost.branch .l).moduleAt 7 = some { module7 with presence := .missing, misses := 7 } ∧ MapOk lost)
      ∧ (Awaits .l c empty ∧ (empty.branch .l).moduleAt 7 = none ∧ empty.params.missLimit ≤ c.attempts ∧ MapOk empty) := by
  unfold Awaits MapOk; decide +kernel

theorem witness_AttemptMissed_branches :
    BranchesOk (lineBusy { firstAttempt (.poll 7) 3 with attempts := 3 } aisle) := by
  refine ⟨⟨⟨?_, ?_⟩, ?_, ?_, ⟨?_, ?_, ?_⟩, ?_, ?_, ?_, ?_, ?_, ?_⟩, witness_branches.2.1, ?_, ?_⟩
  all_goals first
    | decide +kernel
    | (intro c pos d tag h hw; cases h; cases hw; done)
    | (intro sc h; cases h; done)
    | (intro c h a ha; cases h; cases ha)

theorem witness_ConfigSetJudgesWhatRuns_branches : BranchesOk failing := by
  refine ⟨⟨⟨?_, ?_⟩, ?_, ?_, ⟨?_, ?_, ?_⟩, ?_, ?_, ?_, ?_, ?_, ?_⟩, witness_branches.2.1, ?_, ?_⟩
  all_goals first
    | decide +kernel
    | (intro c pos d tag h hw; cases h; cases hw; done)
    | (intro sc h; cases h; done)
    | (intro c h a ha; cases h; cases ha)

theorem witness_BranchFaultSetAndClear :
    let c := firstAttempt (.showSlot (lpos 7 2) slot72.shadow 45) 0
    let s := lineBusy c (directed (lpos 48 1) aisle)
    let faulty := { aisle with branchL := { aisle.branchL with fault := true } }
    (MapOk s ∧ (s.groups.map (·.id)).Nodup ∧ (s.branch .l).fault = false ∧ (s.branch .l).command = some c ∧ c.ended = false
        ∧ (s.branch .l).direct ≠ none ∧ shelf ∈ s.locMap ∧ ((s.branch .l).moduleAt shelf.pos.addr).isSome = true)
      ∧ ((lineBusy (firstAttempt (.poll 7) 2) aisle).branch .l).command = some (firstAttempt (.poll 7) 2)
      ∧ (MapOk faulty ∧ (faulty.branch .l).fault = true) := by
  unfold MapOk; decide +kernel

/-! ## Witnesses: frames and invariants -/

theorem witness_FrameRoundTrip :
    let f : Frame := { dest := 255, origin := 255, kind := 0xFF, express := true, spare := true, hop := 63, seq := 0xFFFF,
                       payload := List.replicate 247 0xFF }
    f.dest < 256 ∧ f.origin < 256 ∧ f.hop < 64 ∧ f.payload.length ≤ 247 := by decide +kernel

/-- The aisle of section 7.7 has every property that the steps keep, and its next step answers a next state. -/
theorem witness_EveryStepKeeps :
    (StoreOk aisle ∧ TrunkListsOk aisle) ∧ (MapOk aisle ∧ RightsOk aisle ∧ PickersOk aisle ∧ ParamsOk aisle.params)
      ∧ (TasksOk aisle ∧ GroupsOk aisle ∧ LiveFlagsOk aisle ∧ PackerOk aisle ∧ aisle.residue < 16000) ∧ LinksOk aisle := by
  unfold StoreOk TrunkListsOk MapOk RightsOk PickersOk ParamsOk TasksOk GroupsOk LiveFlagsOk PackerOk LinksOk
  refine ⟨?_, ?_, ?_, ?_⟩ <;> decide +kernel

/-- A frame that port A sends, and the queues that name it. -/
theorem witness_EveryStepKeeps_queues : StoreOk (sending 1) ∧ QueuesOk (sending 1) := by
  refine ⟨by unfold StoreOk; decide +kernel, fun p => ?_, ?_⟩
  · cases p <;> decide +kernel
  · decide +kernel

theorem witness_EveryStepKeeps_slots : SlotsOk aisle := by
  refine ⟨by decide, fun pos => ?_, ?_, ?_⟩
  · simp only [State.slotAt, State.entryAt, aisle, List.find?_cons, List.find?_nil, slot72, shelf]
    cases lpos 7 2 == pos <;> rfl
  · intro x hx
    cases List.mem_singleton.mp hx
    refine ⟨⟨by decide, by decide, ?_⟩, by decide +kernel, by decide +kernel, ⟨?_, by decide⟩, by decide, by decide, by decide, by decide⟩
    · intro h hh i hi
      refine ⟨g520, by decide, ?_, by decide +kernel, by decide⟩
      have : ∀ h ∈ slot72.history, h.shown.map (·.1) = some 520 := by decide
      have := this h hh
      rw [hi] at this
      exact (Option.some.inj this).symm
    · intro i hi
      cases hi
      decide
  · intro g hg
    cases List.mem_singleton.mp hg
    refine ⟨⟨shelf, by decide, by decide, fun _ x hx => ?_⟩, by decide, by decide⟩
    cases hx
    decide

theorem witness_EveryStepKeeps_display : DisplayOk aisle := by
  intro e he y hy
  cases List.mem_singleton.mp he
  cases hy
  refine ⟨by decide +kernel, by decide +kernel, fun g hg _ => ?_⟩
  cases List.mem_singleton.mp hg
  decide +kernel

theorem witness_EveryStepKeeps_next : step aisle = .next (tick aisle) := rfl

end Sys2Proof.Machine.Tests
end

/-!
PROOFS. What every step keeps of the ring relay: the cell store, its lists and the queues (O53).
-/

namespace Sys2Proof.Machine

open Sys2Proof

/-! ## The references that a port names (R22, R23) -/

/-- Starting the next frame moves a reference from a queue to the transmission. -/
theorem PortState.started_references_eq (q : PortState) : q.started.references = q.references := by
  rcases q with ⟨up, rx, ex, nm, sd⟩
  cases up <;> cases sd <;> cases ex <;> cases nm <;> simp [PortState.started, PortState.references]

@[simp] theorem PortState.started_up (q : PortState) : q.started.up = q.up := by
  rcases q with ⟨up, rx, ex, nm, sd⟩
  cases up <;> cases sd <;> cases ex <;> cases nm <;> rfl

@[simp] theorem PortState.queued_up (q : PortState) (express : Bool) (ref : Nat) : (q.queued express ref).up = q.up := by
  cases express <;> rfl

/-- An UP port that has started what it can and still sends nothing has nothing to send. -/
theorem PortState.started_idle {q : PortState} (hu : q.up = true) (h : q.started.sending = none) : q.references = [] := by
  rcases q with ⟨up, rx, ex, nm, sd⟩
  cases sd <;> cases ex <;> cases nm <;> simp_all [PortState.started, PortState.references]

theorem PortState.count_queued (q : PortState) (express : Bool) (ref r : Nat) :
    (q.queued express ref).references.count r = q.references.count r + if r = ref then 1 else 0 := by
  cases express <;> simp [PortState.queued, PortState.references, List.count_cons, eq_comm (a := ref)] <;> omega

/-- Queueing a reference at a list of ports: a port names it once more for each time it stands in the list. -/
theorem foldl_enqueueRef_count (express : Bool) (ref r : Nat) (p : Port) (ports : List Port) : ∀ s : State,
    ((ports.foldl (fun t p => enqueueRef express ref p t) s).port p).references.count r
      = (s.port p).references.count r + if r = ref then ports.count p else 0 := by
  induction ports with
  | nil => intro s; simp
  | cons q qs ih =>
    intro s
    rw [List.foldl_cons, ih, enqueueRef_port, List.count_cons]
    by_cases hp : p = q
    · subst hp
      rw [if_pos rfl, PortState.started_references_eq, PortState.count_queued]
      by_cases h : r = ref <;> simp [h]; omega
    · have : q ≠ p := Ne.symm hp
      simp [hp, this]

/-- Queueing a reference at UP ports leaves none of them idle with something to send. -/
theorem foldl_enqueueRef_idle (express : Bool) (ref : Nat) (p : Port) (ports : List Port) : ∀ s : State,
    (∀ q ∈ ports, (s.port q).up = true) →
    ((s.port p).up = false ∨ (s.port p).sending = none → (s.port p).references = []) →
    let t := ports.foldl (fun t p => enqueueRef express ref p t) s
    (t.port p).up = false ∨ (t.port p).sending = none → (t.port p).references = [] := by
  induction ports with
  | nil => exact fun s _ h => h
  | cons q qs ih =>
    intro s hup hs
    refine ih (enqueueRef express ref q s) (fun r hr => ?_) ?_
    · have := hup r (by simp [hr])
      rw [enqueueRef_port]; split
      · rename_i h; subst h; simpa using this
      · exact this
    · rw [enqueueRef_port]; split
      · rename_i h; subst h
        have hu : ((s.port p).queued express ref).up = true := by simpa using hup p (by simp)
        rintro (h | h)
        · simp [hup p] at h
        · rw [PortState.started_references_eq]; exact PortState.started_idle hu h
      · exact hs

/-! ## The queues while references wait to be dropped (R3, R19) -/

/-- The ports' references and the list `held` of references already taken from a port name stored frames, each list a frame at most once, and a
frame's reference count is the number of lists that name it. -/
def Named (held : List Nat) (s : State) : Prop :=
  (∀ p, (s.port p).references.Nodup ∧ ∀ r ∈ (s.port p).references, ∃ f ∈ s.frames, f.ref = r)
    ∧ (held.Nodup ∧ ∀ r ∈ held, ∃ f ∈ s.frames, f.ref = r)
    ∧ ∀ f ∈ s.frames, (1 ≤ f.refs ∧ f.refs ≤ 2)
        ∧ f.refs = s.portA.references.count f.ref + s.portB.references.count f.ref + held.count f.ref

/-- A port that is DOWN or sends nothing names nothing. -/
def IdleEmpty (s : State) : Prop :=
  ∀ p, (s.port p).up = false ∨ (s.port p).sending = none → (s.port p).references = []

theorem queuesOk_iff (s : State) : QueuesOk s ↔ Named [] s ∧ IdleEmpty s := by
  constructor
  · rintro ⟨hp, hf⟩
    exact ⟨⟨fun p => ⟨(hp p).1, (hp p).2.1⟩, ⟨List.nodup_nil, by simp⟩, by simpa using hf⟩, fun p => (hp p).2.2⟩
  · rintro ⟨⟨hp, -, hf⟩, hi⟩
    exact ⟨fun p => ⟨(hp p).1, (hp p).2, hi p⟩, by simpa using hf⟩

/-- Distinct references: a stored frame is found under its own. -/
theorem StoreOk.find {s : State} (h : StoreOk s) {f g : StoredFrame} (hf : f ∈ s.frames) (hg : g ∈ s.frames)
    (he : f.ref = g.ref) : f = g := List.inj_on_of_nodup_map h.2.1 hf hg he

theorem StoreOk.find_some {s : State} (h : StoreOk s) {x : StoredFrame} (hx : x ∈ s.frames) :
    s.frames.find? (fun f => f.ref == x.ref) = some x := by
  cases hf : s.frames.find? (fun f => f.ref == x.ref) with
  | none => simpa using List.find?_eq_none.1 hf x hx
  | some y =>
    have hy : y.ref = x.ref := by simpa using List.find?_some hf
    rw [h.find (List.mem_of_find?_eq_some hf) hx hy]

/-- Of distinct references, taking out one frame takes out its cells. -/
theorem sum_cells_filter {fs : List StoredFrame} {x : StoredFrame} (hn : (fs.map (·.ref)).Nodup) (hx : x ∈ fs) :
    ((fs.filter (fun g => g.ref != x.ref)).map (·.cells)).sum + x.cells = (fs.map (·.cells)).sum := by
  induction fs with
  | nil => cases hx
  | cons y ys ih =>
    simp only [List.map_cons, List.nodup_cons] at hn
    rcases List.mem_cons.1 hx with rfl | hx
    · have : ys.filter (fun g => g.ref != x.ref) = ys := List.filter_eq_self.2 fun g hg => by
        have : g.ref ≠ x.ref := fun h => hn.1 (h ▸ List.mem_map_of_mem hg)
        simpa using this
      simp [this]; omega
    · have hy : y.ref ≠ x.ref := fun h => hn.1 (h ▸ List.mem_map_of_mem hx)
      have := ih hn.2 hx
      simp [hy]; omega

theorem storeOk_dropRef {s : State} (ref : Nat) (h : StoreOk s) : StoreOk (dropRef ref s) := by
  obtain ⟨hc, hn, hlt⟩ := h
  rcases dropRef_cases ref s with ⟨-, e⟩ | ⟨f, hf, -, e1, e2, e3, -⟩ | ⟨f, hf, -, e1, e2, e3, -⟩
  · rw [e]; exact ⟨hc, hn, hlt⟩
  · have hr : f.ref = ref := by simpa using List.find?_some hf
    subst hr
    have := sum_cells_filter hn (List.mem_of_find?_eq_some hf)
    refine ⟨by rw [e1, e2]; omega, ?_, ?_⟩
    · rw [e1]; exact hn.sublist (List.filter_sublist.map _)
    · rw [e1, e3]; exact fun g hg => hlt g (List.mem_of_mem_filter hg)
  · have hm : ∀ {α : Type} (k : StoredFrame → α), (∀ g, k { g with refs := g.refs - 1 } = k g) →
        (dropRef ref s).frames.map k = s.frames.map k := by
      intro α k hk
      rw [e1, List.map_map]
      exact List.map_congr_left fun g _ => by simp only [Function.comp]; split <;> simp [hk]
    refine ⟨by rw [hm _ fun _ => rfl, e2]; exact hc, by rw [hm _ fun _ => rfl]; exact hn, ?_⟩
    rw [e1, e3]
    intro g hg
    obtain ⟨y, hy, rfl⟩ := List.mem_map.1 hg
    split <;> exact hlt y hy

theorem dropRef_port (ref : Nat) (s : State) (p : Port) : (dropRef ref s).port p = s.port p :=
  have h := dropRef_only ref s
  port_of_keeps (h.keeps (by decide)) (h.keeps (by decide)) (h.keeps (by decide)) p

/-- A reference that was held is dropped: the frame loses it, and goes with its last one. -/
theorem named_dropRef {s : State} {ref : Nat} {held : List Nat} (h : StoreOk s) (hq : Named (ref :: held) s) :
    Named held (dropRef ref s) := by
  obtain ⟨hp, ⟨hhn, hhs⟩, hf⟩ := hq
  obtain ⟨hnot, hheld⟩ := List.nodup_cons.1 hhn
  obtain ⟨x, hx, rfl⟩ := hhs ref (by simp)
  have hA : (dropRef x.ref s).portA = s.portA := dropRef_port x.ref s .a
  have hB : (dropRef x.ref s).portB = s.portB := dropRef_port x.ref s .b
  have hfind := h.find_some hx
  have hcx := hf x hx
  simp only [List.count_cons_self] at hcx
  have hh0 : held.count x.ref = 0 := List.count_eq_zero_of_not_mem hnot
  rcases dropRef_cases x.ref s with ⟨e, -⟩ | ⟨f, e, hr, e1, -⟩ | ⟨f, e, hr, e1, -⟩
  · rw [hfind] at e; cases e
  · -- the last reference: nothing else names the frame
    obtain rfl : x = f := by rw [hfind] at e; exact Option.some.inj e
    have keep : ∀ r, r ≠ x.ref → (∃ f ∈ s.frames, f.ref = r) → ∃ f ∈ (dropRef x.ref s).frames, f.ref = r := by
      rintro r hr ⟨f, hf, rfl⟩
      exact ⟨f, by rw [e1]; simp [hf, hr], rfl⟩
    have none : ∀ p, x.ref ∉ (s.port p).references := by
      intro p; cases p
      · exact List.count_eq_zero.1 (show s.portA.references.count x.ref = 0 by omega)
      · exact List.count_eq_zero.1 (show s.portB.references.count x.ref = 0 by omega)
    refine ⟨fun p => ?_, ⟨hheld, fun r hr => keep r (fun e => hnot (e ▸ hr)) (hhs r (by simp [hr]))⟩, fun f hf' => ?_⟩
    · rw [dropRef_port]
      exact ⟨(hp p).1, fun r hr => keep r (fun e => none p (e ▸ hr)) ((hp p).2 r hr)⟩
    · rw [e1] at hf'
      obtain ⟨hf', hne⟩ := List.mem_filter.1 hf'
      have := hf f hf'
      rw [List.count_cons_of_ne (by simpa using Ne.symm (bne_iff_ne.1 hne))] at this
      rw [hA, hB]; exact this
  · obtain rfl : x = f := by rw [hfind] at e; exact Option.some.inj e
    have keep : ∀ r, (∃ f ∈ s.frames, f.ref = r) → ∃ f ∈ (dropRef x.ref s).frames, f.ref = r := by
      rintro r ⟨f, hf, rfl⟩
      refine ⟨_, by rw [e1]; exact List.mem_map_of_mem hf, ?_⟩
      split <;> rfl
    refine ⟨fun p => ?_, ⟨hheld, fun r hr => keep r (hhs r (by simp [hr]))⟩, fun f hf' => ?_⟩
    · rw [dropRef_port]
      exact ⟨(hp p).1, fun r hr => keep r ((hp p).2 r hr)⟩
    · rw [e1] at hf'
      obtain ⟨y, hy, rfl⟩ := List.mem_map.1 hf'
      rw [hA, hB]
      have := hf y hy
      split
      · rename_i hyx
        obtain rfl := h.find hy hx hyx
        simp only; omega
      · rename_i hyx
        rw [List.count_cons_of_ne (Ne.symm hyx)] at this
        exact this

theorem dropRefs_keep (refs : List Nat) : ∀ s : State, StoreOk s →
    StoreOk (refs.foldl (fun t ref => dropRef ref t) s)
      ∧ (Named refs s → Named [] (refs.foldl (fun t ref => dropRef ref t) s)) := by
  induction refs with
  | nil => exact fun s h => ⟨h, id⟩
  | cons r rs ih =>
    intro s h
    obtain ⟨a, b⟩ := ih (dropRef r s) (storeOk_dropRef r h)
    exact ⟨a, fun hq => b (named_dropRef h hq)⟩

theorem dropRefs_port (refs : List Nat) (p : Port) : ∀ s : State,
    (refs.foldl (fun t ref => dropRef ref t) s).port p = s.port p := by
  induction refs with
  | nil => exact fun _ => rfl
  | cons r rs ih => exact fun s => (ih _).trans (dropRef_port r s p)

/-! ## A frame stored (R16, R18, R20) -/

theorem count_ports (ports : List Port) : ports.count .a + ports.count .b = ports.length := by
  induction ports with
  | nil => rfl
  | cons p ps ih => cases p <;> simp <;> omega

theorem storeFrame_count (f : Frame) (requester : Option Requester) (ports : List Port) (s : State) (p : Port) (r : Nat) :
    ((storeFrame f requester ports s).port p).references.count r
      = (s.port p).references.count r + if r = s.nextRef then ports.count p else 0 := by
  unfold storeFrame
  rw [foldl_enqueueRef_count]
  cases p <;> rfl

theorem storeOk_storeFrame {f : Frame} {requester : Option Requester} {ports : List Port} {s : State} (h : StoreOk s)
    (hc : cellsFor f.length ≤ s.freeCells) : StoreOk (storeFrame f requester ports s) := by
  obtain ⟨h1, h2, h3⟩ := h
  obtain ⟨a, b, c⟩ := storeFrame_store f requester ports s
  refine ⟨?_, ?_, ?_⟩
  · rw [a, b]; simp [StoredFrame.cells] at h1 ⊢; omega
  · rw [b, List.map_append, List.nodup_append]
    refine ⟨h2, by simp, ?_⟩
    rintro _ hx _ hy rfl
    obtain ⟨g, hg, e⟩ := List.mem_map.1 hx
    have := h3 g hg
    simp at hy
    omega
  · rw [b, c]
    intro g hg
    rcases List.mem_append.1 hg with hg | hg
    · have := h3 g hg; omega
    · simp at hg; simp [hg]

/-- A frame stored for one or both UP ports stands once at each of them. -/
theorem queuesOk_storeFrame {f : Frame} {requester : Option Requester} {ports : List Port} {s : State} (h : StoreOk s)
    (hq : QueuesOk s) (hn : ports.Nodup) (h0 : ports ≠ []) (hup : ∀ p ∈ ports, (s.port p).up = true) :
    QueuesOk (storeFrame f requester ports s) := by
  obtain ⟨⟨hp, -, hf⟩, hi⟩ := (queuesOk_iff s).1 hq
  have hfresh : ∀ p, s.nextRef ∉ (s.port p).references := fun p hm => by
    obtain ⟨g, hg, e⟩ := (hp p).2 _ hm
    have := h.2.2 g hg
    omega
  have hone : ∀ p, ports.count p ≤ 1 := List.nodup_iff_count_le_one.1 hn
  have hcount := storeFrame_count f requester ports s
  obtain ⟨-, hframes, -⟩ := storeFrame_store f requester ports s
  refine (queuesOk_iff _).2 ⟨⟨fun p => ⟨?_, ?_⟩, ⟨List.nodup_nil, by simp⟩, ?_⟩, ?_⟩
  · refine List.nodup_iff_count_le_one.2 fun r => ?_
    rw [hcount]
    split
    · rename_i e; subst e
      rw [List.count_eq_zero_of_not_mem (hfresh p)]
      exact (Nat.zero_add _).symm ▸ hone p
    · exact List.nodup_iff_count_le_one.1 (hp p).1 r
  · intro r hr
    rw [hframes]
    by_cases e : r = s.nextRef
    · exact ⟨_, by simp; exact .inr rfl, e.symm⟩
    · have : 0 < (s.port p).references.count r := by
        have := List.count_pos_iff.2 hr
        rwa [hcount, if_neg e, Nat.add_zero] at this
      obtain ⟨g, hg, hgr⟩ := (hp p).2 r (List.count_pos_iff.1 this)
      exact ⟨g, by simp [hg], hgr⟩
  · intro g hg
    have ha := hcount .a g.ref
    have hb := hcount .b g.ref
    simp only [State.port] at ha hb
    rw [ha, hb]
    rw [hframes] at hg
    rcases List.mem_append.1 hg with hg | hg
    · have hne : g.ref ≠ s.nextRef := (h.2.2 g hg).ne
      simpa [hne] using hf g hg
    · obtain rfl := List.mem_singleton.1 hg
      have hsum := count_ports ports
      have h1 := List.length_pos_iff.2 h0
      have za : s.portA.references.count s.nextRef = 0 := List.count_eq_zero_of_not_mem (hfresh .a)
      have zb : s.portB.references.count s.nextRef = 0 := List.count_eq_zero_of_not_mem (hfresh .b)
      have oa := hone .a
      have ob := hone .b
      simp only [if_true, za, zb, List.count_nil]
      omega
  · intro p
    unfold storeFrame
    refine foldl_enqueueRef_idle f.express s.nextRef p ports _ (fun q hq => ?_) ?_
    · cases q <;> exact hup _ hq
    · cases p
      exacts [hi .a, hi .b]

/-! ## What the ring relay keeps (R9, R12, R18, R19, R22, R23) -/

/-- From `s` to `t` the store's account, the relay's lists and the queues stay in order. -/
def RingKept (s t : State) : Prop :=
  StoreOk s → StoreOk t ∧ (TrunkListsOk s → TrunkListsOk t) ∧ (QueuesOk s → QueuesOk t)

theorem RingKept.trans {s t u : State} (h : RingKept s t) (k : RingKept t u) : RingKept s u := fun hs =>
  have a := h hs
  have b := k a.1
  ⟨b.1, fun l => b.2.1 (a.2.1 l), fun q => b.2.2 (a.2.2 q)⟩

theorem ringKept_refl (s : State) : RingKept s s := fun h => ⟨h, id, id⟩

/-- The parts that the relay's invariants read. -/
def ringParts : List Part := [.lines, .queues, .recent, .sequence, .store]

theorem StoreOk.of_keeps {s t : State} (hs : Keeps .store s t) (h : StoreOk s) : StoreOk t := by
  unfold StoreOk; rw [hs.1, hs.2.1, hs.2.2]; exact h

theorem QueuesOk.of_keeps {s t : State} (hl : Keeps .lines s t) (hq : Keeps .queues s t) (hs : Keeps .store s t) (h : QueuesOk s) :
    QueuesOk t := by
  obtain ⟨⟨a, b, c⟩, d, e, f⟩ := hq
  have hr : ∀ p, (t.port p).references = (s.port p).references := by
    intro p; cases p <;> simp [PortState.references, State.port, a, b, c, d, e, f]
  have hu : ∀ p, (t.port p).up = (s.port p).up := fun p => by cases p; exacts [hl.1, hl.2]
  have hd : ∀ p, (t.port p).sending = (s.port p).sending := fun p => by cases p; exacts [c, f]
  have ha : t.portA.references = s.portA.references := hr .a
  have hb : t.portB.references = s.portB.references := hr .b
  unfold QueuesOk
  simp only [hr, hu, hd, hs.2.1, ha, hb]
  exact h

/-- What leaves the ring relay alone keeps it in order. -/
theorem OnlyChanges.ringKept {ps : List Part} {s t : State} (h : OnlyChanges ps s t) (hp : ∀ p ∈ ringParts, p ∉ ps) : RingKept s t := by
  have fr : ∀ p ∈ ringParts, Keeps p s t := fun p m => h.keeps (hp p m)
  have hst := fr .store (by decide)
  have hrec : t.recent = s.recent := fr .recent (by decide)
  have hown := fr .sequence (by decide)
  refine fun hs => ⟨hs.of_keeps hst, fun l => ?_, fun q => q.of_keeps (fr .lines (by decide)) (fr .queues (by decide)) hst⟩
  unfold TrunkListsOk; rw [hrec, hown.1]; exact l

theorem ringKept_foldl {α : Type} {f : State → α → State} (h : ∀ t x, RingKept t (f t x)) (xs : List α) :
    ∀ s : State, RingKept s (xs.foldl f s) := by
  induction xs with
  | nil => exact ringKept_refl
  | cons x xs ih => exact fun s => (h s x).trans (ih (f s x))

/-! ## Frames of the station's own -/

theorem upPorts_nodup (s : State) : s.upPorts.Nodup := by
  unfold State.upPorts; cases s.portA.up <;> cases s.portB.up <;> decide

theorem originate_ringKept (dest : Nat) (kind : Byte) (express : Bool) (requester : Requester) (payload : List Byte) (s : State) :
    RingKept s (originate dest kind express requester payload s).2 := by
  simp only [originate]
  split
  · exact ringKept_refl s
  · split
    · exact ringKept_refl s
    · rename_i h
      simp only [Bool.or_eq_true, List.isEmpty_iff, decide_eq_true_eq, not_or, not_lt] at h
      intro hs
      have hown := (storeFrame_only (s.ownFrame dest kind express payload) (some requester) s.upPorts
        { s with ownSent := pushCapped Config.ownSentFrames s.ownSent s.seq, seq := s.seq + 1 })
      refine ⟨storeOk_storeFrame (s := { s with ownSent := _, seq := _ }) hs h.2, fun l => ?_, fun q =>
        queuesOk_storeFrame (s := { s with ownSent := _, seq := _ }) hs ?_ (upPorts_nodup s) h.1 fun p hp => ?_⟩
      · obtain ⟨l1, l2, l3⟩ := l
        have a := hown.keeps (p := .recent) (by decide)
        have b := (hown.keeps (p := .sequence) (by decide)).1
        simp only [Keeps] at a
        unfold TrunkListsOk
        rw [a, b]
        refine ⟨l1, l2, ?_⟩
        simp only [pushCapped_length _ _ _ l3]
        exact min_le_left _ _
      · exact q.of_keeps ⟨rfl, rfl⟩ ⟨⟨rfl, rfl, rfl⟩, rfl, rfl, rfl⟩ ⟨rfl, rfl, rfl⟩
      · have := (mem_upPorts s p).1 hp
        cases p <;> exact this

theorem endEvent_ringKept (s : State) : RingKept s (endEvent s) :=
  endEvent_rel (R := RingKept) (fun _ _ _ => RingKept.trans) (fun _ _ h => h.ringKept (by decide))
    (fun d k e p => originate_ringKept d k e _ p) s

theorem event_ringKept {f : State → State} {s : State} (h : ∀ t, RingKept t (f t)) : RingKept s (event f s) :=
  (((beginEvent_only s).ringKept (by decide)).trans (h _)).trans (endEvent_ringKept _)

theorem answer_ringKept (r : Request) (a : Answer) (s : State) : RingKept s (answer r a s) := by
  unfold answer; split
  · exact ringKept_refl s
  · have h := originate_ringKept r.origin replyCodeKind true .requestHandler (replyPayload r a) s
    revert h
    generalize originate r.origin replyCodeKind true .requestHandler (replyPayload r a) s = o
    rcases o with ⟨o, t⟩
    intro h
    cases o
    · exact h.trans ((setFlag_only _ _).ringKept (by decide))
    · exact h

theorem answered_ringKept {apply : Request → State → Answer × State} (h : ∀ r t, RingKept t (apply r t).2) (r : Request) (s : State) :
    RingKept s (answered apply r s) := (h r s).trans (answer_ringKept _ _ _)

theorem carryForward_ringKept {kind : ReqKind} {serve : Request → State → State} (h : ∀ r t, RingKept t (serve r t)) (s : State) :
    RingKept s (carryForward kind serve s) := by
  unfold carryForward; split
  · exact ringKept_refl s
  · rename_i r rest _
    split
    · refine event_ringKept fun t => ?_
      have adm : OnlyChanges [.admitted] t { t with admitted := rest } := by intro p; cases p <;> simp [Keeps]
      refine (adm.ringKept (by decide)).trans ?_
      simp only; split
      · exact (signal_only _ _ _).ringKept (by decide)
      · split
        · exact answer_ringKept _ _ _
        · exact h _ _
    · exact ringKept_refl s

/-- A request whose block leaves the relay alone. -/
theorem carryAnswered_ringKept {kind : ReqKind} {apply : Request → State → Answer × State} {ps : List Part}
    (h : ∀ r t, OnlyChanges ps t (apply r t).2) (hp : ∀ p ∈ ringParts, p ∉ ps) (s : State) :
    RingKept s (carryForward kind (answered apply) s) :=
  carryForward_ringKept (answered_ringKept fun r t => (h r t).ringKept hp) s

/-- A request that only reads. -/
theorem carryRead_ringKept {kind : ReqKind} {apply : Request → State → Answer × State} (h : ∀ r t, (apply r t).2 = t) (s : State) :
    RingKept s (carryForward kind (answered apply) s) :=
  carryAnswered_ringKept (ps := []) (fun r t => by rw [h]; exact onlyChanges_refl _ _) (by simp) s

theorem buildFrame_ringKept (s : State) : RingKept s (buildFrame s).2 := by
  simp only [buildFrame]
  have h := originate_ringKept s.params.target reportCodeKind (((s.fifo.take Config.recordsPerFrame).map (·.record)).any
    Record.isAttention) .reportPacker (BitVec.ofNat 8 ((s.fifo.take Config.recordsPerFrame).map (·.record)).length
      :: ((s.fifo.take Config.recordsPerFrame).map (·.record)).flatMap Record.bytes) s
  revert h
  generalize originate _ _ _ _ _ s = o
  rcases o with ⟨o, t⟩
  intro h
  cases o
  · exact h.trans ((holdCombine_only _).ringKept (by decide))
  · have drop : OnlyChanges [.records] t { t with fifo := t.fifo.drop Config.recordsPerFrame } := by
      intro p; cases p <;> simp [Keeps]
    exact h.trans ((drop.trans (settleCombine_only _)).ringKept (by decide))

theorem buildDue_ringKept (fuel : Nat) : ∀ s : State, RingKept s (buildDue fuel s) := by
  induction fuel with
  | zero => exact ringKept_refl
  | succ n ih =>
    intro s
    simp only [buildDue]; split
    · have h := buildFrame_ringKept s
      revert h
      generalize buildFrame s = o
      rcases o with ⟨o, t⟩
      intro h
      cases o
      · exact h
      · exact h.trans (ih t)
    · exact ringKept_refl s

theorem judgePacker_ringKept (s : State) : RingKept s (judgePacker s) := buildDue_ringKept _ s

/-! ## The branch controllers' replies -/

theorem onBranch_ringKept (b : Branch) (f : BranchState → BranchState) (s : State) : RingKept s (onBranch b f s) := by
  have h : OnlyChanges [.faults, .rosters, .work, .commands, .turns, .scans, .directs, .directShown, .unshown, .keys, .nextTags] s
      (onBranch b f s) := onBranch_only fun x => by simp
  exact h.ringKept (by decide)

theorem finishDirect_ringKept (b : Branch) (code : ReplyCode) (s : State) : RingKept s (finishDirect b code s) := by
  unfold finishDirect; split
  · exact ringKept_refl s
  · exact (onBranch_ringKept _ _ _).trans (answer_ringKept _ _ _)

theorem clearCommand_ringKept (b : Branch) (s : State) : RingKept s (clearCommand b s) := onBranch_ringKept _ _ _

theorem endCommand_ringKept (b : Branch) (c : Command) (s : State) : RingKept s (endCommand b c s) := by
  unfold endCommand; split
  · exact (clearCommand_ringKept _ _).trans ((markUnshown_only _ _ _).ringKept (by decide))
  · exact ((settleOwed_only _ _ _ _).ringKept (by decide)).trans (clearCommand_ringKept _ _)
  · exact onBranch_ringKept _ _ _
  · exact (clearCommand_ringKept _ _).trans (finishDirect_ringKept _ _ _)
  · exact clearCommand_ringKept _ _

theorem retryOrEnd_ringKept (b : Branch) (c : Command) (s : State) : RingKept s (retryOrEnd b c s) := by
  unfold retryOrEnd; split
  · exact onBranch_ringKept _ _ _
  · exact endCommand_ringKept _ _ _

theorem missAttempt_ringKept (b : Branch) (c : Command) (drew : Bool) (s : State) : RingKept s (missAttempt b c drew s) := by
  have sig : RingKept s (signal .moduleMiss none s) := (signal_only _ _ _).ringKept (by decide)
  simp only [missAttempt]; split
  · exact sig.trans (retryOrEnd_ringKept _ _ _)
  · split
    · exact (sig.trans (onBranch_ringKept _ _ _)).trans (endCommand_ringKept _ _ _)
    · split
      · exact ((sig.trans (onBranch_ringKept _ _ _)).trans ((markMissing_only _ _ _).ringKept (by decide))).trans
          (endCommand_ringKept _ _ _)
      · exact (sig.trans (onBranch_ringKept _ _ _)).trans (retryOrEnd_ringKept _ _ _)

theorem acknowledge_ringKept (b : Branch) (c : Command) (s : State) : RingKept s (acknowledge b c s) := by
  have h : RingKept s (clearCommand b (validReply b c.what.addr s)) :=
    ((validReply_only _ _ _).ringKept (by decide)).trans (clearCommand_ringKept _ _)
  unfold acknowledge; simp only; split
  · exact h.trans (finishDirect_ringKept _ _ _)
  all_goals exact h

theorem takePollReply_ringKept (b : Branch) (addr : Nat) (bytes : List Byte) (s : State) :
    RingKept s (takePollReply b addr bytes s) := by
  have lost : ∀ u : State, RingKept u (signal .keysLost none (setFlag .keysLost u)) := fun u =>
    (((setFlag_only _ _).mono (by decide)).trans (signal_only _ _ _)).ringKept (by decide)
  have faulty : ∀ u : State, RingKept u (signal .moduleFault none u) := fun u => (signal_only _ _ _).ringKept (by decide)
  have h : ∀ f, RingKept s (onBranch b f (clearCommand b (validReply b addr s))) := fun f =>
    (((validReply_only _ _ _).ringKept (by decide)).trans (clearCommand_ringKept _ _)).trans (onBranch_ringKept _ _ _)
  simp only [takePollReply]
  split <;> split
  · exact ((h _).trans (lost _)).trans (faulty _)
  · exact (h _).trans (faulty _)
  · exact (h _).trans (lost _)
  · exact h _

theorem startShow_ringKept (pos : SlotPos) (s : State) : RingKept s (startShow pos s) := by
  have h : RingKept s (countShow pos.branch (noteShown pos (advanceTag pos s))) :=
    ((onBranch_ringKept _ _ _).trans (onBranch_ringKept _ _ _)).trans (onBranch_ringKept _ _ _)
  simp only [startShow]; split
  · exact h.trans (onBranch_ringKept _ _ _)
  · exact (h.trans ((setSlot_only _ _).ringKept (by decide))).trans (onBranch_ringKept _ _ _)

theorem sendDirect_ringKept (b : Branch) (d : Direct) (s : State) : RingKept s (sendDirect b d s) := by
  unfold sendDirect; split
  · exact finishDirect_ringKept _ _ _
  · simp only
    refine RingKept.trans ?_ (((onBranch_ringKept _ _ _).trans (onBranch_ringKept _ _ _)).trans (onBranch_ringKept _ _ _))
    split
    · exact ringKept_refl s
    · exact (setSlot_only _ _).ringKept (by decide)

theorem startPoll_ringKept (b : Branch) (isMissingTurn : Bool) (addr : Nat) (s : State) :
    RingKept s (startPoll b isMissingTurn addr s) := by
  simp only [startPoll]
  refine RingKept.trans ?_ (onBranch_ringKept _ _ _)
  exact onBranch_ringKept b (fun x => { x with
      shows := 0
      turn := (x.turn + 1) % 16
      lastAnswering := if isMissingTurn then x.lastAnswering else some addr
      lastMissing := if isMissingTurn then some addr else x.lastMissing
      lastTurn := some s.now }) s

theorem pollTurn_ringKept (b : Branch) (s : State) : RingKept s (pollTurn b s) := by
  have go : ∀ (o : Option Nat) (k : Bool), RingKept s (o.elim s fun addr => startPoll b k addr s) := by
    intro o k; cases o with
    | none => exact ringKept_refl s
    | some addr => exact startPoll_ringKept _ _ _ _
  simp only [pollTurn]; split
  · split
    · exact ringKept_refl s
    · exact go _ _
  · exact go _ _

theorem arbitrate_ringKept (b : Branch) (s : State) : RingKept s (arbitrate b s) := by
  simp only [arbitrate]
  refine (clearCommand_ringKept b s).trans ?_
  split
  · split
    · exact (onBranch_ringKept _ _ _).trans (onBranch_ringKept _ _ _)
    · exact onBranch_ringKept _ _ _
  · split
    · exact sendDirect_ringKept _ _ _
    · split
      · split
        · exact ((onBranch_ringKept _ _ _).trans (onBranch_ringKept _ _ _)).trans (startShow_ringKept _ _)
        · exact ((onBranch_ringKept _ _ _).trans (onBranch_ringKept _ _ _)).trans (pollTurn_ringKept _ _)
      · exact pollTurn_ringKept _ _

theorem abandonCommand_ringKept (b : Branch) (c : Command) (taken : Bool) (s : State) : RingKept s (abandonCommand b c taken s) := by
  unfold abandonCommand; split
  · exact (clearCommand_ringKept _ _).trans ((enqueueSlot_only _ _).ringKept (by decide))
  · exact ((settleOwed_only _ _ _ _).ringKept (by decide)).trans (clearCommand_ringKept _ _)
  · exact clearCommand_ringKept _ _
  · exact (clearCommand_ringKept _ _).trans (finishDirect_ringKept _ _ _)
  · exact clearCommand_ringKept _ _

theorem setFault_ringKept (b : Branch) (stillSending : Bool) (s : State) : RingKept s (setFault b stillSending s) := by
  have mark : RingKept s (setFlag (branchFaultFlag b) (onBranch b (fun x => { x with fault := true }) s)) :=
    (onBranch_ringKept _ _ _).trans ((setFlag_only _ _).ringKept (by decide))
  simp only [setFault]
  refine RingKept.trans (RingKept.trans (mark.trans ?_) ((noticeBranch_only _ _).ringKept (by decide))) (finishDirect_ringKept _ _ _)
  split
  · exact ringKept_refl _
  · split
    · exact ringKept_refl _
    · exact abandonCommand_ringKept _ _ _ _

/-! ## CONFIG_SET (R34) -/

theorem judgeLinger_ringKept (oldBase : Nat) (s : State) : RingKept s (judgeLinger oldBase s) := by
  refine ringKept_foldl (fun t e => ?_) _ s
  simp only; split
  · exact ringKept_refl t
  · split
    · exact (setSlot_only _ _).ringKept (by decide)
    · split
      · split
        · exact event_ringKept fun u => (lingerExpire_only _ u).ringKept (by decide)
        · exact (setSlot_only _ _).ringKept (by decide)
      · split
        · exact (setSlot_only _ _).ringKept (by decide)
        · exact ringKept_refl t
      · exact ringKept_refl t

theorem applyLingerChange_ringKept (old : Params) (s : State) : RingKept s (applyLingerChange old s) := by
  unfold applyLingerChange; split
  · exact judgeLinger_ringKept _ _
  · exact ringKept_refl s

theorem applyCombineChange_ringKept (old : Params) (s : State) : RingKept s (applyCombineChange old s) := by
  unfold applyCombineChange; split
  · exact ((rejudgeCombine_only _).ringKept (by decide)).trans (judgePacker_ringKept _)
  · exact ringKept_refl s

theorem applySilenceChange_ringKept (old : Params) (s : State) : RingKept s (applySilenceChange old s) := by
  have base : RingKept s (if old.silence = 0 ∧ s.params.silence ≠ 0 then { s with silenceSince := s.now } else s) := by
    split
    · refine OnlyChanges.ringKept (ps := [.silence]) ?_ (by decide)
      intro p; cases p <;> simp [Keeps]
    · exact ringKept_refl s
  have judged : ∀ t : State, RingKept s t →
      RingKept s (if t.params.silence ≠ old.silence ∧ t.silenceDue = true then enterOrphaned t else t) := by
    intro t h; split
    · exact h.trans ((enterOrphaned_only _).ringKept (by decide))
    · exact h
  exact judged _ base

theorem judgeModule_ringKept (b : Branch) (addr : Nat) (s : State) : RingKept s (judgeModule b addr s) := by
  unfold judgeModule; split
  · exact ringKept_refl s
  · rename_i m _
    split
    · have h : RingKept s (markMissing b m s) := (markMissing_only b m s).ringKept (by decide)
      simp only; split
      · exact h
      · split
        · exact h.trans (endCommand_ringKept _ _ _)
        · exact h
    · exact ringKept_refl s

theorem applyMissChange_ringKept (old : Params) (s : State) : RingKept s (applyMissChange old s) := by
  unfold applyMissChange; split
  · exact ringKept_refl s
  · exact (ringKept_foldl (fun t addr => judgeModule_ringKept .l addr t) _ s).trans
      (ringKept_foldl (fun t addr => judgeModule_ringKept .r addr t) _ _)

theorem applyConfigSet_ringKept (r : Request) (s : State) : RingKept s (applyConfigSet r s).2 := by
  unfold applyConfigSet; split
  · exact ringKept_refl s
  · have par : OnlyChanges [.params] s { s with params := newParams r s.params } := by intro p; cases p <;> simp [Keeps]
    exact (par.ringKept (by decide)).trans ((((applyLingerChange_ringKept _ _).trans (applyCombineChange_ringKept _ _)).trans
      (applySilenceChange_ringKept _ _)).trans (applyMissChange_ringKept _ _))

/-! ## The trunk's own operations (chapter 1) -/

theorem storeFrame_ringKept {f : Frame} {requester : Option Requester} {p : Port} {s : State} (hu : (s.port p).up = true)
    (hc : cellsFor f.length ≤ s.freeCells) : RingKept s (storeFrame f requester [p] s) := by
  intro hs
  have h := storeFrame_only f requester [p] s
  refine ⟨storeOk_storeFrame hs hc, fun l => ?_, fun q => queuesOk_storeFrame hs q (by simp) (by simp) (by simpa using hu)⟩
  have hr : (storeFrame f requester [p] s).recent = s.recent := h.keeps (p := .recent) (by decide)
  unfold TrunkListsOk
  rw [hr, (h.keeps (p := .sequence) (by decide)).1]
  exact l

theorem dropFrame_ringKept (flag : Option Flag) (s : State) : RingKept s (dropFrame flag s) :=
  (dropFrame_only flag s).ringKept (by decide)

theorem forwardFrame_ringKept (p : Port) (f : Frame) (s : State) : RingKept s (forwardFrame p f s) := by
  simp only [forwardFrame]
  split
  · exact dropFrame_ringKept _ _
  · split
    · exact dropFrame_ringKept _ _
    · split
      · exact dropFrame_ringKept _ _
      · rename_i hu hc
        refine (storeFrame_ringKept (by simpa using hu) ?_).trans ((signal_only _ _ _).ringKept (by decide))
        show cellsFor f.length ≤ s.freeCells
        omega

/-- The recent-frame list takes a pair that it does not hold (R12, R13). -/
theorem TrunkListsOk.push {s : State} {key : Nat × Sequence} (h : TrunkListsOk s) (hk : key ∉ s.recent) :
    TrunkListsOk { s with recent := pushCapped Config.recentFrames s.recent key } := by
  obtain ⟨h1, h2, h3⟩ := h
  refine ⟨?_, ?_, h3⟩
  · simp only [pushCapped_length _ _ _ h1]; exact min_le_left _ _
  · exact (List.Nodup.append h2 (by simp) (by simpa using hk)).sublist (List.drop_sublist _ _)

theorem TrunkListsOk.filter {s : State} (h : TrunkListsOk s) (q : Nat × Sequence → Bool) :
    TrunkListsOk { s with recent := s.recent.filter q } :=
  ⟨(List.length_filter_le _ _).trans h.1, h.2.1.filter _, h.2.2⟩

theorem recent_ringKept {s : State} {xs : List (Nat × Sequence)} (h : TrunkListsOk s → TrunkListsOk { s with recent := xs }) :
    RingKept s { s with recent := xs } := fun hs =>
  ⟨hs, h, fun q => q.of_keeps ⟨rfl, rfl⟩ ⟨⟨rfl, rfl, rfl⟩, rfl, rfl, rfl⟩ ⟨rfl, rfl, rfl⟩⟩

theorem deliverFrame_ringKept (f : Frame) (s : State) : RingKept s (deliverFrame f s) := by
  simp only [deliverFrame]; split
  · exact (recent_ringKept fun l => l.filter _).trans ((signal_only _ _ _).ringKept (by decide))
  · rename_i h
    exact (recent_ringKept fun l => l.push (by simpa using h)).trans
      (((signal_only _ _ _).ringKept (by decide)).trans ((takeDelivery_only _ _).ringKept (by decide)))

theorem disposeFrame_ringKept (p : Port) (f : Frame) (s : State) : RingKept s (disposeFrame p f s) := by
  unfold disposeFrame
  split
  · exact forwardFrame_ringKept p f s
  · split
    · split
      · exact ringKept_refl s
      · exact (setFlag_only _ _).ringKept (by decide)
    · split
      · exact deliverFrame_ringKept f s
      · split
        · exact (deliverFrame_ringKept f s).trans (forwardFrame_ringKept p f _)
        · exact forwardFrame_ringKept p f s

theorem takeArrival_ringKept (p : Port) (s : State) : RingKept s (takeArrival p s) := by
  simp only [takeArrival]
  split
  · exact dropFrame_ringKept _ _
  · split
    · exact dropFrame_ringKept _ _
    · split
      · exact dropFrame_ringKept _ _
      · exact disposeFrame_ringKept _ _ _

/-- A port whose references have been taken from it: they wait to be dropped, and nothing else changes. -/
theorem Named.take {s t : State} {p : Port} {q : PortState} {held : List Nat} (h : Named [] s) (hf : t.frames = s.frames)
    (ht : ∀ r, t.port r = if r = p then q else s.port r) (hp : (held ++ q.references).Perm (s.port p).references) : Named held t := by
  obtain ⟨hport, -, hcount⟩ := h
  have hn : (held ++ q.references).Nodup := hp.nodup_iff.2 (hport p).1
  have hm : ∀ r, r ∈ held ++ q.references → ∃ f ∈ s.frames, f.ref = r := fun r hr => (hport p).2 r (hp.mem_iff.1 hr)
  refine ⟨fun r => ?_, ⟨(List.nodup_append.1 hn).1, fun r hr => hf ▸ hm r (by simp [hr])⟩, fun f hm => ?_⟩
  · rw [ht]; split
    · exact ⟨(List.nodup_append.1 hn).2.1, fun x hx => hf ▸ hm x (by simp [hx])⟩
    · exact hf ▸ hport r
  · have hc := hcount f (hf ▸ hm)
    have hperm := hp.count_eq f.ref
    rw [List.count_append] at hperm
    have ha : t.portA = if Port.a = p then q else s.portA := ht .a
    have hb : t.portB = if Port.b = p then q else s.portB := ht .b
    rw [ha, hb]
    cases p <;> simp_all [State.port] <;> omega

theorem flushPort_ringKept (p : Port) (s : State) : RingKept s (flushPort p s) := by
  intro hs
  have h := flushPort_only p s
  simp only [flushPort] at h ⊢
  generalize he : s.setPort p { s.port p with up := false, sending := none, express := [], normal := [] } = u at h ⊢
  have hstore : Keeps .store s u := by subst he; cases p <;> exact ⟨rfl, rfl, rfl⟩
  have hport : ∀ r, u.port r = if r = p then { s.port p with up := false, sending := none, express := [], normal := [] } else s.port r := by
    intro r; rw [← he, setPort_portIf]
  obtain ⟨a, b⟩ := dropRefs_keep (s.port p).references u (hs.of_keeps hstore)
  refine ⟨a, fun l => ?_, fun q => ?_⟩
  · have hr : _ = s.recent := h.keeps (p := .recent) (by decide)
    unfold TrunkListsOk
    rw [hr, (h.keeps (p := .sequence) (by decide)).1]
    exact l
  · obtain ⟨hnm, hi⟩ := (queuesOk_iff s).1 q
    refine (queuesOk_iff _).2 ⟨b (hnm.take hstore.2.1 hport (by simp [PortState.references])), fun r => ?_⟩
    rw [dropRefs_port, hport]
    split
    · exact fun _ => rfl
    · exact hi r

/-- Starting the next frame of a port names nothing new, and leaves the port empty or sending. -/
theorem startTransmitter_named {held : List Nat} {p : Port} {s : State} (h : Named held s) : Named held (startTransmitter p s) := by
  have hr : ∀ q, ((startTransmitter p s).port q).references = (s.port q).references := by
    intro q
    rw [startTransmitter_port]; split
    · rename_i e; subst e; exact PortState.started_references_eq _
    · rfl
  have hf : (startTransmitter p s).frames = s.frames := ((startTransmitter_only p s).keeps (p := .store) (by decide)).2.1
  have ha : (startTransmitter p s).portA.references = s.portA.references := hr .a
  have hb : (startTransmitter p s).portB.references = s.portB.references := hr .b
  unfold Named
  simp only [hr, hf, ha, hb]
  exact h

theorem startTransmitter_idle {p : Port} {s : State} (hu : (s.port p).up = true)
    (h : ∀ q, q ≠ p → (s.port q).up = false ∨ (s.port q).sending = none → (s.port q).references = []) :
    IdleEmpty (startTransmitter p s) := by
  intro q
  rw [startTransmitter_port]
  split
  · rintro (e | e)
    · simp [hu] at e
    · rw [PortState.started_references_eq]; exact PortState.started_idle hu e
  · rename_i hq; exact h q hq

theorem raisePort_ringKept {p : Port} {s : State} (hd : (s.port p).up = false) : RingKept s (raisePort p s) := by
  intro hs
  have h := raisePort_only p s
  refine ⟨hs.of_keeps (h.keeps (by decide)), fun l => ?_, fun q => ?_⟩
  · have hr : (raisePort p s).recent = s.recent := h.keeps (p := .recent) (by decide)
    unfold TrunkListsOk
    rw [hr, (h.keeps (p := .sequence) (by decide)).1]
    exact l
  · obtain ⟨hn, hi⟩ := (queuesOk_iff s).1 q
    simp only [raisePort]
    generalize hu : ({ clearFlag (linkFlag p) (s.setPort p { s.port p with up := true }) with
      roomNotices := (clearFlag (linkFlag p) (s.setPort p { s.port p with up := true })).roomNotices + 1 } : State) = u
    have hport : ∀ r, u.port r = if r = p then { s.port p with up := true } else s.port r := by
      intro r; subst hu; rw [← setPort_portIf]; cases r <;> rfl
    have hframes : u.frames = s.frames := by subst hu; cases p <;> rfl
    refine (queuesOk_iff _).2 ⟨startTransmitter_named (hn.take hframes hport (by simp [PortState.references])), ?_⟩
    refine startTransmitter_idle (by simp [hport]) fun r hr => ?_
    rw [hport, if_neg hr]; exact hi r

theorem endTransmission_ringKept {p : Port} {ref : Nat} {s : State} (hs : (s.port p).sending = some ref) :
    RingKept s (endTransmission p ref s) := by
  intro hok
  have h := endTransmission_only p ref s
  simp only [endTransmission] at h ⊢
  generalize hu : s.setPort p { s.port p with sending := none } = u at h ⊢
  have hport : ∀ r, u.port r = if r = p then { s.port p with sending := none } else s.port r := by
    intro r; rw [← hu, setPort_portIf]
  have hstore : Keeps .store s u := by subst hu; cases p <;> exact ⟨rfl, rfl, rfl⟩
  have hokU := hok.of_keeps hstore
  refine ⟨(storeOk_dropRef ref hokU).of_keeps ((startTransmitter_only p _).keeps (by decide)), fun l => ?_, fun q => ?_⟩
  · have hr : (startTransmitter p (dropRef ref u)).recent = s.recent := h.keeps (p := .recent) (by decide)
    unfold TrunkListsOk
    rw [hr, (h.keeps (p := .sequence) (by decide)).1]
    exact l
  · obtain ⟨hn, hi⟩ := (queuesOk_iff s).1 q
    have hup : (s.port p).up = true := by
      by_contra hc
      have := hi p (.inl (by simpa using hc))
      simp [PortState.references, hs] at this
    have htake : Named [ref] u := hn.take hstore.2.1 hport (by simp [PortState.references, hs])
    refine (queuesOk_iff _).2 ⟨startTransmitter_named (named_dropRef hokU htake), startTransmitter_idle ?_ fun r hr => ?_⟩
    · rw [dropRef_port, hport, if_pos rfl]; exact hup
    · rw [dropRef_port, hport, if_neg hr]; exact hi r

/-! ## The resets (R39) -/

theorem QueuesOk.empty {s : State} (hf : s.frames = []) (hr : ∀ p, (s.port p).references = []) : QueuesOk s := by
  have ha := hr .a
  have hb := hr .b
  refine ⟨fun p => ?_, by simp [hf]⟩
  rw [hr p]
  exact ⟨List.nodup_nil, by simp, fun _ => rfl⟩

theorem resetState_ringOk (station : Nat) (cause : ResetCause) (lines : LineLevels) (s : State) :
    StoreOk (resetState station cause lines s) ∧ TrunkListsOk (resetState station cause lines s)
      ∧ QueuesOk (resetState station cause lines s) := by
  refine ⟨⟨rfl, List.nodup_nil, ?_⟩, ⟨Nat.zero_le _, List.nodup_nil, Nat.zero_le _⟩, QueuesOk.empty rfl fun p => ?_⟩
  · intro f hf; cases hf
  · cases p <;> rfl

theorem followLines_only (lines : LineLevels) (s : State) : OnlyChanges [.flags, .notes] s (followLines lines s) :=
  (((followFlag_only _ _ _).trans (followFlag_only _ _ _)).trans (followFlag_only _ _ _)).trans (followFlag_only _ _ _)

theorem resetTo_ringKept (station : Nat) (cause : ResetCause) (lines : LineLevels) (s : State) :
    RingKept s (resetTo station cause lines s) := by
  obtain ⟨a, b, c⟩ := resetState_ringOk station cause lines s
  have h : RingKept s (resetState station cause lines s) := fun _ => ⟨a, fun _ => b, fun _ => c⟩
  exact h.trans ((followLines_only _ _).ringKept (by decide))

theorem serveAisleReset_ringKept (lines : LineLevels) (r : Request) (s : State) : RingKept s (serveAisleReset lines r s) := by
  unfold serveAisleReset; split
  · exact resetTo_ringKept _ _ _ _
  · have h := originate_ringKept r.origin replyCodeKind true .requestHandler (replyPayload r (Answer.ok [])) s
    revert h
    generalize originate r.origin replyCodeKind true .requestHandler (replyPayload r (Answer.ok [])) s = o
    rcases o with ⟨o, t⟩
    intro h
    cases o with
    | refused => exact (h.trans ((setFlag_only _ _).ringKept (by decide))).trans (resetTo_ringKept _ _ _ _)
    | accepted ref =>
      have pend : OnlyChanges [.pendingReset] t { t with pendingReset := .awaiting ref } := by intro p; cases p <;> simp [Keeps]
      exact h.trans (pend.ringKept (by decide))

/-! ## Every command -/

theorem event_ringKept_at {f : State → State} {s : State} (h : RingKept (beginEvent s) (f (beginEvent s))) : RingKept s (event f s) :=
  (((beginEvent_only s).ringKept (by decide)).trans h).trans (endEvent_ringKept _)

theorem execFrameArrival_ringKept {p : Port} {bytes : List Byte} {s t : State} (h : execFrameArrival p bytes s = .next t) :
    RingKept s t := by
  simp only [execFrameArrival] at h
  have fill : RingKept s (fillBuffer p bytes s) := (fillBuffer_only p bytes s).ringKept (by decide)
  have free : ∀ u, RingKept u (freeBuffer p u) := fun u => (freeBuffer_only p u).ringKept (by decide)
  split at h <;> rw [next_inj h]
  · exact fill.trans (event_ringKept fun u => (takeArrival_ringKept p u).trans (free _))
  · exact fill.trans (free _)

theorem execLineDown_ringKept {p : Port} {s t : State} (h : execLineDown p s = .next t) : RingKept s t := by
  unfold execLineDown at h
  split at h <;> rw [next_inj h]
  · exact event_ringKept fun u => (flushPort_ringKept p u).trans ((setFlag_only _ _).ringKept (by decide))
  · exact ringKept_refl s

theorem execLineUp_ringKept {p : Port} {s t : State} (h : execLineUp p s = .next t) : RingKept s t := by
  unfold execLineUp at h
  split at h <;> rw [next_inj h]
  · exact ringKept_refl s
  · rename_i hu
    exact event_ringKept_at (raisePort_ringKept (by cases p <;> simpa [beginEvent, State.port] using hu))

theorem execTransmissionEnd_ringKept {p : Port} {s t : State} (h : execTransmissionEnd p s = .next t) : RingKept s t := by
  unfold execTransmissionEnd at h
  split at h <;> rw [next_inj h]
  · exact ringKept_refl s
  · rename_i ref hs
    exact event_ringKept_at (endTransmission_ringKept (by cases p <;> exact hs))

theorem execRoomNoticeBuild_ringKept {s t : State} (h : execRoomNoticeBuild s = .next t) : RingKept s t := by
  unfold execRoomNoticeBuild at h
  split at h <;> rw [next_inj h]
  · exact ringKept_refl s
  · refine event_ringKept fun u => ?_
    have room : OnlyChanges [.roomNotices] u { u with roomNotices := u.roomNotices - 1 } := by intro q; cases q <;> simp [Keeps]
    exact (room.ringKept (by decide)).trans (judgePacker_ringKept _)

theorem execCombineExpiry_ringKept {s t : State} (h : execCombineExpiry s = .next t) : RingKept s t := by
  unfold execCombineExpiry at h
  split at h
  · rw [next_inj h]; exact ringKept_refl s
  · rename_i c _
    split at h <;> rw [next_inj h]
    · refine event_ringKept fun u => ?_
      have timer : OnlyChanges [.records] u { u with combine := some { c with expired := true } } := by
        intro q; cases q <;> simp [Keeps]
      exact (timer.ringKept (by decide)).trans (judgePacker_ringKept _)
    · exact ringKept_refl s

theorem execSoftReset_ringKept {lines : LineLevels} {s t : State} (h : execSoftReset lines s = .next t) : RingKept s t := by
  unfold execSoftReset at h
  split at h <;> rw [next_inj h]
  · exact event_ringKept_at (resetTo_ringKept _ _ _ _)
  · exact ringKept_refl s

theorem execSilenceLimitExpiry_ringKept {s t : State} (h : execSilenceLimitExpiry s = .next t) : RingKept s t := by
  unfold execSilenceLimitExpiry at h
  split at h <;> rw [next_inj h]
  · exact event_ringKept fun u => (enterOrphaned_only u).ringKept (by decide)
  · exact ringKept_refl s

/-- The scheduler's expiries leave the relay alone until the end of the event. -/
theorem execRotationExpiry_ringKept {pos : SlotPos} {s t : State} (h : execRotationExpiry pos s = .next t) : RingKept s t := by
  unfold execRotationExpiry at h
  repeat' split at h
  all_goals rw [next_inj h]
  · exact ringKept_refl s
  · exact ringKept_refl s
  · exact event_ringKept fun u => (rotationExpire_only _ u).ringKept (by decide)
  · exact ringKept_refl s

theorem execFeedbackExpiry_ringKept {pos : SlotPos} {s t : State} (h : execFeedbackExpiry pos s = .next t) : RingKept s t := by
  unfold execFeedbackExpiry at h
  repeat' split at h
  all_goals rw [next_inj h]
  · exact ringKept_refl s
  · exact ringKept_refl s
  · exact event_ringKept fun u =>
      ((setSlot_only _ _).ringKept (by decide)).trans ((renewShadow_only _ _).ringKept (by decide))
  · exact ringKept_refl s

theorem execLingerExpiry_ringKept {pos : SlotPos} {s t : State} (h : execLingerExpiry pos s = .next t) : RingKept s t := by
  unfold execLingerExpiry at h
  repeat' split at h
  all_goals rw [next_inj h]
  · exact ringKept_refl s
  · exact ringKept_refl s
  · exact event_ringKept fun u => (lingerExpire_only _ u).ringKept (by decide)
  · exact ringKept_refl s

theorem execConfirmKey_ringKept {b : Branch} {s t : State} (h : execConfirmKey b s = .next t) : RingKept s t := by
  unfold execConfirmKey at h
  split at h
  · rw [next_inj h]; exact ringKept_refl s
  · split at h <;> rw [next_inj h]
    · exact event_ringKept fun u =>
        ((takeKey_only b _ u).ringKept (by decide)).trans ((takeConfirm_only _ _).ringKept (by decide))
    · exact ringKept_refl s

theorem execAdjustKey_ringKept {b : Branch} {s t : State} (h : execAdjustKey b s = .next t) : RingKept s t := by
  unfold execAdjustKey at h
  split at h
  · rw [next_inj h]; exact ringKept_refl s
  · split at h <;> rw [next_inj h]
    · exact ringKept_refl s
    · exact event_ringKept fun u =>
        ((takeKey_only b _ u).ringKept (by decide)).trans ((takeAdjust_only _ _).ringKept (by decide))

theorem execBranchArbiter_ringKept {b : Branch} {s t : State} (h : execBranchArbiter b s = .next t) : RingKept s t := by
  unfold execBranchArbiter at h
  split at h <;> rw [next_inj h]
  · exact event_ringKept fun u => arbitrate_ringKept b u
  · exact ringKept_refl s

theorem execMissingTurnSpacing_ringKept {b : Branch} {s t : State} (h : execMissingTurnSpacing b s = .next t) : RingKept s t := by
  simp only [execMissingTurnSpacing] at h
  split at h <;> rw [next_inj h]
  · exact event_ringKept fun u => arbitrate_ringKept b u
  · exact ringKept_refl s

theorem execShowAcknowledge_ringKept {b : Branch} {bytes : List Byte} {s t : State} (h : execShowAcknowledge b bytes s = .next t) :
    RingKept s t := by
  unfold execShowAcknowledge at h
  repeat' split at h
  all_goals rw [next_inj h]
  · exact ringKept_refl s
  · exact event_ringKept fun u => acknowledge_ringKept _ _ u
  · exact ringKept_refl s

theorem execPollReply_ringKept {b : Branch} {bytes : List Byte} {s t : State} (h : execPollReply b bytes s = .next t) :
    RingKept s t := by
  unfold execPollReply at h
  split at h
  · rw [next_inj h]; exact ringKept_refl s
  · split at h
    · split at h <;> rw [next_inj h]
      · exact event_ringKept fun u => takePollReply_ringKept _ _ _ u
      · exact ringKept_refl s
    all_goals rw [next_inj h]; exact ringKept_refl s

theorem execIdentReply_ringKept {b : Branch} {bytes : Option (List Byte)} {s t : State} (h : execIdentReply b bytes s = .next t) :
    RingKept s t := by
  unfold execIdentReply at h
  repeat' split at h
  all_goals rw [next_inj h]
  · exact ringKept_refl s
  · exact event_ringKept fun u => (identAnswered_only _ _ _ u).ringKept (by decide)
  · exact ringKept_refl s
  · exact event_ringKept fun u => (identUnanswered_only _ _ u).ringKept (by decide)
  · exact ringKept_refl s
  · exact ringKept_refl s

theorem execInvalidReply_ringKept {b : Branch} {cutOff : Bool} {bytes : List Byte} {s t : State}
    (h : execInvalidReply b cutOff bytes s = .next t) : RingKept s t := by
  unfold execInvalidReply at h
  repeat' split at h
  all_goals rw [next_inj h]
  · exact ringKept_refl s
  · exact event_ringKept fun u => missAttempt_ringKept _ _ _ u
  · exact ringKept_refl s

theorem execReplyTimeout_ringKept {b : Branch} {s t : State} (h : execReplyTimeout b s = .next t) : RingKept s t := by
  unfold execReplyTimeout at h
  split at h <;> rw [next_inj h]
  · exact ringKept_refl s
  · exact event_ringKept fun u => missAttempt_ringKept _ _ _ u

theorem execBranchFaultSet_ringKept {b : Branch} {stillSending : Bool} {s t : State}
    (h : execBranchFaultSet b stillSending s = .next t) : RingKept s t := by
  unfold execBranchFaultSet at h
  split at h <;> rw [next_inj h]
  · exact ringKept_refl s
  · exact event_ringKept fun u => setFault_ringKept b stillSending u

theorem execBranchFaultClear_ringKept {b : Branch} {s t : State} (h : execBranchFaultClear b s = .next t) : RingKept s t := by
  unfold execBranchFaultClear at h
  split at h <;> rw [next_inj h]
  · exact event_ringKept fun u => ((onBranch_ringKept _ _ _).trans ((clearFlag_only _ _).ringKept (by decide))).trans
      ((noticeBranch_only _ _).ringKept (by decide))
  · exact ringKept_refl s

theorem execLampDirect_ringKept {s t : State} (h : execLampDirect s = .next t) : RingKept s t := by
  rw [next_inj h]
  refine carryForward_ringKept (fun r u => ?_) s
  unfold serveLampDirect; split
  · exact answer_ringKept _ _ _
  · exact onBranch_ringKept _ _ _

theorem execRightsSet_ringKept {s t : State} (h : execRightsSet s = .next t) : RingKept s t := by
  rw [next_inj h]
  refine carryAnswered_ringKept (ps := [.rights]) (fun r u => ?_) (by decide) s
  unfold applyRightsSet; split
  · exact onlyChanges_refl _ _
  · intro p; cases p <;> simp [Keeps]

theorem execCounterSet_ringKept {s t : State} (h : execCounterSet s = .next t) : RingKept s t := by
  rw [next_inj h]
  refine carryAnswered_ringKept (ps := [.counters]) (fun r u => ?_) (by decide) s
  unfold applyCounterSet; split
  · intro p; cases p <;> simp [Keeps]
  · exact onlyChanges_refl _ _

/-- TIME_SET, ATTENTION_MASK and ATTENTION_CLEAR change the clock, the mask and the flags. -/
theorem execSettings_ringKept {s t : State}
    (h : execTimeSet s = .next t ∨ execAttentionMask s = .next t ∨ execAttentionClear s = .next t) : RingKept s t := by
  have one : ∀ {kind : ReqKind} {apply : Request → State → Answer × State},
      (∀ r u, OnlyChanges [.clock, .mask, .flags] u (apply r u).2) → RingKept s (carryForward kind (answered apply) s) :=
    fun ha => carryAnswered_ringKept ha (by decide) s
  rcases h with h | h | h <;> rw [next_inj h] <;> refine one fun r u p => ?_
  · cases p <;> simp [Keeps, applyTimeSet]
  · cases p <;> simp [Keeps, applyAttentionMask]
  · cases p <;> simp [Keeps, applyAttentionClear]

theorem execBranchScan_ringKept {s t : State} (h : execBranchScan s = .next t) : RingKept s t := by
  rw [next_inj h]
  refine carryForward_ringKept (answered_ringKept fun r u => ?_) s
  unfold applyBranchScan; split
  · exact ringKept_refl u
  · split
    · exact ringKept_refl u
    · exact (onBranch_ringKept _ _ _).trans ((setScanning_only _ _ _).ringKept (by decide))

theorem execTaskQuery_ringKept {s t : State} (h : execTaskQuery s = .next t) : RingKept s t := by
  rw [next_inj h]
  refine carryRead_ringKept (fun r u => ?_) s
  unfold applyTaskQuery; repeat' split
  all_goals rfl

theorem execPickerRead_ringKept {s t : State} (h : execPickerRead s = .next t) : RingKept s t := by
  rw [next_inj h]
  refine carryRead_ringKept (fun r u => ?_) s
  unfold applyPickerRead; repeat' split
  all_goals rfl

theorem execRosterRead_ringKept {s t : State} (h : execRosterRead s = .next t) : RingKept s t := by
  rw [next_inj h]
  refine carryRead_ringKept (fun r u => ?_) s
  unfold applyRosterRead; repeat' split
  all_goals rfl

/-- Every command keeps the ring relay in order. -/
theorem exec_ringKept (c : Instr) (s t : State) (h : exec c s = .next t) : RingKept s t := by
  have read : ∀ {kind apply}, (∀ r u, (apply r u).2 = u) → t = carryForward kind (answered apply) s → RingKept s t :=
    fun ha e => e ▸ carryRead_ringKept ha s
  have block : ∀ {kind apply ps}, (∀ r u, OnlyChanges ps u (apply r u).2) → (∀ p ∈ ringParts, p ∉ ps) →
      t = carryForward kind (answered apply) s → RingKept s t := fun ha hp e => e ▸ carryAnswered_ringKept ha hp s
  cases c with
  | powerOn straps lines => rw [next_inj h]; exact event_ringKept fun u => resetTo_ringKept _ _ _ u
  | resetPin straps lines => rw [next_inj h]; exact event_ringKept fun u => resetTo_ringKept _ _ _ u
  | softReset lines => exact execSoftReset_ringKept h
  | lineDown p => exact execLineDown_ringKept h
  | lineUp p => exact execLineUp_ringKept h
  | frameArrival p bytes => exact execFrameArrival_ringKept h
  | transmissionEnd p => exact execTransmissionEnd_ringKept h
  | roomNoticeBuild => exact execRoomNoticeBuild_ringKept h
  | taskPost => exact block applyTaskPost_only (by decide) (next_inj h)
  | taskCancel => exact block applyTaskCancel_only (by decide) (next_inj h)
  | taskAmend => exact block applyTaskAmend_only (by decide) (next_inj h)
  | taskQuery => exact execTaskQuery_ringKept h
  | pickerSet => exact block applyPickerSet_only (by decide) (next_inj h)
  | pickerPause => exact block (setPickerState_only .paused) (by decide) (next_inj h)
  | pickerResume => exact block (setPickerState_only .active) (by decide) (next_inj h)
  | pickerLeave => exact block applyPickerLeave_only (by decide) (next_inj h)
  | pickerRead => exact execPickerRead_ringKept h
  | areaLock => exact block applyAreaLock_only (by decide) (next_inj h)
  | areaUnlock => exact block applyAreaUnlock_only (by decide) (next_inj h)
  | mapLoad => exact block applyMapLoad_only (by decide) (next_inj h)
  | mapRemove => exact block applyMapRemove_only (by decide) (next_inj h)
  | mapRead => exact read (apply := applyMapRead) (fun _ _ => rfl) (next_inj h)
  | configSet => rw [next_inj h]; exact carryForward_ringKept (answered_ringKept applyConfigSet_ringKept) s
  | configRead => exact read (apply := applyConfigRead) (fun _ _ => rfl) (next_inj h)
  | rightsSet => exact execRightsSet_ringKept h
  | timeSet => exact execSettings_ringKept (.inl h)
  | counterSet => exact execCounterSet_ringKept h
  | counterRead => exact read (apply := applyCounterRead) (fun _ _ => rfl) (next_inj h)
  | attentionMask => exact execSettings_ringKept (.inr (.inl h))
  | attentionClear => exact execSettings_ringKept (.inr (.inr h))
  | attentionRead => exact read (apply := applyAttentionRead) (fun _ _ => rfl) (next_inj h)
  | statusRead => exact read (apply := applyStatusRead) (fun _ _ => rfl) (next_inj h)
  | rosterRead => exact execRosterRead_ringKept h
  | branchScan => exact execBranchScan_ringKept h
  | lampDirect => exact execLampDirect_ringKept h
  | aisleReset lines => rw [next_inj h]; exact carryForward_ringKept (serveAisleReset_ringKept lines) s
  | silenceLimitExpiry => exact execSilenceLimitExpiry_ringKept h
  | rotationExpiry pos => exact execRotationExpiry_ringKept h
  | feedbackExpiry pos => exact execFeedbackExpiry_ringKept h
  | lingerExpiry pos => exact execLingerExpiry_ringKept h
  | combineExpiry => exact execCombineExpiry_ringKept h
  | confirmKey b => exact execConfirmKey_ringKept h
  | adjustKey b => exact execAdjustKey_ringKept h
  | aisleClockAdvance => exact (execAisleClockAdvance_only h).ringKept (by decide)
  | branchArbiter b => exact execBranchArbiter_ringKept h
  | missingTurnSpacing b => exact execMissingTurnSpacing_ringKept h
  | showAcknowledge b bytes => exact execShowAcknowledge_ringKept h
  | pollReply b bytes => exact execPollReply_ringKept h
  | identReply b bytes => exact execIdentReply_ringKept h
  | invalidReply b cutOff bytes => exact execInvalidReply_ringKept h
  | replyTimeout b => exact execReplyTimeout_ringKept h
  | branchFaultSet b stillSending => exact execBranchFaultSet_ringKept h
  | branchFaultClear b => exact execBranchFaultClear_ringKept h

theorem step_ringKept {s t : State} (h : step s = .next t) : RingKept s t := by
  unfold step at h
  split at h
  · rw [next_inj h]; exact (tick_only s).ringKept (by decide)
  · rename_i c rest _
    have wait : OnlyChanges [.waiting] s { s with pending := rest } := by intro p; cases p <;> simp [Keeps]
    exact (wait.ringKept (by decide)).trans (exec_ringKept c _ t h)

/-- Settles O53: each command's own effect and the end of its event keep the relay in order. -/
theorem everyStepKeepsStore : Obligations.EveryStepKeepsStore := fun _ _ hs h => step_ringKept h hs

end Sys2Proof.Machine

/-!
PROOFS. The state after reset: its values (O3) and the properties that every step keeps (O60).
-/

namespace Sys2Proof.Machine

open Sys2Proof

/-- Settles O3: each value stands in State.reset as the manual gives it. -/
theorem resetValues : Obligations.ResetValues := by
  refine ⟨⟨rfl, rfl, rfl, rfl, rfl⟩, ⟨rfl, rfl⟩, ⟨rfl, rfl, rfl⟩, rfl, rfl, rfl, rfl⟩

theorem reset_ring : StoreOk State.reset ∧ TrunkListsOk State.reset ∧ QueuesOk State.reset := by
  refine ⟨⟨rfl, List.nodup_nil, ?_⟩, ⟨Nat.zero_le _, List.nodup_nil, Nat.zero_le _⟩, QueuesOk.empty rfl fun p => ?_⟩
  · intro f hf; cases hf
  · cases p <;> rfl

theorem reset_tables : MapOk State.reset ∧ RightsOk State.reset ∧ PickersOk State.reset ∧ ParamsOk State.reset.params := by
  unfold MapOk RightsOk PickersOk ParamsOk
  refine ⟨?_, ?_, ?_, ?_⟩ <;> decide

theorem reset_work :
    TasksOk State.reset ∧ GroupsOk State.reset ∧ LiveFlagsOk State.reset ∧ PackerOk State.reset ∧ State.reset.residue < 16000 := by
  unfold TasksOk GroupsOk LiveFlagsOk PackerOk
  refine ⟨?_, ?_, ?_, ?_, ?_⟩ <;> decide

theorem reset_links : LinksOk State.reset := by
  unfold LinksOk; decide

/-- A branch right after reset has no module, no work and a scan from address 1 on (R151, R164). -/
theorem branchReset_ok (b : Branch) : BranchOk b BranchState.reset := by
  refine ⟨⟨List.nodup_nil, ?_⟩, List.Pairwise.nil, ?_, ⟨Nat.zero_le _, by decide, List.length_replicate⟩, ?_, ?_, ?_,
    ⟨List.nodup_nil, ?_⟩, ⟨List.nodup_nil, ?_⟩, ?_⟩
  · intro p hp; cases hp
  · intro m hm; cases hm
  · rintro sc hsc; cases hsc; decide
  · intro c hc; cases hc
  · intro d hd; cases hd
  · intro p hp; cases hp
  · intro p hp; cases hp
  · intro c pos d tag hc; cases hc

theorem reset_slots : SlotsOk State.reset := by
  refine ⟨List.nodup_nil, fun _ => rfl, ?_, ?_⟩
  · intro x hx; cases hx
  · intro g hg; cases hg

theorem reset_display : DisplayOk State.reset := by
  intro e he; cases he

/-- Settles O60: the tables are empty, and the rest is at values in range. -/
theorem resetHasEveryInvariant : Obligations.ResetHasEveryInvariant :=
  ⟨reset_ring, reset_tables, reset_work, reset_links, ⟨branchReset_ok .l, branchReset_ok .r, rfl, rfl⟩, reset_slots, reset_display⟩

end Sys2Proof.Machine

/-!
PROOFS. A frame's bytes and back (O52).
-/

namespace Sys2Proof.Machine

open Sys2Proof

/-! ## Numbers in bytes (chapter 11) -/

theorem fieldAt_append (xs ys : List Byte) (n : Nat) : fieldAt (xs ++ ys) xs.length n = fieldAt ys 0 n := by
  simp [fieldAt]

/-- A number that two bytes hold is read back from them. -/
theorem beNat_beBytes_two {v : Nat} (h : v < 65536) : beNat (beBytes 2 v) = v := by
  simp [beBytes, beNat, BitVec.toNat_ofNat]; omega

theorem byte3_fields (f : Frame) (hh : f.hop < 64) :
    f.byte3.toNat = (if f.express then 128 else 0) + (if f.spare then 64 else 0) + f.hop := by
  simp only [Frame.byte3, BitVec.toNat_ofNat]
  cases f.express <;> cases f.spare <;> simp <;> omega

theorem body_length (f : Frame) : f.body.length = 7 + f.payload.length := by
  simp [Frame.body, beBytes]; omega

theorem bytes_length (f : Frame) : f.bytes.length = 9 + f.payload.length := by
  simp [Frame.bytes, body_length, beBytes]; omega

/-- The seven header bytes of a frame, its payload and its check. -/
theorem bytes_eq (f : Frame) : f.bytes =
    BitVec.ofNat 8 f.dest :: BitVec.ofNat 8 f.origin :: f.kind :: f.byte3 :: BitVec.ofNat 8 (f.seq.toNat / 256)
      :: BitVec.ofNat 8 f.seq.toNat :: BitVec.ofNat 8 f.payload.length :: (f.payload ++ beBytes 2 (crc16 f.body).toNat) := by
  simp [Frame.bytes, Frame.body, beBytes]

theorem payloadLengthField_bytes (f : Frame) (hl : f.payload.length ≤ 247) : payloadLengthField f.bytes = f.payload.length := by
  rw [bytes_eq]
  simp [payloadLengthField, fieldAt, beNat]; omega

theorem ofBytes_bytes (f : Frame) (hd : f.dest < 256) (ho : f.origin < 256) (hh : f.hop < 64) (hl : f.payload.length ≤ 247) :
    Frame.ofBytes f.bytes = f := by
  have h3 : fieldAt f.bytes 3 1 = f.byte3.toNat := by rw [bytes_eq]; simp [fieldAt, beNat]
  have hp : (f.bytes.drop 7).take f.payload.length = f.payload := by rw [bytes_eq]; simp
  have hs : fieldAt f.bytes 4 2 = f.seq.toNat := by
    rw [bytes_eq]; simp [fieldAt, beNat]; omega
  have e0 : fieldAt f.bytes 0 1 = f.dest := by rw [bytes_eq]; simp [fieldAt, beNat]; omega
  have e1 : fieldAt f.bytes 1 1 = f.origin := by rw [bytes_eq]; simp [fieldAt, beNat]; omega
  have e2 : fieldAt f.bytes 2 1 = f.kind.toNat := by rw [bytes_eq]; simp [fieldAt, beNat]
  simp only [Frame.ofBytes, payloadLengthField_bytes f hl, h3, hp, hs, e0, e1, e2, byte3_fields f hh]
  rcases f with ⟨d, o, k, e, sp, hop, sq, pl⟩
  cases e <;> cases sp <;> simp at hh ⊢ <;> omega

/-- Settles O52: the fields stand at fixed places, and the check is computed over the same bytes. -/
theorem frameRoundTrip : Obligations.FrameRoundTrip := by
  intro f hd ho hh hl
  have hlen := bytes_length f
  have hfield := payloadLengthField_bytes f hl
  refine ⟨hlen, ?_, ?_, ofBytes_bytes f hd ho hh hl⟩
  · simp [RxBuffer.lengthFault, hfield, hlen]; omega
  · have hbody : f.bytes.take (7 + f.payload.length) = f.body := by
      rw [Frame.bytes, ← body_length, List.take_left']; rfl
    have hcheck : fieldAt f.bytes (7 + f.payload.length) 2 = (crc16 f.body).toNat := by
      rw [Frame.bytes, ← body_length, fieldAt_append]
      exact beNat_beBytes_two (crc16 f.body).isLt
    simp [RxBuffer.checkOk, hfield, hbody, hcheck]

end Sys2Proof.Machine

/-!
PROOFS. Recomputing locations leaves them on the display as their queues give them (R97, R99, R102).
-/

namespace Sys2Proof.Machine

open Sys2Proof

/-! ## Groups changed in place -/

/-- A change of groups that leaves what queues and sets are made of: id, picker and location. -/
def PlaceKept (φ : Group → Group) : Prop := ∀ g, (φ g).id = g.id ∧ (φ g).picker = g.picker ∧ (φ g).loc = g.loc

theorem queueOf_map {s t : State} {φ : Group → Group} (hφ : PlaceKept φ) (hg : t.groups = s.groups.map φ) (hp : t.pickers = s.pickers)
    (code : Nat) : t.queueOf code = (s.queueOf code).map φ := by
  have hpr : ∀ id, t.priorityOf id = s.priorityOf id := fun id => by simp only [State.priorityOf, State.pickerOf, hp]
  simp only [State.queueOf, hg, hpr, List.filter_map, List.map_flatMap]
  congr 1; funext k
  congr 2
  · funext g; simp [(hφ g).2.1]
  · congr 1; funext g; simp [(hφ g).2.2]

theorem rotationSet_map {φ : Group → Group} (hφ : PlaceKept φ) (gs : List Group) : rotationSet (gs.map φ) = (rotationSet gs).map φ := by
  have step : ∀ (xs chosen : List Group), (xs.map φ).foldl
      (fun (chosen : List Group) (g : Group) =>
        if chosen.length < Config.rotationGroups && !chosen.any (fun c => c.picker == g.picker) then chosen ++ [g] else chosen)
        (chosen.map φ)
      = (xs.foldl (fun (chosen : List Group) (g : Group) =>
        if chosen.length < Config.rotationGroups && !chosen.any (fun c => c.picker == g.picker) then chosen ++ [g] else chosen)
        chosen).map φ := by
    intro xs
    induction xs with
    | nil => exact fun _ => rfl
    | cons x xs ih =>
      intro chosen
      have hany : (chosen.map φ).any (fun c => c.picker == (φ x).picker) = chosen.any (fun c => c.picker == x.picker) := by
        simp only [List.any_map, (hφ x).2.1]
        congr 1; funext c; simp [(hφ c).2.1]
      simp only [List.map_cons, List.foldl_cons, List.length_map, hany]
      rw [← ih]
      congr 1
      split <;> simp
  exact step gs []

/-- What a group's eligibility reads, the groups aside. -/
def EligibilityKept (s t : State) : Prop :=
  t.locked = s.locked ∧ t.pickers = s.pickers ∧ t.orphaned = s.orphaned ∧ Keeps .faults s t ∧ Keeps .rosters s t

theorem EligibilityKept.eligible {s t : State} (h : EligibilityKept s t) (e : MapEntry) (g : Group) : t.eligible e g = s.eligible e g :=
  eligible_congr h.1 h.2.1 h.2.2.1 h.2.2.2.1 h.2.2.2.2 e g

theorem eligible_picker (s : State) (e : MapEntry) {g h : Group} (hp : g.picker = h.picker) : s.eligible e g = s.eligible e h := by
  simp only [State.eligible, hp]

theorem rotationIds_map {s t : State} {φ : Group → Group} (hφ : PlaceKept φ) (hg : t.groups = s.groups.map φ)
    (he : EligibilityKept s t) (e : MapEntry) : t.rotationIds e = s.rotationIds e := by
  have hel : ∀ g, t.eligible e (φ g) = s.eligible e g := fun g =>
    (he.eligible e _).trans (eligible_picker s e (hφ g).2.1)
  simp only [State.rotationIds, queueOf_map hφ hg he.2.1, List.filter_map]
  rw [show (t.eligible e ∘ φ) = s.eligible e from funext hel, rotationSet_map hφ, List.map_map]
  exact List.map_congr_left fun g _ => (hφ g).1

/-! ## The set of a location -/

theorem rotationSet_subset (gs : List Group) : rotationSet gs ⊆ gs := by
  have step : ∀ (xs chosen : List Group), xs.foldl
      (fun (chosen : List Group) (g : Group) =>
        if chosen.length < Config.rotationGroups && !chosen.any (fun c => c.picker == g.picker) then chosen ++ [g] else chosen)
        chosen ⊆ chosen ++ xs := by
    intro xs
    induction xs with
    | nil => simp
    | cons x xs ih =>
      intro chosen
      refine List.Subset.trans (ih _) ?_
      simp only
      split
      · simp
      · intro g hg
        rcases List.mem_append.1 hg with h | h
        · simp [h]
        · simp [h]
  simpa [rotationSet] using step gs []

/-- A group of a location's set is an eligible group of that location (R97). -/
theorem mem_rotationIds {s : State} {e : MapEntry} {i : Nat} (h : i ∈ s.rotationIds e) :
    ∃ g ∈ s.groups, g.id = i ∧ g.loc = e.code ∧ s.eligible e g = true := by
  obtain ⟨g, hg, rfl⟩ := List.mem_map.1 h
  obtain ⟨hq, hel⟩ := List.mem_filter.1 (rotationSet_subset _ hg)
  simp only [State.queueOf, List.mem_flatMap, List.mem_filter] at hq
  obtain ⟨k, -, ⟨hm, hl⟩, -⟩ := hq
  exact ⟨g, hm, rfl, by simpa using hl, hel⟩

theorem group_unique {s : State} (hn : (s.groups.map (·.id)).Nodup) {g h : Group} (hg : g ∈ s.groups) (hh : h ∈ s.groups)
    (he : g.id = h.id) : g = h := List.inj_on_of_nodup_map hn hg hh he

/-! ## One location recomputed (R99) -/

/-- A group after the recomputation of a location. -/
def settledAt (e : MapEntry) (s : State) (g : Group) : Group :=
  if g.loc = e.code then settleGroup (s.rotationIds e) (s.eligible e g) s.clock g else g

theorem settleGroup_place (ids : List Nat) (el : Bool) (c : ClockValue) : PlaceKept (settleGroup ids el c) := by
  intro g; unfold settleGroup; split <;> exact ⟨rfl, rfl, rfl⟩

theorem settledAt_place (e : MapEntry) (s : State) : PlaceKept (settledAt e s) := by
  intro g; unfold settledAt; split
  · exact settleGroup_place _ _ _ g
  · exact ⟨rfl, rfl, rfl⟩

theorem recompute_unmapped {e : MapEntry} {s : State} (h : s.slotAt e.pos = none) : recompute e s = s := by
  unfold recompute; rw [h]

theorem renewShadow_groups (pos : SlotPos) (s : State) : (renewShadow pos s).groups = s.groups :=
  (renewShadow_only pos s).keeps (p := .groups) (by decide)

theorem settlePosition_mem {ids : List Nat} {old : Option Nat} {i : Nat} (h : settlePosition ids old = some i) : i ∈ ids := by
  unfold settlePosition at h
  split at h
  · split at h
    · rename_i hc; cases h; simpa using hc
    · exact List.mem_of_head? h
  · exact List.mem_of_head? h

/-- A recomputation settles the groups and then derives the shadow of a slot that holds the new set (R99). -/
theorem recompute_eq {e : MapEntry} {s : State} {x : SlotState} (h : s.slotAt e.pos = some x) :
    ∃ y : SlotState, recompute e s = renewShadow e.pos (State.setSlot { s with groups := s.groups.map (settledAt e s) } y)
      ∧ y.pos = e.pos ∧ y.rotation = s.rotationIds e ∧ y.position = settlePosition (s.rotationIds e) x.position := by
  have hx := slotAt_pos h
  unfold recompute
  rw [h]
  exact ⟨_, rfl, hx, rfl, rfl⟩

/-- What a recomputation leaves in the slot: the set of the queue, a position within it, and the shadow derived. -/
theorem recompute_slotAt {e : MapEntry} {s : State} {x : SlotState} (h : s.slotAt e.pos = some x) :
    (recompute e s).groups = s.groups.map (settledAt e s) ∧
    ∃ y, (recompute e s).slotAt e.pos = some y ∧ y.rotation = s.rotationIds e
      ∧ (∀ i, y.position = some i → i ∈ y.rotation) ∧ y.shadow = (recompute e s).deriveShadow y := by
  obtain ⟨y, heq, hp, hrot, hpos⟩ := recompute_eq h
  rw [heq]
  generalize hu : ({ s with groups := s.groups.map (settledAt e s) } : State) = u
  have hsome : (u.slotAt y.pos).isSome = true := by subst hu; rw [hp]; exact congrArg Option.isSome h
  have hset := setSlot_slotAt hsome
  rw [hp] at hset
  obtain ⟨hr, -, -⟩ := renewShadow_slotAt hset
  refine ⟨by rw [renewShadow_groups]; subst hu; rfl, _, hr, hrot, fun i hi => ?_, ?_⟩
  · exact hrot ▸ settlePosition_mem (hpos ▸ hi)
  · have k := renewShadow_only e.pos (u.setSlot y)
    rw [deriveShadow_shadow]
    exact (deriveShadow_congr (k.keeps (p := .groups) (by decide)) (k.keeps (p := .pickers) (by decide))
      (k.keeps (p := .locations) (by decide)) y).symm

theorem recompute_eligibilityKept (e : MapEntry) (s : State) : EligibilityKept s (recompute e s) :=
  have h := recompute_only e s
  ⟨h.keeps (p := .areas) (by decide), h.keeps (p := .pickers) (by decide), h.keeps (p := .orphaned) (by decide),
    h.keeps (p := .faults) (by decide), h.keeps (p := .rosters) (by decide)⟩

/-- A recomputation changes groups in place, those of its location alone. -/
theorem recompute_groups (e : MapEntry) (s : State) :
    ∃ φ, PlaceKept φ ∧ (recompute e s).groups = s.groups.map φ ∧ ∀ g, g.loc ≠ e.code → φ g = g := by
  cases h : s.slotAt e.pos with
  | none => exact ⟨id, fun _ => ⟨rfl, rfl, rfl⟩, by rw [recompute_unmapped h, List.map_id], fun _ _ => rfl⟩
  | some x => exact ⟨settledAt e s, settledAt_place e s, (recompute_slotAt h).1, fun g hg => by simp [settledAt, hg]⟩

theorem recompute_ids (e : MapEntry) (s : State) : (recompute e s).groups.map (·.id) = s.groups.map (·.id) := by
  obtain ⟨φ, hφ, hg, -⟩ := recompute_groups e s
  rw [hg, List.map_map]
  exact List.map_congr_left fun g _ => (hφ g).1

theorem recompute_mem_other {e : MapEntry} {s : State} {g : Group} (h : e.code ≠ g.loc) :
    g ∈ (recompute e s).groups ↔ g ∈ s.groups := by
  obtain ⟨φ, hφ, hg, hother⟩ := recompute_groups e s
  rw [hg, List.mem_map]
  constructor
  · rintro ⟨k, hk, rfl⟩
    rw [(hφ k).2.2] at h
    rwa [hother k (Ne.symm h)]
  · exact fun hm => ⟨g, hm, hother g (Ne.symm h)⟩

/-- A location on the display as its queue gives it, its position within the set. -/
def Settled (e : MapEntry) (t : State) : Prop :=
  Displayed e t ∧ ∀ y, t.slotAt e.pos = some y → ∀ i, y.position = some i → i ∈ y.rotation

/-- A recomputed location stands on the display as its queue gives it (R99). -/
theorem recompute_settled {e : MapEntry} {s : State} (hn : (s.groups.map (·.id)).Nodup) : Settled e (recompute e s) := by
  cases h : s.slotAt e.pos with
  | none =>
    rw [recompute_unmapped h]
    exact ⟨fun y hy => by simp [h] at hy, fun y hy => by simp [h] at hy⟩
  | some x =>
    obtain ⟨hg, y, hy, hrot, hpos, hsh⟩ := recompute_slotAt h
    have hel := recompute_eligibilityKept e s
    have hids := rotationIds_map (settledAt_place e s) hg hel e
    refine ⟨fun z hz => ?_, fun z hz => ?_⟩
    · obtain rfl : y = z := Option.some.inj (hy.symm.trans hz)
      refine ⟨hrot.trans hids.symm, hsh, fun g hgm hloc => ?_⟩
      rw [hg, List.mem_map] at hgm
      obtain ⟨k, hk, rfl⟩ := hgm
      rw [(settledAt_place e s k).2.2] at hloc
      rw [hel.eligible, eligible_picker s e (settledAt_place e s k).2.1, (settledAt_place e s k).1, hrot]
      simp only [settledAt, if_pos hloc, settleGroup]
      by_cases hc : k.id ∈ s.rotationIds e
      · obtain ⟨j, hj, hid, -, hje⟩ := mem_rotationIds hc
        obtain rfl := group_unique hn hj hk hid
        simp [hc, hje]
      · cases hs : s.eligible e k <;> simp [hc]
    · obtain rfl : y = z := Option.some.inj (hy.symm.trans hz)
      exact hpos

/-- The recomputation of one location leaves another on the display as it was. -/
theorem Settled.recompute_other {e d : MapEntry} {s : State} (hn : (s.groups.map (·.id)).Nodup) (h : Settled e s)
    (hc : d.code ≠ e.code) (hp : d.pos ≠ e.pos) : Settled e (recompute d s) := by
  obtain ⟨φ, hφ, hg, hother⟩ := recompute_groups d s
  have hel := recompute_eligibilityKept d s
  have hslot := recompute_slotAt_other d s hp
  refine ⟨fun y hy => ?_, fun y hy => h.2 y (hslot ▸ hy)⟩
  rw [hslot] at hy
  obtain ⟨hrot, hsh, hgr⟩ := h.1 y hy
  refine ⟨by rw [rotationIds_map hφ hg hel, hrot], ?_, fun g hgm hloc => ?_⟩
  · rw [hsh]
    have hmap : (recompute d s).locMap = s.locMap := (recompute_only d s).keeps (p := .locations) (by decide)
    have hfind : ∀ i, y.position = some i → (recompute d s).groupOf i = s.groupOf i := by
      intro i hi
      obtain ⟨g, hgm, rfl, hloc, -⟩ := mem_rotationIds (hrot ▸ h.2 y hy i hi)
      have key : s.groupOf g.id = some g := by
        cases hf : s.groupOf g.id with
        | none => simpa using List.find?_eq_none.1 hf g hgm
        | some k =>
          rw [group_unique hn (List.mem_of_find?_eq_some hf) hgm (by simpa using List.find?_some hf)]
      have hco : ((fun k : Group => k.id == g.id) ∘ φ) = fun k => k.id == g.id := by funext k; simp [(hφ k).1]
      have kd : List.find? (fun k => k.id == g.id) s.groups = some g := key
      rw [key]
      simp only [State.groupOf, hg, List.find?_map, hco, kd, Option.map_some]
      rw [hother g (by rw [hloc]; exact Ne.symm hc)]
    have hpos : (recompute d s).groupAtPosition y = s.groupAtPosition y := by
      unfold State.groupAtPosition
      cases hi : y.position with
      | none => rfl
      | some i => exact hfind i hi
    have hhas : ∀ code, (recompute d s).hasGroups code = s.hasGroups code := by
      intro code
      simp only [State.hasGroups, hg, List.any_map]
      congr 1; funext k; simp [(hφ k).2.2]
    unfold State.deriveShadow
    rw [hpos]
    simp only [State.entryAt, hmap, hhas, State.groupShadow, State.pickerOf, hel.2.1]
    rfl
  · rw [hel.eligible]
    exact hgr g ((recompute_mem_other (by rw [hloc]; exact hc)).1 hgm) hloc

/-! ## A list of locations recomputed -/

theorem foldl_recompute_settled {es : List MapEntry} : ∀ {s : State} {e : MapEntry}, (s.groups.map (·.id)).Nodup →
    (∀ d ∈ es, d.code ≠ e.code ∧ d.pos ≠ e.pos) → Settled e s → Settled e (es.foldl (fun t e => recompute e t) s) := by
  induction es with
  | nil => exact fun _ _ h => h
  | cons d ds ih =>
    intro s e hn hd h
    exact ih (by rw [recompute_ids]; exact hn) (fun k hk => hd k (by simp [hk]))
      (h.recompute_other hn (hd d (by simp)).1 (hd d (by simp)).2)

/-- Recomputing a list of locations, all different, redraws them and nothing else. -/
theorem foldl_recompute_redraws (es : List MapEntry) : ∀ {s : State}, (s.groups.map (·.id)).Nodup →
    es.Pairwise (fun d e => d.code ≠ e.code ∧ d.pos ≠ e.pos) →
    let t := es.foldl (fun t e => recompute e t) s
    (∀ e ∈ es, Settled e t) ∧ (∀ g, (∀ e ∈ es, e.code ≠ g.loc) → (g ∈ t.groups ↔ g ∈ s.groups))
      ∧ ∀ pos, (∀ e ∈ es, e.pos ≠ pos) → t.slotAt pos = s.slotAt pos := by
  induction es with
  | nil => exact fun _ _ => ⟨by simp, fun _ _ => Iff.rfl, fun _ _ => rfl⟩
  | cons d ds ih =>
    intro s hn hp
    obtain ⟨hd, hds⟩ := List.pairwise_cons.1 hp
    have hn' : ((recompute d s).groups.map (·.id)).Nodup := by rw [recompute_ids]; exact hn
    obtain ⟨a, b, c⟩ := ih hn' hds
    refine ⟨fun e he => ?_, fun g hg => ?_, fun pos hpos => ?_⟩
    · rcases List.mem_cons.1 he with rfl | he
      · show Settled e (ds.foldl (fun t e => recompute e t) (recompute e s))
        exact foldl_recompute_settled hn' (fun k hk => ⟨(hd k hk).1.symm, (hd k hk).2.symm⟩) (recompute_settled hn)
      · exact a e he
    · exact (b g fun e he => hg e (by simp [he])).trans (recompute_mem_other (hg d (by simp)))
    · exact (c pos fun e he => hpos e (by simp [he])).trans (recompute_slotAt_other d s (hpos d (by simp)))

theorem MapOk.pairwise {s : State} (h : MapOk s) : s.locMap.Pairwise (fun d e => d.code ≠ e.code ∧ d.pos ≠ e.pos) :=
  (List.pairwise_map.1 h.1).imp (fun h => h.ne) |>.and (List.pairwise_map.1 h.2.1)

/-- The locations picked are redrawn, and no other (R98, R99). -/
theorem recomputeWhere_redrawn (p : MapEntry → Bool) {s : State} (hm : MapOk s) (hn : (s.groups.map (·.id)).Nodup) :
    Redrawn (fun e => p e = true) s (recomputeWhere p s) := by
  have hmap : (recomputeWhere p s).locMap = s.locMap := (recomputeWhere_only p s).keeps (p := .locations) (by decide)
  obtain ⟨a, b, c⟩ := foldl_recompute_redraws _ hn (hm.pairwise.filter p)
  unfold Redrawn
  rw [hmap]
  refine ⟨fun e he hpe => (a e (List.mem_filter.2 ⟨he, hpe⟩)).1, fun g hg => b g fun e he => ?_, fun pos hpos => c pos fun e he => ?_⟩
  · obtain ⟨h1, h2⟩ := List.mem_filter.1 he
    exact hg e h1 h2
  · obtain ⟨h1, h2⟩ := List.mem_filter.1 he
    exact hpos e h1 h2

/-! ## What a display reads -/

/-- The parts that a location's display reads. -/
def viewParts : List Part := [.locations, .areas, .pickers, .groups, .slots, .orphaned, .faults, .rosters]

theorem Displayed.of_only {ps : List Part} {e : MapEntry} {s t : State} (h : OnlyChanges ps s t) (hp : ∀ p ∈ viewParts, p ∉ ps)
    (hd : Displayed e s) : Displayed e t := by
  have fr : ∀ p ∈ viewParts, Keeps p s t := fun p m => h.keeps (hp p m)
  have hgroups : t.groups = s.groups := fr .groups (by decide)
  have hslots : t.slots = s.slots := fr .slots (by decide)
  have hpick : t.pickers = s.pickers := fr .pickers (by decide)
  have hmap : t.locMap = s.locMap := fr .locations (by decide)
  have hel : EligibilityKept s t :=
    ⟨fr .areas (by decide), hpick, fr .orphaned (by decide), fr .faults (by decide), fr .rosters (by decide)⟩
  have hids : t.rotationIds e = s.rotationIds e :=
    rotationIds_map (φ := id) (fun _ => ⟨rfl, rfl, rfl⟩) (by rw [hgroups, List.map_id]) hel e
  intro y hy
  have hy' : s.slotAt e.pos = some y := by simpa only [State.slotAt, hslots] using hy
  obtain ⟨a, b, c⟩ := hd y hy'
  refine ⟨a.trans hids.symm, b.trans (deriveShadow_congr hgroups hpick hmap y).symm, fun g hg hl => ?_⟩
  rw [hel.eligible]
  exact c g (hgroups ▸ hg) hl

/-- A later change that no display reads leaves the redrawn locations redrawn. -/
theorem Redrawn.trans_only {ps : List Part} {q : MapEntry → Prop} {s t u : State} (hr : Redrawn q s t) (h : OnlyChanges ps t u)
    (hp : ∀ p ∈ viewParts, p ∉ ps) : Redrawn q s u := by
  have hmap : u.locMap = t.locMap := h.keeps (p := .locations) (hp _ (by decide))
  have hgroups : u.groups = t.groups := h.keeps (p := .groups) (hp _ (by decide))
  have hslots : u.slots = t.slots := h.keeps (p := .slots) (hp _ (by decide))
  have hat : ∀ pos, u.slotAt pos = t.slotAt pos := fun pos => by simp only [State.slotAt, hslots]
  obtain ⟨a, b, c⟩ := hr
  unfold Redrawn
  simp only [hmap, hgroups, hat]
  exact ⟨fun e he hq => (a e he hq).of_only h hp, b, c⟩

/-- Redrawing is judged from any earlier state with the same groups and slots. -/
theorem Redrawn.of_start {q : MapEntry → Prop} {r s t : State} (hg : s.groups = r.groups) (hs : s.slots = r.slots) (hr : Redrawn q s t) :
    Redrawn q r t := by
  have hat : ∀ pos, s.slotAt pos = r.slotAt pos := fun pos => by simp only [State.slotAt, hs]
  unfold Redrawn at hr ⊢
  simpa only [hg, hat] using hr

end Sys2Proof.Machine

/-!
PROOFS. What a frame's arrival does (O7 to O13): the receive buffer around the ring relay's tests, the end of the event behind them.
-/

namespace Sys2Proof.Machine

open Sys2Proof

/-! ## What the relay sees -/

/-- The parts that what is sent and stored depends on. -/
def relayView : List Part := [.lines, .station, .queues, .sequence, .store]

/-- The relay sees the same in both states. -/
def RelayQuiet (s t : State) : Prop := ∀ p ∈ relayView, Keeps p s t

theorem OnlyChanges.relayQuiet {ps : List Part} {s t : State} (h : OnlyChanges ps s t) (hp : ∀ p ∈ relayView, p ∉ ps) : RelayQuiet s t :=
  fun p m => h.keeps (hp p m)

theorem RelayQuiet.trans {s t u : State} (h : RelayQuiet s t) (k : RelayQuiet t u) : RelayQuiet s u :=
  fun p m => (h p m).trans (k p m)

theorem RelayQuiet.lines {s t : State} (h : RelayQuiet s t) : Keeps .lines s t := h _ (by decide)
theorem RelayQuiet.station {s t : State} (h : RelayQuiet s t) : t.station = s.station := h .station (by decide)
theorem RelayQuiet.queues {s t : State} (h : RelayQuiet s t) : Keeps .queues s t := h _ (by decide)
theorem RelayQuiet.sequence {s t : State} (h : RelayQuiet s t) : Keeps .sequence s t := h _ (by decide)
theorem RelayQuiet.store {s t : State} (h : RelayQuiet s t) : Keeps .store s t := h _ (by decide)

theorem RelayQuiet.up {s t : State} (h : RelayQuiet s t) (p : Port) : (t.port p).up = (s.port p).up := by
  cases p
  exacts [h.lines.1, h.lines.2]

theorem RelayQuiet.newFrames {s t : State} (h : RelayQuiet s t) : newFrames s t = [] :=
  newFrames_eq (by rw [h.store.2.1, List.append_nil])

/-- Nothing enters the store where the relay sees no change. -/
theorem RelayQuiet.onlyReports {s t : State} (h : RelayQuiet s t) : OnlyReportsAdded s t :=
  ⟨Originated.of_same h.queues h.sequence h.store, fun x hx => by rw [h.newFrames] at hx; cases hx⟩

theorem OnlyReportsAdded.after {s t u : State} (h : RelayQuiet s t) (k : OnlyReportsAdded t u) : OnlyReportsAdded s u :=
  h.onlyReports.trans h.lines h.station k

/-! ## An arrival on an UP port -/

/-- The state in which the relay takes an arrival: the buffer is filled and the event has noted nothing (R4). -/
def received (p : Port) (bytes : List Byte) (s : State) : State := beginEvent (fillBuffer p bytes s)

/-- The end of an arrival's event, the receive buffer being free again (R4). -/
def arrivalEnd (p : Port) (s : State) : State := endEvent (freeBuffer p s)

theorem execFrameArrival_up {p : Port} {s : State} (bytes : List Byte) (h : (s.port p).up = true) :
    exec (.frameArrival p bytes) s = .next (arrivalEnd p (takeArrival p (received p bytes s))) := by
  show execFrameArrival p bytes s = _
  simp only [execFrameArrival, h, if_true]
  rfl

theorem execFrameArrival_down {p : Port} {s : State} (bytes : List Byte) (h : (s.port p).up = false) :
    exec (.frameArrival p bytes) s = .next (freeBuffer p (fillBuffer p bytes s)) := by
  show execFrameArrival p bytes s = _
  simp [execFrameArrival, h]

theorem received_only (p : Port) (bytes : List Byte) (s : State) : OnlyChanges [.buffers, .notes] s (received p bytes s) :=
  ((fillBuffer_only p bytes s).mono (by decide)).trans ((beginEvent_only _).mono (by decide))

theorem received_rx (p : Port) (bytes : List Byte) (s : State) :
    ((received p bytes s).port p).rx = { bytes := bytes.take 256, received := bytes.length } := by cases p <;> rfl

theorem received_quiet (p : Port) (bytes : List Byte) (s : State) : RelayQuiet s (received p bytes s) :=
  (received_only p bytes s).relayQuiet (by decide)

theorem freeBuffer_rx (p : Port) (s : State) : ((freeBuffer p s).port p).rx = { bytes := [], received := 0 } := by cases p <;> rfl

theorem arrivalEnd_only (p : Port) (s : State) : OnlyChanges (.buffers :: eventParts) s (arrivalEnd p s) :=
  ((freeBuffer_only p s).mono (by decide)).trans ((endEvent_only _).mono (by decide))

theorem arrivalEnd_kept (p : Port) (s : State) : FlagsKept [] s (arrivalEnd p s) :=
  ((freeBuffer_only p s).flagsKept (by decide) []).trans (endEvent_kept _)

theorem arrivalEnd_counters (p : Port) (s : State) : (arrivalEnd p s).counters = s.counters :=
  (arrivalEnd_only p s).keeps (p := .counters) (by decide)

theorem arrivalEnd_reports (p : Port) (s : State) : OnlyReportsAdded s (arrivalEnd p s) :=
  OnlyReportsAdded.after ((freeBuffer_only p s).relayQuiet (by decide)) (endEvent_reports _)

theorem arrivalEnd_rx (p : Port) (s : State) : ((arrivalEnd p s).port p).rx = { bytes := [], received := 0 } := by
  have h : Keeps .buffers (freeBuffer p s) (arrivalEnd p s) := (endEvent_only _).keeps (by decide)
  rw [← freeBuffer_rx p s]
  cases p
  exacts [h.1, h.2]

/-- A sound frame comes to the disposal by origin and destination (R7, R8). -/
theorem takeArrival_sound {p : Port} {bytes : List Byte} {f : Frame} {s : State} (h : SoundArrival bytes f) :
    takeArrival p (received p bytes s) = disposeFrame p f (received p bytes s) := by
  obtain ⟨hl, hc, rfl, ho, hd, hh⟩ := h
  simp only [takeArrival, received_rx, hl, hc, ho, hd, hh]
  simp

/-! ## Flags and counters of an event -/

/-- A flag that neither the end of an event nor a counter's wrap sets. -/
def Flag.ordinary (f : Flag) : Prop := f ≠ .reportLost ∧ ∀ k, f ≠ .counterWrap k

theorem FlagsKept.ordinary {fs : List Flag} {s t : State} (h : FlagsKept fs s t) {f : Flag} (ho : f.ordinary) (hf : f ∉ fs) :
    t.flagSet f = s.flagSet f := h f hf ho.1 ho.2

theorem dropFrame_counters (flag : Option Flag) (s : State) : (dropFrame flag s).counters = s.counters.after .frameDropped none := by
  unfold dropFrame
  rw [signal_counters]
  cases flag
  · rfl
  · exact congrArg (Counters.after · _ _) (setFlag_counters _ _)

theorem dropFrame_kept (flag : Option Flag) (s : State) : FlagsKept flag.toList s (dropFrame flag s) := by
  unfold dropFrame
  cases flag
  · exact signal_kept _ _ _
  · exact (setFlag_kept _ _).trans ((signal_kept _ _ _).mono (by simp))

theorem dropFrame_sets {flag : Flag} (ho : flag.ordinary) (s : State) : (dropFrame (some flag) s).flagSet flag = true := by
  have h := (signal_kept .frameDropped none (setFlag flag s)).ordinary ho (by simp)
  simpa [dropFrame] using h

/-- An arrival whose last step discards the frame, where the relay saw no change before (R7, R8, R15, R16). -/
theorem arrivalEnd_dropFrame (flag : Option Flag) (ho : ∀ f ∈ flag.toList, f.ordinary) (p : Port) {s d : State} (hq : RelayQuiet s d) :
    let t := arrivalEnd p (dropFrame flag d)
    (∀ f ∈ flag.toList, t.flagSet f = true) ∧ FlagsKept flag.toList d t ∧ t.counters = d.counters.after .frameDropped none
      ∧ OnlyReportsAdded s t ∧ OnlyChanges ([.buffers, .counters] ++ eventParts) d t := by
  have hd := dropFrame_only flag d
  refine ⟨fun f hf => ?_, (dropFrame_kept _ _).trans ((arrivalEnd_kept p _).mono (by simp)), ?_, ?_, ?_⟩
  · rw [(arrivalEnd_kept p _).ordinary (ho f hf) (by simp)]
    cases flag with
    | none => cases hf
    | some g =>
      obtain rfl : f = g := by simpa using hf
      exact dropFrame_sets (ho f hf) _
  · rw [arrivalEnd_counters, dropFrame_counters]
  · exact OnlyReportsAdded.after (hq.trans (hd.relayQuiet (by decide))) (arrivalEnd_reports p _)
  · exact (hd.mono (by decide)).trans ((arrivalEnd_only p _).mono (by decide))

/-- An arrival that ends with the frame discarded (R7, R8, R15, R16). -/
theorem arrival_dropped (flag : Option Flag) (ho : ∀ f ∈ flag.toList, f.ordinary) (p : Port) (bytes : List Byte) (s : State) :
    let t := arrivalEnd p (dropFrame flag (received p bytes s))
    (∀ f ∈ flag.toList, t.flagSet f = true) ∧ FlagsKept flag.toList s t ∧ t.counters = s.counters.after .frameDropped none
      ∧ OnlyReportsAdded s t ∧ OnlyChanges ([.buffers, .counters] ++ eventParts) s t := by
  have hr := received_only p bytes s
  obtain ⟨a, b, c, d, e⟩ := arrivalEnd_dropFrame flag ho p (received_quiet p bytes s)
  refine ⟨a, (hr.flagsKept (by decide) _).trans b, ?_, d, (hr.mono (by decide)).trans e⟩
  rw [c]
  exact congrArg (Counters.after · _ _) (hr.keeps (p := .counters) (by decide))

/-- Settles O7: each fault ends the series of tests with the frame discarded. -/
theorem unsoundArrivalDropped : Obligations.UnsoundArrivalDropped := by
  intro p bytes s
  simp only
  refine ⟨fun hd => ⟨_, execFrameArrival_down bytes hd, freeBuffer_rx _ _, ?_⟩, fun hu hf => ⟨_, execFrameArrival_up bytes hu, ?_⟩,
    fun hu hf hh => ⟨_, execFrameArrival_up bytes hu, ?_⟩⟩
  · exact (fillBuffer_only p bytes s).trans (freeBuffer_only p _)
  · have ht : takeArrival p (received p bytes s) = dropFrame (some .frameFault) (received p bytes s) := by
      simp only [takeArrival, received_rx]
      rcases hf with h | h | h | h
      · simp [h]
      · simp [h]
      · simp [h]
      · simp [h]
    obtain ⟨a, b, c, d, e⟩ := arrival_dropped (some .frameFault) (by simp [Flag.ordinary]) p bytes s
    rw [ht]
    exact ⟨arrivalEnd_rx _ _, a _ (by simp), b, c, d, e⟩
  · have ht : takeArrival p (received p bytes s) = dropFrame (some .hopExpired) (received p bytes s) := by
      simp only [not_or, Bool.not_eq_true, Bool.not_eq_false] at hf
      obtain ⟨h1, h2, h3, h4⟩ := hf
      simp only [takeArrival, received_rx, h1, h2, h3, h4, hh]
      simp
    obtain ⟨a, b, c, d, e⟩ := arrival_dropped (some .hopExpired) (by simp [Flag.ordinary]) p bytes s
    rw [ht]
    exact ⟨arrivalEnd_rx _ _, a _ (by simp), b, c, d, e⟩

/-- Settles O8: the frame's travel ends here, with a clash where it was never sent. -/
theorem ownFrameRemoved : Obligations.OwnFrameRemoved := by
  intro p bytes f s hu hs ho
  have hr := received_only p bytes s
  have hst : (received p bytes s).station = s.station := (received_quiet p bytes s).station
  have hown : (received p bytes s).ownSent = s.ownSent := (received_quiet p bytes s).sequence.1
  have h0 : s.station ≠ 0 := by
    obtain ⟨-, -, -, h, -⟩ := hs
    rw [ho] at h
    intro e
    simp [e, isAisle, isSupervisor] at h
  refine ⟨fun hm => ⟨_, execFrameArrival_up bytes hu, ?_⟩, fun hm => ⟨_, execFrameArrival_up bytes hu, ?_⟩⟩ <;>
    rw [takeArrival_sound hs]
  · have ht : disposeFrame p f (received p bytes s) = received p bytes s := by
      simp [disposeFrame, hst, hown, h0, ho, hm]
    rw [ht, arrivalEnd, endEvent_quiet (by cases p <;> rfl)]
    exact hr.trans ((freeBuffer_only p _).mono (by decide))
  · have ht : disposeFrame p f (received p bytes s) = setFlag .stationClash (received p bytes s) := by
      simp [disposeFrame, hst, hown, h0, ho, hm]
    have hf := setFlag_only .stationClash (received p bytes s)
    rw [ht]
    refine ⟨?_, ?_, ?_, ?_⟩
    · rw [(arrivalEnd_kept p _).ordinary (by simp [Flag.ordinary]) (by simp)]
      simp
    · exact ((hr.flagsKept (by decide) _).trans (setFlag_kept _ _)).trans ((arrivalEnd_kept p _).mono (by simp))
    · exact OnlyReportsAdded.after ((received_quiet p bytes s).trans (hf.relayQuiet (by decide))) (arrivalEnd_reports p _)
    · exact ((hr.mono (by decide)).trans (hf.mono (by decide))).trans ((arrivalEnd_only p _).mono (by decide))

/-! ## A frame stored for one port -/

/-- The record of a frame stored for one port. -/
def copyOf (f : Frame) (requester : Option Requester) (s : State) : StoredFrame :=
  { ref := s.nextRef, frame := f, refs := 1, requester := requester }

theorem storeFrame_port (f : Frame) (requester : Option Requester) (q r : Port) (s : State) :
    (storeFrame f requester [q] s).port r
      = if r = q then ((s.port q).queued f.express s.nextRef).started else s.port r := by
  simp only [storeFrame, List.foldl_cons, List.foldl_nil]
  rw [enqueueRef_port]
  cases q <;> cases r <;> rfl

/-- Where a port takes a reference: at the end of its queue while it sends, and at once where it is empty (R22, R23). -/
theorem queuesTake_queued {x : StoredFrame} {p : Port} {s t : State} (hu : (s.port p).up = true)
    (ht : t.port p = ((s.port p).queued x.frame.express x.ref).started) : QueuesTake p [x] s t := by
  refine ⟨fun hs => ?_, fun hs => ?_⟩
  · rw [ht, PortState.queued_busy _ _ hs]
    cases he : x.frame.express <;> simp [PortState.queued, he]
  · rw [ht, PortState.queued_idle _ _ hu hs]
    simp [PortState.references] at hs
    simp [hs]

theorem queuesTake_none {p : Port} {s t : State} (ht : t.port p = s.port p) : QueuesTake p [] s t := by
  refine ⟨fun _ => by simp [ht], fun hs => ?_⟩
  simp [PortState.references] at hs
  simp [ht, hs]

theorem storeFrame_one {f : Frame} {requester : Option Requester} {q : Port} {s : State} (hu : (s.port q).up = true)
    (hc : cellsFor f.length ≤ s.freeCells) :
    let t := storeFrame f requester [q] s
    StoreGrows s t ∧ newFrames s t = [copyOf f requester s] ∧ QueuesTake q [copyOf f requester s] s t
      ∧ QueuesTake (otherPort q) [] s t := by
  obtain ⟨a, b, c⟩ := storeFrame_store f requester [q] s
  have hn : newFrames s (storeFrame f requester [q] s) = [copyOf f requester s] := newFrames_eq b
  refine ⟨⟨?_, ?_, ?_, ?_⟩, hn, queuesTake_queued hu ?_, queuesTake_none ?_⟩
  · rw [b]; exact List.prefix_append _ _
  · rw [hn]; rfl
  · rw [hn]; exact c
  · rw [hn, a]; simp [copyOf, StoredFrame.cells]; omega
  · rw [storeFrame_port, if_pos rfl]; rfl
  · rw [storeFrame_port, if_neg]
    cases q <;> decide

/-! ## The forwarding test (R15, R16) -/

theorem forwardFrame_hop {p : Port} {f : Frame} (s : State) (h : f.hop = 1) : forwardFrame p f s = dropFrame (some .hopExpired) s := by
  simp [forwardFrame, h]

theorem forwardFrame_down {p : Port} {f : Frame} {s : State} (h : f.hop ≠ 1) (hd : (s.port (otherPort p)).up = false) :
    forwardFrame p f s = dropFrame none s := by
  simp [forwardFrame, h, hd]

theorem forwardFrame_short {p : Port} {f : Frame} {s : State} (h : f.hop ≠ 1) (hu : (s.port (otherPort p)).up = true)
    (hc : s.freeCells < cellsFor f.length + 8) : forwardFrame p f s = dropFrame (some .storeDrop) s := by
  have : s.freeCells < cellsFor f.length + Config.passThroughReserve := hc
  simp [forwardFrame, h, hu, this]

theorem forwardFrame_stored {p : Port} {f : Frame} {s : State} (h : f.hop ≠ 1) (hu : (s.port (otherPort p)).up = true)
    (hc : ¬ s.freeCells < cellsFor f.length + 8) :
    forwardFrame p f s = signal .frameForwarded none (storeFrame { f with hop := f.hop - 1 } none [otherPort p] s) := by
  have : ¬ s.freeCells < cellsFor f.length + Config.passThroughReserve := hc
  simp [forwardFrame, h, hu, this]

/-- The state once a frame has been stored for the outgoing port and counted (R15, R16, R22). -/
theorem forwardFrame_stores {p : Port} {f : Frame} {s d : State} (hq : RelayQuiet s d) (h : f.hop ≠ 1)
    (hu : (s.port (otherPort p)).up = true) (hc : ¬ s.freeCells < cellsFor f.length + 8) :
    let v := forwardFrame p f d
    let copy := copyOf { f with hop := f.hop - 1 } none s
    (StoreGrows s v ∧ newFrames s v = [copy] ∧ QueuesTake (otherPort p) [copy] s v ∧ QueuesTake p [] s v)
      ∧ s.nextRef ∈ (v.port (otherPort p)).references ∧ Keeps .lines s v ∧ Keeps .station s v ∧ Keeps .sequence s v
      ∧ v.counters = d.counters.after .frameForwarded none ∧ FlagsKept [] d v
      ∧ OnlyChanges [.queues, .store, .counters, .flags, .notes] d v := by
  have hud : (d.port (otherPort p)).up = true := (hq.up _).trans hu
  have hcd : ¬ d.freeCells < cellsFor f.length + 8 := by rw [hq.store.1]; exact hc
  have hlen : ({ f with hop := f.hop - 1 } : Frame).length = f.length := rfl
  rw [forwardFrame_stored h hud hcd]
  generalize hw : storeFrame { f with hop := f.hop - 1 } none [otherPort p] d = w
  have hwo : OnlyChanges [.queues, .store] d w := hw ▸ storeFrame_only _ _ _ _
  have hsig := signal_only .frameForwarded none w
  have hsq : RelayQuiet w (signal .frameForwarded none w) := hsig.relayQuiet (by decide)
  obtain ⟨a, b, c, e⟩ := storeFrame_one (f := { f with hop := f.hop - 1 }) (requester := none) hud (by rw [hlen]; omega)
  have href := (storeFrame_grows { f with hop := f.hop - 1 } none [otherPort p] d).2 (otherPort p) (by simp)
  have hoo : otherPort (otherPort p) = p := by cases p <;> rfl
  have hcopy : copyOf { f with hop := f.hop - 1 } none d = copyOf { f with hop := f.hop - 1 } none s := by
    simp only [copyOf, hq.store.2.2]
  rw [hw] at a b c e href
  rw [hoo] at e
  rw [hcopy] at b c
  rw [hq.store.2.2] at href
  have hg0 := hq.onlyReports.1
  have hg2 := hsq.onlyReports.1
  have take : ∀ q, ∀ fs : List StoredFrame, QueuesTake q fs d w → QueuesTake q fs s (signal .frameForwarded none w) := by
    intro q fs hfs
    have h0 : QueuesTake q [] s d := by simpa only [hq.newFrames, ite_self] using hg0.2.2.2 q
    have h2 : QueuesTake q [] w (signal .frameForwarded none w) := by simpa only [hsq.newFrames, ite_self] using hg2.2.2.2 q
    simpa using (h0.trans hfs).trans h2
  refine ⟨⟨(hg0.1.trans a).trans hg2.1, ?_, take _ _ c, take _ _ e⟩, ?_, ?_, ?_, ?_, ?_, ?_, ?_⟩
  · rw [newFrames_trans (hg0.1.trans a) hg2.1, newFrames_trans hg0.1 a, hq.newFrames, hsq.newFrames, b]; rfl
  · have hp := port_of_keeps hsq.lines (hsig.keeps (p := .buffers) (by decide)) hsq.queues (otherPort p)
    rw [hp]; exact href
  · exact (hq.lines.trans (hwo.keeps (by decide))).trans hsq.lines
  · exact ((hq .station (by decide)).trans (hwo.keeps (by decide))).trans (hsq .station (by decide))
  · exact (hq.sequence.trans (hwo.keeps (by decide))).trans hsq.sequence
  · rw [signal_counters]
    exact congrArg (Counters.after · _ _) (hwo.keeps (p := .counters) (by decide))
  · exact (hwo.flagsKept (by decide) []).trans (signal_kept _ _ _)
  · exact (hwo.mono (by decide)).trans (hsig.mono (by decide))

/-- The end of the event adds only reports behind the forwarded copy. -/
theorem forwardedOn_of_reports {p : Port} {f : Frame} {s v t : State} (hup : (s.port p).up = true) (huo : (s.port (otherPort p)).up = true)
    (hl : Keeps .lines s v) (hn : Keeps .sequence s v)
    (hs : StoreGrows s v ∧ newFrames s v = [copyOf { f with hop := f.hop - 1 } none s]
      ∧ QueuesTake (otherPort p) [copyOf { f with hop := f.hop - 1 } none s] s v ∧ QueuesTake p [] s v)
    (href : s.nextRef ∈ (v.port (otherPort p)).references) (hg : QueuesGrow v t) (ht : OnlyReportsAdded v t) : ForwardedOn p f s t := by
  obtain ⟨a, b, c, e⟩ := hs
  obtain ⟨⟨ta, tb, -, td⟩, tr⟩ := ht
  have hnew : newFrames s t = copyOf { f with hop := f.hop - 1 } none s :: newFrames v t := by
    rw [newFrames_trans a ta, b]; rfl
  have hv : ∀ q, (s.port q).up = true → QueuesTake q (newFrames v t) v t := by
    intro q hq
    have hvq : (v.port q).up = (s.port q).up := by cases q; exacts [hl.1, hl.2]
    have := td q
    rwa [hvq, if_pos hq] at this
  refine ⟨a.trans ta, (hg _).1 href, ?_, ?_, newFrames v t, hnew, ?_, tr⟩
  · rw [hnew]; exact c.trans (hv _ huo)
  · rw [hnew]; exact e.trans (hv _ hup)
  · refine ⟨tb.1.trans ?_, tb.2.1.trans ?_, tb.2.2.trans ?_⟩
    · rw [hn.2]
    · rw [hn.2]
    · rw [hn.1]

theorem passesThrough_forwards {p : Port} {f : Frame} {s d : State} (h : PassesThrough f s) (hd : d.station = s.station) :
    disposeFrame p f d = forwardFrame p f d := by
  unfold disposeFrame
  rcases h with h | ⟨h1, h2, h3⟩
  · simp [hd, h]
  · by_cases h0 : s.station = 0 <;> simp [hd, h0, h1, h2, h3]

theorem arrivalEnd_grows (p : Port) (s : State) : QueuesGrow s (arrivalEnd p s) :=
  (QueuesGrow.of_keeps ((freeBuffer_only p s).keeps (by decide))).trans (endEvent_grows _)

/-- Settles O9: the copy is stored for the outgoing port, and the end of the event adds only reports behind it. -/
theorem frameForwarded : Obligations.FrameForwarded := by
  intro p bytes f s hu hs hp hh huo hc
  have hr := received_only p bytes s
  have hq := received_quiet p bytes s
  refine ⟨_, execFrameArrival_up bytes hu, ?_⟩
  rw [takeArrival_sound hs, passesThrough_forwards hp hq.station]
  obtain ⟨hst, href, hl, -, hn, hcn, hk, ho⟩ := forwardFrame_stores (f := f) hq (by omega) huo (by omega)
  have hfwd := forwardedOn_of_reports hu huo hl hn hst href (arrivalEnd_grows p _) (arrivalEnd_reports p _)
  obtain ⟨-, -, hqo, -, rest, hnew, -⟩ := id hfwd
  rw [hnew] at hqo
  refine ⟨hfwd, ?_, fun hb => ?_, fun hi => ?_, ?_, ?_⟩
  · rw [arrivalEnd_counters, hcn]
    exact congrArg (Counters.after · _ _) (hr.keeps (p := .counters) (by decide))
  · obtain ⟨-, h1, h2⟩ := hqo.1 hb
    cases he : f.express <;> simp [h1, h2, he]
  · rw [(hqo.2 hi).1]; rfl
  · exact ((hr.flagsKept (by decide) _).trans hk).trans (arrivalEnd_kept p _)
  · exact ((hr.mono (by decide)).trans (ho.mono (by decide))).trans ((arrivalEnd_only p _).mono (by decide))

/-- Settles O10: the tests of R15 and R16 in order, each ending with the frame discarded. -/
theorem forwardingRefused : Obligations.ForwardingRefused := by
  intro p bytes f s hu hs hp
  have hq := received_quiet p bytes s
  have ht := (takeArrival_sound (p := p) (s := s) hs).trans (passesThrough_forwards hp hq.station)
  refine ⟨fun hh => ⟨_, execFrameArrival_up bytes hu, ?_⟩, fun hh hd => ⟨_, execFrameArrival_up bytes hu, ?_⟩,
    fun hh huo hc => ⟨_, execFrameArrival_up bytes hu, ?_⟩⟩
  · rw [ht, forwardFrame_hop _ hh]
    exact arrival_dropped (some .hopExpired) (by simp [Flag.ordinary]) p bytes s
  · rw [ht, forwardFrame_down hh ((hq.up _).trans hd)]
    exact arrival_dropped none (by simp) p bytes s
  · rw [ht, forwardFrame_short hh ((hq.up _).trans huo) (by rw [hq.store.1]; exact hc)]
    exact arrival_dropped (some .storeDrop) (by simp [Flag.ordinary]) p bytes s

/-! ## Which deliveries are requests (R14, R25) -/

theorem ofCode_code (k : ReqKind) : ReqKind.ofCode k.code = some k := by cases k <;> decide

theorem ofCode_some {c : Byte} {k : ReqKind} (h : ReqKind.ofCode c = some k) : c = k.code := by
  have := List.find?_some h
  exact (beq_iff_eq.1 this).symm

/-- The request that a frame of kind `k` makes. -/
def requestIn (k : ReqKind) (f : Frame) : Request :=
  { kind := k, origin := f.origin, broadcast := f.dest == 63, seq := f.seq, payload := f.payload }

/-- A frame is a request of kind `k`: its kind code, from a supervisor, with a payload length in range (R25). -/
def IsRequest (k : ReqKind) (f : Frame) : Prop :=
  f.kind = k.code ∧ isSupervisor f.origin = true ∧ k.form.admits f.payload.length = true

theorem requestOf_request {k : ReqKind} {f : Frame} (h : IsRequest k f) : requestOf f = some (requestIn k f) := by
  obtain ⟨hk, ho, hl⟩ := h
  simp [requestOf, hk, ofCode_code, ho, hl, requestIn]

theorem requestOf_none {f : Frame} (h : ∀ k, ¬ IsRequest k f) : requestOf f = none := by
  unfold requestOf
  split
  · rfl
  · rename_i k hk
    rw [if_neg]
    intro hc
    obtain ⟨ho, hl⟩ := (Bool.and_eq_true _ _).mp hc
    exact h k ⟨ofCode_some hk, ho, hl⟩

/-! ## The end of ORPHANED (R36, R118) -/

theorem hasGroups_iff (s : State) (code : Nat) : s.hasGroups code = true ↔ ∃ g ∈ s.groups, g.loc = code := by
  simp [State.hasGroups]

theorem leaveOrphaned_flags (s : State) :
    (leaveOrphaned s).orphaned = false ∧ (leaveOrphaned s).flagSet .orphaned = false ∧ (leaveOrphaned s).flagSet .supervisorBack = true
      ∧ FlagsKept [.orphaned, .supervisorBack] s (leaveOrphaned s) := by
  have h := recomputeAll_only (setFlag .supervisorBack (clearFlag .orphaned { s with orphaned := false }))
  have hf := h.flagsKept (by decide) []
  refine ⟨?_, ?_, ?_, ?_⟩
  · have h1 := (clearFlag_only .orphaned { s with orphaned := false }).keeps (p := .orphaned) (by decide)
    have h2 := (setFlag_only .supervisorBack (clearFlag .orphaned { s with orphaned := false })).keeps (p := .orphaned) (by decide)
    exact (h1.trans h2).trans (h.keeps (by decide))
  · refine (hf.ordinary (by simp [Flag.ordinary]) (by simp)).trans ?_
    simp
  · refine (hf.ordinary (by simp [Flag.ordinary]) (by simp)).trans ?_
    simp
  · have h0 : FlagsKept [.orphaned, .supervisorBack] s { s with orphaned := false } := fun _ _ _ _ => rfl
    exact ((h0.trans ((clearFlag_kept _ _).mono (by decide))).trans ((setFlag_kept _ _).mono (by decide))).trans (hf.mono (by decide))

/-- Every location with open groups is redrawn (R118). -/
theorem leaveOrphaned_redrawn {s : State} (hm : MapOk s) (hn : (s.groups.map (·.id)).Nodup) :
    Redrawn (fun e => ∃ g ∈ s.groups, g.loc = e.code) s (leaveOrphaned s) := by
  generalize hu : setFlag .supervisorBack (clearFlag .orphaned { s with orphaned := false }) = u
  have ho : OnlyChanges [.orphaned, .flags, .notes] s u := by
    have h0 : OnlyChanges [.orphaned, .flags, .notes] s { s with orphaned := false } := by intro p; cases p <;> simp [Keeps]
    exact hu ▸ (h0.trans ((clearFlag_only _ _).mono (by decide))).trans ((setFlag_only _ _).mono (by decide))
  have hg : u.groups = s.groups := ho.keeps (p := .groups) (by decide)
  have hs : u.slots = s.slots := ho.keeps (p := .slots) (by decide)
  have hl : u.locMap = s.locMap := ho.keeps (p := .locations) (by decide)
  have h := recomputeWhere_redrawn (fun e => u.hasGroups e.code) (s := u) (by unfold MapOk; rw [hl]; exact hm) (by rw [hg]; exact hn)
  have he : leaveOrphaned s = recomputeWhere (fun e => u.hasGroups e.code) u := by unfold leaveOrphaned; rw [hu]; rfl
  have hp : (fun e : MapEntry => u.hasGroups e.code = true) = fun e => ∃ g ∈ s.groups, g.loc = e.code := by
    funext e; rw [← hg]; exact propext (hasGroups_iff u e.code)
  rw [he, ← hp]
  exact h.of_start hg hs

/-! ## The delivery test and the delivery (R12 to R14) -/

section
variable {f : Frame} {s u : State} (hu : OnlyChanges [.buffers, .notes] s u)
include hu

/-- A duplicate loses its pair (R13). -/
theorem deliverFrame_duplicate (hd : (f.origin, f.seq) ∈ s.recent) :
    let d := deliverFrame f u
    d.recent = s.recent.filter (· != (f.origin, f.seq)) ∧ d.counters = s.counters.after .duplicateDiscarded none ∧ FlagsKept [] s d
      ∧ OnlyChanges [.buffers, .recent, .counters, .flags, .notes] s d := by
  have hr : u.recent = s.recent := hu.keeps (p := .recent) (by decide)
  have hc : u.counters = s.counters := hu.keeps (p := .counters) (by decide)
  have he : deliverFrame f u
      = signal .duplicateDiscarded none { u with recent := u.recent.filter (· != (f.origin, f.seq)) } := by
    simp [deliverFrame, hr, hd]
  have ho : OnlyChanges [.recent] u { u with recent := u.recent.filter (· != (f.origin, f.seq)) } := by
    intro p; cases p <;> simp [Keeps]
  have hs := signal_only .duplicateDiscarded none { u with recent := u.recent.filter (· != (f.origin, f.seq)) }
  simp only [he]
  refine ⟨?_, ?_, ?_, ?_⟩
  · rw [← hr]; exact hs.keeps (p := .recent) (by decide)
  · rw [signal_counters, ← hc]
  · exact ((hu.flagsKept (by decide) []).trans (ho.flagsKept (by decide) [])).trans (signal_kept _ _ _)
  · exact ((hu.mono (by decide)).trans (ho.mono (by decide))).trans (hs.mono (by decide))

/-- A delivery that is no duplicate joins the recent-frame list, and the request handler takes it (R12 to R14). -/
theorem deliverFrame_new (hd : (f.origin, f.seq) ∉ s.recent) :
    ∃ w, deliverFrame f u = takeDelivery f w ∧ w.recent = (s.recent ++ [(f.origin, f.seq)]).drop (s.recent.length + 1 - 64)
      ∧ w.counters = s.counters.after .frameDelivered none ∧ FlagsKept [] s w
      ∧ OnlyChanges [.buffers, .recent, .counters, .flags, .notes] s w := by
  have hr : u.recent = s.recent := hu.keeps (p := .recent) (by decide)
  have hc : u.counters = s.counters := hu.keeps (p := .counters) (by decide)
  have ho : ∀ xs, OnlyChanges [.recent] u { u with recent := xs } := by
    intro xs p; cases p <;> simp [Keeps]
  have hs := signal_only .frameDelivered none { u with recent := pushCapped Config.recentFrames u.recent (f.origin, f.seq) }
  refine ⟨signal .frameDelivered none { u with recent := pushCapped Config.recentFrames u.recent (f.origin, f.seq) }, ?_, ?_, ?_, ?_, ?_⟩
  · simp [deliverFrame, hr, hd]
  · refine Eq.trans (show _ = pushCapped Config.recentFrames u.recent (f.origin, f.seq) from hs.keeps (p := .recent) (by decide)) ?_
    rw [hr]; rfl
  · rw [signal_counters, ← hc]
  · exact ((hu.flagsKept (by decide) []).trans ((ho _).flagsKept (by decide) [])).trans (signal_kept _ _ _)
  · exact ((hu.mono (by decide)).trans ((ho _).mono (by decide))).trans (hs.mono (by decide))

/-- A delivery that is no request, or comes while a reset is pending, is discarded by the request handler (R25, R38). -/
theorem deliverFrame_discarded (hd : (f.origin, f.seq) ∉ s.recent) (hn : (∀ k, ¬ IsRequest k f) ∨ s.pendingReset ≠ .none) :
    let d := deliverFrame f u
    d.recent = (s.recent ++ [(f.origin, f.seq)]).drop (s.recent.length + 1 - 64)
      ∧ d.counters = (s.counters.after .frameDelivered none).after .requestDiscarded none ∧ FlagsKept [] s d
      ∧ OnlyChanges [.buffers, .recent, .counters, .flags, .notes] s d := by
  obtain ⟨w, he, hr, hc, hk, ho⟩ := deliverFrame_new hu hd
  have hp : w.pendingReset = s.pendingReset := ho.keeps (p := .pendingReset) (by decide)
  have ht : takeDelivery f w = signal .requestDiscarded none w := by
    unfold takeDelivery
    rcases hn with hn | hn
    · rw [requestOf_none hn]
    · split
      · rfl
      · rw [if_pos (by rw [hp]; exact hn)]
  have hs := signal_only .requestDiscarded none w
  simp only [he, ht]
  refine ⟨?_, ?_, hk.trans (signal_kept _ _ _), ho.trans (hs.mono (by decide))⟩
  · exact Eq.trans (show _ = w.recent from hs.keeps (p := .recent) (by decide)) hr
  · rw [signal_counters, hc]

/-- A request is admitted last, restarts the silence timer, and ends ORPHANED (R25, R35, R36). -/
theorem deliverFrame_admitted {k : ReqKind} (hd : (f.origin, f.seq) ∉ s.recent) (hp : s.pendingReset = .none) (hq : IsRequest k f) :
    let d := deliverFrame f u
    d.recent = (s.recent ++ [(f.origin, f.seq)]).drop (s.recent.length + 1 - 64) ∧ d.counters = s.counters.after .frameDelivered none
      ∧ d.admitted = s.admitted ++ [requestIn k f] ∧ d.silenceSince = s.now ∧ d.orphaned = false
      ∧ (s.orphaned = true → d.flagSet .orphaned = false ∧ d.flagSet .supervisorBack = true ∧ FlagsKept [.orphaned, .supervisorBack] s d
          ∧ (MapOk s → (s.groups.map (·.id)).Nodup → Redrawn (fun e => ∃ g ∈ s.groups, g.loc = e.code) s d))
      ∧ (s.orphaned = false → FlagsKept [] s d
          ∧ OnlyChanges [.buffers, .recent, .silence, .admitted, .counters, .flags, .notes] s d)
      ∧ OnlyChanges ([.buffers, .recent, .silence, .orphaned, .admitted, .counters, .flags, .notes] ++ displayParts) s d := by
  obtain ⟨w, he, hr, hc, hk, ho⟩ := deliverFrame_new hu hd
  have hwp : w.pendingReset = .none := Eq.trans (show _ = s.pendingReset from ho.keeps (p := .pendingReset) (by decide)) hp
  have hnow : w.now = s.now := ho.keeps (p := .moment) (by decide)
  have hadm : w.admitted = s.admitted := ho.keeps (p := .admitted) (by decide)
  have horph : w.orphaned = s.orphaned := ho.keeps (p := .orphaned) (by decide)
  generalize hx : ({ w with silenceSince := w.now, admitted := w.admitted ++ [requestIn k f] } : State) = x
  have hxo : OnlyChanges [.silence, .admitted] w x := by subst hx; intro p; cases p <;> simp [Keeps]
  have ht : takeDelivery f w = if x.orphaned then leaveOrphaned x else x := by
    subst hx
    unfold takeDelivery
    rw [requestOf_request hq]
    simp [hwp]
  have hsx : OnlyChanges [.buffers, .recent, .silence, .admitted, .counters, .flags, .notes] s x :=
    (ho.mono (by decide)).trans (hxo.mono (by decide))
  have hkx : FlagsKept [] s x := hk.trans (hxo.flagsKept (by decide) [])
  have hxr : x.recent = w.recent := hxo.keeps (p := .recent) (by decide)
  have hxc : x.counters = w.counters := hxo.keeps (p := .counters) (by decide)
  have hxa : x.admitted = s.admitted ++ [requestIn k f] := by subst hx; rw [← hadm]
  have hxs : x.silenceSince = s.now := by subst hx; exact hnow
  have hxorph : x.orphaned = s.orphaned := by subst hx; exact horph
  simp only [he, ht, hxorph]
  cases hs : s.orphaned with
  | false =>
    simp only [Bool.false_eq_true, if_false]
    exact ⟨hxr.trans hr, hxc.trans hc, hxa, hxs, hxorph.trans hs, by simp, fun _ => ⟨hkx, hsx⟩, hsx.mono (by decide)⟩
  | true =>
    simp only [if_true]
    have hl := leaveOrphaned_only x
    obtain ⟨l1, l2, l3, l4⟩ := leaveOrphaned_flags x
    have hg : x.groups = s.groups := hsx.keeps (p := .groups) (by decide)
    have hsl : x.slots = s.slots := hsx.keeps (p := .slots) (by decide)
    have hmap : x.locMap = s.locMap := hsx.keeps (p := .locations) (by decide)
    refine ⟨?_, ?_, ?_, ?_, l1, fun _ => ⟨l2, l3, (hkx.mono (by simp)).trans l4, fun hm hn => ?_⟩, by simp, ?_⟩
    · exact (Eq.trans (show _ = x.recent from hl.keeps (p := .recent) (by decide)) hxr).trans hr
    · exact (Eq.trans (show _ = x.counters from hl.keeps (p := .counters) (by decide)) hxc).trans hc
    · exact Eq.trans (show _ = x.admitted from hl.keeps (p := .admitted) (by decide)) hxa
    · exact Eq.trans (show _ = x.silenceSince from hl.keeps (p := .silence) (by decide)) hxs
    · have := leaveOrphaned_redrawn (s := x) (by unfold MapOk; rw [hmap]; exact hm) (by rw [hg]; exact hn)
      rw [hg] at this
      exact this.of_start hg hsl
    · exact (hsx.mono (by decide)).trans (hl.mono (by decide))

end

/-! ## Deliveries at this station -/

/-- A frame for this station alone is delivered (R11). -/
theorem disposeFrame_delivers {p : Port} {f : Frame} {s d : State} (h0 : s.station ≠ 0) (ho : f.origin ≠ s.station) (hf : f.dest = s.station)
    (hd : d.station = s.station) : disposeFrame p f d = deliverFrame f d := by
  unfold disposeFrame
  rw [hd, if_neg h0, if_neg ho, if_pos hf]

/-- The end of an arrival that a delivery has dealt with. -/
theorem arrivalEnd_delivered {ps : List Part} {fs : List Flag} (p : Port) {s d : State} (h : OnlyChanges ps s d) (hp : ∀ q ∈ relayView, q ∉ ps)
    (hk : FlagsKept fs s d) : FlagsKept fs s (arrivalEnd p d) ∧ OnlyReportsAdded s (arrivalEnd p d)
      ∧ OnlyChanges (ps ++ .buffers :: eventParts) s (arrivalEnd p d) :=
  ⟨hk.trans ((arrivalEnd_kept p d).mono (by simp)), OnlyReportsAdded.after (h.relayQuiet hp) (arrivalEnd_reports p d),
    (h.mono (by simp)).trans ((arrivalEnd_only p d).mono (by simp))⟩

/-- Settles O12: the delivery test fails, or the request handler discards what it is given. -/
theorem deliveryDiscarded : Obligations.DeliveryDiscarded := by
  intro p bytes f s hu hs h0 ho hf
  have hr := received_only p bytes s
  have ht := (takeArrival_sound (p := p) (s := s) hs).trans (disposeFrame_delivers h0 ho hf (received_quiet p bytes s).station)
  have kept : ∀ {v : State} {q : Part}, q ∉ .buffers :: eventParts → Keeps q v (arrivalEnd p v) := fun hq => (arrivalEnd_only p _).keeps hq
  refine ⟨fun hd => ⟨_, execFrameArrival_up bytes hu, ?_⟩, fun hd hn => ⟨_, execFrameArrival_up bytes hu, ?_⟩⟩ <;> rw [ht]
  · obtain ⟨a, b, c, d⟩ := deliverFrame_duplicate hr hd
    obtain ⟨k1, k2, k3⟩ := arrivalEnd_delivered p d (by decide) c
    exact ⟨Eq.trans (kept (q := .recent) (by decide)) a, (arrivalEnd_counters p _).trans b, k1, k2, k3.mono (by decide)⟩
  · have hno : (∀ k, ¬ IsRequest k f) ∨ s.pendingReset ≠ .none := by
      rcases hn with hn | hn | hn
      · exact .inl fun k hk => by simp [hk.2.1] at hn
      · exact .inr hn
      · exact .inl fun k hk => by simpa [hk.2.2] using hn k hk.1
    obtain ⟨a, b, c, d⟩ := deliverFrame_discarded hr hd hno
    obtain ⟨k1, k2, k3⟩ := arrivalEnd_delivered p d (by decide) c
    exact ⟨Eq.trans (kept (q := .recent) (by decide)) a, (arrivalEnd_counters p _).trans b, k1, k2, k3.mono (by decide)⟩

/-- Settles O11: the delivery is admitted, and the end of the event touches neither the request nor a display. -/
theorem requestAdmitted : Obligations.RequestAdmitted := by
  intro p bytes f k s hu hs h0 ho hf hd hp hk hsup hl
  have hr := received_only p bytes s
  have ht := (takeArrival_sound (p := p) (s := s) hs).trans (disposeFrame_delivers h0 ho hf (received_quiet p bytes s).station)
  have kept : ∀ {v : State} {q : Part}, q ∉ .buffers :: eventParts → Keeps q v (arrivalEnd p v) := fun hq => (arrivalEnd_only p _).keeps hq
  refine ⟨_, execFrameArrival_up bytes hu, ?_⟩
  rw [ht]
  obtain ⟨a, b, c, d, e, hlost, hheld, hall⟩ := deliverFrame_admitted hr hd hp ⟨hk, hsup, hl⟩
  have hend := arrivalEnd_kept p (deliverFrame f (received p bytes s))
  refine ⟨Eq.trans (kept (q := .admitted) (by decide)) c, Eq.trans (kept (q := .recent) (by decide)) a,
    Eq.trans (kept (q := .silence) (by decide)) d, Eq.trans (kept (q := .orphaned) (by decide)) e, (arrivalEnd_counters p _).trans b,
    OnlyReportsAdded.after (hall.relayQuiet (by decide)) (arrivalEnd_reports p _), fun h => ?_, fun h => ?_⟩
  · obtain ⟨l1, l2, l3, l4⟩ := hlost h
    obtain ⟨k1, -, k3⟩ := arrivalEnd_delivered p hall (by decide) l3
    exact ⟨(hend.ordinary (by simp [Flag.ordinary]) (by simp)).trans l1, (hend.ordinary (by simp [Flag.ordinary]) (by simp)).trans l2, k1,
      fun hm hn => (l4 hm hn).trans_only (arrivalEnd_only p _) (by decide), k3.mono (by decide)⟩
  · obtain ⟨l1, l2⟩ := hheld h
    obtain ⟨k1, -, k3⟩ := arrivalEnd_delivered p l2 (by decide) l1
    exact ⟨k1, k3.mono (by decide)⟩

/-! ## A frame for all aisles (R11) -/

/-- What the delivery of a frame can do, whichever outcome it has (R12 to R14, R25, R35, R36). -/
theorem deliverFrame_effect (f : Frame) {s u : State} (hu : OnlyChanges [.buffers, .notes] s u) :
    let d := deliverFrame f u
    (s.orphaned = false → d.orphaned = false)
      ∧ (d.orphaned = s.orphaned → FlagsKept [] s d ∧ OnlyChanges [.buffers, .recent, .silence, .admitted, .counters, .flags, .notes] s d)
      ∧ (s.orphaned = true → d.orphaned = false →
          d.flagSet .orphaned = false ∧ d.flagSet .supervisorBack = true ∧ FlagsKept [.orphaned, .supervisorBack] s d
          ∧ (MapOk s → (s.groups.map (·.id)).Nodup → Redrawn (fun e => ∃ g ∈ s.groups, g.loc = e.code) s d))
      ∧ OnlyChanges ([.buffers, .recent, .silence, .orphaned, .admitted, .counters, .flags, .notes] ++ displayParts) s d := by
  by_cases ha : (f.origin, f.seq) ∉ s.recent ∧ s.pendingReset = .none ∧ ∃ k, IsRequest k f
  · obtain ⟨hd, hp, k, hk⟩ := ha
    obtain ⟨-, -, -, -, e, hlost, hheld, hall⟩ := deliverFrame_admitted hu hd hp hk
    exact ⟨fun _ => e, fun h => hheld (h.symm.trans e), fun h _ => hlost h, hall⟩
  · have quiet : FlagsKept [] s (deliverFrame f u) ∧ OnlyChanges [.buffers, .recent, .counters, .flags, .notes] s (deliverFrame f u) := by
      by_cases hd : (f.origin, f.seq) ∈ s.recent
      · exact (deliverFrame_duplicate hu hd).2.2
      · have hn : (∀ k, ¬ IsRequest k f) ∨ s.pendingReset ≠ .none :=
          or_iff_not_imp_right.2 fun hp k hk => ha ⟨hd, not_not.1 hp, k, hk⟩
        exact (deliverFrame_discarded hu hd hn).2.2
    obtain ⟨k, o⟩ := quiet
    have e : (deliverFrame f u).orphaned = s.orphaned := o.keeps (p := .orphaned) (by decide)
    exact ⟨fun h => e.trans h, fun _ => ⟨k, o.mono (by decide)⟩, fun h1 h2 => absurd (h1.symm.trans (e.symm.trans h2)) (by decide),
      o.mono (by decide)⟩

/-- The flags that the forwarding test sets (R15, R16). -/
def forwardFlags (p : Port) (f : Frame) (s : State) : List Flag :=
  if f.hop = 1 then [.hopExpired]
  else if (s.port (otherPort p)).up = true ∧ s.freeCells < cellsFor f.length + 8 then [.storeDrop] else []

/-- The outcomes of the forwarding test and of the event that ends with it, where the relay saw no change before (R15, R16). -/
theorem arrivalEnd_forwardFrame {p : Port} {f : Frame} {s d : State} (hup : (s.port p).up = true) (hq : RelayQuiet s d) :
    let t := arrivalEnd p (forwardFrame p f d)
    let out := s.port (otherPort p)
    let short := s.freeCells < cellsFor f.length + 8
    (f.hop = 1 → t.flagSet .hopExpired = true ∧ t.counters = d.counters.after .frameDropped none ∧ OnlyReportsAdded s t)
      ∧ (f.hop ≠ 1 → out.up = false → t.counters = d.counters.after .frameDropped none ∧ OnlyReportsAdded s t)
      ∧ (f.hop ≠ 1 → out.up = true → short →
          t.flagSet .storeDrop = true ∧ t.counters = d.counters.after .frameDropped none ∧ OnlyReportsAdded s t)
      ∧ (f.hop ≠ 1 → out.up = true → ¬ short → ForwardedOn p f s t ∧ t.counters = d.counters.after .frameForwarded none)
      ∧ FlagsKept (forwardFlags p f s) d t ∧ OnlyChanges ([.buffers, .counters] ++ eventParts) d t := by
  have hw := forwardFrame_only p f d
  have hall : OnlyChanges ([.buffers, .counters] ++ eventParts) d (arrivalEnd p (forwardFrame p f d)) :=
    (hw.mono (by decide)).trans ((arrivalEnd_only p _).mono (by decide))
  by_cases h : f.hop = 1
  · obtain ⟨a, b, c, e, -⟩ := arrivalEnd_dropFrame (some .hopExpired) (by simp [Flag.ordinary]) p hq
    rw [← forwardFrame_hop (p := p) d h] at a b c e
    simp only [h, ne_eq, not_true_eq_false, false_imp_iff, true_and, forwardFlags]
    exact ⟨fun _ => ⟨a _ (by simp), c, e⟩, b, hall⟩
  by_cases hu : (s.port (otherPort p)).up = true
  swap
  · have hd : (s.port (otherPort p)).up = false := by simpa using hu
    obtain ⟨-, b, c, e, -⟩ := arrivalEnd_dropFrame none (by simp) p hq
    rw [← forwardFrame_down (p := p) h ((hq.up _).trans hd)] at b c e
    simp only [h, hd, Bool.false_eq_true, false_imp_iff, true_and, implies_true, forwardFlags, if_false, false_and]
    exact ⟨fun _ _ => ⟨c, e⟩, b, hall⟩
  by_cases hc : s.freeCells < cellsFor f.length + 8
  · obtain ⟨a, b, c, e, -⟩ := arrivalEnd_dropFrame (some .storeDrop) (by simp [Flag.ordinary]) p hq
    rw [← forwardFrame_short (p := p) h ((hq.up _).trans hu) (by rw [hq.store.1]; exact hc)] at a b c e
    simp only [h, hu, hc, not_true_eq_false, false_imp_iff, true_and, implies_true, forwardFlags, if_false, and_self, if_true,
      Bool.true_eq_false]
    exact ⟨fun _ _ _ => ⟨a _ (by simp), c, e⟩, b, hall⟩
  · obtain ⟨hst, href, hl, -, hn, hcn, hk, -⟩ := forwardFrame_stores (f := f) hq h hu hc
    have hfwd := forwardedOn_of_reports hup hu hl hn hst href (arrivalEnd_grows p _) (arrivalEnd_reports p _)
    simp only [h, hu, hc, false_imp_iff, true_and, implies_true, forwardFlags, if_false, and_false, Bool.true_eq_false]
    exact ⟨fun _ _ _ => ⟨hfwd, (arrivalEnd_counters p _).trans hcn⟩, hk.trans (arrivalEnd_kept p _), hall⟩

theorem disposeFrame_broadcast {p : Port} {f : Frame} {s d : State} (h0 : s.station ≠ 0) (h63 : s.station ≠ 63) (ho : f.origin ≠ s.station)
    (hf : f.dest = 63) (hd : d.station = s.station) : disposeFrame p f d = forwardFrame p f (deliverFrame f d) := by
  unfold disposeFrame
  rw [hd, if_neg h0, if_neg ho, if_neg (by rw [hf]; exact h63.symm), if_pos hf]

/-- Settles O13: the delivery test and the forwarding test do not touch what the other looks at. -/
theorem broadcastDeliveredAndForwarded : Obligations.BroadcastDeliveredAndForwarded := by
  intro p bytes f s hup hs h0 h63 ho hf
  have hr := received_only p bytes s
  have ht := (takeArrival_sound (p := p) (s := s) hs).trans (disposeFrame_broadcast h0 h63 ho hf (received_quiet p bytes s).station)
  obtain ⟨hstay, hsame, hback, hall⟩ := deliverFrame_effect f hr
  obtain ⟨f1, f2, f3, f4, hflags, hend⟩ := arrivalEnd_forwardFrame (f := f) hup (hall.relayQuiet (by decide))
  have hdup := deliverFrame_duplicate (f := f) hr
  have hdis := deliverFrame_discarded (f := f) hr
  have hadm := fun k => deliverFrame_admitted (f := f) (k := k) hr
  generalize deliverFrame f (received p bytes s) = d at *
  generalize hte : arrivalEnd p (forwardFrame p f d) = t at *
  have kept : ∀ {q : Part}, q ∉ [.buffers, .counters] ++ eventParts → Keeps q d t := fun hq => hend.keeps hq
  have hrec : t.recent = d.recent := kept (q := .recent) (by decide)
  have horph : t.orphaned = d.orphaned := kept (q := .orphaned) (by decide)
  have hsil : t.silenceSince = d.silenceSince := kept (q := .silence) (by decide)
  have unadmitted : OnlyChanges [.buffers, .recent, .counters, .flags, .notes] s d →
      Keeps .admitted s t ∧ Keeps .silence s t ∧ t.orphaned = s.orphaned := fun o =>
    ⟨(o.keeps (by decide)).trans (kept (q := .admitted) (by decide)), (o.keeps (by decide)).trans (kept (q := .silence) (by decide)),
      horph.trans (o.keeps (p := .orphaned) (by decide))⟩
  refine ⟨t, d.counters, ?_, fun hd => ?_, fun hd => ?_, fun hd hn => ?_, fun k hd hk => ?_, f1, f2, f3, f4, ?_, fun h1 h2 => ?_,
    fun h1 h2 => ?_, fun h => ?_, ?_⟩
  · rw [execFrameArrival_up bytes hup, ht, hte]
  · obtain ⟨a, b, -, o⟩ := hdup hd
    exact ⟨hrec.trans a, b, unadmitted o⟩
  · rw [hrec]
    by_cases hn : (∀ k, ¬ IsRequest k f) ∨ s.pendingReset ≠ .none
    · exact (hdis hd hn).1
    · obtain ⟨hk, hp⟩ := not_or.1 hn
      obtain ⟨k, hk⟩ := not_forall_not.1 hk
      exact (hadm k hd (not_not.1 hp) hk).1
  · have hno : (∀ k, ¬ IsRequest k f) ∨ s.pendingReset ≠ .none :=
      or_iff_not_imp_right.2 fun hp k hk => hn k ⟨not_not.1 hp, hk⟩
    obtain ⟨-, b, -, o⟩ := hdis hd hno
    exact ⟨b, unadmitted o⟩
  · obtain ⟨hp, hk⟩ := hk
    obtain ⟨-, b, c, e, g, -⟩ := hadm k hd hp hk
    refine ⟨b, hsil.trans e, horph.trans g, ?_⟩
    have hreq : t.admitted = d.admitted := kept (q := .admitted) (by decide)
    rw [hreq, c, requestIn, hf]
    rfl
  · refine FlagsKept.trans ?_ (hflags.mono (List.subset_append_left _ _))
    cases hso : s.orphaned with
    | false => exact (hsame ((hstay hso).trans hso.symm)).1.mono (by simp)
    | true =>
      cases hdo : d.orphaned with
      | true => exact (hsame (hdo.trans hso.symm)).1.mono (by simp)
      | false =>
        obtain ⟨-, -, k, -⟩ := hback hso hdo
        exact k.mono (by simp)
  · obtain ⟨l1, l2, -, l4⟩ := hback h1 (horph.symm.trans h2)
    have keep : ∀ g ∈ [Flag.orphaned, .supervisorBack], t.flagSet g = d.flagSet g := fun g hg =>
      hflags.ordinary (by fin_cases hg <;> simp [Flag.ordinary]) (by unfold forwardFlags; fin_cases hg <;> (split_ifs <;> simp))
    exact ⟨(keep _ (by simp)).trans l1, (keep _ (by simp)).trans l2, fun hm hg => (l4 hm hg).trans_only hend (by decide)⟩
  · refine ((hsame (horph.symm.trans (h2.trans h1.symm))).1.mono (by simp)).trans (hflags.mono ?_)
    unfold forwardFlags
    split_ifs <;> simp
  · obtain ⟨-, o⟩ := hsame (horph.symm.trans h.symm)
    exact (o.mono (by decide)).trans (hend.mono (by decide))
  · exact (hall.mono (by decide)).trans (hend.mono (by decide))

end Sys2Proof.Machine

/-!
PROOFS. How frames leave the cell store (O14, O15): references dropped one by one, a port flushed, a transmission ended.
-/

namespace Sys2Proof.Machine

open Sys2Proof

/-! ## References dropped (R19, R24, R38) -/

/-- The stored frames that have their last reference among `refs`. -/
def State.freedBy (s : State) (refs : List Nat) : List StoredFrame := s.frames.filter (fun x => x.ref ∈ refs ∧ x.refs ≤ 1)

/-- What is left of a stored frame once the references `refs` are dropped. -/
def StoredFrame.without (refs : List Nat) (x : StoredFrame) : Option StoredFrame :=
  if x.ref ∈ refs then if x.refs ≤ 1 then none else some { x with refs := x.refs - 1 } else some x

/-- The release of the awaited AISLE_RESET reply is among what dropping `refs` releases. -/
def State.awaitedIn (s : State) (refs : List Nat) : Prop :=
  ∃ x ∈ s.freedBy refs, x.requester = some .requestHandler ∧ s.pendingReset = .awaiting (some x.ref)

theorem mem_freedBy {s : State} {refs : List Nat} {x : StoredFrame} :
    x ∈ s.freedBy refs ↔ x ∈ s.frames ∧ x.ref ∈ refs ∧ x.refs ≤ 1 := by simp [State.freedBy]

/-- From `s` to `t` the references `refs` have been dropped. -/
structure Dropped (refs : List Nat) (s t : State) : Prop where
  frames : t.frames = s.frames.filterMap (StoredFrame.without refs)
  cells : t.freeCells = s.freeCells + ((s.freedBy refs).map (·.cells)).sum
  next : t.nextRef = s.nextRef
  notices : t.roomNotices = s.roomNotices + (s.freedBy refs).length
  released : s.awaitedIn refs → t.pendingReset = .noticed
  kept : ¬ s.awaitedIn refs → t.pendingReset = s.pendingReset

theorem StoredFrame.without_self {r : Nat} {x : StoredFrame} (h : x.ref = r) :
    x.without [r] = if x.refs ≤ 1 then none else some { x with refs := x.refs - 1 } := by simp [StoredFrame.without, h]

theorem StoredFrame.without_other {refs : List Nat} {x : StoredFrame} (h : x.ref ∉ refs) : x.without refs = some x := by
  simp [StoredFrame.without, h]

/-- Dropping the reference of a stored frame, in terms of that frame. -/
theorem dropRef_found {s : State} {x : StoredFrame} (h : StoreOk s) (hx : x ∈ s.frames) :
    dropRef x.ref s
      = if x.refs ≤ 1 then
          { s with
            frames := s.frames.filter (fun g => g.ref != x.ref)
            freeCells := s.freeCells + x.cells
            roomNotices := s.roomNotices + 1
            pendingReset :=
              if x.requester = some .requestHandler ∧ s.pendingReset = .awaiting (some x.ref) then .noticed else s.pendingReset }
        else { s with frames := s.frames.map (fun g => if g.ref = x.ref then { g with refs := g.refs - 1 } else g) } := by
  simp only [dropRef, h.find_some hx]

/-- Of distinct references, those that one reference frees are at most its frame. -/
theorem StoreOk.freedBy_one {s : State} (h : StoreOk s) {x : StoredFrame} (hx : x ∈ s.frames) :
    s.freedBy [x.ref] = if x.refs ≤ 1 then [x] else [] := by
  have hnd : s.frames.Nodup := List.Nodup.of_map _ h.2.1
  have only : ∀ y, y ∈ s.freedBy [x.ref] ↔ y = x ∧ x.refs ≤ 1 := fun y => by
    rw [mem_freedBy, List.mem_singleton]
    exact ⟨fun ⟨hy, e, hr⟩ => by obtain rfl := h.find hy hx e; exact ⟨rfl, hr⟩, by rintro ⟨rfl, hr⟩; exact ⟨hx, rfl, hr⟩⟩
  split
  · rename_i hr
    refine List.perm_singleton.1 ((List.perm_ext_iff_of_nodup (hnd.filter _) (List.nodup_singleton x)).2 fun y => ?_)
    exact (only y).trans (by simp [hr])
  · rename_i hr
    exact List.eq_nil_iff_forall_not_mem.2 fun y hy => hr ((only y).1 hy).2

theorem dropped_one {s : State} (h : StoreOk s) (r : Nat) : Dropped [r] s (dropRef r s) := by
  by_cases hx : ∃ x ∈ s.frames, x.ref = r
  · obtain ⟨x, hx, rfl⟩ := hx
    have hf := h.freedBy_one hx
    have haw : s.awaitedIn [x.ref] ↔ x.refs ≤ 1 ∧ x.requester = some .requestHandler ∧ s.pendingReset = .awaiting (some x.ref) := by
      unfold State.awaitedIn
      rw [hf]
      split <;> simp [*]
    have only : ∀ g ∈ s.frames, g.ref = x.ref → g = x := fun g hg e => h.find hg hx e
    rw [dropRef_found h hx]
    by_cases hr : x.refs ≤ 1
    · rw [if_pos hr] at hf ⊢
      refine ⟨?_, by rw [hf]; simp, rfl, by rw [hf]; rfl, fun ha => if_pos (haw.1 ha).2, fun ha => if_neg fun hc => ha (haw.2 ⟨hr, hc⟩)⟩
      rw [← List.filterMap_eq_filter]
      refine List.filterMap_congr fun g hg => ?_
      by_cases e : g.ref = x.ref
      · obtain rfl := only g hg e
        simp [StoredFrame.without, Option.guard, hr]
      · simp [StoredFrame.without, Option.guard, e]
    · rw [if_neg hr] at hf ⊢
      refine ⟨?_, by rw [hf]; simp, rfl, by rw [hf]; rfl, fun ha => absurd (haw.1 ha).1 hr, fun _ => rfl⟩
      rw [← List.filterMap_eq_map]
      refine List.filterMap_congr fun g hg => ?_
      by_cases e : g.ref = x.ref
      · obtain rfl := only g hg e
        simp [StoredFrame.without, hr]
      · simp [StoredFrame.without, e]
  · have hnone : ∀ x ∈ s.frames, x.ref ≠ r := fun x m e => hx ⟨x, m, e⟩
    have hf : s.freedBy [r] = [] := List.filter_eq_nil_iff.2 fun x m => by simp [hnone x m]
    have he : dropRef r s = s := by
      have : s.frames.find? (fun f => f.ref == r) = none := by simpa using hnone
      simp only [dropRef, this]
    rw [he]
    refine ⟨?_, by simp [hf], rfl, by simp [hf], fun ⟨x, hx, _⟩ => by simp [hf] at hx, fun _ => rfl⟩
    rw [List.filterMap_congr (g := some) fun g hg => StoredFrame.without_other (by simpa using hnone g hg)]
    simp

/-- A frame that keeps its number keeps its place among those that other references free. -/
theorem Dropped.freedBy {refs rs : List Nat} {s t : State} (h : Dropped refs s t) (hd : ∀ r ∈ rs, r ∉ refs) : t.freedBy rs = s.freedBy rs := by
  unfold State.freedBy
  rw [h.frames, List.filter_filterMap, ← List.filterMap_eq_filter]
  refine List.filterMap_congr fun x _ => ?_
  by_cases hx : x.ref ∈ rs
  · simp [StoredFrame.without_other (hd _ hx), hx, Option.filter, Option.guard]
  · unfold StoredFrame.without
    split
    · split <;> simp [hx, Option.filter, Option.guard]
    · simp [hx, Option.filter, Option.guard]

theorem freedBy_cons {r : Nat} {rs : List Nat} (hr : r ∉ rs) (s : State) : (s.freedBy (r :: rs)).Perm (s.freedBy [r] ++ s.freedBy rs) := by
  have h := List.filter_append_perm (fun x : StoredFrame => decide (x.ref = r)) (s.freedBy (r :: rs))
  have a : (s.freedBy (r :: rs)).filter (fun x => decide (x.ref = r)) = s.freedBy [r] := by
    unfold State.freedBy
    rw [List.filter_filter]
    refine List.filter_congr fun x _ => ?_
    by_cases e : x.ref = r <;> simp [e]
  have b : (s.freedBy (r :: rs)).filter (fun x => !decide (x.ref = r)) = s.freedBy rs := by
    unfold State.freedBy
    rw [List.filter_filter]
    refine List.filter_congr fun x _ => ?_
    by_cases e : x.ref = r
    · simp [e, hr]
    · simp [e]
  rw [a, b] at h
  exact h.symm

theorem Dropped.cons {r : Nat} {rs : List Nat} {s t u : State} (hr : r ∉ rs) (h : Dropped [r] s t) (k : Dropped rs t u) :
    Dropped (r :: rs) s u := by
  have hfree : t.freedBy rs = s.freedBy rs := h.freedBy fun q hq => by simpa using fun e : q = r => hr (e ▸ hq)
  have hperm := freedBy_cons hr s
  have haw : s.awaitedIn (r :: rs) ↔ s.awaitedIn [r] ∨ s.awaitedIn rs := by
    simp only [State.awaitedIn, hperm.mem_iff, List.mem_append, or_and_right, exists_or]
  refine ⟨?_, ?_, k.next.trans h.next, ?_, fun ha => ?_, fun ha => ?_⟩
  · rw [k.frames, h.frames, List.filterMap_filterMap]
    refine List.filterMap_congr fun x _ => ?_
    by_cases e : x.ref = r
    · subst e
      rw [StoredFrame.without_self rfl]
      split <;> simp [StoredFrame.without, *]
    · rw [StoredFrame.without_other (by simpa using e)]
      simp [StoredFrame.without, e]
  · rw [k.cells, h.cells, hfree, (hperm.map _).sum_eq, List.map_append, List.sum_append, Nat.add_assoc]
  · rw [k.notices, h.notices, hfree, hperm.length_eq, List.length_append, Nat.add_assoc]
  · by_cases h1 : s.awaitedIn [r]
    · have hp := h.released h1
      rw [k.kept fun ⟨_, _, _, e⟩ => by simp [hp] at e, hp]
    · have hp := h.kept h1
      exact k.released (by unfold State.awaitedIn; rw [hfree, hp]; exact (haw.1 ha).resolve_left h1)
  · have hp := h.kept fun h1 => ha (haw.2 (.inl h1))
    rw [k.kept (fun h2 => ha (haw.2 (.inr (by unfold State.awaitedIn at h2 ⊢; rwa [hfree, hp] at h2)))), hp]

theorem dropped_nil (s : State) : Dropped [] s s := by
  have hf : s.freedBy [] = [] := by simp [State.freedBy]
  refine ⟨?_, by simp [hf], rfl, by simp [hf], fun ⟨x, hx, _⟩ => by simp [hf] at hx, fun _ => rfl⟩
  rw [List.filterMap_congr (g := some) fun g _ => StoredFrame.without_other (by simp)]
  simp

theorem dropped_all (refs : List Nat) : ∀ s : State, StoreOk s → refs.Nodup → Dropped refs s (refs.foldl (fun t ref => dropRef ref t) s) := by
  induction refs with
  | nil => exact fun s _ _ => dropped_nil s
  | cons r rs ih =>
    intro s h hn
    obtain ⟨hr, hn⟩ := List.nodup_cons.1 hn
    exact (dropped_one h r).cons hr (ih _ (storeOk_dropRef r h) hn)

/-- The references dropped are seen in the store and the pending reset alone. -/
theorem Dropped.of_start {refs : List Nat} {r s t : State} (hs : Keeps .store r s) (hn : s.roomNotices = r.roomNotices)
    (hp : s.pendingReset = r.pendingReset) (h : Dropped refs s t) : Dropped refs r t := by
  obtain ⟨e1, e2, e3⟩ := hs
  have hf : s.freedBy refs = r.freedBy refs := by unfold State.freedBy; rw [e2]
  have ha : s.awaitedIn refs ↔ r.awaitedIn refs := by unfold State.awaitedIn; rw [hf, hp]
  exact ⟨by rw [h.frames, e2], by rw [h.cells, e1, hf], h.next.trans e3, by rw [h.notices, hn, hf], fun k => h.released (ha.2 k),
    fun k => (h.kept fun q => k (ha.1 q)).trans hp⟩

/-! ## The frames that outlast dropped references -/

theorem Dropped.mem_frames {refs : List Nat} {s t : State} (h : Dropped refs s t) {y : StoredFrame} :
    y ∈ t.frames ↔ ∃ x ∈ s.frames, x.without refs = some y := by rw [h.frames, List.mem_filterMap]

theorem Dropped.untouched {refs : List Nat} {s t : State} (h : Dropped refs s t) {x : StoredFrame} (hx : x ∈ s.frames) (hr : x.ref ∉ refs) :
    x ∈ t.frames := h.mem_frames.2 ⟨x, hx, StoredFrame.without_other hr⟩

theorem Dropped.lowered {refs : List Nat} {s t : State} (h : Dropped refs s t) {x : StoredFrame} (hx : x ∈ s.frames) (hr : x.ref ∈ refs)
    (h1 : 1 < x.refs) : { x with refs := x.refs - 1 } ∈ t.frames :=
  h.mem_frames.2 ⟨x, hx, by rw [StoredFrame.without, if_pos hr, if_neg (by omega)]⟩

/-- Each frame left is one that was there, with its own count of references. -/
theorem Dropped.origin {refs : List Nat} {s t : State} (h : Dropped refs s t) {y : StoredFrame} (hy : y ∈ t.frames) :
    ∃ x ∈ s.frames, x.ref = y.ref ∧ y = { x with refs := y.refs } ∧ ¬ (x.ref ∈ refs ∧ x.refs ≤ 1) := by
  obtain ⟨x, hx, e⟩ := h.mem_frames.1 hy
  refine ⟨x, hx, ?_⟩
  unfold StoredFrame.without at e
  split at e
  · split at e
    · cases e
    · cases e; exact ⟨rfl, rfl, by simp [*]⟩
  · cases e; exact ⟨rfl, rfl, by simp [*]⟩

/-- A freed frame is gone: no frame left has its number. -/
theorem Dropped.gone {refs : List Nat} {s t : State} (h : Dropped refs s t) (hs : StoreOk s) {x : StoredFrame} (hx : x ∈ s.freedBy refs)
    {y : StoredFrame} (hy : y ∈ t.frames) : y.ref ≠ x.ref := by
  obtain ⟨hx, hr⟩ := mem_freedBy.1 hx
  obtain ⟨z, hz, e, -, hn⟩ := h.origin hy
  intro hc
  rw [hs.find hz hx (e.trans hc)] at hn
  exact hn hr

/-! ## The end of an event that reports nothing -/

/-- With no record of its own and no enabled flag newly set, an event's end clears its notes alone (R171, R182, R187). -/
theorem endEvent_masked {s : State} (hw : s.notes.wraps = []) (he : s.notes.entered = false) (hm : s.notes.noted &&& s.mask = 0) :
    endEvent s = { s with notes := EventNotes.empty } := by
  have h1 : offerWraps s = s := by simp [offerWraps, hw]
  have h2 : offerAttention s = s := by simp only [offerAttention, hm]; rfl
  simp only [endEvent, h1, h2, he]
  rfl

theorem bit_and_mask {f : Flag} {m : BitVec 21} (h : m.getLsbD f.position = false) : f.bit &&& m = 0 := by
  refine BitVec.eq_of_getLsbD_eq fun i _ => ?_
  rw [BitVec.getLsbD_and, Flag.bit, BitVec.getLsbD_twoPow]
  by_cases e : f.position = i
  · simp [← e, h]
  · simp [e]

/-! ## A port goes DOWN (R1, R3) -/

theorem otherPort_ne (p : Port) : otherPort p ≠ p := by cases p <;> decide

theorem linkFlag_ordinary (p : Port) : (linkFlag p).ordinary := by cases p <;> simp [linkFlag, Flag.ordinary]

theorem flushPort_port (p q : Port) (s : State) :
    (flushPort p s).port q = if q = p then { s.port p with up := false, sending := none, express := [], normal := [] } else s.port q := by
  simp only [flushPort]
  rw [dropRefs_port, setPort_portIf]

theorem flushPort_dropped {p : Port} {s : State} (h : StoreOk s) (hn : (s.port p).references.Nodup) :
    Dropped (s.port p).references s (flushPort p s) := by
  have hu : ∀ x, Keeps .store s (s.setPort p x) := fun x => by cases p <;> exact ⟨rfl, rfl, rfl⟩
  exact (dropped_all (s.port p).references _ (h.of_keeps (hu _)) hn).of_start (hu _) (by cases p <;> rfl) (by cases p <;> rfl)

/-- The event of LINE_DOWN before its end. -/
def downPort (p : Port) (s : State) : State := setFlag (linkFlag p) (flushPort p (beginEvent s))

theorem execLineDown_up {p : Port} {s : State} (h : (s.port p).up = true) : exec (.lineDown p) s = .next (endEvent (downPort p s)) := by
  show execLineDown p s = _
  simp only [execLineDown, h, if_true]
  rfl

theorem downPort_only (p : Port) (s : State) :
    OnlyChanges [.lines, .queues, .store, .roomNotices, .pendingReset, .flags, .notes] s (downPort p s) :=
  (((beginEvent_only s).mono (by decide)).trans ((flushPort_only p _).mono (by decide))).trans ((setFlag_only _ _).mono (by decide))

theorem downPort_port (p q : Port) (s : State) :
    (downPort p s).port q = if q = p then { s.port p with up := false, sending := none, express := [], normal := [] } else s.port q := by
  have h := setFlag_only (linkFlag p) (flushPort p (beginEvent s))
  rw [downPort, port_of_keeps (h.keeps (by decide)) (h.keeps (by decide)) (h.keeps (by decide)), flushPort_port]
  rfl

theorem downPort_dropped {p : Port} {s : State} (h : StoreOk s) (hn : (s.port p).references.Nodup) :
    Dropped (s.port p).references s (downPort p s) := by
  have hd : Dropped (s.port p).references s (flushPort p (beginEvent s)) :=
    Dropped.of_start (s := beginEvent s) ⟨rfl, rfl, rfl⟩ rfl rfl (flushPort_dropped (s := beginEvent s) h hn)
  have hf := setFlag_only (linkFlag p) (flushPort p (beginEvent s))
  obtain ⟨e1, e2, e3⟩ := hf.keeps (p := .store) (by decide)
  have e4 : (downPort p s).roomNotices = _ := hf.keeps (p := .roomNotices) (by decide)
  have e5 : (downPort p s).pendingReset = _ := hf.keeps (p := .pendingReset) (by decide)
  exact ⟨e2.trans hd.frames, e1.trans hd.cells, e3.trans hd.next, e4.trans hd.notices, fun a => e5.trans (hd.released a),
    fun a => e5.trans (hd.kept a)⟩

/-- Where the LINK flag was set or is not enabled, the event ends with nothing to report. -/
theorem downPort_silent {p : Port} {s : State} (h : s.flagSet (linkFlag p) = true ∨ s.mask.getLsbD (linkFlag p).position = false) :
    endEvent (downPort p s) = { downPort p s with notes := EventNotes.empty } := by
  have hb := flushPort_only p (beginEvent s)
  have hn : (flushPort p (beginEvent s)).notes = EventNotes.empty := hb.keeps (p := .notes) (by decide)
  have hm : (downPort p s).mask = s.mask := (downPort_only p s).keeps (p := .mask) (by decide)
  have hset : (flushPort p (beginEvent s)).flagSet (linkFlag p) = s.flagSet (linkFlag p) :=
    (hb.flagsKept (by decide) []).ordinary (linkFlag_ordinary p) (by simp)
  by_cases hf : s.flagSet (linkFlag p) = true
  · have he : downPort p s = flushPort p (beginEvent s) := by rw [downPort, setFlag, if_pos (hset.trans hf)]
    rw [he]
    exact endEvent_masked (by rw [hn]; rfl) (by rw [hn]; rfl) (by rw [hn]; simp [EventNotes.empty])
  · have he : (downPort p s).notes = { noted := (linkFlag p).bit, wraps := [], entered := false } := by
      rw [downPort, setFlag, if_neg (by rw [hset]; exact hf)]
      simp [hn, EventNotes.empty]
    refine endEvent_masked (by rw [he]) (by rw [he]) ?_
    rw [he, hm]
    exact bit_and_mask (h.resolve_left hf)

/-! ## A port comes UP (R1, R3, R24) -/

section
variable (p : Port) (s : State)

/-- A port comes UP before its transmitter starts: the line is UP, the flag is clear and a room notice has been given. -/
def openedPort : State :=
  let c := clearFlag (linkFlag p) (s.setPort p { s.port p with up := true })
  { c with roomNotices := c.roomNotices + 1 }

theorem raisePort_opened : raisePort p s = startTransmitter p (openedPort p s) := rfl

theorem openedPort_port (q : Port) : (openedPort p s).port q = if q = p then { s.port p with up := true } else s.port q := by
  cases p <;> cases q <;> rfl

theorem raisePort_up (q : Port) : ((raisePort p s).port q).up = if q = p then true else (s.port q).up := by
  rw [raisePort_opened, startTransmitter_port]
  split
  · rw [PortState.started_up, openedPort_port, if_pos rfl]
  · rename_i hq
    rw [openedPort_port, if_neg hq]

theorem raisePort_flagSet (g : Flag) : (raisePort p s).flagSet g = (!decide (linkFlag p = g) && s.flagSet g) := by
  have h : (raisePort p s).flags = (openedPort p s).flags := (startTransmitter_only p _).keeps (p := .flags) (by decide)
  have hc := clearFlag_flagSet (linkFlag p) g (s.setPort p { s.port p with up := true })
  rw [State.flagSet, h]
  refine Eq.trans hc ?_
  cases p <;> rfl

theorem raisePort_notices : (raisePort p s).roomNotices = s.roomNotices + 1 := by
  refine Eq.trans ((startTransmitter_only p (openedPort p s)).keeps (p := .roomNotices) (by decide)) ?_
  cases p <;> rfl

theorem execLineUp_down {p : Port} {s : State} (h : (s.port p).up = false) : exec (.lineUp p) s = .next (raisePort p (beginEvent s)) := by
  show execLineUp p s = _
  rw [execLineUp, if_neg (by simp [h]), event_quiet fun t => (raisePort_only p t).keeps (by decide)]

end

/-- Settles O14: the flushed port's references are dropped one by one, and the event ends with at most a report of the LINK flag. -/
theorem lineDownAndUp : Obligations.LineDownAndUp := by
  intro p s hs hnd
  refine ⟨fun hup => ⟨_, execLineDown_up hup, ?_⟩, fun hdown => ?_⟩
  · have hd := downPort_dropped hs hnd
    have ho := downPort_only p s
    have hport := downPort_port p p s
    have hother : (downPort p s).port (otherPort p) = s.port (otherPort p) := by
      rw [downPort_port, if_neg (otherPort_ne p)]
    have hend := endEvent_only (downPort p s)
    obtain ⟨hnew, -, hdn⟩ := endEvent_new (downPort p s)
    obtain ⟨hgrow, hrep⟩ := endEvent_reports (downPort p s)
    have hsub := endEvent_frames (downPort p s)
    have hlines : Keeps .lines (downPort p s) (endEvent (downPort p s)) := hend.keeps (by decide)
    have hpr : (endEvent (downPort p s)).pendingReset = (downPort p s).pendingReset := hend.keeps (p := .pendingReset) (by decide)
    have hpt : (endEvent (downPort p s)).port p = (downPort p s).port p := hdn p (by rw [hport, if_pos rfl])
    have hou : ((endEvent (downPort p s)).port (otherPort p)).up = (s.port (otherPort p)).up := by
      rw [← hother]; cases p; exacts [hlines.2, hlines.1]
    have hfk : FlagsKept [linkFlag p] s (downPort p s) :=
      (((beginEvent_only s).flagsKept (by decide) _).trans ((flushPort_only p _).flagsKept (by decide) _)).trans (setFlag_kept _ _)
    refine ⟨?_, ?_, ?_, hfk.trans ((endEvent_kept _).mono (by simp)), fun x hx hr => hsub (hd.untouched hx hr),
      fun x hx hr h1 => hsub (hd.lowered hx hr h1), fun x hx y hy => ?_, fun y hy => ?_, ?_, fun hno => ?_, fun x hx hq ha => ?_, hou,
      fun hse => ?_, fun hq => ?_, (ho.mono (by decide)).trans (hend.mono (by decide))⟩
    · rw [hpt, hport, if_pos rfl]
    · rw [hpt, hport, if_pos rfl]; rfl
    · rw [endEvent_flagSet _ (linkFlag_ordinary p).1]
      simp [downPort]
    · rcases hnew y hy with h | h
      · exact hd.gone hs hx h
      · have := hs.2.2 x (mem_freedBy.1 hx).1
        rw [hd.next] at h
        omega
    · rw [hgrow.1.frames, List.mem_append] at hy
      rcases hy with hy | hy
      · obtain ⟨x, hx, e1, e2, -⟩ := hd.origin hy
        exact .inr ⟨x, hx, e1, e2⟩
      · refine .inl ⟨?_, hrep y hy⟩
        have hm := List.mem_map_of_mem (f := (·.ref)) hy
        rw [hgrow.1.2.1, List.mem_range'_1, hd.next] at hm
        exact hm.1
    · exact Eq.trans (hend.keeps (p := .roomNotices) (by decide)) hd.notices
    · exact hpr.trans (hd.kept fun ⟨x, hx, hq, ha⟩ => hno x hx hq ha)
    · exact hpr.trans (hd.released ⟨x, hx, hq, ha⟩)
    · obtain ⟨a, b, c⟩ := (hgrow.2.2.2 (otherPort p)).1 (by rw [hother]; exact hse)
      rw [hother] at a b c
      exact ⟨a, b ▸ List.prefix_append _ _, c ▸ List.prefix_append _ _⟩
    · rw [downPort_silent hq]
      refine ⟨?_, hd.cells, ho.trans ?_⟩
      · rw [← hother]; cases p <;> rfl
      · intro q; cases q <;> simp [Keeps]
  · refine ⟨_, execLineUp_down hdown, ?_, ?_, fun g hg _ _ => ?_, raisePort_notices p (beginEvent s), ?_,
      ((beginEvent_only s).mono (by decide)).trans ((raisePort_only p _).mono (by decide))⟩
    · rw [raisePort_up, if_pos rfl]
    · simp [raisePort_flagSet]
    · have : linkFlag p ≠ g := fun e => hg (by simp [e])
      rw [raisePort_flagSet, decide_eq_false this]
      rfl
    · rw [raisePort_up, if_neg (otherPort_ne p)]
      rfl

/-! ## The end of a transmission (R19, R23) -/

/-- A free transmitter of an UP port takes the first reference waiting, EXPRESS before NORMAL. -/
theorem PortState.started_free {q : PortState} (hu : q.up = true) (hs : q.sending = none) :
    q.started.sending = (q.express ++ q.normal).head? ∧ q.started.express ++ q.started.normal = (q.express ++ q.normal).tail := by
  rcases q with ⟨up, rx, ex, nm, sd⟩
  subst hu hs
  cases ex <;> cases nm <;> simp [PortState.started]

theorem execTransmissionEnd_sending {p : Port} {ref : Nat} {s : State} (h : (s.port p).sending = some ref) :
    exec (.transmissionEnd p) s = .next (endTransmission p ref (beginEvent s)) := by
  show execTransmissionEnd p s = _
  simp only [execTransmissionEnd, h]
  rw [event_quiet fun t => (endTransmission_only p ref t).keeps (by decide)]

theorem endTransmission_port (p q : Port) (ref : Nat) (s : State) :
    (endTransmission p ref s).port q = if q = p then ({ s.port p with sending := none } : PortState).started else s.port q := by
  rw [endTransmission, startTransmitter_port, dropRef_port, dropRef_port, setPort_portIf, setPort_portIf, if_pos rfl]
  split <;> rfl

theorem endTransmission_dropped {s : State} (h : StoreOk s) (p : Port) (ref : Nat) : Dropped [ref] s (endTransmission p ref s) := by
  have hu : Keeps .store s (s.setPort p { s.port p with sending := none }) := by cases p <;> exact ⟨rfl, rfl, rfl⟩
  have hd := (dropped_one (h.of_keeps hu) ref).of_start hu (by cases p <;> rfl) (by cases p <;> rfl)
  have hst := startTransmitter_only p (dropRef ref (s.setPort p { s.port p with sending := none }))
  obtain ⟨e1, e2, e3⟩ := hst.keeps (p := .store) (by decide)
  have e4 : (endTransmission p ref s).roomNotices = _ := hst.keeps (p := .roomNotices) (by decide)
  have e5 : (endTransmission p ref s).pendingReset = _ := hst.keeps (p := .pendingReset) (by decide)
  exact ⟨e2.trans hd.frames, e1.trans hd.cells, e3.trans hd.next, e4.trans hd.notices, fun a => e5.trans (hd.released a),
    fun a => e5.trans (hd.kept a)⟩

section
variable {s t : State} {x : StoredFrame} (h : Dropped [x.ref] s t) (hs : StoreOk s) (hx : x ∈ s.frames)
include h hs hx

/-- The last reference of a frame dropped: the frame is released (R19, R24, R38). -/
theorem Dropped.last (hr : x.refs ≤ 1) :
    (∀ y, y ∈ t.frames ↔ y ∈ s.frames ∧ y ≠ x) ∧ t.freeCells = s.freeCells + cellsFor x.frame.length
      ∧ t.roomNotices = s.roomNotices + 1
      ∧ t.pendingReset = if x.requester = some .requestHandler ∧ s.pendingReset = .awaiting (some x.ref) then .noticed
          else s.pendingReset := by
  have hf : s.freedBy [x.ref] = [x] := by rw [hs.freedBy_one hx, if_pos hr]
  have haw : s.awaitedIn [x.ref] ↔ x.requester = some .requestHandler ∧ s.pendingReset = .awaiting (some x.ref) := by
    unfold State.awaitedIn
    simp [hf]
  refine ⟨fun y => ?_, ?_, ?_, ?_⟩
  · constructor
    · intro hy
      obtain ⟨z, hz, e⟩ := h.mem_frames.1 hy
      by_cases hc : z.ref = x.ref
      · obtain rfl := hs.find hz hx hc
        rw [StoredFrame.without_self rfl, if_pos hr] at e
        cases e
      · rw [StoredFrame.without_other (by simpa using hc)] at e
        cases e
        exact ⟨hz, fun e => hc (e ▸ rfl)⟩
    · rintro ⟨hy, hne⟩
      exact h.untouched hy fun hc => hne (hs.find hy hx (by simpa using hc))
  · rw [h.cells, hf]; rfl
  · rw [h.notices, hf]; rfl
  · split
    · rename_i hc; exact h.released (haw.2 hc)
    · rename_i hc; exact h.kept fun a => hc (haw.1 a)

/-- One of two references dropped: the frame stays. -/
theorem Dropped.one_of_two (hr : 1 < x.refs) :
    { x with refs := x.refs - 1 } ∈ t.frames ∧ t.freeCells = s.freeCells ∧ t.roomNotices = s.roomNotices ∧ t.pendingReset = s.pendingReset := by
  have hf : s.freedBy [x.ref] = [] := by rw [hs.freedBy_one hx, if_neg (by omega)]
  refine ⟨h.lowered hx (by simp) hr, ?_, ?_, h.kept fun ⟨y, hy, _⟩ => ?_⟩
  · rw [h.cells, hf]; rfl
  · rw [h.notices, hf]; rfl
  · rw [hf] at hy; cases hy

end

/-- Settles O15: the frame's reference is dropped, and the free transmitter starts the next frame. -/
theorem transmissionEndReleases : Obligations.TransmissionEndReleases := by
  rintro p ref x s hs hsend hx rfl
  have hb : StoreOk (beginEvent s) := hs
  have hd : Dropped [x.ref] s (endTransmission p x.ref (beginEvent s)) :=
    Dropped.of_start (s := beginEvent s) ⟨rfl, rfl, rfl⟩ rfl rfl (endTransmission_dropped hb p x.ref)
  refine ⟨_, execTransmissionEnd_sending hsend, fun hr => hd.last hs hx hr, fun hr => hd.one_of_two hs hx hr, fun hup => ?_, ?_, ?_⟩
  · rw [endTransmission_port, if_pos rfl]
    exact PortState.started_free (q := { s.port p with sending := none }) hup rfl
  · rw [endTransmission_port, if_neg (otherPort_ne p)]
    rfl
  · exact ((beginEvent_only s).mono (by decide)).trans ((endTransmission_only p x.ref _).mono (by decide))

end Sys2Proof.Machine

/-!
PROOFS. The report packer: when a frame is due, what a build does, and what the packer's judgement leaves (O16).
-/

namespace Sys2Proof.Machine

open Sys2Proof

/-! ## The relay's answer (R17, R20) -/

section
variable {dest : Nat} {kind : Byte} {express : Bool} {requester : Requester} {payload : List Byte} {s : State}

theorem originate_takes (h : RelayTakes payload.length s) :
    ∃ t, originate dest kind express requester payload s = (.accepted (some s.nextRef), t) := by
  obtain ⟨h0, hup, hc⟩ := h
  rcases originate_cases dest kind express requester payload s with ⟨-, -, hr | hr⟩ | ⟨-, e⟩ | ⟨t, e, -⟩
  · exact absurd hup ((upPorts_isEmpty s).1 hr)
  · omega
  · exact absurd e h0
  · exact ⟨t, e⟩

theorem originate_refuses (h0 : s.station ≠ 0) (h : ¬ RelayTakes payload.length s) :
    originate dest kind express requester payload s = (.refused, s) := by
  rcases originate_cases dest kind express requester payload s with ⟨e, -⟩ | ⟨-, e⟩ | ⟨t, -, -, hu, hc, -⟩
  · exact e
  · exact absurd e h0
  · exact absurd ⟨h0, not_not.1 fun hn => hu ((upPorts_isEmpty s).2 hn), hc⟩ h

theorem originate_repeater (h : s.station = 0) : originate dest kind express requester payload s = (.accepted none, s) := by
  rw [originate, if_pos h]

end

/-! ## A frame of the oldest records (R171 to R173) -/

/-- The records of the frame that the packer would build: the oldest, up to eight. -/
def State.reportRecords (s : State) : List Record := (s.fifo.take 8).map (·.record)

/-- The payload of the frame that the packer would build (section 11.4). -/
def State.reportPayload (s : State) : List Byte := BitVec.ofNat 8 s.reportRecords.length :: s.reportRecords.flatMap Record.bytes

/-- The frame that the packer would build. -/
def State.reportFrame (s : State) : Frame := s.ownFrame s.params.target 0x81 (s.reportRecords.any Record.isAttention) s.reportPayload

/-- The stored record of that frame, once the relay has taken it. -/
def State.reportStored (s : State) : StoredFrame :=
  { ref := s.nextRef, frame := s.reportFrame, refs := s.upPorts.length, requester := some .reportPacker }

/-- The request that the packer makes of the relay for that frame. -/
def requestReport (s : State) : Origination × State :=
  originate s.params.target 0x81 (s.reportRecords.any Record.isAttention) .reportPacker s.reportPayload s

theorem buildFrame_eq (s : State) :
    buildFrame s = match requestReport s with
      | (.refused, t) => (.refused, holdCombine t)
      | (.accepted ref, t) => (.accepted ref, settleCombine { t with fifo := t.fifo.drop 8 }) := rfl

theorem combineElapsed_iff (s : State) (since : Nat) : s.combineElapsed since = true ↔ since + s.params.combine * 16000 ≤ s.now :=
  decide_eq_true_iff

theorem frameDue_iff (s : State) :
    s.frameDue = true ↔ 8 ≤ s.fifo.length ∨ (∃ x, s.fifo.head? = some x ∧ x.entered + s.params.combine * 16000 ≤ s.now)
      ∨ (s.fifo ≠ [] ∧ s.combineExpired = true) ∨ ∃ x ∈ s.fifo, x.record.isAttention = true := by
  unfold State.frameDue
  cases s.fifo with
  | nil => simp
  | cons w ws => simp [Config.recordsPerFrame, combineElapsed_iff, or_assoc]

/-- The relay takes the frame: the records leave the FIFO. -/
theorem buildFrame_sent {s : State} (h : RelayTakes s.reportPayload.length s) :
    ∃ ref t, buildFrame s = (.accepted ref, t) ∧ t.fifo = s.fifo.drop 8 ∧ Originated s t ∧ newFrames s t = [s.reportStored] := by
  obtain ⟨t, e⟩ := originate_takes (dest := s.params.target) (kind := 0x81) (express := s.reportRecords.any Record.isAttention)
    (requester := .reportPacker) h
  obtain ⟨ho, hn⟩ := originate_sends e
  have hk := originate_only s.params.target 0x81 (s.reportRecords.any Record.isAttention) .reportPacker s.reportPayload s
  rw [e] at hk
  have hfifo : t.fifo = s.fifo := (hk.keeps (p := .records) (by decide)).1
  refine ⟨some s.nextRef, settleCombine { t with fifo := t.fifo.drop 8 }, ?_, ?_, ho, hn⟩
  · rw [buildFrame_eq, requestReport, e]
  · show t.fifo.drop 8 = _
    rw [hfifo]

/-- The relay refuses the frame: the records wait. -/
theorem buildFrame_refused {s : State} (h0 : s.station ≠ 0) (h : ¬ RelayTakes s.reportPayload.length s) :
    buildFrame s = (.refused, holdCombine s) := by
  rw [buildFrame_eq, requestReport, originate_refuses h0 h]

/-- A repeater-only station answers yes and sends nothing (R17). -/
theorem buildFrame_repeater {s : State} (h : s.station = 0) :
    buildFrame s = (.accepted none, settleCombine { s with fifo := s.fifo.drop 8 }) := by
  rw [buildFrame_eq, requestReport, originate_repeater h]

theorem buildFrame_fifo (s : State) : (buildFrame s).2.fifo <:+ s.fifo := by
  have hk := originate_only s.params.target 0x81 (s.reportRecords.any Record.isAttention) .reportPacker s.reportPayload s
  have hfifo : (requestReport s).2.fifo = s.fifo := (hk.keeps (p := .records) (by decide)).1
  rw [buildFrame_eq]
  revert hfifo
  rcases requestReport s with ⟨o, t⟩
  rintro (hfifo : t.fifo = s.fifo)
  cases o with
  | refused => exact hfifo ▸ List.suffix_refl _
  | accepted ref =>
    show t.fifo.drop 8 <:+ _
    rw [hfifo]
    exact List.drop_suffix 8 _

theorem buildFrame_reports (s : State) : OnlyReportsAdded s (buildFrame s).2 := by
  have h : OnlyReportsAdded s (requestReport s).2 := originate_reports _ _ _ _ s
  rw [buildFrame_eq]
  revert h
  rcases requestReport s with ⟨o, t⟩
  intro h
  cases o <;> exact h

/-! ## The packer's judgement (R171, R172) -/

theorem buildDue_fifo (fuel : Nat) : ∀ s : State, (buildDue fuel s).fifo <:+ s.fifo := by
  induction fuel with
  | zero => exact fun s => List.suffix_refl _
  | succ n ih =>
    intro s
    simp only [buildDue]
    split
    · have h := buildFrame_fifo s
      revert h
      rcases buildFrame s with ⟨o, t⟩
      intro h
      cases o
      · exact h
      · exact (ih t).trans h
    · exact List.suffix_refl _

theorem buildDue_reports (fuel : Nat) : ∀ s : State, OnlyReportsAdded s (buildDue fuel s) := by
  induction fuel with
  | zero => exact fun s => ((onlyChanges_refl [] s).relayQuiet (by simp)).onlyReports
  | succ n ih =>
    intro s
    simp only [buildDue]
    split
    · have h := buildFrame_reports s
      have hk := buildFrame_only s
      revert h hk
      rcases buildFrame s with ⟨o, t⟩
      intro h hk
      cases o
      · exact h
      · exact OnlyReportsAdded.trans (hk.keeps (by decide)) (hk.keeps (p := .station) (by decide)) h (ih t)
    · exact ((onlyChanges_refl [] s).relayQuiet (by simp)).onlyReports

theorem judgePacker_idle {s : State} (h : s.frameDue = false) : judgePacker s = s := by
  unfold judgePacker
  cases s.fifo.length with
  | zero => rfl
  | succ n => simp [buildDue, h]

theorem frameDue_length {s : State} (h : s.frameDue = true) : ∃ n, s.fifo.length = n + 1 := by
  cases hf : s.fifo with
  | nil => simp [State.frameDue, hf] at h
  | cons w ws => exact ⟨ws.length, rfl⟩

/-- A frame is due and the relay takes it: it is the first that the judgement sends. -/
theorem judgePacker_sends {s : State} (hd : s.frameDue = true) (h : RelayTakes s.reportPayload.length s) :
    (judgePacker s).fifo <:+ s.fifo.drop 8 ∧ SendsFirst .reportPacker s.reportFrame s (judgePacker s) := by
  obtain ⟨n, hn⟩ := frameDue_length hd
  obtain ⟨ref, t, e, hf, ho, hh⟩ := buildFrame_sent h
  have hj : judgePacker s = buildDue n t := by simp [judgePacker, hn, buildDue, hd, e]
  have hk : OnlyChanges (.records :: relayParts) s t := by
    have := buildFrame_only s
    rwa [e] at this
  obtain ⟨hr, -⟩ := buildDue_reports n t
  rw [hj]
  refine ⟨hf ▸ buildDue_fifo n t, ho.trans (hk.keeps (by decide)) (hk.keeps (p := .station) (by decide)) hr, ?_⟩
  rw [newFrames_trans ho.1 hr.1, hh]
  rfl

/-- A frame is due and the relay refuses it. -/
theorem judgePacker_refused {s : State} (hd : s.frameDue = true) (h0 : s.station ≠ 0) (h : ¬ RelayTakes s.reportPayload.length s) :
    judgePacker s = holdCombine s := by
  obtain ⟨n, hn⟩ := frameDue_length hd
  simp [judgePacker, hn, buildDue, hd, buildFrame_refused h0 h]

/-- At a repeater-only station the builds go on until no frame is due, and leave the relay alone (R17). -/
theorem buildDue_repeater (fuel : Nat) : ∀ s : State, s.station = 0 → s.fifo.length ≤ fuel →
    (buildDue fuel s).frameDue = false ∧ OnlyChanges [.records] s (buildDue fuel s) := by
  induction fuel with
  | zero =>
    intro s _ hl
    have : s.fifo = [] := List.eq_nil_of_length_eq_zero (by omega)
    exact ⟨by simp [buildDue, State.frameDue, this], onlyChanges_refl _ _⟩
  | succ n ih =>
    intro s h0 hl
    simp only [buildDue]
    split
    · rw [buildFrame_repeater h0]
      have ho : OnlyChanges [.records] s (settleCombine { s with fifo := s.fifo.drop 8 }) := by
        intro p; cases p <;> simp [Keeps, settleCombine]
      obtain ⟨a, b⟩ := ih (settleCombine { s with fifo := s.fifo.drop 8 }) h0 (by simp [settleCombine]; omega)
      exact ⟨a, ho.trans b⟩
    · rename_i hd
      exact ⟨by simpa using hd, onlyChanges_refl _ _⟩

theorem judgePacker_repeater {s : State} (hd : s.frameDue = true) (h0 : s.station = 0) :
    (judgePacker s).fifo <:+ s.fifo.drop 8 ∧ (judgePacker s).frameDue = false ∧ OnlyChanges [.records] s (judgePacker s) := by
  obtain ⟨n, hn⟩ := frameDue_length hd
  refine ⟨?_, buildDue_repeater _ s h0 (le_refl _)⟩
  simp only [judgePacker, hn, buildDue, hd, buildFrame_repeater h0, if_true]
  exact buildDue_fifo n _

/-! ## The packer's two occasions of its own (R171, R175) -/

theorem execRoomNoticeBuild_taken {s : State} (h : s.roomNotices ≠ 0) :
    exec .roomNoticeBuild s = .next (judgePacker { beginEvent s with roomNotices := s.roomNotices - 1 }) := by
  show execRoomNoticeBuild s = _
  rw [execRoomNoticeBuild, if_neg h, event_quiet (f := fun t => judgePacker { t with roomNotices := t.roomNotices - 1 }) fun t =>
    (judgePacker_only { t with roomNotices := t.roomNotices - 1 }).keeps (p := .notes) (by decide)]
  rfl

theorem execCombineExpiry_elapsed {s : State} {since : Nat} (hc : s.combine = some { since := since, expired := false })
    (he : since + s.params.combine * 16000 ≤ s.now) :
    exec .combineExpiry s = .next (judgePacker { beginEvent s with combine := some { since := since, expired := true } }) := by
  show execCombineExpiry s = _
  have : s.combineElapsed since = true := (combineElapsed_iff s since).2 he
  simp only [execCombineExpiry, hc, this, Bool.not_false, Bool.and_self, if_true]
  rw [event_quiet (f := fun t => judgePacker { t with combine := some { since := since, expired := true } }) fun t =>
    (judgePacker_only { t with combine := some { since := since, expired := true } }).keeps (p := .notes) (by decide)]

/-- Settles O16: each occasion ends with the packer's judgement, which no further event end follows. -/
theorem reportFrameSent : Obligations.ReportFrameSent := by
  refine ⟨fun _ _ _ _ _ s h0 => originate_repeater h0, fun w rest s hf => ?_⟩
  have hroom : OnlyChanges [.roomNotices, .notes] s { beginEvent s with roomNotices := s.roomNotices - 1 } := by
    intro p; cases p <;> simp [Keeps, beginEvent]
  have htimer : OnlyChanges [.records, .notes] s { beginEvent s with combine := some { since := w.entered, expired := true } } := by
    intro p; cases p <;> simp [Keeps, beginEvent]
  have hdue : ∀ u : State, u.fifo = s.fifo → u.combineExpired = true → u.frameDue = true := fun u h1 h2 => by
    simp [State.frameDue, h1, hf, h2]
  refine ⟨fun hn hd ht => ?_, fun hn hd => ?_, fun hn hd h0 ht => ?_, fun hn hd h0 => ?_, fun hc he => ?_⟩
  · have hj := judgePacker_only { beginEvent s with roomNotices := s.roomNotices - 1 }
    have hd := (frameDue_iff { beginEvent s with roomNotices := s.roomNotices - 1 }).2 hd
    exact ⟨_, execRoomNoticeBuild_taken hn, judgePacker_sends hd ht, hj.keeps (p := .roomNotices) (by decide),
      (hroom.mono (by decide)).trans (hj.mono (by decide))⟩
  · have hd := mt (frameDue_iff { beginEvent s with roomNotices := s.roomNotices - 1 }).1 hd
    refine ⟨_, execRoomNoticeBuild_taken hn, ?_⟩
    rw [judgePacker_idle (by simpa using hd)]
    exact ⟨rfl, hroom⟩
  · have hd := (frameDue_iff { beginEvent s with roomNotices := s.roomNotices - 1 }).2 hd
    refine ⟨_, execRoomNoticeBuild_taken hn, ?_⟩
    rw [judgePacker_refused hd h0 ht]
    exact ⟨rfl, rfl, rfl, (hroom.mono (by decide)).trans ((holdCombine_only _).mono (by decide))⟩
  · have hd := (frameDue_iff { beginEvent s with roomNotices := s.roomNotices - 1 }).2 hd
    obtain ⟨a, b, c⟩ := judgePacker_repeater hd h0
    refine ⟨_, execRoomNoticeBuild_taken hn, a, fun hx => ?_, c.keeps (p := .roomNotices) (by decide),
      (hroom.mono (by decide)).trans (c.mono (by decide))⟩
    rw [(frameDue_iff _).2 hx] at b
    cases b
  · have hd := hdue { beginEvent s with combine := some { since := w.entered, expired := true } } rfl rfl
    refine ⟨fun ht => ?_, fun h0 ht => ?_, fun h0 => ?_⟩
    · have hj := judgePacker_only { beginEvent s with combine := some { since := w.entered, expired := true } }
      obtain ⟨a, b⟩ := judgePacker_sends hd ht
      exact ⟨_, execCombineExpiry_elapsed hc he, ⟨a, b⟩, (htimer.mono (by decide)).trans (hj.mono (by decide))⟩
    · refine ⟨_, execCombineExpiry_elapsed hc he, ?_⟩
      rw [judgePacker_refused hd h0 ht]
      exact ⟨rfl, rfl, htimer.trans ((holdCombine_only _).mono (by decide))⟩
    · obtain ⟨a, b, c⟩ := judgePacker_repeater hd h0
      refine ⟨_, execCombineExpiry_elapsed hc he, a, fun hx => ?_, htimer.trans (c.mono (by decide))⟩
      rw [(frameDue_iff _).2 hx] at b
      cases b

end Sys2Proof.Machine

/-!
PROOFS. The request handler's tests before a request reaches its block (O18), and the resets (O5, O6).
-/

namespace Sys2Proof.Machine

open Sys2Proof

/-! ## Requests refused or discarded (R26 to R28, R38) -/

/-- Each kind's command carries the head request forward, to a block of its own. -/
theorem exec_command (k : ReqKind) (lines : LineLevels) (s : State) :
    ∃ serve, exec (k.command lines) s = .next (carryForward k serve s) := by
  cases k <;> exact ⟨_, rfl⟩

theorem refusalOf_noRight {r : Request} {s : State} (h : s.holds r.origin r.kind.right = false) : refusalOf r s = some .noRight := by
  simp [refusalOf, h]

theorem refusalOf_items {r : Request} {s : State} (h : s.holds r.origin r.kind.right = true) : refusalOf r s = itemRefusal r := by
  simp [refusalOf, h]

/-- The item check of R26, its item count read from the payload's first byte. -/
theorem itemRefusal_items {r : Request} {size least most : Nat} (hf : r.kind.form = .items size least most) :
    itemRefusal r = if r.field 0 1 < least ∨ most < r.field 0 1 then some .badField
      else if r.payload.length ≠ 1 + size * r.field 0 1 then some .badLength else none := by
  unfold itemRefusal
  simp only [hf, Bool.or_eq_true, decide_eq_true_eq]
  rfl

theorem holds_open {s : State} (h : s.rights = []) (o : Nat) (x : Right) : s.holds o x = true := by
  cases x <;> simp [State.holds, State.rightsOf, h, Right.bit]

/-- With a loaded table, each station has at most one entry, and holds what that entry gives. -/
theorem holds_loaded {s : State} (h : s.rights ≠ []) (hn : (s.rights.map (·.station)).Nodup) (o : Nat) (x : Right) :
    s.holds o x = true ↔ ∃ e ∈ s.rights, e.station = o ∧ e.rights.getLsbD x.bit = true := by
  have hempty : s.rights.isEmpty = false := by simpa using h
  simp only [State.holds, State.rightsOf, hempty, Bool.false_eq_true, if_false]
  constructor
  · intro hx
    cases hf : s.rights.find? (fun e => e.station == o) with
    | none => simp [hf] at hx
    | some e =>
      have he : e.station = o := by simpa using List.find?_some hf
      exact ⟨e, List.mem_of_find?_eq_some hf, he, by simpa [hf] using hx⟩
  · rintro ⟨e, he, rfl, hx⟩
    cases hf : s.rights.find? (fun d => d.station == e.station) with
    | none => simpa using List.find?_eq_none.1 hf e he
    | some d =>
      have hd : d.station = e.station := by simpa using List.find?_some hf
      obtain rfl := List.inj_on_of_nodup_map hn (List.mem_of_find?_eq_some hf) he hd
      exact hx

theorem signal_end_discards (s : State) :
    let t := endEvent (signal .requestDiscarded none (taken s))
    t.admitted = s.admitted.tail ∧ t.counters = s.counters.after .requestDiscarded none ∧ FlagsKept [] s t ∧ OnlyReportsAdded s t
      ∧ OnlyChanges ([.admitted, .counters] ++ eventParts) s t := by
  have ht := taken_only s
  have hs := signal_only .requestDiscarded none (taken s)
  have he := endEvent_only (signal .requestDiscarded none (taken s))
  have ho : OnlyChanges ([.admitted, .counters] ++ eventParts) s (signal .requestDiscarded none (taken s)) :=
    (ht.mono (by decide)).trans (hs.mono (by decide))
  refine ⟨?_, ?_, ?_, ?_, ho.trans (he.mono (by decide))⟩
  · exact Eq.trans (he.keeps (p := .admitted) (by decide)) (hs.keeps (p := .admitted) (by decide))
  · refine Eq.trans (he.keeps (p := .counters) (by decide)) ?_
    rw [signal_counters]
    rfl
  · exact ((ht.flagsKept (by decide) []).trans (signal_kept _ _ _)).trans (endEvent_kept _)
  · exact OnlyReportsAdded.after ((ht.relayQuiet (by decide)).trans (hs.relayQuiet (by decide))) (endEvent_reports _)

/-- Settles O18: the handler's tests come before the block that the request's kind names. -/
theorem requestsRefusedOrDiscarded : Obligations.RequestsRefusedOrDiscarded := by
  rintro k r lines s hr rfl
  obtain ⟨serve, he⟩ := exec_command r.kind lines s
  rw [he]
  refine ⟨fun hp hh => ⟨_, rfl, ?_⟩, fun size least most hf hp hh => ⟨fun hc => ⟨_, rfl, ?_⟩, fun h1 h2 hl => ⟨_, rfl, ?_⟩⟩,
    fun h o x => holds_open h o x, fun h hn o x => holds_loaded h hn.2.1 o x, fun hp => ⟨_, rfl, ?_⟩⟩
  · exact carryForward_refuses serve hr rfl hp (refusalOf_noRight hh)
  · exact carryForward_refuses serve hr rfl hp ((refusalOf_items hh).trans ((itemRefusal_items hf).trans (if_pos hc)))
  · exact carryForward_refuses serve hr rfl hp ((refusalOf_items hh).trans
      ((itemRefusal_items hf).trans ((if_neg (by omega)).trans (if_pos hl))))
  · rw [carryForward_discarded serve hr rfl hp]
    exact signal_end_discards s

/-! ## The flags that a reset notes (R185, R190) -/

/-- The event so far has noted exactly the flags that are set, and no record. -/
def NotedFlags (s : State) : Prop := s.notes = { noted := s.flags, wraps := [], entered := false }

theorem clearFlag_unset {f : Flag} {s : State} (h : s.flagSet f = false) : clearFlag f s = s := by
  have : s.flags &&& ~~~f.bit = s.flags := by
    refine BitVec.eq_of_getLsbD_eq fun i hi => ?_
    rw [BitVec.getLsbD_and, BitVec.getLsbD_not, Flag.bit, BitVec.getLsbD_twoPow]
    by_cases e : f.position = i
    · subst e
      rw [show s.flags.getLsbD f.position = false from h]
      rfl
    · simp [e, hi]
  rw [clearFlag, this]

theorem followFlag_noted {f : Flag} {c : Bool} {s : State} (hs : s.flagSet f = false) (h : NotedFlags s) : NotedFlags (followFlag f c s) := by
  cases c with
  | false =>
    have : followFlag f false s = s := clearFlag_unset hs
    rwa [this]
  | true =>
    have : followFlag f true s = { s with flags := s.flags ||| f.bit, notes := { s.notes with noted := s.notes.noted ||| f.bit } } := by
      simp [followFlag, setFlag, hs]
    unfold NotedFlags at h ⊢
    rw [this, h]

theorem resetState_flagSet (station : Nat) (cause : ResetCause) (lines : LineLevels) (s : State) (f : Flag) :
    (resetState station cause lines s).flagSet f = false := BitVec.getLsbD_zero

theorem resetTo_noted (station : Nat) (cause : ResetCause) (lines : LineLevels) (s : State) : NotedFlags (resetTo station cause lines s) := by
  unfold resetTo followLines
  refine followFlag_noted (by simp [resetState_flagSet]) (followFlag_noted (by simp [resetState_flagSet])
    (followFlag_noted (by simp [resetState_flagSet]) (followFlag_noted (resetState_flagSet _ _ _ _ _) rfl)))

theorem resetTo_flagSet (station : Nat) (cause : ResetCause) (lines : LineLevels) (s : State) (f : Flag) :
    (resetTo station cause lines s).flagSet f = flagAfterReset lines f := by
  simp only [resetTo, followLines, followFlag_flagSet, resetState_flagSet]
  cases f <;> simp [flagAfterReset]

theorem resetTo_only (station : Nat) (cause : ResetCause) (lines : LineLevels) (s : State) :
    OnlyChanges [.flags, .notes] (resetState station cause lines s) (resetTo station cause lines s) := followLines_only lines _

theorem linesSound_iff (lines : LineLevels) :
    linesSound lines = true ↔ lines.activeA = true ∧ lines.activeB = true ∧ lines.heldL = false ∧ lines.heldR = false := by
  simp [linesSound, and_assoc]

/-- With both trunk lines active and both branch lines free no flag sets. -/
theorem resetTo_sound {lines : LineLevels} (h : linesSound lines = true) (station : Nat) (cause : ResetCause) (s : State) :
    resetTo station cause lines s = resetState station cause lines s := by
  obtain ⟨ha, hb, hl, hr⟩ := (linesSound_iff lines).1 h
  have clear : ∀ f, followFlag f false (resetState station cause lines s) = resetState station cause lines s :=
    fun f => clearFlag_unset (resetState_flagSet _ _ _ _ _)
  simp only [resetTo, followLines, ha, hb, hl, hr, Bool.not_true, clear]

/-- With a line missing or held some flag sets. -/
theorem resetTo_flags {lines : LineLevels} (h : linesSound lines = false) (station : Nat) (cause : ResetCause) (s : State) :
    (resetTo station cause lines s).flags ≠ 0 := by
  intro h0
  have none : ∀ f, flagAfterReset lines f = false := fun f => by
    rw [← resetTo_flagSet station cause lines s f, State.flagSet, h0]
    exact BitVec.getLsbD_zero
  have hs := (linesSound_iff lines).2
    ⟨by simpa [flagAfterReset] using none .linkADown, by simpa [flagAfterReset] using none .linkBDown,
      none .branchLFault, none .branchRFault⟩
  rw [h] at hs
  cases hs

/-! ## The end of the reset's event -/

/-- An event that has newly set an enabled flag, and has no record of its own, ends with an ATTENTION record and the packer's judgement (R171,
R187). -/
theorem endEvent_attention {s : State} (hw : s.notes.wraps = []) (hm : s.notes.noted &&& s.mask ≠ 0)
    (hf : s.fifo.length < Config.reportRecords) :
    endEvent s = { judgePacker (offer (.attention (s.notes.noted &&& s.mask) s.clock) s) with notes := EventNotes.empty } := by
  have h1 : offerWraps s = s := by simp [offerWraps, hw]
  have h2 : offerAttention s = offer (.attention (s.notes.noted &&& s.mask) s.clock) s := by simp only [offerAttention, if_neg hm]
  have h3 : (offer (.attention (s.notes.noted &&& s.mask) s.clock) s).notes.entered = true := by simp [offer, hf]
  simp only [endEvent, h1, h2, h3, if_true]

/-- The machine just before the packer judges the reset's ATTENTION record. -/
def resetOffered (station : Nat) (cause : ResetCause) (lines : LineLevels) (s : State) : State :=
  offer (.attention (resetTo station cause lines s).flags 0) (resetTo station cause lines s)

section
variable (station : Nat) (cause : ResetCause) (lines : LineLevels) (s : State)

theorem endEvent_resetTo (h : linesSound lines = false) :
    endEvent (resetTo station cause lines s)
      = { judgePacker (resetOffered station cause lines s) with notes := EventNotes.empty } := by
  have hn := resetTo_noted station cause lines s
  have ho := resetTo_only station cause lines s
  have hmask : (resetTo station cause lines s).mask = BitVec.allOnes 21 := ho.keeps (p := .mask) (by decide)
  have hclock : (resetTo station cause lines s).clock = 0 := (ho.keeps (p := .clock) (by decide)).1
  have hfifo : (resetTo station cause lines s).fifo = [] := (ho.keeps (p := .records) (by decide)).1
  have hall : (resetTo station cause lines s).notes.noted &&& (resetTo station cause lines s).mask = (resetTo station cause lines s).flags := by
    rw [hn, hmask, BitVec.and_allOnes]
  rw [endEvent_attention (by rw [hn]) (by rw [hall]; exact resetTo_flags h station cause s) (by rw [hfifo]; decide), hall, hclock]
  rfl

theorem resetOffered_only : OnlyChanges [.records, .flags, .notes] (resetState station cause lines s) (resetOffered station cause lines s) :=
  ((resetTo_only station cause lines s).mono (by decide)).trans (offer_only _ _)

theorem resetOffered_fifo :
    (resetOffered station cause lines s).fifo = [{ record := .attention (resetTo station cause lines s).flags 0, entered := 0 }] := by
  have ho := resetTo_only station cause lines s
  have hfifo : (resetTo station cause lines s).fifo = [] := (ho.keeps (p := .records) (by decide)).1
  have hnow : (resetTo station cause lines s).now = 0 := ho.keeps (p := .moment) (by decide)
  rw [resetOffered, offer_room (by rw [hfifo]; decide), hfifo, hnow]
  rfl

theorem resetOffered_due : (resetOffered station cause lines s).frameDue = true :=
  (frameDue_iff _).2 (.inr (.inr (.inr ⟨_, by rw [resetOffered_fifo]; exact List.mem_singleton_self _, rfl⟩)))

end

/-! ## The report of a reset's live flags (R17, R20, R171) -/

/-- One record that makes a frame due: the judgement is one build. -/
theorem judgePacker_one {s : State} (hd : s.frameDue = true) (hl : s.fifo.length = 1) : judgePacker s = (buildFrame s).2 := by
  simp only [judgePacker, hl, buildDue, hd, if_true]
  rcases buildFrame s with ⟨o, t⟩
  cases o <;> rfl

/-- One record, and the relay takes its frame. -/
theorem judgePacker_one_sent {s : State} (hd : s.frameDue = true) (hl : s.fifo.length = 1) (ht : RelayTakes s.reportPayload.length s) :
    (judgePacker s).fifo = [] ∧ Originated s (judgePacker s) ∧ newFrames s (judgePacker s) = [s.reportStored] := by
  obtain ⟨ref, t, e, hf, ho, hn⟩ := buildFrame_sent ht
  rw [judgePacker_one hd hl, e]
  exact ⟨hf.trans (List.drop_eq_nil_of_le (by omega)), ho, hn⟩

/-- A frame originated where nothing was stored, sent or numbered before: what stands afterwards. -/
theorem Originated.first {s t : State} {x : StoredFrame} (h : Originated s t) (hn : newFrames s t = [x]) (hf : s.frames = [])
    (hs : s.seq = 0) (ho : s.ownSent = []) (hq : ∀ p, (s.port p).references = []) :
    t.frames = [x] ∧ t.seq = 1 ∧ t.ownSent = [x.frame.seq] ∧ t.freeCells + x.cells = s.freeCells
      ∧ ∀ p, (s.port p).up = true → (t.port p).references = [x.ref] := by
  obtain ⟨hg, ⟨-, hseq, hown⟩, -, hq'⟩ := h
  refine ⟨?_, ?_, ?_, ?_, fun p hp => ?_⟩
  · rw [hg.frames, hf, hn]; rfl
  · rw [hseq, hn, hs]; rfl
  · rw [hown, hn, ho]; rfl
  · rw [← hg.2.2.2, hn]; simp
  · have := (hq' p).2 (hq p)
    rw [if_pos hp, hn] at this
    obtain ⟨a, b, c⟩ := this
    simp [PortState.references, a, b, c]

section
variable (station : Nat) (cause : ResetCause) (lines : LineLevels) (s : State)

/-- What the packer and the relay find when they judge a reset's ATTENTION record. -/
theorem resetOffered_fields :
    let o := resetOffered station cause lines s
    o.station = station ∧ o.params = Params.reset ∧ o.frames = [] ∧ o.nextRef = 0 ∧ o.freeCells = 96 ∧ o.seq = 0 ∧ o.ownSent = []
      ∧ ∀ p, (o.port p).references = [] := by
  have ho := resetOffered_only station cause lines s
  obtain ⟨e1, e2, e3⟩ := ho.keeps (p := .store) (by decide)
  obtain ⟨e4, e5⟩ := ho.keeps (p := .sequence) (by decide)
  obtain ⟨⟨a, b, c⟩, d, e, f⟩ := ho.keeps (p := .queues) (by decide)
  refine ⟨ho.keeps (p := .station) (by decide), ho.keeps (p := .params) (by decide), e2, e3, e1, e5, e4, fun p => ?_⟩
  cases p
  · simp only [PortState.references, State.port, a, b, c]; rfl
  · simp only [PortState.references, State.port, d, e, f]; rfl

theorem resetOffered_flags : (resetOffered station cause lines s).flags = (resetTo station cause lines s).flags := by
  have hfifo : (resetTo station cause lines s).fifo = [] :=
    ((resetTo_only station cause lines s).keeps (p := .records) (by decide)).1
  simp [resetOffered, offer, hfifo, Config.reportRecords]

/-- The frame of a reset's report. -/
theorem resetOffered_reportFrame :
    (resetOffered station cause lines s).reportFrame
      = { dest := 48, origin := station, kind := 0x81, express := true, spare := false, hop := 32, seq := 0
          payload := 1 :: (Record.attention (resetTo station cause lines s).flags 0).bytes } := by
  obtain ⟨h1, h2, -, -, -, h6, -⟩ := resetOffered_fields station cause lines s
  have hr : (resetOffered station cause lines s).reportRecords = [.attention (resetTo station cause lines s).flags 0] := by
    rw [State.reportRecords, resetOffered_fifo]; rfl
  simp only [State.reportFrame, State.reportPayload, State.ownFrame, hr, h1, h2, h6]
  simp [Params.reset, Record.isAttention]

theorem resetOffered_payload : (resetOffered station cause lines s).reportPayload.length = 10 := by
  have h : (resetOffered station cause lines s).reportPayload = (resetOffered station cause lines s).reportFrame.payload := rfl
  rw [h, resetOffered_reportFrame]
  simp [Record.bytes, beBytes]

/-- The judgement's outcome by the station number and the trunk ports. -/
theorem resetReported : LiveFlagsReported station { judgePacker (resetOffered station cause lines s) with notes := EventNotes.empty } := by
  obtain ⟨h1, h2, h3, h4, h5, h6, h7, h8⟩ := resetOffered_fields station cause lines s
  have hfifo := resetOffered_fifo station cause lines s
  have hdue := resetOffered_due station cause lines s
  have hframe := resetOffered_reportFrame station cause lines s
  have hlen := resetOffered_payload station cause lines s
  have hflags := resetOffered_flags station cause lines s
  generalize resetOffered station cause lines s = o at *
  have hj := judgePacker_only o
  have hjf : (judgePacker o).flags = (resetTo station cause lines s).flags :=
    Eq.trans (hj.keeps (p := .flags) (by decide)) hflags
  have hlines : Keeps .lines o (judgePacker o) := hj.keeps (by decide)
  have hup : ({ judgePacker o with notes := EventNotes.empty } : State).upPorts = o.upPorts := by
    simp only [State.upPorts, hlines.1, hlines.2]
  have hdrop : o.fifo.drop 8 = [] := by rw [hfifo]; rfl
  refine ⟨fun h0 => ?_, fun h0 hn => ?_, fun h0 hn => ?_⟩
  · obtain ⟨a, -, c⟩ := judgePacker_repeater hdue (h1.trans h0)
    have hs := c.keeps (p := .store) (by decide)
    have hq := c.keeps (p := .sequence) (by decide)
    rw [hdrop] at a
    exact ⟨List.suffix_nil.1 a, hs.2.1.trans h3, hq.2.trans h6, hq.1.trans h7⟩
  · have ht : ¬ RelayTakes o.reportPayload.length o := fun ⟨_, hu, _⟩ => (upPorts_isEmpty o).1 (hup.symm.trans hn) hu
    have he := judgePacker_refused hdue (by rw [h1]; exact h0) ht
    simp only [hjf]
    rw [he]
    exact ⟨hfifo, h3, h6, h7⟩
  · have ht : RelayTakes o.reportPayload.length o :=
      ⟨by rw [h1]; exact h0, not_not.1 fun hu => hn (hup.trans ((upPorts_isEmpty o).2 hu)), by rw [hlen, h5]; decide⟩
    obtain ⟨hf, ho, hnew⟩ := judgePacker_one_sent hdue (by rw [hfifo]; rfl) ht
    obtain ⟨f1, f2, f3, f4, f5⟩ := ho.first hnew h3 h6 h7 h8
    have hcells : o.reportStored.cells = 1 := by
      have : o.reportStored.cells = cellsFor (9 + o.reportPayload.length) := rfl
      rw [this, hlen]; decide
    refine ⟨hf, f2, ?_, ?_, o.nextRef, ?_, fun p hp => ?_⟩
    · refine f3.trans ?_
      show [o.seq] = _
      rw [h6]
    · show (judgePacker o).freeCells = 95
      omega
    · refine f1.trans ?_
      rw [hup, State.reportStored, hframe]
      simp only [hjf]
    · rw [hup] at hp
      exact f5 p ((mem_upPorts o p).1 hp)

end

/-! ## The machine after a reset -/

/-- Everything that `resetState` does not take from the reset values. -/
theorem resetState_only (station : Nat) (cause : ResetCause) (lines : LineLevels) (s : State) :
    OnlyChanges [.waiting, .station, .resetCause, .lines, .faults] State.reset (resetState station cause lines s) := by
  intro p
  cases p <;> simp [Keeps, resetState, State.reset]

theorem resetState_sound {lines : LineLevels} (h : linesSound lines = true) (station : Nat) (cause : ResetCause) (s : State) :
    OnlyChanges [.waiting, .station, .resetCause] State.reset (resetState station cause lines s) := by
  obtain ⟨ha, hb, hl, hr⟩ := (linesSound_iff lines).1 h
  intro p
  cases p <;> simp [Keeps, resetState, State.reset, PortState.reset, BranchState.reset, ha, hb, hl, hr]

/-- A reset and the end of its event: the reset values, what the lines give, and the report of the live flags. The commands that wait are all
that it takes from the state before. -/
theorem afterReset_endEvent (station : Nat) (cause : ResetCause) (lines : LineLevels) {s u : State} (hu : u.pending = s.pending) :
    AfterReset station cause lines s (endEvent (resetTo station cause lines u)) := by
  have hx := resetTo_only station cause lines u
  have he := endEvent_only (resetTo station cause lines u)
  have hall : OnlyChanges eventParts (resetState station cause lines u) (endEvent (resetTo station cause lines u)) :=
    (hx.mono (by decide)).trans he
  have hlines := hall.keeps (p := .lines) (by decide)
  have hfaults := hall.keeps (p := .faults) (by decide)
  refine ⟨Eq.trans (hall.keeps (p := .waiting) (by decide)) hu, hall.keeps (p := .station) (by decide),
    hall.keeps (p := .resetCause) (by decide), hlines.1, hlines.2, hfaults.1, hfaults.2, fun f => ?_, fun p => ?_, fun h => ?_, fun h => ?_⟩
  · have hflags : (endEvent (resetTo station cause lines u)).flags = (resetTo station cause lines u).flags := by
      cases h : linesSound lines with
      | true => rw [resetTo_sound h, endEvent_quiet rfl]
      | false =>
        rw [endEvent_resetTo _ _ _ _ h]
        refine Eq.trans ?_ (resetOffered_flags station cause lines u)
        exact (judgePacker_only (resetOffered station cause lines u)).keeps (p := .flags) (by decide)
    rw [State.flagSet, hflags]
    exact resetTo_flagSet station cause lines u f
  · by_cases hp : p = .notes
    · subst hp
      exact .inr rfl
    · have := (((resetState_only station cause lines u).mono (qs := [.waiting, .station, .resetCause, .lines, .faults] ++ eventParts)
        (by decide)).trans (hall.mono (by decide))) p
      refine this.imp_left fun hm => ?_
      revert hp hm
      cases p <;> decide
  · rw [resetTo_sound h, endEvent_quiet rfl]
    exact resetState_sound h station cause u
  · rw [endEvent_resetTo _ _ _ _ h]
    exact resetReported station cause lines u

/-- Settles O5: each reset is `resetTo` as an event. -/
theorem resetsRestoreEverything : Obligations.ResetsRestoreEverything := by
  intro straps lines s
  refine ⟨⟨_, rfl, afterReset_endEvent _ _ lines rfl⟩, ⟨_, rfl, afterReset_endEvent _ _ lines rfl⟩, fun hp => ?_⟩
  refine ⟨endEvent (resetTo s.station .aisleReset lines (beginEvent s)), ?_, afterReset_endEvent _ _ lines rfl⟩
  show execSoftReset lines s = _
  rw [execSoftReset, if_pos hp]
  rfl

/-! ## AISLE_RESET (R38) -/

theorem execAisleReset_carried {r : Request} {s : State} (lines : LineLevels) (h : Carried .aisleReset r s) :
    exec (.aisleReset lines) s = .next (endEvent (serveAisleReset lines r (taken s))) := by
  show execAisleReset lines s = _
  rw [execAisleReset, carryForward_carried _ h]

theorem resetReply_length (r : Request) : (replyPayload r (Answer.ok [])).length = 4 := by simp [replyPayload, beBytes, Answer.ok]

/-- The relay takes the reply, and AISLE_RESET awaits its release. -/
theorem serveAisleReset_answered {r : Request} {s : State} (lines : LineLevels) (hb : r.broadcast = false) (h : RelayTakes 4 s) :
    ∃ t, originate r.origin replyCodeKind true .requestHandler (replyPayload r (Answer.ok [])) s = (.accepted (some s.nextRef), t)
      ∧ serveAisleReset lines r s = { t with pendingReset := .awaiting (some s.nextRef) } := by
  obtain ⟨t, e⟩ := originate_takes (dest := r.origin) (kind := replyCodeKind) (express := true) (requester := .requestHandler)
    ((resetReply_length r).symm ▸ h)
  exact ⟨t, e, by simp [serveAisleReset, hb, e]⟩

theorem serveAisleReset_refused {r : Request} {s : State} (lines : LineLevels) (hb : r.broadcast = false) (h0 : s.station ≠ 0)
    (h : ¬ RelayTakes 4 s) : serveAisleReset lines r s = resetTo s.station .aisleReset lines (setFlag .replyDrop s) := by
  have e := originate_refuses (dest := r.origin) (kind := replyCodeKind) (express := true) (requester := .requestHandler) h0
    ((resetReply_length r).symm ▸ h)
  simp [serveAisleReset, hb, e]

theorem serveAisleReset_broadcast {r : Request} (s : State) (lines : LineLevels) (hb : r.broadcast = true) :
    serveAisleReset lines r s = resetTo s.station .aisleReset lines s := by simp [serveAisleReset, hb]

/-- Settles O6: the relay's answer to the reply decides between the wait for its release and the reset at once. -/
theorem aisleResetAnswersThenResets : Obligations.AisleResetAnswersThenResets := by
  intro r lines s hc
  refine ⟨fun hb ht => ⟨_, execAisleReset_carried lines hc, ?_⟩, fun h => ⟨_, execAisleReset_carried lines hc, ?_⟩⟩
  · obtain ⟨t, e, hserve⟩ := serveAisleReset_answered (s := taken s) lines hb ht
    obtain ⟨ho, hn⟩ := originate_sends e
    have hk := originate_only r.origin replyCodeKind true .requestHandler (replyPayload r (Answer.ok [])) (taken s)
    rw [e] at hk
    have hnotes : t.notes = EventNotes.empty := hk.keeps (p := .notes) (by decide)
    have hpend : OnlyChanges [.pendingReset] t { t with pendingReset := .awaiting (some s.nextRef) } := by
      intro q; cases q <;> simp [Keeps]
    have hend : endEvent (serveAisleReset lines r (taken s)) = { t with pendingReset := .awaiting (some s.nextRef) } := by
      rw [hserve]
      exact endEvent_quiet hnotes
    rw [hend]
    refine ⟨rfl, hk.keeps (p := .admitted) (by decide), ⟨ho, ?_⟩,
      (((taken_only s).mono (by decide)).trans (hk.mono (by decide))).trans (hpend.mono (by decide))⟩
    show (newFrames (taken s) t).head? = _
    rw [hn, replyPayload]
    rfl
  · have hflag : (setFlag .replyDrop (taken s)).pending = s.pending := (setFlag_only _ _).keeps (p := .waiting) (by decide)
    by_cases hb : r.broadcast = true
    · rw [serveAisleReset_broadcast _ _ hb]
      exact afterReset_endEvent _ _ _ rfl
    · obtain ⟨h0, ht⟩ := h.resolve_left hb
      rw [serveAisleReset_refused (s := taken s) lines (by simpa using hb) h0 ht]
      exact afterReset_endEvent _ _ _ hflag

end Sys2Proof.Machine

/-!
PROOFS. What each command that is no request does: nothing where its cause is absent (log 1), and else one event.
-/

namespace Sys2Proof.Machine

open Sys2Proof

@[simp] theorem beginEvent_branch (s : State) (b : Branch) : (beginEvent s).branch b = s.branch b := by cases b <;> rfl

@[simp] theorem beginEvent_port (s : State) (p : Port) : (beginEvent s).port p = s.port p := by cases p <;> rfl

section
variable {s t : State}

/-! ## Trunk, packer and resets -/

theorem execSoftReset_event {lines : LineLevels} (h : execSoftReset lines s = .next t) :
    t = s ∨ t = event (resetTo s.station .aisleReset lines) s := by
  unfold execSoftReset at h
  split at h <;> rw [next_inj h]
  · exact .inr rfl
  · exact .inl rfl

theorem execFrameArrival_event {p : Port} {bytes : List Byte} (h : execFrameArrival p bytes s = .next t) :
    t = freeBuffer p (fillBuffer p bytes s) ∨ t = event (fun u => freeBuffer p (takeArrival p u)) (fillBuffer p bytes s) := by
  simp only [execFrameArrival] at h
  split at h <;> rw [next_inj h]
  · exact .inr rfl
  · exact .inl rfl

/-! ## The scheduler -/

theorem execSilenceLimitExpiry_event (h : execSilenceLimitExpiry s = .next t) : t = s ∨ (s.silenceDue = true ∧ t = event enterOrphaned s) := by
  unfold execSilenceLimitExpiry at h
  split at h <;> rw [next_inj h]
  · rename_i hd; exact .inr ⟨hd, rfl⟩
  · exact .inl rfl

theorem execRotationExpiry_event {pos : SlotPos} (h : execRotationExpiry pos s = .next t) :
    t = s ∨ ∃ x timer, s.slotAt pos = some x ∧ x.rotTimer = some timer ∧ t = event (rotationExpire x) s := by
  unfold execRotationExpiry at h
  split at h
  · exact .inl (next_inj h)
  · rename_i x hx
    split at h
    · exact .inl (next_inj h)
    · rename_i timer ht
      split at h
      · exact .inr ⟨x, timer, hx, ht, next_inj h⟩
      · exact .inl (next_inj h)

theorem execFeedbackExpiry_event {pos : SlotPos} (h : execFeedbackExpiry pos s = .next t) :
    t = s ∨ ∃ x, s.slotAt pos = some x ∧ t = event (fun u => renewShadow pos (u.setSlot { x with feedback := none })) s := by
  unfold execFeedbackExpiry at h
  split at h
  · exact .inl (next_inj h)
  · rename_i x hx
    split at h
    · exact .inl (next_inj h)
    · split at h
      · exact .inr ⟨x, hx, next_inj h⟩
      · exact .inl (next_inj h)

theorem execLingerExpiry_event {pos : SlotPos} (h : execLingerExpiry pos s = .next t) :
    t = s ∨ ∃ x timer, s.slotAt pos = some x ∧ x.linger = some timer ∧ t = event (lingerExpire x) s := by
  unfold execLingerExpiry at h
  split at h
  · exact .inl (next_inj h)
  · rename_i x hx
    split at h
    · exact .inl (next_inj h)
    · rename_i timer ht
      split at h
      · exact .inr ⟨x, timer, hx, ht, next_inj h⟩
      · exact .inl (next_inj h)

/-! ## Keys -/

theorem execConfirmKey_event {b : Branch} (h : execConfirmKey b s = .next t) :
    t = s ∨ ∃ k rest, (s.branch b).keys = k :: rest ∧ k.key = .confirm
      ∧ t = event (fun u => takeConfirm k (u.setBranch b { u.branch b with keys := rest })) s := by
  unfold execConfirmKey at h
  split at h
  · exact .inl (next_inj h)
  · rename_i k rest hk
    split at h
    · rename_i hc; exact .inr ⟨k, rest, hk, hc, next_inj h⟩
    · exact .inl (next_inj h)

theorem execAdjustKey_event {b : Branch} (h : execAdjustKey b s = .next t) :
    t = s ∨ ∃ k rest, (s.branch b).keys = k :: rest ∧ k.key ≠ .confirm
      ∧ t = event (fun u => takeAdjust k (u.setBranch b { u.branch b with keys := rest })) s := by
  unfold execAdjustKey at h
  split at h
  · exact .inl (next_inj h)
  · rename_i k rest hk
    split at h
    · exact .inl (next_inj h)
    · rename_i hc; exact .inr ⟨k, rest, hk, hc, next_inj h⟩

/-! ## The branch lines -/

/-- A command that awaits a reply is the one in progress (R144). -/
theorem awaiting_some {x : BranchState} {c : Command} (h : x.awaiting = some c) : x.command = some c ∧ c.ended = false ∧ c.what ≠ .allDark := by
  unfold BranchState.awaiting at h
  split at h
  · cases h
  · split at h
    · cases h
    · rename_i d hd hn
      cases h
      exact ⟨hd, by simpa using hn⟩

theorem execBranchArbiter_event {b : Branch} (h : execBranchArbiter b s = .next t) :
    t = s ∨ ((s.branch b).lineFree = true ∧ t = event (arbitrate b) s) := by
  unfold execBranchArbiter at h
  split at h
  · rename_i hl; exact .inr ⟨hl, next_inj h⟩
  · exact .inl (next_inj h)

theorem execMissingTurnSpacing_event {b : Branch} (h : execMissingTurnSpacing b s = .next t) : t = s ∨ t = event (arbitrate b) s := by
  simp only [execMissingTurnSpacing] at h
  split at h
  · exact .inr (next_inj h)
  · exact .inl (next_inj h)

theorem execShowAcknowledge_event {b : Branch} {bytes : List Byte} (h : execShowAcknowledge b bytes s = .next t) :
    t = s ∨ ∃ c, (s.branch b).awaiting = some c ∧ t = event (acknowledge b c) s := by
  unfold execShowAcknowledge at h
  split at h
  · exact .inl (next_inj h)
  · rename_i c hc
    split at h
    · exact .inr ⟨c, hc, next_inj h⟩
    · exact .inl (next_inj h)

theorem execPollReply_event {b : Branch} {bytes : List Byte} (h : execPollReply b bytes s = .next t) :
    t = s ∨ ∃ addr, pollValid addr bytes = true ∧ t = event (takePollReply b addr bytes) s := by
  unfold execPollReply at h
  split at h
  · exact .inl (next_inj h)
  · split at h
    · rename_i addr _
      split at h
      · rename_i hv; exact .inr ⟨addr, hv, next_inj h⟩
      · exact .inl (next_inj h)
    all_goals exact .inl (next_inj h)

theorem execIdentReply_event {b : Branch} {bytes : Option (List Byte)} (h : execIdentReply b bytes s = .next t) :
    t = s ∨ ∃ c addr, (s.branch b).command = some c ∧ c.what = .ident addr
      ∧ ((∃ bs, identValid addr bs = true ∧ t = event (identAnswered b addr bs) s) ∨ t = event (identUnanswered b addr) s) := by
  unfold execIdentReply at h
  split at h
  · exact .inl (next_inj h)
  · rename_i c hc
    split at h
    · rename_i addr bs hw
      split at h
      · rename_i hv; exact .inr ⟨c, addr, hc, hw, .inl ⟨bs, (Bool.and_eq_true_iff.1 hv).2, next_inj h⟩⟩
      · exact .inl (next_inj h)
    · rename_i addr hw
      split at h
      · exact .inr ⟨c, addr, hc, hw, .inr (next_inj h)⟩
      · exact .inl (next_inj h)
    · exact .inl (next_inj h)

theorem execInvalidReply_event {b : Branch} {cutOff : Bool} {bytes : List Byte} (h : execInvalidReply b cutOff bytes s = .next t) :
    t = s ∨ ∃ c, (s.branch b).awaiting = some c ∧ t = event (missAttempt b c true) s := by
  unfold execInvalidReply at h
  split at h
  · exact .inl (next_inj h)
  · rename_i c hc
    split at h
    · exact .inr ⟨c, hc, next_inj h⟩
    · exact .inl (next_inj h)

theorem execReplyTimeout_event {b : Branch} (h : execReplyTimeout b s = .next t) :
    t = s ∨ ∃ c, (s.branch b).awaiting = some c ∧ t = event (missAttempt b c false) s := by
  unfold execReplyTimeout at h
  split at h
  · exact .inl (next_inj h)
  · rename_i c hc; exact .inr ⟨c, hc, next_inj h⟩

theorem execBranchFaultSet_event {b : Branch} {stillSending : Bool} (h : execBranchFaultSet b stillSending s = .next t) :
    t = s ∨ t = event (setFault b stillSending) s := by
  unfold execBranchFaultSet at h
  split at h
  · exact .inl (next_inj h)
  · exact .inr (next_inj h)

theorem execBranchFaultClear_event {b : Branch} (h : execBranchFaultClear b s = .next t) : t = s ∨ t = event (clearFault b) s := by
  unfold execBranchFaultClear at h
  split at h
  · exact .inr (next_inj h)
  · exact .inl (next_inj h)

end

end Sys2Proof.Machine

/-!
PROOFS. Relations between the state before and the state after that the bracket of an event, a reply and the carrying forward of a request keep.
-/

namespace Sys2Proof.Machine

open Sys2Proof

/-- The parts that the bracket of an event and the request handler's own work change beside the relay's (R26, R171, R182, R187). -/
def bracketParts : List Part := [.admitted, .counters, .records, .flags, .notes]

/-- A relation between an earlier and a later state that composes, that reads only the parts in `view`, none of them the bracket's, and that every
frame of the station's own keeps. -/
structure Steady (view : List Part) (R : State → State → Prop) : Prop where
  only : ∀ {ps : List Part} {s t : State}, OnlyChanges ps s t → (∀ p ∈ view, p ∉ ps) → R s t
  trans : ∀ {s t u : State}, R s t → R t u → R s u
  sends : ∀ dest kind express requester payload s, R s (originate dest kind express requester payload s).2
  away : ∀ p ∈ view, p ∉ bracketParts

namespace Steady

section
variable {view : List Part} {R : State → State → Prop} (h : Steady view R)
include h

theorem refl (s : State) : R s s := h.only (onlyChanges_refl [] s) (by simp)

theorem foldl {α : Type} {f : State → α → State} (hf : ∀ t x, R t (f t x)) (xs : List α) : ∀ s : State, R s (xs.foldl f s) := by
  induction xs with
  | nil => exact h.refl
  | cons x xs ih => exact fun s => h.trans (hf s x) (ih (f s x))

/-- What changes parts of the bracket alone. -/
theorem bracket {ps : List Part} {s t : State} (hc : OnlyChanges ps s t) (hp : ps ⊆ bracketParts) : R s t :=
  h.only hc fun p hv hm => h.away p hv (hp hm)

theorem setFlag (f : Flag) (s : State) : R s (setFlag f s) := h.bracket (setFlag_only f s) (by decide)

theorem signal (e : CounterEvent) (place : Option Nat) (s : State) : R s (signal e place s) :=
  h.bracket (signal_only e place s) (by decide)

theorem offer (r : Record) (s : State) : R s (offer r s) := h.bracket (offer_only r s) (by decide)

theorem endEvent (s : State) : R s (endEvent s) :=
  endEvent_rel (R := R) (fun _ _ _ => h.trans) (fun _ _ hc => h.bracket hc (by decide)) (fun d k e p s => h.sends d k e _ p s) s

theorem event_at {f : State → State} {s : State} (hf : R (beginEvent s) (f (beginEvent s))) : R s (event f s) :=
  h.trans (h.trans (h.bracket (beginEvent_only s) (by decide)) hf) (h.endEvent _)

theorem event {f : State → State} (hf : ∀ t, R t (f t)) (s : State) : R s (event f s) := h.event_at (hf _)

theorem answer (r : Request) (a : Answer) (s : State) : R s (answer r a s) := by
  unfold Machine.answer; split
  · exact h.refl s
  · have hs := h.sends r.origin replyCodeKind true .requestHandler (replyPayload r a) s
    revert hs
    generalize originate r.origin replyCodeKind true .requestHandler (replyPayload r a) s = o
    rcases o with ⟨o, t⟩
    intro hs
    cases o with
    | refused => exact h.trans hs (h.setFlag _ _)
    | accepted ref => exact hs

theorem answered {apply : Request → State → Answer × State} {r : Request} {s : State} (ha : R s (apply r s).2) :
    R s (answered apply r s) := h.trans ha (h.answer _ _ _)

/-- A request of a kind carried forward, where its block keeps the relation for every request that R26 does not refuse. -/
theorem carryForward {kind : ReqKind} {serve : Request → State → State}
    (hs : ∀ r t, r.kind = kind → refusalOf r t = none → R t (serve r t)) (s : State) : R s (carryForward kind serve s) := by
  unfold Machine.carryForward; split
  · exact h.refl s
  · rename_i r rest _
    split
    · rename_i hk
      refine h.event (fun t => ?_) s
      have adm : OnlyChanges [.admitted] t { t with admitted := rest } := by intro p; cases p <;> simp [Keeps]
      refine h.trans (h.bracket adm (by decide)) ?_
      simp only; split
      · exact h.signal _ _ _
      · split
        · exact h.answer _ _ _
        · exact hs _ _ hk ‹_›
    · exact h.refl s

/-- A request that its block applies and answers at once. -/
theorem carryAnswered {kind : ReqKind} {apply : Request → State → Answer × State} (ha : ∀ r t, R t (apply r t).2) (s : State) :
    R s (Machine.carryForward kind (Machine.answered apply) s) := h.carryForward (fun _ _ _ _ => h.answered (ha _ _)) s

end

end Steady

/-- The parts that the AISLE_RESET reply's pending release changes (R38). -/
theorem serveAisleReset_steady {view : List Part} {R : State → State → Prop} (h : Steady view R) (hp : .pendingReset ∉ view)
    (hr : ∀ station cause lines s, R s (resetTo station cause lines s)) (lines : LineLevels) (r : Request) (s : State) :
    R s (serveAisleReset lines r s) := by
  unfold serveAisleReset; split
  · exact hr _ _ _ _
  · have hs := h.sends r.origin replyCodeKind true .requestHandler (replyPayload r (Answer.ok [])) s
    revert hs
    generalize originate r.origin replyCodeKind true .requestHandler (replyPayload r (Answer.ok [])) s = o
    rcases o with ⟨o, t⟩
    intro hs
    cases o with
    | refused => exact h.trans (h.trans hs (h.setFlag _ _)) (hr _ _ _ _)
    | accepted ref =>
      have pend : OnlyChanges [.pendingReset] t { t with pendingReset := .awaiting ref } := by intro p; cases p <;> simp [Keeps]
      exact h.trans hs (h.only pend fun p hv => by rintro hm; simp at hm; exact hp (hm ▸ hv))

end Sys2Proof.Machine

/-!
PROOFS. What every step keeps of the location map, the rights table, the picker table and the parameters (O54).
-/

namespace Sys2Proof.Machine

open Sys2Proof

/-! ## Lists with a key -/

section
variable {α β γ : Type} [DecidableEq β] (key : α → β)

/-- An entry put in the place of those with its key changes no key. -/
theorem map_key_replace (y : α) (l : List α) : (l.map fun x => if key x = key y then y else x).map key = l.map key := by
  rw [List.map_map]
  refine List.map_congr_left fun x _ => ?_
  simp only [Function.comp]; split
  · rename_i h; exact h.symm
  · rfl

/-- Values that are distinct stay so when an entry is replaced by one with a value that no other entry has. -/
theorem nodup_map_replace {f : α → γ} {l : List α} {y : α} (hk : (l.map key).Nodup) (hf : (l.map f).Nodup)
    (hy : ∀ x ∈ l, key x ≠ key y → f x ≠ f y) : ((l.map fun x => if key x = key y then y else x).map f).Nodup := by
  have both : l.Pairwise fun a b => key a ≠ key b ∧ f a ≠ f b := (List.pairwise_map.1 hk).and (List.pairwise_map.1 hf)
  rw [List.map_map]
  refine List.pairwise_map.2 (both.imp_of_mem fun {a b} ha hb hab => ?_)
  obtain ⟨hkey, hval⟩ := hab
  simp only [Function.comp]
  split
  · rename_i h
    rw [if_neg fun h' => hkey (h.trans h'.symm)]
    exact fun e => hy b hb (fun h' => hkey (h.trans h'.symm)) e.symm
  · rename_i h
    split
    · exact hy a ha h
    · exact hval

end

/-- A list in rising key order stays so when an entry with a new key joins it in its place. -/
theorem pairwise_orderedInsert {α : Type} (key : α → Nat) {x : α} {l : List α} (h : (l.map key).Pairwise (· < ·))
    (hx : ∀ y ∈ l, key y ≠ key x) : ((l.orderedInsert (fun a b => key a < key b) x).map key).Pairwise (· < ·) := by
  induction l with
  | nil => simp
  | cons a l ih =>
    obtain ⟨ha, hl⟩ := List.pairwise_cons.1 h
    simp only [List.orderedInsert]
    split
    · rename_i hlt
      refine List.pairwise_cons.2 ⟨fun b hb => ?_, h⟩
      rcases List.mem_cons.1 hb with rfl | hb
      · exact hlt
      · exact hlt.trans (ha b hb)
    · rename_i hge
      refine List.pairwise_cons.2 ⟨fun b hb => ?_, ih hl fun y hy => hx y (by simp [hy])⟩
      obtain ⟨y, hy, rfl⟩ := List.mem_map.1 hb
      rcases List.mem_cons.1 ((List.perm_orderedInsert _ x l).mem_iff.1 hy) with rfl | hy
      · have := hx a (by simp)
        omega
      · exact ha _ (List.mem_map_of_mem hy)

theorem insertEntry_eq (x : MapEntry) (l : List MapEntry) : insertEntry x l = l.orderedInsert (fun a b => a.code < b.code) x := by
  induction l with
  | nil => rfl
  | cons e l ih => simp [insertEntry, ih]

theorem insertPicker_eq (x : Picker) (l : List Picker) : insertPicker x l = l.orderedInsert (fun a b => a.index < b.index) x := by
  induction l with
  | nil => rfl
  | cons e l ih => simp [insertPicker, ih]

/-! ## The four tables -/

/-- From `s` to `t` each of the four tables that is in order stays so. -/
structure TablesKept (s t : State) : Prop where
  map : MapOk s → MapOk t
  rights : RightsOk s → RightsOk t
  pickers : PickersOk s → PickersOk t
  params : ParamsOk s.params → ParamsOk t.params

/-- The parts that the four tables are. -/
def tableParts : List Part := [.locations, .rights, .pickers, .params]

theorem OnlyChanges.tablesKept {ps : List Part} {s t : State} (h : OnlyChanges ps s t) (hp : ∀ p ∈ tableParts, p ∉ ps) :
    TablesKept s t := by
  have hm : t.locMap = s.locMap := h.keeps (p := .locations) (hp _ (by decide))
  have hr : t.rights = s.rights := h.keeps (p := .rights) (hp _ (by decide))
  have hk : t.pickers = s.pickers := h.keeps (p := .pickers) (hp _ (by decide))
  have hv : t.params = s.params := h.keeps (p := .params) (hp _ (by decide))
  refine ⟨?_, ?_, ?_, ?_⟩
  · unfold MapOk; rw [hm]; exact id
  · unfold RightsOk; rw [hr]; exact id
  · unfold PickersOk; rw [hk]; exact id
  · rw [hv]; exact id

theorem TablesKept.trans {s t u : State} (h : TablesKept s t) (k : TablesKept t u) : TablesKept s u :=
  ⟨k.map ∘ h.map, k.rights ∘ h.rights, k.pickers ∘ h.pickers, k.params ∘ h.params⟩

theorem tables_steady : Steady tableParts TablesKept where
  only h hp := h.tablesKept hp
  trans h k := h.trans k
  sends _ _ _ _ _ _ := (originate_only _ _ _ _ _ _).tablesKept (by decide)
  away := by decide

theorem resetTo_tables (station : Nat) (cause : ResetCause) (lines : LineLevels) (s : State) :
    TablesKept s (resetTo station cause lines s) := by
  obtain ⟨hm, hr, hk, hv⟩ := reset_tables
  have h : TablesKept s (resetState station cause lines s) := ⟨fun _ => hm, fun _ => hr, fun _ => hk, fun _ => hv⟩
  exact h.trans ((followLines_only _ _).tablesKept (by decide))

/-! ## The location map (R40, R42 to R49) -/

theorem loadItem_entry {i : LoadItem} {e : MapEntry} (h : i.entry = some e) : 1 ≤ e.code ∧ e.pos.wellFormed = true ∧ e.area ≤ 15 := by
  unfold LoadItem.entry at h
  split at h
  · cases h
  · split at h
    · cases h
    · cases h
      simp only [SlotPos.wellFormed, Bool.and_eq_true, decide_eq_true_eq]
      omega

/-- A location map stands in order, as MapOk says of the one that is held (R40). -/
def MapInOrder (map : List MapEntry) : Prop :=
  (map.map (·.code)).Pairwise (· < ·) ∧ (map.map (·.pos)).Nodup ∧ map.length ≤ Config.mapEntries
    ∧ ∀ e ∈ map, 1 ≤ e.code ∧ e.pos.wellFormed = true ∧ e.area ≤ 15

theorem mapOk_iff (s : State) : MapOk s ↔ MapInOrder s.locMap := Iff.rfl

/-- A map that takes an entry in its place, or in place of the one with its code, stays in order (R40, R44 to R48). -/
theorem loadOne_inOrder {s : State} {i : LoadItem} {w v : LoadProgress} (h : loadOne s i w = .ok v) (hw : MapInOrder w.map) : MapInOrder v.map := by
  obtain ⟨hcodes, hpos, hlen, hall⟩ := hw
  unfold loadOne at h
  split at h
  · cases h
  · rename_i e he
    have hfields := loadItem_entry he
    simp only at h
    split at h
    · cases h
    · split at h
      · cases h
      · rename_i htaken
        have hfree : ∀ x ∈ w.map, x.code ≠ e.code → x.pos ≠ e.pos := by simpa using fun x hx hc hp => htaken (by simp; exact ⟨x, hx, hp, hc⟩)
        split at h
        · cases h
        · split at h
          · cases h
            refine ⟨?_, nodup_map_replace MapEntry.code (List.Pairwise.imp (fun h => h.ne) hcodes) hpos hfree, by simpa using hlen, fun x hx => ?_⟩
            · simp only [map_key_replace MapEntry.code e w.map]; exact hcodes
            · obtain ⟨y, hy, rfl⟩ := List.mem_map.1 hx
              split
              · exact hfields
              · exact hall y hy
          · rename_i hnew
            split at h
            · cases h
            · rename_i hroom
              cases h
              simp only [Bool.not_eq_true, List.any_eq_false, beq_iff_eq] at hnew
              have hperm : (insertEntry e w.map).Perm (e :: w.map) := insertEntry_eq e w.map ▸ List.perm_orderedInsert _ e w.map
              refine ⟨?_, ?_, ?_, fun x hx => ?_⟩
              · simp only [insertEntry_eq]; exact pairwise_orderedInsert MapEntry.code hcodes hnew
              · refine ((hperm.map _).nodup_iff).2 (List.nodup_cons.2 ⟨fun hm => ?_, hpos⟩)
                obtain ⟨x, hx, hxp⟩ := List.mem_map.1 hm
                exact hfree x hx (hnew x hx) hxp
              · simp only [hperm.length_eq, List.length_cons]; omega
              · rcases List.mem_cons.1 (hperm.mem_iff.1 hx) with rfl | hx
                · exact hfields
                · exact hall x hx

theorem loadAll_inOrder {s : State} (is : List LoadItem) : ∀ {n : Nat} {w v : LoadProgress}, loadAll s n is w = .ok v →
    MapInOrder w.map → MapInOrder v.map := by
  induction is with
  | nil => intro n w v h hw; cases h; exact hw
  | cons i is ih =>
    intro n w v h hw
    simp only [loadAll] at h
    split at h
    · cases h
    · rename_i u hu
      exact ih h (loadOne_inOrder hu hw)

theorem MapInOrder.filter {map : List MapEntry} (h : MapInOrder map) (q : MapEntry → Bool) : MapInOrder (map.filter q) := by
  obtain ⟨hcodes, hpos, hlen, hall⟩ := h
  exact ⟨hcodes.sublist (List.filter_sublist.map _), hpos.sublist (List.filter_sublist.map _), (List.length_filter_le _ _).trans hlen,
    fun e he => hall e (List.mem_of_mem_filter he)⟩

theorem removeAll_inOrder {s : State} (codes : List Nat) : ∀ {n : Nat} {map after : List MapEntry}, removeAll s n codes map = .ok after →
    MapInOrder map → MapInOrder after := by
  induction codes with
  | nil => intro n map after h hm; cases h; exact hm
  | cons c cs ih =>
    intro n map after h hm
    simp only [removeAll] at h
    split at h
    · cases h
    · split at h
      · cases h
      · exact ih h (hm.filter _)

/-- A changed map is held, and what it releases and takes up is no table's. -/
theorem changeMap_tables {map : List MapEntry} {s : State} (h : MapInOrder s.locMap → MapInOrder map) : TablesKept s (changeMap map s) := by
  have held : TablesKept s { s with locMap := map } := ⟨h, id, id, id⟩
  refine held.trans (TablesKept.trans (tables_steady.foldl (fun t pos => ?_) _ _) (tables_steady.foldl (fun t pos => ?_) _ _))
  · exact (releaseSlot_only pos t).tablesKept (by decide)
  · exact (takeUpSlot_only pos t).tablesKept (by decide)

theorem applyMapLoad_tables (r : Request) (s : State) : TablesKept s (applyMapLoad r s).2 := by
  unfold applyMapLoad; split
  · exact tables_steady.refl s
  · rename_i w hw; exact changeMap_tables (loadAll_inOrder _ hw)

theorem applyMapRemove_tables (r : Request) (s : State) : TablesKept s (applyMapRemove r s).2 := by
  unfold applyMapRemove; split
  · exact tables_steady.refl s
  · rename_i map hm; exact changeMap_tables (removeAll_inOrder _ hm)

/-! ## The rights table (R27, R29) -/

/-- An entry of a RIGHTS_SET passes the field check: a supervisor, and no right but the four (R29). -/
def GoodRight (e : Nat × Nat) : Prop := 48 ≤ e.1 ∧ e.1 ≤ 55 ∧ e.2 < 16

theorem goodRight_iff (e : Nat × Nat) : GoodRight e ↔ (!isSupervisor e.1 || decide (16 ≤ e.2)) = false := by
  simp [GoodRight, isSupervisor]; omega

/-- A list of entries passes where each is good and no station stands twice (R29). -/
theorem checkRights_none (items : List (Nat × Nat)) : ∀ (n : Nat) (seen : List Nat),
    checkRights n seen items = none ↔ (∀ e ∈ items, GoodRight e) ∧ (items.map (·.1)).Nodup ∧ ∀ e ∈ items, e.1 ∉ seen := by
  induction items with
  | nil => intro n seen; simp [checkRights]
  | cons e items ih =>
    intro n seen
    obtain ⟨station, rights⟩ := e
    have hgood := goodRight_iff (station, rights)
    simp only [checkRights]
    by_cases hb : (!isSupervisor station || decide (16 ≤ rights)) = true
    · have : ¬ GoodRight (station, rights) := by rw [hgood]; exact ne_false_of_eq_true hb
      simp [hb, this]
    · rw [if_neg hb]
      have hg : GoodRight (station, rights) := hgood.2 (eq_false_of_ne_true hb)
      by_cases hs : station ∈ seen
      · simp [hs]
      · simp only [List.contains_eq_mem, hs, decide_false, Bool.false_eq_true, if_false, ih, List.forall_mem_cons, hg, true_and, List.map_cons,
          List.nodup_cons, List.mem_append, List.mem_singleton, not_or, List.mem_map, not_exists, not_and, not_false_eq_true]
        constructor
        · rintro ⟨a, b, c⟩; exact ⟨a, ⟨fun x hx => (c x hx).2, b⟩, fun x hx => (c x hx).1⟩
        · rintro ⟨a, ⟨b, c⟩, d⟩; exact ⟨a, c, fun x hx => ⟨d x hx, b x hx⟩⟩

theorem pieces_length (n k : Nat) : ∀ bs : List Byte, (pieces n k bs).length = k := by
  induction k with
  | zero => exact fun _ => rfl
  | succ k ih => exact fun bs => by simp [pieces, ih]

theorem rightsItems_length (r : Request) : r.rightsItems.length = r.itemCount := by
  simp [Request.rightsItems, Request.items, pieces_length]

/-- A request that R26 does not refuse has an item count in its range. -/
theorem itemCount_le {r : Request} {s : State} {size least most : Nat} (h : refusalOf r s = none) (hf : r.kind.form = .items size least most) :
    least ≤ r.itemCount ∧ r.itemCount ≤ most := by
  have hi : itemRefusal r = none := by
    unfold refusalOf at h
    split at h
    · cases h
    · exact h
  unfold itemRefusal at hi
  rw [hf] at hi
  simp only [Bool.or_eq_true, decide_eq_true_eq] at hi
  split at hi
  · cases hi
  · omega

theorem applyRightsSet_tables {r : Request} {s : State} (h : r.itemCount ≤ 4) : TablesKept s (applyRightsSet r s).2 := by
  unfold applyRightsSet; split
  · exact tables_steady.refl s
  · rename_i hc
    obtain ⟨hgood, hn, -⟩ := (checkRights_none _ _ _).1 hc
    refine ⟨id, fun _ => ⟨?_, ?_, fun e he => ?_⟩, id, id⟩
    · simpa [rightsItems_length] using h
    · simpa [List.map_map, Function.comp_def] using hn
    · obtain ⟨i, hi, rfl⟩ := List.mem_map.1 he
      obtain ⟨h1, h2, -⟩ := hgood i hi
      simp [isSupervisor, h1, h2]

/-! ## The picker table (R55, R57, R64) -/

theorem pickerOf_mem {s : State} {id : Nat} {p : Picker} (h : s.pickerOf id = some p) : p ∈ s.pickers ∧ p.id = id :=
  ⟨List.mem_of_find?_eq_some h, by simpa using List.find?_some h⟩

/-- An entry changed in its place, its colour held by no other, leaves the table in order. -/
theorem PickersOk.setPicker {s : State} {p q : Picker} (h : PickersOk s) (hp : p ∈ s.pickers) (hid : q.id = p.id) (hix : q.index = p.index)
    (hfree : ∀ x ∈ s.pickers, x.id ≠ q.id → x.colour ≠ q.colour) (hc : q.colour ≠ .white) (hpr : q.priority ≤ 3) :
    PickersOk (s.setPicker q) := by
  obtain ⟨hidx, hids, hcol, hall⟩ := h
  have hq : q.index < Config.pickerPlaces ∧ q.id ≠ 0 ∧ q.colour ≠ .white ∧ q.priority ≤ 3 := by
    obtain ⟨a, b, -, -⟩ := hall p hp
    exact ⟨hix ▸ a, hid ▸ b, hc, hpr⟩
  have hindex : (s.pickers.map fun x => if x.id = q.id then q else x).map (·.index) = s.pickers.map (·.index) := by
    rw [List.map_map]
    refine List.map_congr_left fun x hx => ?_
    simp only [Function.comp]; split
    · rename_i he
      rw [List.inj_on_of_nodup_map hids hx hp (he.trans hid), hix]
    · rfl
  refine ⟨?_, ?_, nodup_map_replace Picker.id hids hcol hfree, fun x hx => ?_⟩
  · exact hindex ▸ hidx
  · exact (map_key_replace Picker.id q s.pickers).symm ▸ hids
  · obtain ⟨y, hy, rfl⟩ := List.mem_map.1 hx
    split
    · exact hq
    · exact hall y hy

/-- An entry that keeps its place, id, colour and priority (R61 to R63, R66). -/
theorem setPicker_tables {s : State} {p q : Picker} (hp : p ∈ s.pickers) (hid : q.id = p.id) (hix : q.index = p.index)
    (hc : q.colour = p.colour) (hpr : q.priority = p.priority) : TablesKept s (s.setPicker q) := by
  refine ⟨id, id, fun h => ?_, id⟩
  obtain ⟨-, -, h3, h4⟩ := h.2.2.2 p hp
  refine h.setPicker hp hid hix (fun x hx hne he => hne ?_) (hc ▸ h3) (hpr ▸ h4)
  rw [hid, List.inj_on_of_nodup_map h.2.2.1 hx hp (he.trans hc)]

theorem changeOpen_tables (id : Nat) (f : Nat → Nat) (s : State) : TablesKept s (changeOpen id f s) := by
  unfold changeOpen; split
  · exact tables_steady.refl s
  · rename_i p hp; exact setPicker_tables (pickerOf_mem hp).1 rfl rfl rfl rfl

theorem samplePace_tables (id : Nat) (a b : ClockValue) (s : State) : TablesKept s (samplePace id a b s) := by
  unfold samplePace; split
  · exact tables_steady.refl s
  · rename_i p hp; exact setPicker_tables (pickerOf_mem hp).1 rfl rfl rfl rfl

theorem freePlace_some {s : State} {i : Nat} (h : s.freePlace = some i) : i < Config.pickerPlaces ∧ ∀ p ∈ s.pickers, p.index ≠ i := by
  refine ⟨List.mem_range.1 (List.mem_of_find?_eq_some h), ?_⟩
  simpa using List.find?_some h

theorem pickerColour_ne_white {byte : Nat} {c : Colour} (h : pickerColour byte = some c) : c ≠ .white := by
  unfold pickerColour at h
  split at h
  · cases h
  · rename_i hne; rintro rfl; exact hne h

/-- The fields of a PICKER_SET that pass the first check (R57). -/
theorem badPickerField_none {r : Request} (h : badPickerField r = none) :
    r.pickerId ≠ 0 ∧ (pickerColour r.colourByte).getD .white ≠ .white ∧ r.priorityByte ≤ 3 := by
  unfold badPickerField at h
  split at h
  · cases h
  · split at h
    · cases h
    · split at h
      · cases h
      · rename_i h1 h2 h3
        obtain ⟨c, hc⟩ := Option.isSome_iff_exists.1 (by simpa [Option.isNone_iff_eq_none, Option.isSome_iff_ne_none] using h2)
        exact ⟨h1, by simpa [hc] using pickerColour_ne_white hc, by omega⟩

theorem colourHeld_false {s : State} {c : Colour} {id : Nat} (h : ¬ s.colourHeld c id = true) : ∀ x ∈ s.pickers, x.id ≠ id → x.colour ≠ c := by
  intro x hx hne hc
  exact h (by simp only [State.colourHeld, List.any_eq_true]; exact ⟨x, hx, by simp [hc, hne]⟩)

/-- An entry that joins at a free place, its id and colour held by no other, leaves the table in order (R56, R57). -/
theorem PickersOk.insert {s : State} {q : Picker} (h : PickersOk s) (hix : ∀ p ∈ s.pickers, p.index ≠ q.index)
    (hid : ∀ p ∈ s.pickers, p.id ≠ q.id) (hcol : ∀ p ∈ s.pickers, p.colour ≠ q.colour)
    (hq : q.index < Config.pickerPlaces ∧ q.id ≠ 0 ∧ q.colour ≠ .white ∧ q.priority ≤ 3) :
    PickersOk { s with pickers := insertPicker q s.pickers } := by
  obtain ⟨h1, h2, h3, h4⟩ := h
  have hperm : (insertPicker q s.pickers).Perm (q :: s.pickers) := insertPicker_eq q s.pickers ▸ List.perm_orderedInsert _ q s.pickers
  have hnew : ∀ {β : Type} (f : Picker → β), (s.pickers.map f).Nodup → (∀ p ∈ s.pickers, f p ≠ f q) →
      ((insertPicker q s.pickers).map f).Nodup := fun f hn hne =>
    ((hperm.map f).nodup_iff).2 (List.nodup_cons.2 ⟨fun hm => by obtain ⟨p, hp, e⟩ := List.mem_map.1 hm; exact hne p hp e, hn⟩)
  refine ⟨?_, hnew _ h2 hid, hnew _ h3 hcol, fun p hp => ?_⟩
  · simp only [insertPicker_eq]; exact pairwise_orderedInsert Picker.index h1 hix
  · rcases List.mem_cons.1 (hperm.mem_iff.1 hp) with rfl | hp
    · exact hq
    · exact h4 p hp

theorem applyPickerSet_tables (r : Request) (s : State) : TablesKept s (applyPickerSet r s).2 := by
  unfold applyPickerSet
  cases hbad : badPickerField r with
  | some index => exact tables_steady.refl s
  | none =>
    obtain ⟨hid, hcol, hpr⟩ := badPickerField_none hbad
    simp only
    generalize (pickerColour r.colourByte).getD .white = colour at hcol ⊢
    split
    · exact tables_steady.refl s
    · rename_i found place hnone
      split
      · exact tables_steady.refl s
      · rename_i hheld
        have hfree := colourHeld_false hheld
        split
        · rename_i p hp
          obtain ⟨hm, hpid⟩ := pickerOf_mem hp
          have set : TablesKept s (s.setPicker { p with colour := colour, priority := r.priorityByte }) :=
            ⟨id, id, fun h => h.setPicker hm rfl rfl (by rw [hpid]; exact hfree) hcol hpr, id⟩
          exact set.trans ((pickerNotice_only _ _ _).tablesKept (by decide))
        · rename_i hp
          have habsent : ∀ x ∈ s.pickers, x.id ≠ r.pickerId := by simpa [State.pickerOf] using hp
          obtain ⟨i, hi⟩ : ∃ i, s.freePlace = some i := Option.ne_none_iff_exists'.1 fun e => hnone hp e
          obtain ⟨hlt, hplace⟩ := freePlace_some hi
          refine ⟨id, id, fun h => h.insert ?_ habsent (fun x hx => hfree x hx (habsent x hx)) ?_, id⟩
          · simpa [hi] using hplace
          · exact ⟨by simpa [hi] using hlt, hid, hcol, hpr⟩

theorem setPickerState_tables (goal : PickerState) (r : Request) (s : State) : TablesKept s (setPickerState goal r s).2 := by
  unfold setPickerState; split
  · exact tables_steady.refl s
  · rename_i p hp
    simp only; split
    · exact tables_steady.refl s
    · refine (setPicker_tables (q := { p with state := goal }) (pickerOf_mem hp).1 rfl rfl rfl rfl).trans ?_
      exact (recomputeWhere_only _ _).tablesKept (by decide)

theorem PickersOk.filter {s : State} (h : PickersOk s) (q : Picker → Bool) : PickersOk { s with pickers := s.pickers.filter q } := by
  obtain ⟨h1, h2, h3, h4⟩ := h
  exact ⟨h1.sublist (List.filter_sublist.map _), h2.sublist (List.filter_sublist.map _), h3.sublist (List.filter_sublist.map _),
    fun p hp => h4 p (List.mem_of_mem_filter hp)⟩

theorem applyPickerLeave_tables (r : Request) (s : State) : TablesKept s (applyPickerLeave r s).2 := by
  unfold applyPickerLeave; split
  · exact tables_steady.refl s
  · have drop : ∀ (u : State) (q : Picker → Bool), TablesKept u { u with pickers := u.pickers.filter q } := fun u q =>
      ⟨id, id, fun h => h.filter q, id⟩
    have withdraw : ∀ (u : State) (xs : List Task), OnlyChanges [.tasks] u { u with tasks := xs } := by
      intro u xs p; cases p <;> simp [Keeps]
    refine TablesKept.trans ?_ (drop _ _)
    refine TablesKept.trans ?_ ((recomputeCodes_only _ _).tablesKept (by decide))
    refine TablesKept.trans ?_ ((judgeTasksHigh_only _).tablesKept (by decide))
    exact ((withdraw s _).tablesKept (by decide)).trans
      (tables_steady.foldl (fun u g => (removeGroup_only g u).tablesKept (by decide)) _ _)

/-! ## Tasks: the pickers' open counts (R61) and paces (R66) -/

theorem postTask_tables (t : TaskItem) (s : State) : TablesKept s (postTask t s).2 := by
  unfold postTask; split
  · exact tables_steady.refl s
  · have record : ∀ (u : State) (xs : List Task), OnlyChanges [.tasks] u { u with tasks := xs } := by
      intro u xs p; cases p <;> simp [Keeps]
    simp only
    refine TablesKept.trans ?_ ((judgeTasksHigh_only _).tablesKept (by decide))
    refine TablesKept.trans ?_ ((signal_only _ _ _).tablesKept (by decide))
    refine TablesKept.trans ?_ (changeOpen_tables _ _ _)
    exact ((placeTask_only t s).tablesKept (by decide)).trans ((record _ _).tablesKept (by decide))

theorem postTasks_tables (ts : List TaskItem) : ∀ s : State, TablesKept s (postTasks ts s).2.2 := by
  induction ts with
  | nil => exact tables_steady.refl
  | cons t ts ih => exact fun s => (postTask_tables t s).trans (ih _)

theorem applyTaskPost_tables (r : Request) (s : State) : TablesKept s (applyTaskPost r s).2 :=
  (postTasks_tables _ s).trans ((recomputeCodes_only _ _).tablesKept (by decide))

theorem closeTask_tables (t : Task) (s : State) : TablesKept s (closeTask t s) := by
  have close : OnlyChanges [.tasks] s { s with tasks := s.tasks.filter (fun x => x.number != t.number) } := by
    intro p; cases p <;> simp [Keeps]
  exact (close.tablesKept (by decide)).trans (changeOpen_tables _ _ _)

theorem cancelTask_tables (n : Nat) (s : State) : TablesKept s (cancelTask n s).2.2 := by
  unfold cancelTask; split
  · exact tables_steady.refl s
  · rename_i t _
    refine (closeTask_tables t s).trans ?_
    simp only; split
    · exact tables_steady.refl _
    · split
      · exact (removeGroup_only _ _).tablesKept (by decide)
      · exact (setGroup_only _ _).tablesKept (by decide)

theorem cancelTasks_tables (ns : List Nat) : ∀ s : State, TablesKept s (cancelTasks ns s).2.2 := by
  induction ns with
  | nil => exact tables_steady.refl
  | cons n ns ih => exact fun s => (cancelTask_tables n s).trans (ih _)

theorem applyTaskCancel_tables (r : Request) (s : State) : TablesKept s (applyTaskCancel r s).2 :=
  ((cancelTasks_tables _ s).trans ((judgeTasksHigh_only _).tablesKept (by decide))).trans
    ((recomputeCodes_only _ _).tablesKept (by decide))

/-! ## Keys -/

theorem closeMember_tables (g : Group) (t : Task) (share : Nat) (s : State) : TablesKept s (closeMember g t share s) := by
  simp only [closeMember]; split
  · exact ((closeTask_tables t s).trans (tables_steady.offer _ _)).trans (tables_steady.signal _ _ _)
  · exact (closeTask_tables t s).trans (tables_steady.offer _ _)

theorem acceptConfirm_tables (g : Group) (recorded : Nat) (s : State) : TablesKept s (acceptConfirm g recorded s) := by
  have closed : ∀ ms : List (Task × Nat), TablesKept s (removeGroup g (ms.foldl (fun t m => closeMember g m.1 m.2 t) s)) := fun ms =>
    (tables_steady.foldl (fun u m => closeMember_tables g m.1 m.2 u) ms s).trans ((removeGroup_only _ _).tablesKept (by decide))
  simp only [acceptConfirm]
  refine TablesKept.trans ?_ ((recomputeCodes_only _ _).tablesKept (by decide))
  refine TablesKept.trans ?_ (tables_steady.signal _ _ _)
  refine TablesKept.trans ?_ ((judgeTasksHigh_only _).tablesKept (by decide))
  cases g.firstShown with
  | none => exact closed _
  | some shown => exact (closed _).trans (samplePace_tables _ _ _ _)

theorem refusePress_tables (e : MapEntry) (k : KeyEvent) (why : PressRefusal) (s : State) : TablesKept s (refusePress e k why s) := by
  have shown : TablesKept s (showFeedback k.pos why.symbol s) := (showFeedback_only k.pos why.symbol s).tablesKept (by decide)
  cases why
  · exact (shown.trans (tables_steady.offer _ _)).trans (tables_steady.signal _ _ _)
  · exact (shown.trans (tables_steady.offer _ _)).trans (tables_steady.signal _ _ _)
  · exact shown.trans (tables_steady.offer _ _)
  · exact shown.trans (tables_steady.signal _ _ _)

theorem takeConfirm_tables (k : KeyEvent) (s : State) : TablesKept s (takeConfirm k s) := by
  unfold takeConfirm; split
  · exact tables_steady.signal _ _ _
  · split
    · exact refusePress_tables _ _ _ _
    · exact acceptConfirm_tables _ _ _

theorem acceptAdjust_tables (k : KeyEvent) (g : Group) (s : State) : TablesKept s (acceptAdjust k g s) := by
  have held : ∀ u : State, TablesKept u (match u.slotAt k.pos with | none => u | some x => u.setSlot (x.heldFor g u)) := by
    intro u; split
    · exact tables_steady.refl u
    · exact (setSlot_only _ _).tablesKept (by decide)
  simp only [acceptAdjust]
  refine TablesKept.trans ?_ (tables_steady.signal _ _ _)
  split
  · exact (((setGroup_only _ _).tablesKept (by decide)).trans (held _)).trans ((recomputeCodes_only _ _).tablesKept (by decide))
  · exact (held _).trans ((renewShadow_only _ _).tablesKept (by decide))

theorem takeAdjust_tables (k : KeyEvent) (s : State) : TablesKept s (takeAdjust k s) := by
  unfold takeAdjust; split
  · exact tables_steady.signal _ _ _
  · split
    · exact tables_steady.signal _ _ _
    · exact acceptAdjust_tables _ _ _

/-! ## The parameters (R33) -/

theorem badParameter_none {r : Request} (h : badParameter r = none) (hn : r.names 7 = true) : 48 ≤ r.targetByte ∧ r.targetByte ≤ 55 := by
  unfold badParameter at h
  split at h
  · cases h
  · split at h
    · cases h
    · rename_i hs
      simpa [hn, isSupervisor] using hs

/-- The values of a CONFIG_SET that passes its check are in their ranges (R33). -/
theorem newParams_ok {r : Request} {p : Params} (hb : badParameter r = none) (hp : ParamsOk p) : ParamsOk (newParams r p) := by
  obtain ⟨h1, h2, h3, h4, h5, h6, h7, h8⟩ := hp
  have clamp : ∀ {named : Bool} {least most n old : Nat}, least ≤ most → least ≤ old ∧ old ≤ most →
      least ≤ (if named then clampTo least most n else old) ∧ (if named then clampTo least most n else old) ≤ most := by
    intro named least most n old hle hold
    cases named
    · exact hold
    · simp only [if_true, clampTo]; omega
  have target : 48 ≤ (newParams r p).target ∧ (newParams r p).target ≤ 55 := by
    simp only [newParams]
    split
    · rename_i hn; exact badParameter_none hb hn
    · exact h7
  exact ⟨clamp (by decide) h1, clamp (by decide) h2, (clamp (by decide) ⟨Nat.zero_le _, h3⟩).2, (clamp (by decide) ⟨Nat.zero_le _, h4⟩).2,
    (clamp (by decide) ⟨Nat.zero_le _, h5⟩).2, clamp (by decide) h6, target, clamp (by decide) h8⟩

/-- The parts that the effects of a CONFIG_SET on what runs change: all of `configParts` but the parameters (R34). -/
def effectParts : List Part :=
  [.silence, .orphaned, .rosters, .commands, .directs, .unshown, .records, .counters, .flags, .notes] ++ displayParts ++ relayParts

theorem applyLingerChange_effect (old : Params) (s : State) : OnlyChanges effectParts s (applyLingerChange old s) := by
  unfold applyLingerChange; split
  · exact (judgeLinger_only _ _).mono (by decide)
  · exact onlyChanges_refl _ _

theorem applyCombineChange_effect (old : Params) (s : State) : OnlyChanges effectParts s (applyCombineChange old s) := by
  unfold applyCombineChange; split
  · exact ((rejudgeCombine_only _).mono (by decide)).trans ((judgePacker_only _).mono (by decide))
  · exact onlyChanges_refl _ _

/-- The state once a silence limit that leaves 0 has started the silence timer (R35, log 29). -/
def startSilence (old : Params) (s : State) : State :=
  if old.silence = 0 ∧ s.params.silence ≠ 0 then { s with silenceSince := s.now } else s

theorem startSilence_only (old : Params) (s : State) : OnlyChanges [.silence] s (startSilence old s) := by
  unfold startSilence; split
  · intro p; cases p <;> simp [Keeps]
  · exact onlyChanges_refl _ _

theorem applySilenceChange_eq (old : Params) (s : State) :
    applySilenceChange old s = if (startSilence old s).params.silence ≠ old.silence ∧ (startSilence old s).silenceDue = true
      then enterOrphaned (startSilence old s) else startSilence old s := rfl

theorem applySilenceChange_effect (old : Params) (s : State) : OnlyChanges effectParts s (applySilenceChange old s) := by
  have base := (startSilence_only old s).mono (qs := effectParts) (by decide)
  rw [applySilenceChange_eq]; split
  · exact base.trans ((enterOrphaned_only _).mono (by decide))
  · exact base

theorem judgeModule_effect (b : Branch) (addr : Nat) (s : State) : OnlyChanges effectParts s (judgeModule b addr s) := by
  unfold judgeModule; split
  · exact onlyChanges_refl _ _
  · rename_i m _
    split
    · have missing := (markMissing_only b m s).mono (qs := effectParts) (by decide)
      simp only; split
      · exact missing
      · split
        · exact missing.trans ((endCommand_only _ _ _).mono (by decide))
        · exact missing
    · exact onlyChanges_refl _ _

theorem applyMissChange_effect (old : Params) (s : State) : OnlyChanges effectParts s (applyMissChange old s) := by
  unfold applyMissChange; split
  · exact onlyChanges_refl _ _
  · exact (onlyChanges_foldl (fun t addr => judgeModule_effect .l addr t) _ s).trans
      (onlyChanges_foldl (fun t addr => judgeModule_effect .r addr t) _ _)

/-- The effects of a CONFIG_SET on what runs, once the new parameters are held (R34, log 16). -/
def configEffects (old : Params) (s : State) : State :=
  applyMissChange old (applySilenceChange old (applyCombineChange old (applyLingerChange old s)))

theorem configEffects_only (old : Params) (s : State) : OnlyChanges effectParts s (configEffects old s) :=
  (((applyLingerChange_effect _ _).trans (applyCombineChange_effect _ _)).trans (applySilenceChange_effect _ _)).trans
    (applyMissChange_effect _ _)

/-- A CONFIG_SET that passes its check holds the new parameters, brings about their effects and answers with the nine values (R33, R34). -/
theorem applyConfigSet_passes {r : Request} (s : State) (h : badParameter r = none) :
    applyConfigSet r s = (Answer.ok (configEffects s.params { s with params := newParams r s.params }).params.body,
      configEffects s.params { s with params := newParams r s.params }) := by
  unfold applyConfigSet; rw [h]; rfl

theorem applyConfigSet_tables (r : Request) (s : State) : TablesKept s (applyConfigSet r s).2 := by
  cases h : badParameter r with
  | some index => unfold applyConfigSet; rw [h]; exact tables_steady.refl s
  | none =>
    rw [applyConfigSet_passes s h]
    have set : TablesKept s { s with params := newParams r s.params } := ⟨id, id, id, newParams_ok h⟩
    exact set.trans ((configEffects_only _ _).tablesKept (by decide))

/-! ## Every command -/

theorem exec_tables (c : Instr) (s t : State) (h : exec c s = .next t) : TablesKept s t := by
  have st := tables_steady
  cases c with
  | powerOn straps lines => rw [next_inj h]; exact st.event (fun u => resetTo_tables _ _ _ u) s
  | resetPin straps lines => rw [next_inj h]; exact st.event (fun u => resetTo_tables _ _ _ u) s
  | softReset lines =>
    rcases execSoftReset_event h with rfl | rfl
    · exact st.refl _
    · exact st.event (resetTo_tables _ _ _) _
  | aisleReset lines =>
    rw [next_inj h]
    exact st.carryForward (fun r u _ _ => serveAisleReset_steady st (by decide) resetTo_tables lines r u) s
  | rightsSet =>
    rw [next_inj h]
    exact st.carryForward (fun r u hk hc => st.answered (applyRightsSet_tables (itemCount_le hc (by rw [hk]; rfl)).2)) s
  | mapLoad => rw [next_inj h]; exact st.carryAnswered applyMapLoad_tables s
  | mapRemove => rw [next_inj h]; exact st.carryAnswered applyMapRemove_tables s
  | configSet => rw [next_inj h]; exact st.carryAnswered applyConfigSet_tables s
  | pickerSet => rw [next_inj h]; exact st.carryAnswered applyPickerSet_tables s
  | pickerPause => rw [next_inj h]; exact st.carryAnswered (setPickerState_tables .paused) s
  | pickerResume => rw [next_inj h]; exact st.carryAnswered (setPickerState_tables .active) s
  | pickerLeave => rw [next_inj h]; exact st.carryAnswered applyPickerLeave_tables s
  | taskPost => rw [next_inj h]; exact st.carryAnswered applyTaskPost_tables s
  | taskCancel => rw [next_inj h]; exact st.carryAnswered applyTaskCancel_tables s
  | confirmKey b =>
    rcases execConfirmKey_event h with rfl | ⟨k, rest, -, -, rfl⟩
    · exact st.refl _
    · exact st.event (fun u => ((takeKey_only b _ u).tablesKept (by decide)).trans (takeConfirm_tables _ _)) _
  | adjustKey b =>
    rcases execAdjustKey_event h with rfl | ⟨k, rest, -, -, rfl⟩
    · exact st.refl _
    · exact st.event (fun u => ((takeKey_only b _ u).tablesKept (by decide)).trans (takeAdjust_tables _ _)) _
  | lineDown p => exact (execLineDown_only h).tablesKept (by decide)
  | lineUp p => exact (execLineUp_only h).tablesKept (by decide)
  | frameArrival p bytes => exact (execFrameArrival_only h).tablesKept (by decide)
  | transmissionEnd p => exact (execTransmissionEnd_only h).tablesKept (by decide)
  | roomNoticeBuild => exact (execRoomNoticeBuild_only h).tablesKept (by decide)
  | taskAmend => exact (execTaskAmend_only h).tablesKept (by decide)
  | taskQuery => exact (execTaskQuery_only h).tablesKept (by decide)
  | pickerRead => exact (execPickerRead_only h).tablesKept (by decide)
  | areaLock => exact (execAreaLock_only h).tablesKept (by decide)
  | areaUnlock => exact (execAreaUnlock_only h).tablesKept (by decide)
  | mapRead => exact (execMapRead_only h).tablesKept (by decide)
  | configRead => exact (execConfigRead_only h).tablesKept (by decide)
  | timeSet => exact (execTimeSet_only h).tablesKept (by decide)
  | counterSet => exact (execCounterSet_only h).tablesKept (by decide)
  | counterRead => exact (execCounterRead_only h).tablesKept (by decide)
  | attentionMask => exact (execAttentionMask_only h).tablesKept (by decide)
  | attentionClear => exact (execAttentionClear_only h).tablesKept (by decide)
  | attentionRead => exact (execAttentionRead_only h).tablesKept (by decide)
  | statusRead => exact (execStatusRead_only h).tablesKept (by decide)
  | rosterRead => exact (execRosterRead_only h).tablesKept (by decide)
  | branchScan => exact (execBranchScan_only h).tablesKept (by decide)
  | lampDirect => exact (execLampDirect_only h).tablesKept (by decide)
  | silenceLimitExpiry => exact (execSilenceLimitExpiry_only h).tablesKept (by decide)
  | rotationExpiry pos => exact (execRotationExpiry_only h).tablesKept (by decide)
  | feedbackExpiry pos => exact (execFeedbackExpiry_only h).tablesKept (by decide)
  | lingerExpiry pos => exact (execLingerExpiry_only h).tablesKept (by decide)
  | combineExpiry => exact (execCombineExpiry_only h).tablesKept (by decide)
  | aisleClockAdvance => exact (execAisleClockAdvance_only h).tablesKept (by decide)
  | branchArbiter b => exact (execBranchArbiter_only h).tablesKept (by decide)
  | missingTurnSpacing b => exact (execMissingTurnSpacing_only h).tablesKept (by decide)
  | showAcknowledge b bytes => exact (execShowAcknowledge_only h).tablesKept (by decide)
  | pollReply b bytes => exact (execPollReply_only h).tablesKept (by decide)
  | identReply b bytes => exact (execIdentReply_only h).tablesKept (by decide)
  | invalidReply b cutOff bytes => exact (execInvalidReply_only h).tablesKept (by decide)
  | replyTimeout b => exact (execReplyTimeout_only h).tablesKept (by decide)
  | branchFaultSet b stillSending => exact (execBranchFaultSet_only h).tablesKept (by decide)
  | branchFaultClear b => exact (execBranchFaultClear_only h).tablesKept (by decide)

theorem step_tables {s t : State} (h : step s = .next t) : TablesKept s t := by
  unfold step at h
  split at h
  · rw [next_inj h]; exact (tick_only s).tablesKept (by decide)
  · rename_i c rest _
    have wait : OnlyChanges [.waiting] s { s with pending := rest } := by intro p; cases p <;> simp [Keeps]
    exact (wait.tablesKept (by decide)).trans (exec_tables c _ t h)

/-- Settles O54: a command changes an entry only within the checks of the request that names it. -/
theorem everyStepKeepsTables : Obligations.EveryStepKeepsTables := fun _ _ hm hr hk hv h =>
  have kept := step_tables h
  ⟨kept.map hm, kept.rights hr, kept.pickers hk, kept.params hv⟩

end Sys2Proof.Machine

/-!
PROOFS. What every step keeps of the two branch controllers (O59): what is in order of one branch, and the operations of the display.
-/

namespace Sys2Proof.Machine

open Sys2Proof

/-! ## One branch controller in order -/

/-- Slot positions of one branch, each listed once. -/
def SlotsOf (b : Branch) (ps : List SlotPos) : Prop := ps.Nodup ∧ ∀ p ∈ ps, p.branch = b

theorem SlotsOf.sublist {b : Branch} {ps qs : List SlotPos} (h : SlotsOf b ps) (hs : qs.Sublist ps) : SlotsOf b qs :=
  ⟨h.1.sublist hs, fun p hp => h.2 p (hs.subset hp)⟩

theorem SlotsOf.append {b : Branch} {ps qs : List SlotPos} (h : SlotsOf b ps) (hq : SlotsOf b qs) (new : ∀ p ∈ qs, p ∉ ps) :
    SlotsOf b (ps ++ qs) :=
  ⟨List.nodup_append.2 ⟨h.1, hq.1, fun _ hp _ hq e => new _ hq (e ▸ hp)⟩,
    fun p hp => (List.mem_append.1 hp).elim (h.2 p) (hq.2 p)⟩

theorem slotsOf_singleton (pos : SlotPos) : SlotsOf pos.branch [pos] := ⟨by simp, by simp⟩

/-- A roster entry's numbers are in their ranges (R151). -/
def ModuleFits (m : Module) : Prop := 1 ≤ m.addr ∧ m.addr ≤ 48 ∧ 1 ≤ m.slots ∧ m.slots ≤ 4 ∧ m.misses ≤ 7 ∧ m.owed ≤ 4

/-- A command fits a branch with a given scan: an IDENT goes to an address of a running scan, and a SHOW to a slot of the branch (R158, R162). -/
def CommandFits (b : Branch) (scan : Option Scan) (what : LineCommand) : Prop :=
  (∀ a, what = .ident a → 1 ≤ a ∧ a ≤ 48 ∧ scan.isSome = true) ∧ ∀ pos d tag, what = .showSlot pos d tag → pos.branch = b

/-- BranchOk by its parts. -/
structure BranchFits (b : Branch) (x : BranchState) : Prop where
  work : SlotsOf b x.work
  order : (x.roster.map (·.addr)).Pairwise (· < ·)
  modules : ∀ m ∈ x.roster, ModuleFits m
  counts : x.shows ≤ Config.showsPerPoll ∧ x.turn < 16
  tags : x.nextTags.length = Config.slotsPerBranch
  scan : ∀ sc, x.scan = some sc → 1 ≤ sc.next ∧ sc.next ≤ 48
  command : ∀ c, x.command = some c → CommandFits b x.scan c.what
  direct : ∀ d, x.direct = some d → d.pos.branch = b
  directShown : SlotsOf b x.directShown
  unshown : SlotsOf b x.unshown

theorem branchOk_iff (b : Branch) (x : BranchState) : BranchOk b x ↔ BranchFits b x := by
  constructor
  · rintro ⟨hw, ho, hm, ⟨hs, ht, hn⟩, hscan, hident, hd, hds, hu, hshow⟩
    exact ⟨hw, ho, hm, ⟨hs, ht⟩, hn, hscan, fun c hc => ⟨hident c hc, fun pos d tag => hshow c pos d tag hc⟩, hd, hds, hu⟩
  · rintro ⟨hw, ho, hm, ⟨hs, ht⟩, hn, hscan, hc, hd, hds, hu⟩
    exact ⟨hw, ho, hm, ⟨hs, ht, hn⟩, hscan, fun c h => (hc c h).1, hd, hds, hu, fun c pos d tag h => (hc c h).2 pos d tag⟩

theorem branchesOk_iff (s : State) :
    BranchesOk s ↔ ∀ b, BranchFits b (s.branch b) ∧ s.scanning b = (s.branch b).scan.isSome := by
  simp only [BranchesOk, branchOk_iff]
  constructor
  · rintro ⟨hl, hr, sl, sr⟩ b
    cases b
    · exact ⟨hl, sl⟩
    · exact ⟨hr, sr⟩
  · intro h
    exact ⟨(h .l).1, (h .r).1, (h .l).2, (h .r).2⟩

theorem BranchesOk.fits {s : State} (h : BranchesOk s) (b : Branch) : BranchFits b (s.branch b) := ((branchesOk_iff s).1 h b).1

theorem BranchesOk.scanning {s : State} (h : BranchesOk s) (b : Branch) : s.scanning b = (s.branch b).scan.isSome :=
  ((branchesOk_iff s).1 h b).2

/-- Both branches are in order again once the one that has changed is. -/
theorem BranchesOk.of_branch {b : Branch} {s t : State} (h : BranchesOk s) (hb : BranchFits b (t.branch b))
    (hs : t.scanning b = (t.branch b).scan.isSome) (other : OtherBranchKept b s t) : BranchesOk t := by
  refine (branchesOk_iff t).2 fun d => ?_
  by_cases hd : d = b
  · subst hd; exact ⟨hb, hs⟩
  · obtain ⟨hbr, hsc⟩ := other d hd
    rw [hbr, hsc]; exact (branchesOk_iff s).1 h d

/-! ## From state to state -/

/-- From `s` to `t` two branches in order stay so. -/
structure BranchesKept (s t : State) : Prop where
  ok : BranchesOk s → BranchesOk t

/-- The parts that BranchesOk reads. -/
def branchView : List Part :=
  [.scanning, .rosters, .work, .commands, .turns, .scans, .directs, .directShown, .unshown, .nextTags]

theorem OnlyChanges.branchesKept {ps : List Part} {s t : State} (h : OnlyChanges ps s t) (hp : ∀ p ∈ branchView, p ∉ ps) :
    BranchesKept s t := by
  have keeps : ∀ p ∈ branchView, Keeps p s t := fun p hv => h.keeps (hp p hv)
  obtain ⟨hsl, hsr⟩ := keeps .scanning (by decide)
  obtain ⟨hrl, hrr⟩ := keeps .rosters (by decide)
  obtain ⟨hwl, hwr⟩ := keeps .work (by decide)
  obtain ⟨hcl, hcr⟩ := keeps .commands (by decide)
  obtain ⟨⟨htl, hul, -⟩, htr, hur, -⟩ := keeps .turns (by decide)
  obtain ⟨hscl, hscr⟩ := keeps .scans (by decide)
  obtain ⟨hdl, hdr⟩ := keeps .directs (by decide)
  obtain ⟨hdsl, hdsr⟩ := keeps .directShown (by decide)
  obtain ⟨hunl, hunr⟩ := keeps .unshown (by decide)
  obtain ⟨hnl, hnr⟩ := keeps .nextTags (by decide)
  refine ⟨fun hs => ?_⟩
  unfold BranchesOk BranchOk
  rw [hsl, hsr, hrl, hrr, hwl, hwr, hcl, hcr, htl, hul, htr, hur, hscl, hscr, hdl, hdr, hdsl, hdsr, hunl, hunr, hnl, hnr]
  exact hs

theorem BranchesKept.trans {s t u : State} (h : BranchesKept s t) (k : BranchesKept t u) : BranchesKept s u := ⟨k.ok ∘ h.ok⟩

/-- The same composition, the later change named first: the state between is read from it. -/
theorem BranchesKept.after {s t u : State} (k : BranchesKept t u) (h : BranchesKept s t) : BranchesKept s u := ⟨k.ok ∘ h.ok⟩

theorem branches_steady : Steady branchView BranchesKept where
  only h hp := h.branchesKept hp
  trans h k := h.trans k
  sends _ _ _ _ _ _ := (originate_only _ _ _ _ _ _).branchesKept (by decide)
  away := by decide

theorem onBranch_otherKept (b : Branch) (f : BranchState → BranchState) (s : State) : OtherBranchKept b s (onBranch b f s) := by
  intro d hd
  match b, d, hd with
  | .l, .r, _ => exact ⟨rfl, rfl⟩
  | .r, .l, _ => exact ⟨rfl, rfl⟩

/-- A change of one branch that leaves it in order, with its scan running or not as before. -/
theorem onBranch_branches {b : Branch} {f : BranchState → BranchState} {s : State}
    (hf : BranchFits b (s.branch b) → BranchFits b (f (s.branch b)))
    (hscan : (f (s.branch b)).scan.isSome = (s.branch b).scan.isSome) : BranchesKept s (onBranch b f s) := by
  refine ⟨fun h => ?_⟩
  refine h.of_branch (by rw [onBranch_branch]; exact hf (h.fits b)) ?_ (onBranch_otherKept b f s)
  rw [onBranch_branch, hscan, ← h.scanning b]; exact setBranch_scanning _ _ _ _

/-! ## The display work queue (R103) -/

theorem enqueueSlot_branches (pos : SlotPos) (s : State) : BranchesKept s (enqueueSlot pos s) := by
  unfold enqueueSlot; simp only; split
  · exact ⟨id⟩
  · rename_i hn
    exact onBranch_branches (b := pos.branch) (f := fun x => { x with work := x.work ++ [pos] })
      (fun h => { h with work := h.work.append (slotsOf_singleton pos) (by simpa using hn) }) rfl

theorem renewShadow_branches (pos : SlotPos) (s : State) : BranchesKept s (renewShadow pos s) := by
  unfold renewShadow; split
  · exact ⟨id⟩
  · simp only; split
    · exact ⟨id⟩
    · exact ((setSlot_only _ _).branchesKept (by decide)).trans (enqueueSlot_branches _ _)

theorem recompute_branches (e : MapEntry) (s : State) : BranchesKept s (recompute e s) := by
  unfold recompute; split
  · exact ⟨id⟩
  · refine BranchesKept.trans ?_ (renewShadow_branches _ _)
    exact ⟨id⟩

theorem recomputeWhere_branches (p : MapEntry → Bool) (s : State) : BranchesKept s (recomputeWhere p s) :=
  branches_steady.foldl (fun t e => recompute_branches e t) _ s

theorem recomputeCodes_branches (codes : List Nat) (s : State) : BranchesKept s (recomputeCodes codes s) := recomputeWhere_branches _ s

theorem renewColour_branches (picker : Nat) (s : State) : BranchesKept s (renewColour picker s) :=
  branches_steady.foldl (fun t (e : MapEntry) => renewShadow_branches e.pos t) _ s

theorem enqueueSlots_branches (q : SlotPos → Bool) (b : Branch) (addr : Nat) (s : State) : BranchesKept s (enqueueSlots q b addr s) := by
  refine branches_steady.foldl (fun t n => ?_) _ s
  simp only; split
  · exact enqueueSlot_branches _ t
  · exact ⟨id⟩

theorem releaseSlot_branches (pos : SlotPos) (s : State) : BranchesKept s (releaseSlot pos s) := by
  unfold releaseSlot; split
  · exact ⟨id⟩
  · simp only; split
    · exact ⟨id⟩
    · exact (enqueueSlot_branches _ _).after ⟨id⟩

theorem takeUpSlot_branches (pos : SlotPos) (s : State) : BranchesKept s (takeUpSlot pos s) :=
  (enqueueSlot_branches _ _).after ⟨id⟩

theorem changeMap_branches (map : List MapEntry) (s : State) : BranchesKept s (changeMap map s) := by
  unfold changeMap
  refine (branches_steady.foldl (fun u pos => takeUpSlot_branches pos u) _ _).after ?_
  exact (branches_steady.foldl (fun u pos => releaseSlot_branches pos u) _ _).after ⟨id⟩

/-! ## Feedback, linger and rotation -/

theorem showFeedback_branches (pos : SlotPos) (sym : Symbol) (s : State) : BranchesKept s (showFeedback pos sym s) := by
  unfold showFeedback; split
  · exact ⟨id⟩
  · exact ((setSlot_only _ _).branchesKept (by decide)).trans (renewShadow_branches _ _)

theorem lingerExpire_branches (x : SlotState) (s : State) : BranchesKept s (lingerExpire x s) := by
  unfold lingerExpire; split
  · exact (setSlot_only _ _).branchesKept (by decide)
  · exact ((((setGroup_only _ _).branchesKept (by decide)).trans ((setSlot_only _ _).branchesKept (by decide))).trans
      (renewShadow_branches _ _)).trans (branches_steady.offer _ _)

theorem judgeLinger_branches (oldBase : Nat) (s : State) : BranchesKept s (judgeLinger oldBase s) := by
  have set : ∀ (u : State) x, BranchesKept u (u.setSlot x) := fun u x => (setSlot_only u x).branchesKept (by decide)
  refine branches_steady.foldl (fun t e => ?_) _ s
  simp only; split
  · exact ⟨id⟩
  · split
    · exact set _ _
    · split
      · split
        · exact branches_steady.event (lingerExpire_branches _) t
        · exact set _ _
      · split
        · exact set _ _
        · exact ⟨id⟩
      · exact ⟨id⟩

theorem rotationExpire_branches (x : SlotState) (s : State) : BranchesKept s (rotationExpire x s) :=
  ((setSlot_only _ _).branchesKept (by decide)).trans (renewShadow_branches _ _)

/-! ## The orphan watch and deliveries -/

theorem enterOrphaned_branches (s : State) : BranchesKept s (enterOrphaned s) :=
  BranchesKept.trans (t := { s with orphaned := true }) ⟨id⟩
    ((branches_steady.setFlag .orphaned _).trans (recomputeWhere_branches _ _))

theorem leaveOrphaned_branches (s : State) : BranchesKept s (leaveOrphaned s) :=
  BranchesKept.trans (t := { s with orphaned := false }) ⟨id⟩
    ((((clearFlag_only _ _).branchesKept (by decide)).trans (branches_steady.setFlag _ _)).trans (recomputeWhere_branches _ _))

theorem takeDelivery_branches (f : Frame) (s : State) : BranchesKept s (takeDelivery f s) := by
  unfold takeDelivery; split
  · exact branches_steady.signal _ _ _
  · split
    · exact branches_steady.signal _ _ _
    · simp only; split
      · exact (leaveOrphaned_branches _).after ⟨id⟩
      · exact ⟨id⟩

theorem deliverFrame_branches (f : Frame) (s : State) : BranchesKept s (deliverFrame f s) := by
  simp only [deliverFrame]; split
  · exact (branches_steady.signal _ _ _).after ⟨id⟩
  · exact (takeDelivery_branches _ _).after ((branches_steady.signal _ _ _).after ⟨id⟩)

theorem disposeFrame_branches (p : Port) (f : Frame) (s : State) : BranchesKept s (disposeFrame p f s) := by
  have fwd : ∀ t, BranchesKept t (forwardFrame p f t) := fun t => (forwardFrame_only p f t).branchesKept (by decide)
  unfold disposeFrame
  split
  · exact fwd s
  · split
    · split
      · exact ⟨id⟩
      · exact branches_steady.setFlag _ _
    · split
      · exact deliverFrame_branches _ _
      · split
        · exact (deliverFrame_branches f s).trans (fwd _)
        · exact fwd s

theorem takeArrival_branches (p : Port) (s : State) : BranchesKept s (takeArrival p s) := by
  have drop : ∀ flag, BranchesKept s (dropFrame flag s) := fun flag => (dropFrame_only flag s).branchesKept (by decide)
  simp only [takeArrival]
  split
  · exact drop _
  · split
    · exact drop _
    · split
      · exact drop _
      · exact disposeFrame_branches _ _ _

/-! ## Requests to the scheduler (chapters 3 to 5) -/

theorem applyMapLoad_branches (r : Request) (s : State) : BranchesKept s (applyMapLoad r s).2 := by
  unfold applyMapLoad; split
  · exact ⟨id⟩
  · exact changeMap_branches _ _

theorem applyMapRemove_branches (r : Request) (s : State) : BranchesKept s (applyMapRemove r s).2 := by
  unfold applyMapRemove; split
  · exact ⟨id⟩
  · exact changeMap_branches _ _

theorem applyAreaLock_branches (r : Request) (s : State) : BranchesKept s (applyAreaLock r s).2 :=
  (recomputeWhere_branches _ _).after ⟨id⟩

theorem applyAreaUnlock_branches (r : Request) (s : State) : BranchesKept s (applyAreaUnlock r s).2 :=
  (recomputeWhere_branches _ _).after ⟨id⟩

theorem pickerNotice_branches (old new : Picker) (s : State) : BranchesKept s (pickerNotice old new s) := by
  unfold pickerNotice; split
  · exact recomputeWhere_branches _ _
  · split
    · exact renewColour_branches _ _
    · exact ⟨id⟩

theorem applyPickerSet_branches (r : Request) (s : State) : BranchesKept s (applyPickerSet r s).2 := by
  unfold applyPickerSet; split
  · exact ⟨id⟩
  · simp only; split
    · exact ⟨id⟩
    · split
      · exact ⟨id⟩
      · split
        · exact ((setPicker_only _ _).branchesKept (by decide)).trans (pickerNotice_branches _ _ _)
        · exact ⟨id⟩

theorem setPickerState_branches (goal : PickerState) (r : Request) (s : State) : BranchesKept s (setPickerState goal r s).2 := by
  unfold setPickerState; split
  · exact ⟨id⟩
  · simp only; split
    · exact ⟨id⟩
    · exact ((setPicker_only _ _).branchesKept (by decide)).trans (recomputeWhere_branches _ _)

theorem applyPickerLeave_branches (r : Request) (s : State) : BranchesKept s (applyPickerLeave r s).2 := by
  have leave : ∀ (u : State) (gs : List Group), BranchesKept u (gs.foldl (fun t g => removeGroup g t) u) := fun u gs =>
    branches_steady.foldl (fun t g => (removeGroup_only g t).branchesKept (by decide)) gs u
  unfold applyPickerLeave; split
  · exact ⟨id⟩
  · refine BranchesKept.trans (t := recomputeCodes _ (judgeTasksHigh _)) ?_ ⟨id⟩
    refine BranchesKept.trans ?_ (recomputeWhere_branches _ _)
    refine BranchesKept.trans ?_ ((judgeTasksHigh_only _).branchesKept (by decide))
    exact (leave _ _).after ⟨id⟩

theorem applyTaskPost_branches (r : Request) (s : State) : BranchesKept s (applyTaskPost r s).2 :=
  ((postTasks_only _ s).branchesKept (by decide)).trans (recomputeWhere_branches _ _)

theorem applyTaskCancel_branches (r : Request) (s : State) : BranchesKept s (applyTaskCancel r s).2 :=
  (((cancelTasks_only _ s).branchesKept (by decide)).trans ((judgeTasksHigh_only _).branchesKept (by decide))).trans
    (recomputeWhere_branches _ _)

theorem applyTaskAmend_branches (r : Request) (s : State) : BranchesKept s (applyTaskAmend r s).2 := by
  unfold applyTaskAmend; split
  · exact ⟨id⟩
  · simp only; split
    · exact ⟨id⟩
    · split
      · exact ⟨id⟩
      · split
        · exact ⟨id⟩
        · simp only; split
          · exact ⟨id⟩
          · exact (recomputeWhere_branches _ _).after (((setGroup_only _ _).branchesKept (by decide)).after ⟨id⟩)

/-! ## Keys (chapter 7) -/

theorem closeMember_branches (g : Group) (t : Task) (share : Nat) (s : State) : BranchesKept s (closeMember g t share s) := by
  have closed : BranchesKept s (closeTask t s) := (closeTask_only t s).branchesKept (by decide)
  simp only [closeMember]; split
  · exact (closed.trans (branches_steady.offer _ _)).trans (branches_steady.signal _ _ _)
  · exact closed.trans (branches_steady.offer _ _)

theorem acceptConfirm_branches (g : Group) (recorded : Nat) (s : State) : BranchesKept s (acceptConfirm g recorded s) := by
  have removed : ∀ ms : List (Task × Nat), BranchesKept s (removeGroup g (ms.foldl (fun t m => closeMember g m.1 m.2 t) s)) := fun ms =>
    (branches_steady.foldl (fun u m => closeMember_branches g m.1 m.2 u) ms s).trans ((removeGroup_only _ _).branchesKept (by decide))
  simp only [acceptConfirm]
  refine BranchesKept.trans ?_ (recomputeCodes_branches _ _)
  refine BranchesKept.trans ?_ (branches_steady.signal _ _ _)
  refine BranchesKept.trans ?_ ((judgeTasksHigh_only _).branchesKept (by decide))
  cases g.firstShown with
  | none => exact removed _
  | some shown => exact (removed _).trans ((samplePace_only _ _ _ _).branchesKept (by decide))

theorem refusePress_branches (e : MapEntry) (k : KeyEvent) (why : PressRefusal) (s : State) : BranchesKept s (refusePress e k why s) := by
  have shown : BranchesKept s (showFeedback k.pos why.symbol s) := showFeedback_branches _ _ _
  cases why
  · exact (shown.trans (branches_steady.offer _ _)).trans (branches_steady.signal _ _ _)
  · exact (shown.trans (branches_steady.offer _ _)).trans (branches_steady.signal _ _ _)
  · exact shown.trans (branches_steady.offer _ _)
  · exact shown.trans (branches_steady.signal _ _ _)

theorem takeConfirm_branches (k : KeyEvent) (s : State) : BranchesKept s (takeConfirm k s) := by
  unfold takeConfirm; split
  · exact branches_steady.signal _ _ _
  · split
    · exact refusePress_branches _ _ _ _
    · exact acceptConfirm_branches _ _ _

theorem acceptAdjust_branches (k : KeyEvent) (g : Group) (s : State) : BranchesKept s (acceptAdjust k g s) := by
  have held : ∀ u : State, BranchesKept u (match u.slotAt k.pos with | none => u | some x => u.setSlot (x.heldFor g u)) := by
    intro u; split
    · exact ⟨id⟩
    · exact (setSlot_only _ _).branchesKept (by decide)
  simp only [acceptAdjust]
  refine BranchesKept.trans ?_ (branches_steady.signal _ _ _)
  split
  · exact (((setGroup_only _ _).branchesKept (by decide)).trans (held _)).trans (recomputeWhere_branches _ _)
  · exact (held _).trans (renewShadow_branches _ _)

theorem takeAdjust_branches (k : KeyEvent) (s : State) : BranchesKept s (takeAdjust k s) := by
  unfold takeAdjust; split
  · exact branches_steady.signal _ _ _
  · split
    · exact branches_steady.signal _ _ _
    · exact acceptAdjust_branches _ _ _

end Sys2Proof.Machine

/-!
PROOFS. What every step keeps of the two branch controllers (O59): the operations of a branch, and every command.
-/

namespace Sys2Proof.Machine

open Sys2Proof

/-! ## Rosters and commands -/

/-- What a state in order keeps, it keeps. -/
theorem BranchesKept.of_ok {s t : State} (h : BranchesOk s → BranchesKept s t) : BranchesKept s t := ⟨fun ok => (h ok).ok ok⟩

theorem BranchesOk.moduleFits {s : State} {b : Branch} {addr : Nat} {m : Module} (h : BranchesOk s)
    (hm : (s.branch b).moduleAt addr = some m) : ModuleFits m := (h.fits b).modules m (List.mem_of_find?_eq_some hm)

theorem BranchesOk.commandFits {s : State} {b : Branch} {c : Command} (h : BranchesOk s) (hc : (s.branch b).command = some c) :
    CommandFits b (s.branch b).scan c.what := (h.fits b).command c hc

/-- Neither an IDENT nor a SHOW: such a command fits every branch. -/
theorem commandFits_other {b : Branch} {scan : Option Scan} {what : LineCommand} (hi : ∀ a, what ≠ .ident a)
    (hs : ∀ pos d tag, what ≠ .showSlot pos d tag) : CommandFits b scan what :=
  ⟨fun a h => absurd h (hi a), fun pos d tag h => absurd h (hs pos d tag)⟩

theorem commandFits_showSlot (pos : SlotPos) (d : Shadow) (tag : Tag) (scan : Option Scan) :
    CommandFits pos.branch scan (.showSlot pos d tag) := by
  refine ⟨?_, ?_⟩
  · intro a h; cases h
  · intro p e n h; cases h; rfl

theorem OnlyChanges.scan_eq {ps : List Part} {s t : State} (h : OnlyChanges ps s t) (hp : Part.scans ∉ ps) (b : Branch) :
    (t.branch b).scan = (s.branch b).scan := by
  obtain ⟨hl, hr⟩ := h.keeps (p := .scans) hp
  cases b
  · exact hl
  · exact hr

/-- A change of roster entries that leaves their addresses and keeps them in range. -/
theorem BranchFits.mapRoster {b : Branch} {x : BranchState} {f : Module → Module} (h : BranchFits b x) (haddr : ∀ m, (f m).addr = m.addr)
    (hf : ∀ m, ModuleFits m → ModuleFits (f m)) : BranchFits b { x with roster := x.roster.map f } := by
  refine { h with order := ?_, modules := fun m hm => ?_ }
  · have same : (fun m : Module => m.addr) ∘ f = fun m => m.addr := funext haddr
    simp only [List.map_map, same]; exact h.order
  · obtain ⟨n, hn, rfl⟩ := List.mem_map.1 hm
    exact hf n (h.modules n hn)

theorem mapRoster_branches {b : Branch} {f : Module → Module} (s : State) (haddr : ∀ m, (f m).addr = m.addr)
    (hf : ∀ m, ModuleFits m → ModuleFits (f m)) : BranchesKept s (onBranch b (fun x => { x with roster := x.roster.map f }) s) :=
  onBranch_branches (fun h => h.mapRoster haddr hf) rfl

theorem setModule_branches (b : Branch) {m : Module} (s : State) (hm : ModuleFits m) :
    BranchesKept s (onBranch b (fun x => x.setModule m) s) := by
  refine mapRoster_branches s (f := fun n => if n.addr = m.addr then m else n) (fun n => ?_) fun n hn => ?_
  · split
    · rename_i h; exact h.symm
    · rfl
  · split
    · exact hm
    · exact hn

theorem setCommand_branches {b : Branch} {c : Command} {s : State} (hc : CommandFits b (s.branch b).scan c.what) :
    BranchesKept s (onBranch b (fun x => { x with command := some c }) s) :=
  onBranch_branches (fun h => { h with command := fun d hd => by cases hd; exact hc }) rfl

theorem sendCommand_branches {b : Branch} {what : LineCommand} (ack : Nat) {s : State} (hc : CommandFits b (s.branch b).scan what) :
    BranchesKept s (sendCommand b what ack s) := setCommand_branches hc

theorem clearCommand_branches (b : Branch) (s : State) : BranchesKept s (clearCommand b s) :=
  onBranch_branches (fun h => { h with command := fun _ hd => nomatch hd }) rfl

theorem finishDirect_branches (b : Branch) (code : ReplyCode) (s : State) : BranchesKept s (finishDirect b code s) := by
  unfold finishDirect; split
  · exact ⟨id⟩
  · exact (branches_steady.answer _ _ _).after (onBranch_branches (fun h => { h with direct := fun _ hd => nomatch hd }) rfl)

theorem markUnshown_branches {b : Branch} {ps : List SlotPos} (s : State) (hps : SlotsOf b ps) : BranchesKept s (markUnshown b ps s) := by
  refine onBranch_branches (fun h => { h with unshown := ?_ }) rfl
  exact h.unshown.append (hps.sublist List.filter_sublist) fun p hp => by simpa using (List.mem_filter.1 hp).2

theorem settleOwed_branches (b : Branch) (addr : Nat) (drew : Bool) (s : State) : BranchesKept s (settleOwed b addr drew s) := by
  unfold settleOwed; split
  · refine mapRoster_branches s (fun m => ?_) fun m hm => ?_
    · split <;> rfl
    · split
      · obtain ⟨h1, h2, h3, h4, h5, -⟩ := hm
        exact ⟨h1, h2, h3, h4, h5, Nat.zero_le _⟩
      · exact hm
  · exact ⟨id⟩

/-! ## The miss rule (section 8.3) -/

theorem markMissing_branches (b : Branch) {m : Module} (s : State) (hm : ModuleFits m) : BranchesKept s (markMissing b m s) :=
  ((setModule_branches b (m := { m with presence := .missing }) s hm).trans (branches_steady.setFlag _ _)).trans
    (recomputeWhere_branches _ _)

theorem endCommand_branches {b : Branch} {c : Command} {s : State} (hc : CommandFits b (s.branch b).scan c.what) :
    BranchesKept s (endCommand b c s) := by
  unfold endCommand; split
  · rename_i pos d tag hw
    refine (clearCommand_branches b s).trans (markUnshown_branches _ ?_)
    rw [← hc.2 pos d tag hw]; exact slotsOf_singleton pos
  · exact (settleOwed_branches _ _ _ _).trans (clearCommand_branches _ _)
  · exact setCommand_branches (c := { c with ended := true }) hc
  · exact (clearCommand_branches _ _).trans (finishDirect_branches _ _ _)
  · exact clearCommand_branches _ _

theorem retryOrEnd_branches {b : Branch} {c : Command} {s : State} (hc : CommandFits b (s.branch b).scan c.what) :
    BranchesKept s (retryOrEnd b c s) := by
  unfold retryOrEnd; split
  · exact setCommand_branches (c := { c with attempts := c.attempts + 1 }) hc
  · exact endCommand_branches hc

theorem ModuleFits.missed {m : Module} (h : ModuleFits m) : ModuleFits m.missed := by
  obtain ⟨h1, h2, h3, h4, -, h6⟩ := h
  exact ⟨h1, h2, h3, h4, Nat.min_le_left _ _, h6⟩

theorem missAttempt_branches {b : Branch} {c : Command} (drew : Bool) {s : State} (hc : CommandFits b (s.branch b).scan c.what) :
    BranchesKept s (missAttempt b c drew s) := by
  simp only [missAttempt]
  have sig : BranchesKept s (signal .moduleMiss none s) := branches_steady.signal _ _ _
  rw [← (signal_only .moduleMiss none s).scan_eq (by decide) b] at hc
  revert sig hc
  generalize signal .moduleMiss none s = u
  intro hc sig
  split
  · exact sig.trans (retryOrEnd_branches hc)
  · rename_i m hm
    refine sig.trans (.of_ok fun ok => ?_)
    have fits : ModuleFits m.missed := (ok.moduleFits hm).missed
    have miss : BranchesKept u (onBranch b (fun x => x.setModule m.missed) u) := setModule_branches b u fits
    have hc1 : CommandFits b ((onBranch b (fun x => x.setModule m.missed) u).branch b).scan c.what := by
      rw [onBranch_branch]; exact hc
    revert miss hc1
    generalize onBranch b (fun x => x.setModule m.missed) u = v
    intro miss hc1
    split
    · exact miss.trans (endCommand_branches hc1)
    · split
      · rw [← (markMissing_only b m.missed v).scan_eq (by decide) b] at hc1
        exact (miss.trans (markMissing_branches b v fits)).trans (endCommand_branches hc1)
      · exact miss.trans (retryOrEnd_branches hc1)

theorem validReply_branches (b : Branch) (addr : Nat) (s : State) : BranchesKept s (validReply b addr s) := by
  unfold validReply; split
  · exact ⟨id⟩
  · rename_i m hm
    refine .of_ok fun ok => ?_
    obtain ⟨h1, h2, h3, h4, -, h6⟩ := ok.moduleFits hm
    have back := setModule_branches b (m := { m with presence := .present, misses := 0 }) s ⟨h1, h2, h3, h4, Nat.zero_le _, h6⟩
    split
    · unfold moduleReturns
      exact ((back.trans (branches_steady.setFlag _ _)).trans (recomputeWhere_branches _ _)).trans (enqueueSlots_branches _ _ _ _)
    · exact back

/-! ## Replies -/

theorem acknowledge_branches (b : Branch) (c : Command) (s : State) : BranchesKept s (acknowledge b c s) := by
  have answered : BranchesKept s (clearCommand b (validReply b c.what.addr s)) := (validReply_branches _ _ _).trans (clearCommand_branches _ _)
  simp only [acknowledge]; split
  · exact answered.trans (finishDirect_branches _ _ _)
  all_goals exact answered

/-- A valid poll reply hands over at most four key events (R193). -/
theorem keyEvents_length {addr : Nat} {bytes : List Byte} (b : Branch) (h : pollValid addr bytes = true) :
    (keyEvents b addr bytes).length ≤ 4 := by
  have count : fieldAt bytes 3 1 ≤ 4 := by
    simp only [pollValid, Bool.and_eq_true, decide_eq_true_eq] at h
    exact h.1.1.2
  exact (List.length_filterMap_le _ _).trans ((pieces_length _ _ _).trans_le count)

theorem takePollReply_branches {b : Branch} {addr : Nat} {bytes : List Byte} (s : State) (h : pollValid addr bytes = true) :
    BranchesKept s (takePollReply b addr bytes s) := by
  have answered : BranchesKept s (clearCommand b (validReply b addr s)) := (validReply_branches _ _ _).trans (clearCommand_branches _ _)
  have handed : ∀ u : State, BranchesKept u (onBranch b (fun x => { x with
      keys := x.keys ++ keyEvents b addr bytes
      roster := x.roster.map fun (m : Module) => if m.addr = addr then { m with owed := (keyEvents b addr bytes).length } else m }) u) := by
    intro u
    refine onBranch_branches (fun fits => ?_) rfl
    refine { fits.mapRoster (f := fun m => if m.addr = addr then { m with owed := (keyEvents b addr bytes).length } else m)
      (fun m => by split <;> rfl) fun m hm => ?_ with work := fits.work }
    split
    · obtain ⟨h1, h2, h3, h4, h5, -⟩ := hm
      exact ⟨h1, h2, h3, h4, h5, keyEvents_length b h⟩
    · exact hm
  have lost : ∀ u : State, BranchesKept u (if (BitVec.ofNat 8 (fieldAt bytes 2 1)).getLsbD 0 then signal .keysLost none (setFlag .keysLost u) else u) := by
    intro u; split
    · exact (branches_steady.setFlag _ _).trans (branches_steady.signal _ _ _)
    · exact ⟨id⟩
  have faulty : ∀ u : State, BranchesKept u (if (BitVec.ofNat 8 (fieldAt bytes 2 1)).getLsbD 1 then signal .moduleFault none u else u) := by
    intro u; split
    · exact branches_steady.signal _ _ _
    · exact ⟨id⟩
  exact ((answered.trans (handed _)).trans (lost _)).trans (faulty _)

/-! ## Scans (section 8.5) -/

/-- A branch's scan is replaced together with the scan-in-progress state, where no IDENT outlasts it. -/
theorem setScan_branches {b : Branch} {scan : Option Scan} {s : State} (hr : ∀ sc, scan = some sc → 1 ≤ sc.next ∧ sc.next ≤ 48)
    (hc : (s.branch b).command = none ∨ scan.isSome = true) :
    BranchesKept s (onBranch b (fun x => { x with scan := scan }) (s.setScanning b scan.isSome)) := by
  refine ⟨fun ok => ok.of_branch (b := b) ?_ ?_ ?_⟩
  · rw [onBranch_branch, setScanning_branch]
    refine { ok.fits b with scan := hr, command := fun c h => ?_ }
    obtain ⟨hident, hshow⟩ := ok.commandFits h
    rcases hc with hc | hc
    · rw [hc] at h; cases h
    · refine ⟨fun a ha => ?_, hshow⟩
      obtain ⟨h1, h48, -⟩ := hident a ha
      exact ⟨h1, h48, hc⟩
  · cases b <;> rfl
  · intro d hd
    match b, d, hd with
    | .l, .r, _ => exact ⟨rfl, rfl⟩
    | .r, .l, _ => exact ⟨rfl, rfl⟩

theorem completeScan_branches {b : Branch} (found : Nat) {s : State} (hc : (s.branch b).command = none) :
    BranchesKept s (completeScan b found s) := by
  unfold completeScan
  have done : BranchesKept s (offer (.scanDone b found s.clock) (setFlag .scanDone s)) :=
    (branches_steady.setFlag _ _).trans (branches_steady.offer _ _)
  refine done.trans (setScan_branches (scan := none) (fun _ h => nomatch h) (.inl ?_))
  obtain ⟨hl, hr⟩ := (((setFlag_only .scanDone s).mono (by decide)).trans (offer_only (.scanDone b found s.clock) _)).keeps (p := .commands)
    (by decide)
  cases b
  · exact hl.trans hc
  · exact hr.trans hc

theorem advanceScan_branches {b : Branch} {addr : Nat} (found : Nat) {s : State} (hs : (s.branch b).scan.isSome = true) :
    BranchesKept s (advanceScan b addr found s) := by
  simp only [advanceScan]; split
  · exact (clearCommand_branches b s).trans (completeScan_branches found (by simp [clearCommand]))
  · rename_i ha
    refine (clearCommand_branches b s).trans (onBranch_branches (fun fits => ?_) ?_)
    · refine { fits with scan := fun sc h => ?_, command := fun c h => ?_ }
      · cases h
        exact ⟨by simp, by simp only; omega⟩
      · simp [clearCommand] at h
    · simp [clearCommand, hs]

theorem insertModule_eq (m : Module) (l : List Module) : insertModule m l = l.orderedInsert (fun a b => a.addr < b.addr) m := by
  induction l with
  | nil => rfl
  | cons e l ih => simp [insertModule, ih]

/-- What a valid identity reply gives is in range (R162, R193). -/
theorem identValid_slots {addr : Nat} {bytes : List Byte} (h : identValid addr bytes = true) : 1 ≤ fieldAt bytes 8 1 ∧ fieldAt bytes 8 1 ≤ 4 := by
  simp only [identValid, Bool.and_eq_true, decide_eq_true_eq] at h
  exact ⟨h.1.2, h.2⟩

theorem insertModule_branches {b : Branch} {m : Module} {s : State} (hm : ModuleFits m) (new : (s.branch b).moduleAt m.addr = none) :
    BranchesKept s (onBranch b (fun x => { x with roster := insertModule m x.roster }) s) := by
  refine onBranch_branches (fun fits => { fits with order := ?_, modules := fun n hn => ?_ }) rfl
  · simp only [insertModule_eq]
    refine pairwise_orderedInsert Module.addr fits.order fun n hn he => ?_
    have := List.find?_eq_none.1 new n hn
    simp [he] at this
  · simp only [insertModule_eq] at hn
    rcases List.mem_cons.1 ((List.perm_orderedInsert _ m _).mem_iff.1 hn) with rfl | hn
    · exact hm
    · exact fits.modules n hn

theorem identifyModule_branches {b : Branch} {addr : Nat} {bytes : List Byte} (s : State) (h : identValid addr bytes = true) :
    BranchesKept s (identifyModule b addr bytes s) := by
  refine mapRoster_branches s (fun m => ?_) fun m hm => ?_
  · split <;> rfl
  · split
    · obtain ⟨h1, h2, -, -, h5, h6⟩ := hm
      refine ⟨h1, h2, (identValid_slots h).1, (identValid_slots h).2, h5, ?_⟩
      simp only [Module.identified]; split
      · exact h6
      · exact Nat.zero_le _
    · exact hm

theorem recordIdentity_branches {b : Branch} {addr : Nat} {bytes : List Byte} (s : State) (h : identValid addr bytes = true)
    (ha : 1 ≤ addr ∧ addr ≤ 48) : BranchesKept s (recordIdentity b addr bytes s) := by
  have notice : ∀ u : State, BranchesKept u (noticeModule b addr u) := fun u => recomputeWhere_branches _ u
  have found : ∀ u : State, BranchesKept u (enqueueFound b addr u) := fun u => enqueueSlots_branches _ _ _ u
  have changed : ∀ u : State, BranchesKept u (enqueueModule b addr u) := fun u => enqueueSlots_branches _ _ _ u
  unfold recordIdentity; split
  · rename_i new
    have fits : ModuleFits (Module.found addr bytes) :=
      ⟨ha.1, ha.2, (identValid_slots h).1, (identValid_slots h).2, Nat.zero_le _, Nat.zero_le _⟩
    exact ((insertModule_branches fits new).trans (notice _)).trans (found _)
  · rename_i m _
    have known : BranchesKept s (identifyModule b addr bytes (validReply b addr s)) :=
      (validReply_branches b addr s).trans (identifyModule_branches _ h)
    have other : BranchesKept s (if (m.identified bytes).serial = m.serial then identifyModule b addr bytes (validReply b addr s)
        else enqueueModule b addr (identifyModule b addr bytes (validReply b addr s))) := by
      split
      · exact known
      · exact known.trans (changed _)
    simp only; split
    · exact other
    · split
      · exact (other.trans (notice _)).trans (found _)
      · exact (other.trans (notice _)).trans (changed _)

/-- Recording an identity leaves the scan as it is. -/
theorem recordIdentity_scan (b : Branch) (addr : Nat) (bytes : List Byte) (s : State) :
    ((recordIdentity b addr bytes s).branch b).scan = (s.branch b).scan := by
  have notice : ∀ u : State, ((noticeModule b addr u).branch b).scan = (u.branch b).scan := fun u =>
    (noticeModule_only b addr u).scan_eq (by decide) b
  have found : ∀ u : State, ((enqueueFound b addr u).branch b).scan = (u.branch b).scan := fun u =>
    (enqueueFound_only b addr u).scan_eq (by decide) b
  have changed : ∀ u : State, ((enqueueModule b addr u).branch b).scan = (u.branch b).scan := fun u =>
    (enqueueModule_only b addr u).scan_eq (by decide) b
  unfold recordIdentity; split
  · rw [found, notice, onBranch_branch]
  · rename_i m _
    have known : ((identifyModule b addr bytes (validReply b addr s)).branch b).scan = (s.branch b).scan := by
      rw [identifyModule, onBranch_branch]; exact (validReply_only b addr s).scan_eq (by decide) b
    have other : ((if (m.identified bytes).serial = m.serial then identifyModule b addr bytes (validReply b addr s)
        else enqueueModule b addr (identifyModule b addr bytes (validReply b addr s))).branch b).scan = (s.branch b).scan := by
      split
      · exact known
      · rw [changed, known]
    simp only; split
    · exact other
    · split
      · rw [found, notice, other]
      · rw [changed, notice, other]

theorem identAnswered_branches {b : Branch} {addr : Nat} {bytes : List Byte} {s : State} (h : identValid addr bytes = true)
    (ha : 1 ≤ addr ∧ addr ≤ 48) (hs : (s.branch b).scan.isSome = true) : BranchesKept s (identAnswered b addr bytes s) :=
  (recordIdentity_branches s h ha).trans (advanceScan_branches _ (by rw [recordIdentity_scan]; exact hs))

theorem identUnanswered_branches {b : Branch} {addr : Nat} {s : State} (hs : (s.branch b).scan.isSome = true) :
    BranchesKept s (identUnanswered b addr s) := by
  simp only [identUnanswered]; split
  · exact advanceScan_branches _ hs
  · rename_i m hm
    split
    · exact advanceScan_branches _ hs
    · refine .of_ok fun ok => (markMissing_branches b s (ok.moduleFits hm)).trans (advanceScan_branches _ ?_)
      rw [(markMissing_only b m s).scan_eq (by decide) b]; exact hs

/-! ## The arbiter (section 8.4) -/

theorem countShow_branches (b : Branch) (s : State) : BranchesKept s (countShow b s) :=
  onBranch_branches (fun fits => { fits with counts := ⟨Nat.min_le_left _ _, fits.counts.2⟩ }) rfl

theorem advanceTag_branches (pos : SlotPos) (s : State) : BranchesKept s (advanceTag pos s) :=
  onBranch_branches (fun fits => { fits with tags := by simpa using fits.tags }) rfl

theorem noteShown_branches (pos : SlotPos) (s : State) : BranchesKept s (noteShown pos s) :=
  onBranch_branches (fun fits => { fits with
    directShown := fits.directShown.sublist List.filter_sublist
    unshown := fits.unshown.sublist List.filter_sublist }) rfl

theorem keepDirect_branches (pos : SlotPos) (s : State) : BranchesKept s (keepDirect pos.branch pos s) :=
  onBranch_branches (fun fits => { fits with
    directShown := (fits.directShown.sublist List.filter_sublist).append (slotsOf_singleton pos) (by simp) }) rfl

theorem startShow_branches (pos : SlotPos) (s : State) : BranchesKept s (startShow pos s) := by
  have counted : BranchesKept s (countShow pos.branch (noteShown pos (advanceTag pos s))) :=
    ((advanceTag_branches _ _).trans (noteShown_branches _ _)).trans (countShow_branches _ _)
  simp only [startShow]; split
  · exact counted.trans (sendCommand_branches 0 (commandFits_showSlot _ _ _ _))
  · exact (counted.trans ((setSlot_only _ _).branchesKept (by decide))).trans (sendCommand_branches 0 (commandFits_showSlot _ _ _ _))

theorem sendDirect_branches (d : Direct) (s : State) : BranchesKept s (sendDirect d.pos.branch d s) := by
  have sent : ∀ u : State, BranchesKept u (sendCommand d.pos.branch (.direct d.pos d.display) 0 (countShow d.pos.branch (keepDirect d.pos.branch d.pos u))) :=
    fun u => ((keepDirect_branches d.pos u).trans (countShow_branches _ _)).trans
      (sendCommand_branches 0 (commandFits_other (by simp) (by simp)))
  unfold sendDirect; split
  · exact finishDirect_branches _ _ _
  · simp only; split
    · exact sent s
    · exact (sent _).after ((setSlot_only _ _).branchesKept (by decide))

theorem startPoll_branches (b : Branch) (isMissingTurn : Bool) (addr : Nat) (s : State) : BranchesKept s (startPoll b isMissingTurn addr s) := by
  refine BranchesKept.trans ?_ (sendCommand_branches _ (commandFits_other (by simp) (by simp)))
  refine onBranch_branches (b := b) (f := fun x => { x with
    shows := 0
    turn := (x.turn + 1) % 16
    lastAnswering := if isMissingTurn then x.lastAnswering else some addr
    lastMissing := if isMissingTurn then some addr else x.lastMissing
    lastTurn := some s.now }) (fun fits => { fits with counts := ⟨Nat.zero_le _, Nat.mod_lt _ (by decide)⟩ }) rfl

theorem pollTurn_branches (b : Branch) (s : State) : BranchesKept s (pollTurn b s) := by
  have poll : ∀ (o : Option Nat) (missing : Bool), BranchesKept s (o.elim s fun addr => startPoll b missing addr s) := by
    intro o missing
    cases o with
    | none => exact ⟨id⟩
    | some addr => exact startPoll_branches b missing addr s
  simp only [pollTurn]; split
  · split
    · exact ⟨id⟩
    · exact poll _ _
  · exact poll _ _

/-- The queue's slots that the arbiter passes over are marked, and the queue goes on after them (R158). -/
theorem passOver_branches {b : Branch} {rest : List SlotPos} (s : State) (hr : rest.Sublist (s.branch b).work) :
    BranchesKept s (onBranch b (fun x => { x with work := rest }) (markUnshown b ((s.branch b).work.takeWhile (s.branch b).passesOver) s)) := by
  refine .of_ok fun ok => ?_
  have queued := (ok.fits b).work
  exact (markUnshown_branches s (queued.sublist (List.takeWhile_sublist _))).trans
    (onBranch_branches (fun fits => { fits with work := queued.sublist hr }) rfl)

theorem arbitrate_branches (b : Branch) (s : State) : BranchesKept s (arbitrate b s) := by
  simp only [arbitrate]
  have free := clearCommand_branches b s
  revert free
  generalize clearCommand b s = u
  intro free
  refine free.trans (.of_ok fun ok => ?_)
  split
  · rename_i scan hscan
    have range := (ok.fits b).scan scan hscan
    split
    · refine BranchesKept.trans ?_ (sendCommand_branches 0 (commandFits_other (by simp) (by simp)))
      refine onBranch_branches (fun fits => { fits with scan := ?_, command := ?_ }) (by simp [hscan])
      · intro sc hsc; cases hsc; exact range
      · intro c hc
        obtain ⟨hident, hshow⟩ := fits.command c hc
        exact ⟨fun a ha => ⟨(hident a ha).1, (hident a ha).2.1, rfl⟩, hshow⟩
    · refine sendCommand_branches 0 ⟨fun a ha => ?_, by simp⟩
      cases ha
      exact ⟨range.1, range.2, by simp [hscan]⟩
  · split
    · rename_i d hd
      rw [← (ok.fits b).direct d hd]; exact sendDirect_branches d u
    · split
      · split
        · rename_i pos rest hrest
          refine (passOver_branches u ?_).trans (startShow_branches _ _)
          exact (List.sublist_cons_self _ _).trans (hrest ▸ List.dropWhile_sublist _)
        · exact (passOver_branches u (List.nil_sublist _)).trans (pollTurn_branches _ _)
      · exact pollTurn_branches _ _

/-! ## Line faults (R160) -/

theorem abandonCommand_branches (b : Branch) (c : Command) (taken : Bool) (s : State) : BranchesKept s (abandonCommand b c taken s) := by
  unfold abandonCommand; split
  · exact (clearCommand_branches _ _).trans (enqueueSlot_branches _ _)
  · exact (settleOwed_branches _ _ _ _).trans (clearCommand_branches _ _)
  · exact clearCommand_branches _ _
  · exact (clearCommand_branches _ _).trans (finishDirect_branches _ _ _)
  · exact clearCommand_branches _ _

theorem holdFault_branches (b : Branch) (on : Bool) (s : State) : BranchesKept s (onBranch b (fun x => { x with fault := on }) s) :=
  onBranch_branches (fun fits => { fits with }) rfl

theorem setFault_branches (b : Branch) (stillSending : Bool) (s : State) : BranchesKept s (setFault b stillSending s) := by
  have faulty : BranchesKept s (setFlag (branchFaultFlag b) (onBranch b (fun x => { x with fault := true }) s)) :=
    (holdFault_branches b true s).trans (branches_steady.setFlag _ _)
  have tail : ∀ u : State, BranchesKept u (finishDirect b .notOpen (noticeBranch b u)) := fun u =>
    (recomputeWhere_branches _ u).trans (finishDirect_branches _ _ _)
  simp only [setFault]; split
  · exact faulty.trans (tail _)
  · split
    · exact faulty.trans (tail _)
    · exact (faulty.trans (abandonCommand_branches _ _ _ _)).trans (tail _)

theorem clearFault_branches (b : Branch) (s : State) : BranchesKept s (clearFault b s) :=
  ((holdFault_branches b false s).trans ((clearFlag_only _ _).branchesKept (by decide))).trans (recomputeWhere_branches _ _)

/-! ## Requests to the branch controllers -/

theorem applyBranchScan_branches (r : Request) (s : State) : BranchesKept s (applyBranchScan r s).2 := by
  unfold applyBranchScan; split
  · exact ⟨id⟩
  · rename_i b _
    split
    · exact ⟨id⟩
    · have started := setScan_branches (b := b) (scan := some { darkFirst := false, next := 1, found := 0 }) (s := s)
        (by rintro sc ⟨⟩; decide) (.inr rfl)
      cases b <;> exact started

theorem serveLampDirect_branches (r : Request) (s : State) : BranchesKept s (serveLampDirect r s) := by
  unfold serveLampDirect; split
  · exact branches_steady.answer _ _ _
  · exact onBranch_branches (fun fits => { fits with direct := fun e he => by cases he; rfl }) rfl

/-! ## Resets and the parameters -/

theorem resetTo_branches (station : Nat) (cause : ResetCause) (lines : LineLevels) (s : State) :
    BranchesKept s (resetTo station cause lines s) := by
  have ok : BranchesOk (resetState station cause lines s) := ⟨branchReset_ok .l, branchReset_ok .r, rfl, rfl⟩
  have h : BranchesKept s (resetState station cause lines s) := ⟨fun _ => ok⟩
  exact h.trans ((followLines_only _ _).branchesKept (by decide))

theorem judgeModule_branches (b : Branch) (addr : Nat) (s : State) : BranchesKept s (judgeModule b addr s) := by
  unfold judgeModule; split
  · exact ⟨id⟩
  · rename_i m hm
    split
    · refine .of_ok fun ok => ?_
      have missing := markMissing_branches b s (ok.moduleFits hm)
      refine missing.trans ?_
      simp only; split
      · exact ⟨id⟩
      · rename_i c hc
        split
        · exact .of_ok fun lost => endCommand_branches (lost.commandFits (awaiting_some hc).1)
        · exact ⟨id⟩
    · exact ⟨id⟩

theorem applyMissChange_branches (old : Params) (s : State) : BranchesKept s (applyMissChange old s) := by
  unfold applyMissChange; split
  · exact ⟨id⟩
  · exact (branches_steady.foldl (fun t addr => judgeModule_branches .l addr t) _ s).trans
      (branches_steady.foldl (fun t addr => judgeModule_branches .r addr t) _ _)

theorem configEffects_branches (old : Params) (s : State) : BranchesKept s (configEffects old s) := by
  have linger : BranchesKept s (applyLingerChange old s) := by
    unfold applyLingerChange; split
    · exact judgeLinger_branches _ _
    · exact ⟨id⟩
  have combine : ∀ u : State, BranchesKept u (applyCombineChange old u) := by
    intro u; unfold applyCombineChange; split
    · exact ((rejudgeCombine_only u).branchesKept (by decide)).trans ((judgePacker_only _).branchesKept (by decide))
    · exact ⟨id⟩
  have silence : ∀ u : State, BranchesKept u (applySilenceChange old u) := by
    intro u
    have started := (startSilence_only old u).branchesKept (by decide)
    rw [applySilenceChange_eq]; split
    · exact started.trans (enterOrphaned_branches _)
    · exact started
  exact ((linger.trans (combine _)).trans (silence _)).trans (applyMissChange_branches _ _)

theorem applyConfigSet_branches (r : Request) (s : State) : BranchesKept s (applyConfigSet r s).2 := by
  cases h : badParameter r with
  | some index => unfold applyConfigSet; rw [h]; exact ⟨id⟩
  | none =>
    rw [applyConfigSet_passes s h]
    exact (configEffects_branches _ _).after ⟨id⟩

/-! ## Every command -/

theorem execIdentReply_branches {b : Branch} {bytes : Option (List Byte)} {s t : State} (h : execIdentReply b bytes s = .next t) :
    BranchesKept s t := by
  rcases execIdentReply_event h with rfl | ⟨c, addr, hc, hw, hb⟩
  · exact ⟨id⟩
  · refine .of_ok fun ok => ?_
    obtain ⟨h1, h48, hscan⟩ := (ok.commandFits hc).1 addr hw
    rcases hb with ⟨bs, hv, rfl⟩ | rfl
    · exact branches_steady.event_at (identAnswered_branches hv ⟨h1, h48⟩ (by simpa using hscan))
    · exact branches_steady.event_at (identUnanswered_branches (by simpa using hscan))

/-- A missed attempt of the command in progress, taken as an event. -/
theorem missEvent_branches {b : Branch} {c : Command} (drew : Bool) {s : State} (hc : (s.branch b).awaiting = some c) :
    BranchesKept s (event (missAttempt b c drew) s) :=
  .of_ok fun ok => branches_steady.event_at (missAttempt_branches drew (by simpa using ok.commandFits (awaiting_some hc).1))

theorem exec_branches (c : Instr) (s t : State) (h : exec c s = .next t) : BranchesKept s t := by
  have st := branches_steady
  cases c with
  | powerOn straps lines => rw [next_inj h]; exact st.event (fun u => resetTo_branches _ _ _ u) s
  | resetPin straps lines => rw [next_inj h]; exact st.event (fun u => resetTo_branches _ _ _ u) s
  | softReset lines =>
    rcases execSoftReset_event h with rfl | rfl
    · exact ⟨id⟩
    · exact st.event (resetTo_branches _ _ _) _
  | aisleReset lines =>
    rw [next_inj h]
    exact st.carryForward (fun r u _ _ => serveAisleReset_steady st (by decide) resetTo_branches lines r u) s
  | frameArrival p bytes =>
    have filled : BranchesKept s (fillBuffer p bytes s) := (fillBuffer_only p bytes s).branchesKept (by decide)
    rcases execFrameArrival_event h with rfl | rfl
    · exact filled.trans ((freeBuffer_only _ _).branchesKept (by decide))
    · exact filled.trans (st.event (fun u => (takeArrival_branches p u).trans ((freeBuffer_only _ _).branchesKept (by decide))) _)
  | mapLoad => rw [next_inj h]; exact st.carryAnswered applyMapLoad_branches s
  | mapRemove => rw [next_inj h]; exact st.carryAnswered applyMapRemove_branches s
  | areaLock => rw [next_inj h]; exact st.carryAnswered applyAreaLock_branches s
  | areaUnlock => rw [next_inj h]; exact st.carryAnswered applyAreaUnlock_branches s
  | configSet => rw [next_inj h]; exact st.carryAnswered applyConfigSet_branches s
  | pickerSet => rw [next_inj h]; exact st.carryAnswered applyPickerSet_branches s
  | pickerPause => rw [next_inj h]; exact st.carryAnswered (setPickerState_branches .paused) s
  | pickerResume => rw [next_inj h]; exact st.carryAnswered (setPickerState_branches .active) s
  | pickerLeave => rw [next_inj h]; exact st.carryAnswered applyPickerLeave_branches s
  | taskPost => rw [next_inj h]; exact st.carryAnswered applyTaskPost_branches s
  | taskCancel => rw [next_inj h]; exact st.carryAnswered applyTaskCancel_branches s
  | taskAmend => rw [next_inj h]; exact st.carryAnswered applyTaskAmend_branches s
  | branchScan => rw [next_inj h]; exact st.carryAnswered applyBranchScan_branches s
  | lampDirect => rw [next_inj h]; exact st.carryForward (fun r u _ _ => serveLampDirect_branches r u) s
  | confirmKey b =>
    rcases execConfirmKey_event h with rfl | ⟨k, rest, -, -, rfl⟩
    · exact ⟨id⟩
    · exact st.event (fun u => ((takeKey_only b _ u).branchesKept (by decide)).trans (takeConfirm_branches _ _)) _
  | adjustKey b =>
    rcases execAdjustKey_event h with rfl | ⟨k, rest, -, -, rfl⟩
    · exact ⟨id⟩
    · exact st.event (fun u => ((takeKey_only b _ u).branchesKept (by decide)).trans (takeAdjust_branches _ _)) _
  | silenceLimitExpiry =>
    rcases execSilenceLimitExpiry_event h with rfl | ⟨-, rfl⟩
    · exact ⟨id⟩
    · exact st.event enterOrphaned_branches _
  | rotationExpiry pos =>
    rcases execRotationExpiry_event h with rfl | ⟨x, -, -, -, rfl⟩
    · exact ⟨id⟩
    · exact st.event (rotationExpire_branches x) _
  | feedbackExpiry pos =>
    rcases execFeedbackExpiry_event h with rfl | ⟨x, -, rfl⟩
    · exact ⟨id⟩
    · exact st.event (fun u => ((setSlot_only u _).branchesKept (by decide)).trans (renewShadow_branches pos _)) _
  | lingerExpiry pos =>
    rcases execLingerExpiry_event h with rfl | ⟨x, -, -, -, rfl⟩
    · exact ⟨id⟩
    · exact st.event (lingerExpire_branches x) _
  | branchArbiter b =>
    rcases execBranchArbiter_event h with rfl | ⟨-, rfl⟩
    · exact ⟨id⟩
    · exact st.event (arbitrate_branches b) _
  | missingTurnSpacing b =>
    rcases execMissingTurnSpacing_event h with rfl | rfl
    · exact ⟨id⟩
    · exact st.event (arbitrate_branches b) _
  | showAcknowledge b bytes =>
    rcases execShowAcknowledge_event h with rfl | ⟨c, -, rfl⟩
    · exact ⟨id⟩
    · exact st.event (acknowledge_branches b c) _
  | pollReply b bytes =>
    rcases execPollReply_event h with rfl | ⟨addr, hv, rfl⟩
    · exact ⟨id⟩
    · exact st.event (fun u => takePollReply_branches u hv) _
  | identReply b bytes => exact execIdentReply_branches h
  | invalidReply b cutOff bytes =>
    rcases execInvalidReply_event h with rfl | ⟨c, hc, rfl⟩
    · exact ⟨id⟩
    · exact missEvent_branches true hc
  | replyTimeout b =>
    rcases execReplyTimeout_event h with rfl | ⟨c, hc, rfl⟩
    · exact ⟨id⟩
    · exact missEvent_branches false hc
  | branchFaultSet b stillSending =>
    rcases execBranchFaultSet_event h with rfl | rfl
    · exact ⟨id⟩
    · exact st.event (setFault_branches b stillSending) _
  | branchFaultClear b =>
    rcases execBranchFaultClear_event h with rfl | rfl
    · exact ⟨id⟩
    · exact st.event (clearFault_branches b) _
  | lineDown p => exact (execLineDown_only h).branchesKept (by decide)
  | lineUp p => exact (execLineUp_only h).branchesKept (by decide)
  | transmissionEnd p => exact (execTransmissionEnd_only h).branchesKept (by decide)
  | roomNoticeBuild => exact (execRoomNoticeBuild_only h).branchesKept (by decide)
  | combineExpiry => exact (execCombineExpiry_only h).branchesKept (by decide)
  | rightsSet => exact (execRightsSet_only h).branchesKept (by decide)
  | taskQuery => exact (execTaskQuery_only h).branchesKept (by decide)
  | pickerRead => exact (execPickerRead_only h).branchesKept (by decide)
  | mapRead => exact (execMapRead_only h).branchesKept (by decide)
  | configRead => exact (execConfigRead_only h).branchesKept (by decide)
  | timeSet => exact (execTimeSet_only h).branchesKept (by decide)
  | counterSet => exact (execCounterSet_only h).branchesKept (by decide)
  | counterRead => exact (execCounterRead_only h).branchesKept (by decide)
  | attentionMask => exact (execAttentionMask_only h).branchesKept (by decide)
  | attentionClear => exact (execAttentionClear_only h).branchesKept (by decide)
  | attentionRead => exact (execAttentionRead_only h).branchesKept (by decide)
  | statusRead => exact (execStatusRead_only h).branchesKept (by decide)
  | rosterRead => exact (execRosterRead_only h).branchesKept (by decide)
  | aisleClockAdvance => exact (execAisleClockAdvance_only h).branchesKept (by decide)

theorem step_branches {s t : State} (h : step s = .next t) : BranchesKept s t := by
  unfold step at h
  split at h
  · rw [next_inj h]; exact (tick_only s).branchesKept (by decide)
  · rename_i c rest _
    have wait : OnlyChanges [.waiting] s { s with pending := rest } := by intro p; cases p <;> simp [Keeps]
    exact (wait.branchesKept (by decide)).trans (exec_branches c _ t h)

/-- Settles O59: every command leaves each branch controller in order, those that change one included. -/
theorem everyStepKeepsBranches : Obligations.EveryStepKeepsBranches := fun _ _ ok h => (step_branches h).ok ok

end Sys2Proof.Machine

/-!
PROOFS. What a recomputation does while the aisle is ORPHANED, and the silence limit's expiry (O36).
-/

namespace Sys2Proof.Machine

open Sys2Proof

/-! ## A location of an ORPHANED aisle (R118) -/

/-- Every group of a location is HELD and does not linger. -/
def GroupsHeld (code : Nat) (t : State) : Prop := ∀ g ∈ t.groups, g.loc = code → g.state = .held ∧ g.linger = false

/-- A slot shows no group: its set is empty, it has no position, and its rotation timer does not run. -/
def ShowsNone (pos : SlotPos) (t : State) : Prop :=
  ∃ y, t.slotAt pos = some y ∧ y.rotation = [] ∧ y.position = none ∧ y.rotTimer = none

theorem eligible_orphaned {s : State} (ho : s.orphaned = true) (e : MapEntry) (g : Group) : s.eligible e g = false := by
  simp [State.eligible, ho]

theorem rotationIds_orphaned {s : State} (ho : s.orphaned = true) (e : MapEntry) : s.rotationIds e = [] := by
  have : (s.queueOf e.code).filter (s.eligible e) = [] := List.filter_eq_nil_iff.2 fun g _ => by simp [eligible_orphaned ho]
  rw [State.rotationIds, this]; rfl

/-- In an ORPHANED aisle a recomputation holds the location's groups. -/
theorem settledAt_orphaned {s : State} (ho : s.orphaned = true) (e : MapEntry) {g : Group} (hg : (settledAt e s g).loc = e.code) :
    (settledAt e s g).state = .held ∧ (settledAt e s g).linger = false := by
  rw [(settledAt_place e s g).2.2] at hg
  simp [settledAt, hg, settleGroup, rotationIds_orphaned ho, eligible_orphaned ho]

theorem recompute_orphaned {s : State} (ho : s.orphaned = true) (e : MapEntry) : (recompute e s).orphaned = true :=
  Eq.trans ((recompute_only e s).keeps (p := .orphaned) (by decide)) ho

theorem recompute_holds {e : MapEntry} {s : State} (ho : s.orphaned = true) (hx : (s.slotAt e.pos).isSome = true) :
    GroupsHeld e.code (recompute e s) := by
  obtain ⟨x, hx⟩ := Option.isSome_iff_exists.1 hx
  intro g hg hloc
  rw [(recompute_slotAt hx).1] at hg
  obtain ⟨k, -, rfl⟩ := List.mem_map.1 hg
  exact settledAt_orphaned ho e hloc

/-- A recomputation stops the rotation timer of a set with fewer than two groups (R104). -/
theorem recompute_timer {e : MapEntry} {s : State} {x : SlotState} (h : s.slotAt e.pos = some x) :
    ∃ u y, recompute e s = renewShadow e.pos (State.setSlot u y) ∧ (u.slotAt e.pos).isSome = true ∧ y.pos = e.pos
      ∧ y.rotation = s.rotationIds e ∧ y.position = settlePosition (s.rotationIds e) x.position
      ∧ ((s.rotationIds e).length < 2 → y.rotTimer = none) := by
  have hp := slotAt_pos h
  have some := congrArg Option.isSome h
  unfold recompute
  rw [h]
  exact ⟨_, _, rfl, some, hp, rfl, rfl, fun hl => if_pos hl⟩

theorem recompute_showsNone {e : MapEntry} {s : State} (ho : s.orphaned = true) (hx : (s.slotAt e.pos).isSome = true) :
    ShowsNone e.pos (recompute e s) := by
  obtain ⟨x, hx⟩ := Option.isSome_iff_exists.1 hx
  obtain ⟨u, y, heq, hu, hp, hrot, hpos, htimer⟩ := recompute_timer hx
  rw [rotationIds_orphaned ho] at hrot hpos htimer
  have hset : (u.setSlot y).slotAt e.pos = some y := hp ▸ setSlot_slotAt (hp ▸ hu)
  rw [heq]
  refine ⟨_, (renewShadow_slotAt hset).1, hrot, hpos.trans ?_, htimer (by simp)⟩
  cases x.position <;> rfl

/-- What an ORPHANED aisle's recomputation of one location has done, that of another or of the same again leaves. -/
theorem GroupsHeld.recompute {code : Nat} {s : State} (h : GroupsHeld code s) (ho : s.orphaned = true) (d : MapEntry) :
    GroupsHeld code (recompute d s) := by
  cases hx : s.slotAt d.pos with
  | none => rw [recompute_unmapped hx]; exact h
  | some x =>
    intro g hg hloc
    rw [(recompute_slotAt hx).1] at hg
    obtain ⟨k, hk, rfl⟩ := List.mem_map.1 hg
    by_cases hd : k.loc = d.code
    · exact settledAt_orphaned ho d ((settledAt_place d s k).2.2.trans hd)
    · rw [settledAt, if_neg hd] at hloc ⊢
      exact h k hk hloc

theorem ShowsNone.recompute {pos : SlotPos} {s : State} (h : ShowsNone pos s) (ho : s.orphaned = true) (d : MapEntry) :
    ShowsNone pos (recompute d s) := by
  obtain ⟨y, hy, hrest⟩ := h
  by_cases hd : d.pos = pos
  · subst hd; exact recompute_showsNone ho (by rw [hy]; rfl)
  · exact ⟨y, by rw [recompute_slotAt_other d s hd]; exact hy, hrest⟩

/-- Recomputing a list of locations of an ORPHANED aisle keeps what is held and shows none. -/
theorem foldl_recompute_keeps {P : State → Prop} (hP : ∀ u d, P u → u.orphaned = true → P (recompute d u)) (es : List MapEntry) :
    ∀ s : State, s.orphaned = true → P s → P (es.foldl (fun t e => recompute e t) s) := by
  induction es with
  | nil => exact fun _ _ h => h
  | cons d ds ih => exact fun s ho h => ih _ (recompute_orphaned ho d) (hP s d h ho)

/-- After the locations of a list are recomputed in an ORPHANED aisle, each of them holds its groups and shows none. -/
theorem foldl_recompute_orphaned {es : List MapEntry} {e : MapEntry} (he : e ∈ es) :
    ∀ s : State, s.orphaned = true → (s.slotAt e.pos).isSome = true →
      GroupsHeld e.code (es.foldl (fun t e => recompute e t) s) ∧ ShowsNone e.pos (es.foldl (fun t e => recompute e t) s) := by
  induction es with
  | nil => cases he
  | cons d ds ih =>
    intro s ho hx
    rcases List.mem_cons.1 he with rfl | he
    · exact ⟨foldl_recompute_keeps (fun u d h hu => h.recompute hu d) ds _ (recompute_orphaned ho e) (recompute_holds ho hx),
        foldl_recompute_keeps (fun u d h hu => h.recompute hu d) ds _ (recompute_orphaned ho e) (recompute_showsNone ho hx)⟩
    · exact ih he _ (recompute_orphaned ho d) (by rw [recompute_isSome]; exact hx)

/-! ## The aisle becomes ORPHANED (R35, R36) -/

theorem enterOrphaned_flags (s : State) :
    (enterOrphaned s).orphaned = true ∧ (enterOrphaned s).flagSet .orphaned = true ∧ FlagsKept [.orphaned] s (enterOrphaned s) := by
  have h := recomputeAll_only (setFlag .orphaned { s with orphaned := true })
  have hf := h.flagsKept (by decide) []
  refine ⟨?_, ?_, ?_⟩
  · have h1 := (setFlag_only .orphaned { s with orphaned := true }).keeps (p := .orphaned) (by decide)
    exact Eq.trans (h.keeps (p := .orphaned) (by decide)) h1
  · refine (hf.ordinary (by simp [Flag.ordinary]) (by simp)).trans ?_
    simp
  · have h0 : FlagsKept [.orphaned] s { s with orphaned := true } := fun _ _ _ _ => rfl
    exact (h0.trans (setFlag_kept _ _)).trans (hf.mono (by decide))

/-- Every location with open groups holds them and shows none (R118). -/
theorem enterOrphaned_holds {e : MapEntry} {s : State} (he : e ∈ s.locMap) (hg : ∃ g ∈ s.groups, g.loc = e.code)
    (hx : (s.slotAt e.pos).isSome = true) : GroupsHeld e.code (enterOrphaned s) ∧ ShowsNone e.pos (enterOrphaned s) := by
  have hs := setFlag_only .orphaned { s with orphaned := true }
  have hmap : (setFlag .orphaned { s with orphaned := true }).locMap = s.locMap := hs.keeps (p := .locations) (by decide)
  have hgroups : (setFlag .orphaned { s with orphaned := true }).groups = s.groups := hs.keeps (p := .groups) (by decide)
  have hslots : (setFlag .orphaned { s with orphaned := true }).slots = s.slots := hs.keeps (p := .slots) (by decide)
  refine foldl_recompute_orphaned (List.mem_filter.2 ⟨by rw [hmap]; exact he, ?_⟩) _ (hs.keeps (p := .orphaned) (by decide)) ?_
  · exact (hasGroups_iff _ _).2 (by rw [hgroups]; exact hg)
  · unfold State.slotAt; rw [hslots]; exact hx

theorem silenceDue_iff (s : State) : s.silenceDue = true ↔
    s.params.silence ≠ 0 ∧ s.orphaned = false ∧ s.silenceSince + s.params.silence * 16000000 ≤ s.now := by
  have : s.params.silence * 1000 * 16000 = s.params.silence * 16000000 := by omega
  simp [State.silenceDue, periods, Config.periodsPerMs, this, and_assoc]

/-- Settles O36: no group of an ORPHANED aisle is eligible, so each recomputed set is empty. -/
theorem silenceLimitOrphans : Obligations.SilenceLimitOrphans := by
  intro s h0 ho hd
  have hex : exec .silenceLimitExpiry s = .next (event enterOrphaned s) := if_pos ((silenceDue_iff s).2 ⟨h0, ho, hd⟩)
  have hend := endEvent_only (enterOrphaned (beginEvent s))
  have hflags := endEvent_kept (enterOrphaned (beginEvent s))
  obtain ⟨horph, hset, hkept⟩ := enterOrphaned_flags (beginEvent s)
  have hbegin : FlagsKept [.orphaned] s (beginEvent s) := fun _ _ _ _ => rfl
  refine ⟨_, hex, Eq.trans (hend.keeps (p := .orphaned) (by decide)) horph,
    (hflags.ordinary (by simp [Flag.ordinary]) (by simp)).trans hset, (hbegin.trans hkept).trans (hflags.mono (by simp)),
    fun e he hg hx => ?_, execSilenceLimitExpiry_only hex⟩
  have hgroups : (event enterOrphaned s).groups = (enterOrphaned (beginEvent s)).groups := hend.keeps (p := .groups) (by decide)
  have hslots : (event enterOrphaned s).slots = (enterOrphaned (beginEvent s)).slots := hend.keeps (p := .slots) (by decide)
  obtain ⟨held, shows⟩ := enterOrphaned_holds (s := beginEvent s) he hg hx
  unfold State.slotAt; rw [hgroups, hslots]
  exact ⟨held, shows⟩

end Sys2Proof.Machine

/-!
PROOFS. Requests answered at once: the plain reads (O22), RIGHTS_SET (O19), the two requests to the branch controllers (O35), and the
requests that bring tasks (O31).
-/

namespace Sys2Proof.Machine

open Sys2Proof

/-! ## The plain reads (R33, R37, R184, R188) -/

theorem counterRead_rest (r : Request) (s : State) : (applyCounterRead r s).1.rest = [CounterNo.c0, .c1, .c2, .c3].flatMap fun k =>
    beBytes 3 (s.counters.get k).count.toNat ++ [selectionCode (s.counters.get k).selection, (s.counters.get k).mask] := by
  simp [applyCounterRead, Answer.ok, Counter.body, Counters.get]

/-- Settles O22: each read answers with the state as it stands when it is taken. -/
theorem plainReadsReturnState : Obligations.PlainReadsReturnState := by
  refine fun r s => ⟨fun hc => ⟨_, rfl, ?_⟩, fun hc => ⟨_, rfl, ?_⟩, fun hc => ⟨_, rfl, ?_⟩, fun hc => ⟨_, rfl, ?_⟩⟩
  · exact carryForward_reads (apply := applyConfigRead) hc rfl
  · exact carryForward_reads (apply := applyStatusRead) hc rfl
  · have h := carryForward_reads (apply := applyCounterRead) hc rfl
    rw [counterRead_rest] at h; exact h
  · exact carryForward_reads (apply := applyAttentionRead) hc rfl

/-! ## RIGHTS_SET (R29) -/

theorem checkRights_good {e : Nat × Nat} {seen : List Nat} (hg : GoodRight e) (hs : e.1 ∉ seen) (n : Nat) (rest : List (Nat × Nat)) :
    checkRights n seen (e :: rest) = checkRights (n + 1) (seen ++ [e.1]) rest := by
  obtain ⟨station, rights⟩ := e
  have := (goodRight_iff (station, rights)).1 hg
  simp only [checkRights, this, Bool.false_eq_true, if_false]
  rw [if_neg (by simpa using hs)]

theorem checkRights_badField {e : Nat × Nat} (hg : ¬ GoodRight e) (n : Nat) (seen : List Nat) (rest : List (Nat × Nat)) :
    checkRights n seen (e :: rest) = some (Answer.refuseAt .badField n) := by
  obtain ⟨station, rights⟩ := e
  have : (!isSupervisor station || decide (16 ≤ rights)) = true := by
    by_contra hb
    exact hg ((goodRight_iff _).2 (eq_false_of_ne_true hb))
  simp only [checkRights, this, if_true]

theorem checkRights_duplicate {e : Nat × Nat} {seen : List Nat} (hg : GoodRight e) (hs : e.1 ∈ seen) (n : Nat) (rest : List (Nat × Nat)) :
    checkRights n seen (e :: rest) = some (Answer.refuseAt .duplicate n) := by
  obtain ⟨station, rights⟩ := e
  have := (goodRight_iff (station, rights)).1 hg
  simp only [checkRights, this, Bool.false_eq_true, if_false]
  rw [if_pos (by simpa using hs)]

/-- The check passes over good entries that name distinct stations and judges the rest from there. -/
theorem checkRights_append (rest : List (Nat × Nat)) (xs : List (Nat × Nat)) : ∀ (n : Nat) (seen : List Nat), (∀ e ∈ xs, GoodRight e) →
    (xs.map (·.1)).Nodup → (∀ e ∈ xs, e.1 ∉ seen) →
    checkRights n seen (xs ++ rest) = checkRights (n + xs.length) (seen ++ xs.map (·.1)) rest := by
  induction xs with
  | nil => intro n seen _ _ _; simp
  | cons x xs ih =>
    intro n seen hgood hnd hnew
    obtain ⟨hx, hxs⟩ := List.nodup_cons.1 hnd
    rw [List.cons_append, checkRights_good (hgood x (by simp)) (hnew x (by simp)), ih _ _ (fun e he => hgood e (by simp [he])) hxs fun e he => ?_]
    · simp [Nat.add_comm, Nat.add_left_comm]
    · have hne : e.1 ≠ x.1 := fun h => hx (List.mem_map.2 ⟨e, he, h⟩)
      simp [hnew e (by simp [he]), hne]

/-- The check of a list whose first `i` entries pass is that of its entry `i`. -/
theorem checkRights_at {items : List (Nat × Nat)} {i : Nat} {e : Nat × Nat} (he : items[i]? = some e)
    (hgood : ∀ d ∈ items.take i, GoodRight d) (hnd : ((items.take i).map (·.1)).Nodup) :
    checkRights 1 [] items = checkRights (i + 1) ((items.take i).map (·.1)) (e :: items.drop (i + 1)) := by
  obtain ⟨hi, rfl⟩ := List.getElem?_eq_some_iff.1 he
  have split : items = items.take i ++ items[i] :: items.drop (i + 1) := by simp
  have len : (items.take i).length = i := by simp; omega
  conv_lhs => rw [split]
  rw [checkRights_append _ _ 1 [] hgood hnd (by simp), len, List.nil_append, Nat.add_comm]

/-- A RIGHTS_SET that its check refuses is answered so, and changes nothing. -/
theorem rightsSet_refused {r : Request} {s : State} {a : Answer} (hc : Carried .rightsSet r s) (h : checkRights 1 [] r.rightsItems = some a) :
    ∃ t, exec .rightsSet s = .next t ∧ Answered [] r a.code a.rest s t := by
  have hap : applyRightsSet r (taken s) = (a, taken s) := by unfold applyRightsSet; rw [h]
  have hans := carryForward_reads (apply := applyRightsSet) hc (by rw [hap])
  rw [hap] at hans
  exact ⟨_, rfl, hans⟩

/-- Settles O19: the check passes over the entries before the first that fails, and judges that one. -/
theorem rightsSetWholeOrNothing : Obligations.RightsSetWholeOrNothing := by
  intro r s hc items good
  refine ⟨fun hgood hnd => ?_, fun i e he hgood hnd => ⟨fun hbad => ?_, fun hok hdup => ?_⟩⟩
  · have hpass : checkRights 1 [] r.rightsItems = none := (checkRights_none _ _ _).2 ⟨hgood, hnd, by simp⟩
    have hap : applyRightsSet r (taken s) = (Answer.ok [], { taken s with
        rights := r.rightsItems.map fun e => { station := e.1, rights := BitVec.ofNat 4 e.2 } }) := by
      unfold applyRightsSet; rw [hpass]
    obtain ⟨hans, hend⟩ := carryForward_answers (ps := [.rights]) (apply := applyRightsSet) hc
      (by rw [hap]; intro p; cases p <;> simp [Keeps]) (by decide) (by rw [hap]; rfl)
    rw [hap] at hans hend
    exact ⟨_, rfl, hend.keeps (p := .rights) (by decide), hans⟩
  · exact rightsSet_refused hc ((checkRights_at he hgood hnd).trans (checkRights_badField hbad _ _ _))
  · exact rightsSet_refused hc ((checkRights_at he hgood hnd).trans (checkRights_duplicate hok hdup _ _))

/-! ## BRANCH_SCAN (R161) -/

@[simp] theorem taken_branch (s : State) (b : Branch) : (taken s).branch b = s.branch b := by cases b <;> rfl

@[simp] theorem taken_scanning (s : State) (b : Branch) : (taken s).scanning b = s.scanning b := by cases b <;> rfl

theorem OnlyChanges.scanning_eq {ps : List Part} {s t : State} (h : OnlyChanges ps s t) (hp : Part.scanning ∉ ps) (b : Branch) :
    t.scanning b = s.scanning b := by
  obtain ⟨hl, hr⟩ := h.keeps (p := .scanning) hp
  cases b
  · exact hl
  · exact hr

theorem branch_of_code {r : Request} {b : Branch} (h : r.field 0 1 = (branchCode b).toNat) : r.branch = some b := by
  unfold Request.branch; rw [h]; cases b <;> rfl

theorem branch_out_of_range {r : Request} (h : 1 < r.field 0 1) : r.branch = none := by
  unfold Request.branch
  obtain ⟨n, hn⟩ : ∃ n, r.field 0 1 = n + 2 := ⟨r.field 0 1 - 2, by omega⟩
  rw [hn]; rfl

/-- The state once a scan of a branch has been asked for and is held as in progress (R37, R161). -/
def scanAsked (b : Branch) (s : State) : State :=
  (onBranch b (fun x => { x with scan := some { darkFirst := false, next := 1, found := 0 } }) s).setScanning b true

theorem scanAsked_only (b : Branch) (s : State) : OnlyChanges [.scans, .scanning] s (scanAsked b s) :=
  OnlyChanges.trans (onBranch_only fun x => by simp) ((setScanning_only _ _ _).mono (by decide))

theorem scanAsked_own (b : Branch) (s : State) : (scanAsked b s).scanning b = true
    ∧ ((scanAsked b s).branch b).scan = some { darkFirst := false, next := 1, found := 0 } := by
  cases b <;> exact ⟨rfl, rfl⟩

theorem scanAsked_other {b c : Branch} (h : c ≠ b) (s : State) : (scanAsked b s).scanning c = s.scanning c
    ∧ ((scanAsked b s).branch c).scan = (s.branch c).scan := by
  match b, c, h with
  | .l, .r, _ => exact ⟨rfl, rfl⟩
  | .r, .l, _ => exact ⟨rfl, rfl⟩

/-- A free branch takes the request for a scan (R161). -/
theorem branchScan_taken {r : Request} {s : State} {b : Branch} (hc : Carried .branchScan r s) (hb : r.branch = some b)
    (hs : s.scanning b = false) : ∃ t, exec .branchScan s = .next t ∧ t.scanning b = true
      ∧ (t.branch b).scan = some { darkFirst := false, next := 1, found := 0 }
      ∧ (∀ c, c ≠ b → t.scanning c = s.scanning c ∧ (t.branch c).scan = (s.branch c).scan)
      ∧ Answered [.scans, .scanning] r .ok [] s t := by
  have hap : applyBranchScan r (taken s) = (Answer.ok [], scanAsked b (taken s)) := by
    unfold applyBranchScan; rw [hb]; simp only [taken_scanning, hs, Bool.false_eq_true, if_false]; rfl
  obtain ⟨hans, hend⟩ := carryForward_answers (ps := [.scans, .scanning]) (apply := applyBranchScan) hc
    (by rw [hap]; exact scanAsked_only b _) (by decide) (by
      rw [hap]; exact congrArg Params.hops ((scanAsked_only b (taken s)).keeps (p := .params) (by decide)))
  rw [hap] at hans hend
  obtain ⟨own, scan⟩ := scanAsked_own b (taken s)
  refine ⟨_, rfl, (hend.scanning_eq (by decide) b).trans own, (hend.scan_eq (by decide) b).trans scan, fun c hne => ?_, hans⟩
  obtain ⟨on, sc⟩ := scanAsked_other hne (taken s)
  rw [taken_scanning] at on
  rw [taken_branch] at sc
  exact ⟨(hend.scanning_eq (by decide) c).trans on, (hend.scan_eq (by decide) c).trans sc⟩

/-- A request for a scan that is refused changes nothing. -/
theorem branchScan_refused {r : Request} {s : State} {code : ReplyCode} (hc : Carried .branchScan r s)
    (hap : applyBranchScan r (taken s) = (Answer.refuse code, taken s)) :
    ∃ t, exec .branchScan s = .next t ∧ Answered [] r code [] s t := by
  have hans := carryForward_reads (apply := applyBranchScan) hc (by rw [hap])
  rw [hap] at hans
  exact ⟨_, rfl, hans⟩

/-! ## LAMP_DIRECT (R165) -/

theorem judgeDirect_taken (r : Request) (s : State) : judgeDirect r (taken s) = judgeDirect r s := by
  unfold judgeDirect; simp only [taken_branch]; rfl

/-- A LAMP_DIRECT that its checks refuse is answered at once and changes nothing. -/
theorem lampDirect_refused {r : Request} {s : State} {code : ReplyCode} (hc : Carried .lampDirect r s) (h : judgeDirect r s = .error code) :
    ∃ t, exec .lampDirect s = .next t ∧ Answered [] r code [] s t := by
  refine ⟨_, rfl, ?_⟩
  have hserve : serveLampDirect r (taken s) = answered (fun _ t => (Answer.refuse code, t)) r (taken s) := by
    unfold serveLampDirect; rw [judgeDirect_taken, h]; rfl
  rw [carryForward_carried _ hc, hserve]
  exact (endEvent_answers (apply := fun _ t => (Answer.refuse code, t)) (onlyChanges_refl _ _) (by simp) rfl).1

/-- A LAMP_DIRECT that passes is held as its branch's pending direct command, without a reply yet (R31). -/
theorem lampDirect_held {r : Request} {s : State} {d : Direct} (hc : Carried .lampDirect r s) (h : judgeDirect r s = .ok d) :
    ∃ t, exec .lampDirect s = .next t ∧ t.admitted = s.admitted.tail ∧ (t.branch d.pos.branch).direct = some d
      ∧ (∀ c, c ≠ d.pos.branch → (t.branch c).direct = (s.branch c).direct) ∧ OnlyChanges [.admitted, .directs, .notes] s t := by
  have hserve : serveLampDirect r (taken s) = onBranch d.pos.branch (fun x => { x with direct := some d }) (taken s) := by
    unfold serveLampDirect; rw [judgeDirect_taken, h]
  have held : OnlyChanges [.directs] (taken s) (onBranch d.pos.branch (fun x => { x with direct := some d }) (taken s)) :=
    onBranch_only fun x => by simp
  have quiet : (serveLampDirect r (taken s)).notes = EventNotes.empty := by
    rw [hserve]; exact held.keeps (p := .notes) (by decide)
  refine ⟨_, rfl, ?_⟩
  rw [carryForward_carried _ hc, endEvent_quiet quiet, hserve]
  refine ⟨held.keeps (p := .admitted) (by decide), by rw [onBranch_branch], fun c hne => ?_,
    ((taken_only s).mono (by decide)).trans (held.mono (by decide))⟩
  rw [(onBranch_otherKept d.pos.branch _ (taken s) c hne).1, taken_branch]

theorem elim_false_iff {α : Type} (o : Option α) (f : α → Bool) : o.elim false f = true ↔ ∃ a, o = some a ∧ f a = true := by
  cases o <;> simp

/-- A LAMP_DIRECT with a field out of range names nothing (R165). -/
theorem direct_out_of_range {r : Request}
    (h : branchOfCode (r.field 0 1) = none ∨ r.field 1 1 = 0 ∨ 48 < r.field 1 1 ∨ r.field 2 1 = 0 ∨ 4 < r.field 2 1
      ∨ Colour.ofCode (r.field 3 1) = none ∨ Pattern.ofCode (r.field 4 1) = none ∨ Digits.ofCode (r.field 5 2) = none) : r.direct = none := by
  unfold Request.direct
  split
  · rename_i b d hb hd
    refine if_pos ?_
    by_contra hr
    simp only [Request.display, Option.bind_eq_bind, Option.bind_eq_some_iff] at hd
    obtain ⟨colour, hcol, pattern, hpat, digits, hdig, -⟩ := hd
    simp only [Request.branch] at hb
    simp only [Request.moduleAddress, Request.slotNumber] at hr
    simp only [hb, hcol, hpat, hdig, reduceCtorEq, false_or, or_false] at h
    omega
  · rfl

/-- What LAMP_DIRECT names where its fields are in range (R165). -/
theorem direct_in_range {r : Request} {b : Branch} {colour : Colour} {pattern : Pattern} {digits : Digits}
    (hb : branchOfCode (r.field 0 1) = some b) (ha : 1 ≤ r.field 1 1 ∧ r.field 1 1 ≤ 48) (hs : 1 ≤ r.field 2 1 ∧ r.field 2 1 ≤ 4)
    (hc : Colour.ofCode (r.field 3 1) = some colour) (hp : Pattern.ofCode (r.field 4 1) = some pattern)
    (hd : Digits.ofCode (r.field 5 2) = some digits) :
    r.direct = some { pos := { branch := b, addr := r.field 1 1, slot := r.field 2 1 },
                      display := { colour := colour, pattern := pattern, digits := digits }, request := r } := by
  have hdisplay : r.display = some { colour := colour, pattern := pattern, digits := digits } := by simp [Request.display, hc, hp, hd]
  unfold Request.direct
  rw [show r.branch = some b from hb, hdisplay]
  refine if_neg ?_
  simp only [Request.moduleAddress, Request.slotNumber]
  omega

/-- The checks of a LAMP_DIRECT whose fields are in range, in order (R165). -/
theorem judgeDirect_eq {r : Request} {d : Direct} (s : State) (h : r.direct = some d) : judgeDirect r s =
    if ((s.branch d.pos.branch).moduleAt d.pos.addr).elim false fun m => m.slots < d.pos.slot then .error .badField
    else if (s.entryAt d.pos).elim false fun e => s.hasGroups e.code then .error .inUse
    else if (s.branch d.pos.branch).direct.isSome then .error .busy
    else if (s.branch d.pos.branch).fault then .error .notOpen
    else .ok d := by
  unfold judgeDirect; rw [h]

/-- Settles O35: each check is a branch of the two requests' own definitions. -/
theorem branchRequestsTaken : Obligations.BranchRequestsTaken := by
  intro r s
  refine ⟨fun hc => ⟨fun b hb hs => branchScan_taken hc (branch_of_code hb) hs, fun b hb hs => branchScan_refused hc ?_,
    fun hb => branchScan_refused hc ?_⟩, fun hc => ⟨fun hbad => lampDirect_refused hc ?_, ?_⟩⟩
  · unfold applyBranchScan; rw [branch_of_code hb]; simp [hs]
  · unfold applyBranchScan; rw [branch_out_of_range hb]
  · unfold judgeDirect; rw [direct_out_of_range hbad]
  · intro b colour pattern digits hb h1 h48 h1' h4 hcol hpat hdig pos tooSmall occupied
    have hd := direct_in_range hb ⟨h1, h48⟩ ⟨h1', h4⟩ hcol hpat hdig
    have small : ((s.branch b).moduleAt pos.addr).elim false (fun m => decide (m.slots < pos.slot)) = true ↔ tooSmall := by
      rw [elim_false_iff]; simp [tooSmall]
    have inUse : (s.entryAt pos).elim false (fun e => s.hasGroups e.code) = true ↔ occupied := by
      rw [elim_false_iff]; simp [occupied, hasGroups_iff]
    refine ⟨fun hsm => lampDirect_refused hc ?_, fun hsm hoc => lampDirect_refused hc ?_, fun hsm hoc hdir => lampDirect_refused hc ?_,
      fun hsm hoc hdir hf => lampDirect_refused hc ?_, fun hsm hoc hdir hf => lampDirect_held (d := ⟨pos, ⟨colour, pattern, digits⟩, r⟩) hc ?_⟩
    · rw [judgeDirect_eq s hd, if_pos (small.2 hsm)]
    · rw [judgeDirect_eq s hd, if_neg (mt small.1 hsm), if_pos (inUse.2 hoc)]
    · rw [judgeDirect_eq s hd, if_neg (mt small.1 hsm), if_neg (mt inUse.1 hoc), if_pos (Option.isSome_iff_ne_none.2 hdir)]
    · rw [judgeDirect_eq s hd, if_neg (mt small.1 hsm), if_neg (mt inUse.1 hoc), if_neg (by simp [hdir]), if_pos hf]
    · rw [judgeDirect_eq s hd, if_neg (mt small.1 hsm), if_neg (mt inUse.1 hoc), if_neg (by simp [hdir]), if_neg (by simp [hf])]

end Sys2Proof.Machine

/-!
PROOFS. Replies sent at the end of an event that may report more, and the requests that bring or take tasks (O31).
-/

namespace Sys2Proof.Machine

open Sys2Proof

/-! ## Frames of the station's own -/

/-- From `s` to `t` the relay's lines and station number stay, and the frames that enter the store are the station's own. -/
structure SendsOwn (s t : State) : Prop where
  lines : Keeps .lines s t
  station : t.station = s.station
  own : Originated s t

theorem RelayQuiet.sendsOwn {s t : State} (h : RelayQuiet s t) : SendsOwn s t := ⟨h.lines, h.station, h.onlyReports.1⟩

theorem SendsOwn.trans {s t u : State} (h : SendsOwn s t) (k : SendsOwn t u) : SendsOwn s u :=
  ⟨⟨k.lines.1.trans h.lines.1, k.lines.2.trans h.lines.2⟩, k.station.trans h.station, h.own.trans h.lines h.station k.own⟩

theorem originate_sendsOwn (dest : Nat) (kind : Byte) (express : Bool) (requester : Requester) (payload : List Byte) (s : State) :
    SendsOwn s (originate dest kind express requester payload s).2 := by
  have frame := originate_only dest kind express requester payload s
  refine ⟨frame.keeps (by decide), frame.keeps (p := .station) (by decide), ?_⟩
  have same : Originated s s := ((onlyChanges_refl [] s).relayQuiet (by simp)).onlyReports.1
  rcases originate_cases dest kind express requester payload s with ⟨e, -⟩ | ⟨e, -⟩ | ⟨t, e, -⟩
  · rw [e]; exact same
  · rw [e]; exact same
  · rw [e]; exact (originate_sends e).1

/-- What is sent on the way from one state to another is steady: it reads what the relay sees. -/
theorem sendsOwn_steady : Steady relayView SendsOwn where
  only h hp := (h.relayQuiet hp).sendsOwn
  trans h k := h.trans k
  sends := originate_sendsOwn
  away := by decide

theorem RelayQuiet.upPorts {s u : State} (h : RelayQuiet s u) : u.upPorts = s.upPorts := by
  simp only [State.upPorts, h.lines.1, h.lines.2]

theorem RelayQuiet.takes {s u : State} (h : RelayQuiet s u) (n : Nat) : RelayTakes n u ↔ RelayTakes n s := by
  unfold RelayTakes
  rw [h.station, h.lines.1, h.lines.2, h.store.1]

theorem RelayQuiet.ownFrame {s u : State} (h : RelayQuiet s u) (hops : u.params.hops = s.params.hops) (dest : Nat) (kind : Byte)
    (express : Bool) (payload : List Byte) : u.ownFrame dest kind express payload = s.ownFrame dest kind express payload := by
  simp only [State.ownFrame, h.station, hops, h.sequence.2]

/-- A frame that is the first sent stays so whatever is sent behind it. -/
theorem SendsFirst.andThen {who : Requester} {f : Frame} {s t u : State} (h : SendsFirst who f s t) (hl : Keeps .lines s t)
    (hst : t.station = s.station) (k : Originated t u) : SendsFirst who f s u := by
  obtain ⟨ho, hh⟩ := h
  refine ⟨ho.trans hl hst k, ?_⟩
  rw [newFrames_trans ho.1 k.1, List.head?_append, hh]; rfl

/-- It is the first sent from any earlier state in which the relay saw the same. -/
theorem SendsFirst.after {who : Requester} {f : Frame} {s u t : State} (h : SendsFirst who f u t) (hq : RelayQuiet s u) :
    SendsFirst who f s t := by
  obtain ⟨ho, hh⟩ := h
  obtain ⟨hos, hnew⟩ := ho.of_keeps hq.lines hq.station hq.queues hq.sequence hq.store
  refine ⟨hos, ?_⟩
  rw [← hnew, hh, hq.store.2.2, hq.upPorts]

theorem replyPayload_length (r : Request) (a : Answer) : (replyPayload r a).length = 4 + a.rest.length := by
  simp [replyPayload, beBytes]; omega

/-- A reply that the relay takes is the first frame sent (R31). -/
theorem answer_sends {r : Request} {a : Answer} {u : State} (hb : r.broadcast = false) (h : RelayTakes (4 + a.rest.length) u) :
    SendsFirst .requestHandler (u.ownFrame r.origin 0x80 true (replyPayload r a)) u (answer r a u) := by
  obtain ⟨t, e⟩ := originate_takes (dest := r.origin) (kind := replyCodeKind) (express := true) (requester := .requestHandler)
    (payload := replyPayload r a) (s := u) (by rw [replyPayload_length]; exact h)
  obtain ⟨ho, hn⟩ := originate_sends e
  have : answer r a u = t := by simp [answer, hb, e]
  rw [this]
  exact ⟨ho, by rw [hn]; rfl⟩

/-- The reply stands before whatever the end of the event reports. -/
theorem endEvent_hasReply {r : Request} {a : Answer} {s u : State} (hq : RelayQuiet s u) (hops : u.params.hops = s.params.hops)
    (hb : r.broadcast = false) (h : RelayTakes (4 + a.rest.length) s) : HasReply r a.code a.rest s (endEvent (answer r a u)) := by
  have sent := answer_sends hb ((hq.takes _).2 h)
  rw [hq.ownFrame hops] at sent
  have frame := answer_only r a u
  exact (sent.andThen (frame.keeps (by decide)) (frame.keeps (p := .station) (by decide)) (endEvent_reports _).1).after hq

/-! ## Items taken one by one (R78, R87) -/

section
variable {α : Type}

/-- Items taken one by one, each against the state as the earlier ones left it: the results, the locations named, and the state at the end. -/
def takeItems (take : α → State → ItemResult × List Nat × State) : List α → State → List ItemResult × List Nat × State
  | [], s => ([], [], s)
  | x :: rest, s =>
    let one := take x s
    let more := takeItems take rest one.2.2
    (one.1 :: more.1, one.2.1 ++ more.2.1, more.2.2)

/-- The state that the items of a list leave. -/
def afterItems (take : α → State → ItemResult × List Nat × State) (xs : List α) (s : State) : State := xs.foldl (fun u x => (take x u).2.2) s

variable {take : α → State → ItemResult × List Nat × State}

theorem takeItems_state (xs : List α) : ∀ s : State, (takeItems take xs s).2.2 = afterItems take xs s := by
  induction xs with
  | nil => exact fun _ => rfl
  | cons x xs ih => exact fun s => ih _

theorem takeItems_length (xs : List α) : ∀ s : State, (takeItems take xs s).1.length = xs.length := by
  induction xs with
  | nil => exact fun _ => rfl
  | cons x xs ih => exact fun s => congrArg (· + 1) (ih _)

/-- Each item's result is the one that it gets in the state that those before it left. -/
theorem takeItems_result (xs : List α) : ∀ (s : State) (i : Nat) (x : α), xs[i]? = some x →
    (takeItems take xs s).1[i]? = some (take x (afterItems take (xs.take i) s)).1 := by
  induction xs with
  | nil => intro s i x h; simp at h
  | cons y ys ih =>
    intro s i x h
    cases i with
    | zero => obtain rfl : y = x := by simpa using h
              rfl
    | succ i => exact ih _ i x (by simpa using h)

/-- The locations named are those that the items name, each in the state that those before it left. -/
theorem mem_takeItems (xs : List α) (c : Nat) : ∀ s : State, c ∈ (takeItems take xs s).2.1 ↔
    ∃ i x, xs[i]? = some x ∧ c ∈ (take x (afterItems take (xs.take i) s)).2.1 := by
  induction xs with
  | nil => intro s; simp [takeItems]
  | cons y ys ih =>
    intro s
    simp only [takeItems, List.mem_append, ih]
    constructor
    · rintro (h | ⟨i, x, hx, h⟩)
      · exact ⟨0, y, rfl, h⟩
      · exact ⟨i + 1, x, hx, h⟩
    · rintro ⟨i, x, hx, h⟩
      cases i with
      | zero =>
        obtain rfl : y = x := by simpa using hx
        exact .inl h
      | succ i => exact .inr ⟨i, x, by simpa using hx, h⟩

end

/-- One task of a TASK_POST with the location that it names once it is accepted. -/
def postOne (t : TaskItem) (s : State) : ItemResult × List Nat × State :=
  ((postTask t s).1, if (postTask t s).1.code = .ok then [t.loc] else [], (postTask t s).2)

theorem postTasks_eq (ts : List TaskItem) : ∀ s : State, postTasks ts s = takeItems postOne ts s := by
  induction ts with
  | nil => exact fun _ => rfl
  | cons t ts ih => intro s; simp only [postTasks, takeItems, postOne, ih]

theorem cancelTasks_eq (ns : List Nat) : ∀ s : State, cancelTasks ns s = takeItems cancelTask ns s := by
  induction ns with
  | nil => exact fun _ => rfl
  | cons n ns ih => intro s; simp only [cancelTasks, takeItems, ih]

theorem mem_postOne (t : TaskItem) (s : State) (c : Nat) : c ∈ (postOne t s).2.1 ↔ (postTask t s).1.code = .ok ∧ t.loc = c := by
  simp only [postOne]; split
  · rename_i h; simp [h, eq_comm]
  · rename_i h; simp [h]

theorem mem_cancelTask (n : Nat) (s : State) (c : Nat) : c ∈ (cancelTask n s).2.1 ↔ ∃ x, s.taskOf n = some x ∧ x.loc = c := by
  unfold cancelTask; split
  · rename_i h; simp [h]
  · rename_i t h; simp [h, eq_comm]

/-! ## The end of such a request -/

theorem resultsBody_length (results : List ItemResult) : (resultsBody results).length = 1 + 4 * results.length := by
  have items : (results.flatMap fun x => [x.code.code] ++ beBytes 2 x.group ++ [BitVec.ofNat 8 x.placement]).length = 4 * results.length := by
    induction results with
    | nil => rfl
    | cons x xs ih => rw [List.flatMap_cons, List.length_append, ih, List.length_cons]; simp [beBytes]; omega
  rw [resultsBody, List.length_cons, items, Nat.add_comm]

theorem answer_flagSet (r : Request) (a : Answer) (s : State) {f : Flag} (hf : f ≠ .replyDrop) : (answer r a s).flagSet f = s.flagSet f := by
  have sent : ∀ u : State, Keeps .flags s u → u.flagSet f = s.flagSet f := fun u h => by simp only [State.flagSet]; rw [show u.flags = s.flags from h]
  have frame := (originate_only r.origin replyCodeKind true .requestHandler (replyPayload r a) s).keeps (p := .flags) (by decide)
  unfold answer; split
  · rfl
  · revert frame
    generalize originate r.origin replyCodeKind true .requestHandler (replyPayload r a) s = o
    rcases o with ⟨o, u⟩
    intro frame
    cases o with
    | refused => simp [setFlag_flagSet, Ne.symm hf, sent u frame]
    | accepted ref => exact sent u frame

/-- Locations recomputed, then the reply and the end of the event: what of the display stands at the end. -/
theorem recomputed_answered (r : Request) (a : Answer) (codes : List Nat) (u : State) :
    let t := endEvent (answer r a (recomputeCodes codes u))
    OnlyChanges (displayParts ++ eventParts) u t
      ∧ (MapOk u → (u.groups.map (·.id)).Nodup → Redrawn (fun e => e.code ∈ codes) u t)
      ∧ t.flagSet .tasksHigh = u.flagSet .tasksHigh := by
  have redraw := recomputeCodes_only codes u
  have reply := answer_only r a (recomputeCodes codes u)
  have stop := endEvent_only (answer r a (recomputeCodes codes u))
  have behind := (reply.mono (qs := eventParts) (by decide)).trans (stop.mono (by decide))
  refine ⟨(redraw.mono (by decide)).trans (behind.mono (by decide)), fun hm hn => ?_, ?_⟩
  · have drawn : Redrawn (fun e => codes.contains e.code = true) u (recomputeCodes codes u) := recomputeWhere_redrawn _ hm hn
    simp only [List.contains_eq_mem, decide_eq_true_eq] at drawn
    exact drawn.trans_only behind (by decide)
  · rw [endEvent_flagSet _ (by decide), answer_flagSet _ _ _ (by decide)]
    exact (redraw.flagsKept (by decide) []).ordinary (by simp [Flag.ordinary]) (by simp)

/-! ## TASK_POST (R78, R85) -/

theorem postState_only (ts : List TaskItem) (s : State) : OnlyChanges postParts s (afterItems postOne ts s) := by
  rw [← takeItems_state, ← postTasks_eq]; exact postTasks_only ts s

theorem cancelState_only (ns : List Nat) (s : State) : OnlyChanges [.tasks, .pickers, .groups, .slots] s (afterItems cancelTask ns s) := by
  rw [← takeItems_state, ← cancelTasks_eq]; exact cancelTasks_only ns s

theorem applyTaskPost_eq (r : Request) (s : State) : applyTaskPost r s =
    (Answer.ok (resultsBody (takeItems postOne r.taskItems s).1),
      recomputeCodes (takeItems postOne r.taskItems s).2.1 (afterItems postOne r.taskItems s)) := by
  unfold applyTaskPost; simp only [postTasks_eq, takeItems_state]

theorem applyTaskCancel_eq (r : Request) (s : State) : applyTaskCancel r s =
    (Answer.ok (resultsBody (takeItems cancelTask r.numberItems s).1),
      recomputeCodes (takeItems cancelTask r.numberItems s).2.1 (judgeTasksHigh (afterItems cancelTask r.numberItems s))) := by
  unfold applyTaskCancel; simp only [cancelTasks_eq, takeItems_state]

theorem MapOk.of_eq {s t : State} (h : MapOk s) (he : t.locMap = s.locMap) : MapOk t := by
  unfold MapOk; rw [he]; exact h

/-- The reply with the results of the items, where the items leave what the relay sees. -/
theorem items_hasReply {ps : List Part} {r : Request} {s u : State} (results : List ItemResult) (h : OnlyChanges ps (taken s) u)
    (hp : ∀ p ∈ Part.params :: relayView, p ∉ ps) (hb : r.broadcast = false) (ht : RelayTakes (5 + 4 * results.length) s) :
    HasReply r .ok (resultsBody results) s (endEvent (answer r (Answer.ok (resultsBody results)) u)) := by
  have hq : RelayQuiet s u := ((taken_only s).relayQuiet (by decide)).trans (h.relayQuiet fun p m => hp p (by simp [m]))
  have hops : u.params.hops = s.params.hops := congrArg Params.hops (h.keeps (p := .params) (hp _ (by simp)))
  refine endEvent_hasReply (a := Answer.ok (resultsBody results)) hq hops hb ?_
  have : 4 + (Answer.ok (resultsBody results)).rest.length = 5 + 4 * results.length := by
    simp only [Answer.ok, resultsBody_length]; omega
  rw [this]; exact ht

theorem taskPost_taken {r : Request} {s : State} (hc : Carried .taskPost r s) :
    exec .taskPost s = .next (endEvent (answer r (Answer.ok (resultsBody (takeItems postOne r.taskItems (taken s)).1))
      (recomputeCodes (takeItems postOne r.taskItems (taken s)).2.1 (afterItems postOne r.taskItems (taken s))))) := by
  show Host.Outcome.next (carryForward .taskPost (answered applyTaskPost) s) = _
  rw [carryForward_carried _ hc, answered, applyTaskPost_eq]

theorem taskCancel_taken {r : Request} {s : State} (hc : Carried .taskCancel r s) :
    exec .taskCancel s = .next (endEvent (answer r (Answer.ok (resultsBody (takeItems cancelTask r.numberItems (taken s)).1))
      (recomputeCodes (takeItems cancelTask r.numberItems (taken s)).2.1
        (judgeTasksHigh (afterItems cancelTask r.numberItems (taken s)))))) := by
  show Host.Outcome.next (carryForward .taskCancel (answered applyTaskCancel) s) = _
  rw [carryForward_carried _ hc, answered, applyTaskCancel_eq]

/-- A number of a TASK_CANCEL brings no group, so that ids that are distinct stay so. -/
theorem cancelTask_ids (n : Nat) (s : State) : ((cancelTask n s).2.2.groups.map (·.id)).Sublist (s.groups.map (·.id)) := by
  unfold cancelTask; split
  · exact List.Sublist.refl _
  · rename_i t _
    have closed : (closeTask t s).groups = s.groups := (closeTask_only t s).keeps (p := .groups) (by decide)
    simp only; split
    · rw [closed]
    · split
      · have gone : ∀ (g : Group) (u : State), (removeGroup g u).groups = u.groups.filter fun h => h.id != g.id := by
          intro g u; unfold removeGroup; simp only; split <;> rfl
        rw [gone, closed]; exact List.filter_sublist.map _
      · show ((closeTask t s).groups.map _).map _ |>.Sublist _
        rw [map_key_replace Group.id, closed]

theorem cancelState_ids (ns : List Nat) : ∀ s : State,
    ((afterItems cancelTask ns s).groups.map (·.id)).Sublist (s.groups.map (·.id)) := by
  induction ns with
  | nil => exact fun s => List.Sublist.refl _
  | cons n ns ih => exact fun s => (ih _).trans (cancelTask_ids n s)

/-- Settles O31: the items are taken by one fold, and what follows it leaves what the relay saw before the event. -/
theorem taskRequestsTakeItemsInOrder : Obligations.TaskRequestsTakeItemsInOrder := by
  intro r s body
  refine ⟨?_, ?_⟩
  · intro hc after last
    have hlast : last = afterItems postOne r.taskItems (taken s) := by simp only [last, after, List.take_length]; rfl
    have items := postState_only r.taskItems (taken s)
    obtain ⟨changed, drawn, -⟩ := recomputed_answered r (Answer.ok (resultsBody (takeItems postOne r.taskItems (taken s)).1))
      (takeItems postOne r.taskItems (taken s)).2.1 (afterItems postOne r.taskItems (taken s))
    have named : (fun e : MapEntry => e.code ∈ (takeItems postOne r.taskItems (taken s)).2.1)
        = fun e => ∃ i x, r.taskItems[i]? = some x ∧ (postTask x (after i)).1.code = .ok ∧ x.loc = e.code := by
      funext e; simp only [mem_takeItems, mem_postOne]; rfl
    refine ⟨_, (takeItems postOne r.taskItems (taken s)).1, taskPost_taken hc, ?_⟩
    rw [hlast, ← named]
    refine ⟨(items.keeps (p := .admitted) (by decide)).trans (changed.keeps (by decide)), changed,
      fun hm hn => drawn (MapOk.of_eq (s := s) hm (items.keeps (p := .locations) (by decide))) hn,
      takeItems_length _ _, fun i x hx => takeItems_result _ _ i x hx, fun hb ht => ?_⟩
    exact items_hasReply (ps := postParts ++ displayParts) _ ((items.mono (by decide)).trans ((recomputeCodes_only _ _).mono (by decide)))
      (by decide) hb ht
  · intro hc after last
    have hlast : last = afterItems cancelTask r.numberItems (taken s) := by simp only [last, after, List.take_length]; rfl
    have items := cancelState_only r.numberItems (taken s)
    have high := judgeTasksHigh_only (afterItems cancelTask r.numberItems (taken s))
    obtain ⟨changed, drawn, flag⟩ := recomputed_answered r (Answer.ok (resultsBody (takeItems cancelTask r.numberItems (taken s)).1))
      (takeItems cancelTask r.numberItems (taken s)).2.1 (judgeTasksHigh (afterItems cancelTask r.numberItems (taken s)))
    have named : (fun e : MapEntry => e.code ∈ (takeItems cancelTask r.numberItems (taken s)).2.1)
        = fun e => ∃ i n x, r.numberItems[i]? = some n ∧ (after i).taskOf n = some x ∧ x.loc = e.code := by
      funext e; simp only [mem_takeItems, mem_cancelTask, exists_and_left]; rfl
    refine ⟨_, (takeItems cancelTask r.numberItems (taken s)).1, taskCancel_taken hc, ?_⟩
    rw [hlast, ← named]
    have behind := (high.mono (by decide)).trans changed
    refine ⟨(items.keeps (p := .admitted) (by decide)).trans (behind.keeps (by decide)), behind, flag.trans ?_,
      fun hm hn => ?_, takeItems_length _ _, fun i x hx => takeItems_result _ _ i x hx, fun hb ht => ?_⟩
    · rw [show (endEvent _).tasks = (afterItems cancelTask r.numberItems (taken s)).tasks from behind.keeps (p := .tasks) (by decide)]
      rw [judgeTasksHigh, followFlag_flagSet, if_pos rfl]; rfl
    · refine (drawn (MapOk.of_eq (s := s) hm ?_) ?_).of_start (high.keeps (p := .groups) (by decide)) (high.keeps (p := .slots) (by decide))
      · exact (items.keeps (p := .locations) (by decide)).trans (high.keeps (by decide))
      · rw [show (judgeTasksHigh _).groups = _ from high.keeps (p := .groups) (by decide)]
        exact (cancelState_ids r.numberItems (taken s)).nodup hn
    · exact items_hasReply (ps := [.tasks, .pickers, .flags, .notes] ++ displayParts) _ (((items.mono (by decide)).trans
        (high.mono (by decide))).trans ((recomputeCodes_only _ _).mono (by decide))) (by decide) hb ht

end Sys2Proof.Machine

/-!
PROOFS. CONFIG_SET: what it sends, and how many records wait, through each of its effects (O20, O21).
-/

namespace Sys2Proof.Machine

open Sys2Proof

/-! ## The request held and done -/

/-- The state in which a CONFIG_SET's new parameters are held (R33). -/
def configHeld (r : Request) (s : State) : State := { taken s with params := newParams r s.params }

/-- The state after the effects of a CONFIG_SET on what runs (R34). -/
def configDone (r : Request) (s : State) : State := configEffects s.params (configHeld r s)

theorem configHeld_only (r : Request) (s : State) : OnlyChanges [.admitted, .params, .notes] s (configHeld r s) := by
  intro p; cases p <;> simp [Keeps, configHeld, taken]

theorem configDone_only (r : Request) (s : State) : OnlyChanges effectParts (configHeld r s) (configDone r s) := configEffects_only _ _

theorem configDone_params (r : Request) (s : State) : (configDone r s).params = newParams r s.params :=
  (configDone_only r s).keeps (p := .params) (by decide)

theorem isSupervisor_iff (n : Nat) : isSupervisor n = true ↔ 48 ≤ n ∧ n ≤ 55 := by simp [isSupervisor]

theorem badParameter_passes {r : Request} (h3 : r.names 3 = true → r.field 5 1 < 2)
    (h7 : r.names 7 = true → 48 ≤ r.field 10 1 ∧ r.field 10 1 ≤ 55) : badParameter r = none := by
  have adaptive : (r.names 3 && decide (2 ≤ r.adaptiveByte)) = false := by
    cases h : r.names 3 with
    | false => rfl
    | true => exact decide_eq_false (not_le.2 (h3 h))
  have target : (r.names 7 && !isSupervisor r.targetByte) = false := by
    cases h : r.names 7 with
    | false => rfl
    | true =>
      have range : isSupervisor r.targetByte = true := (isSupervisor_iff _).2 (h7 h)
      simp [range]
  simp [badParameter, adaptive, target]

theorem configSet_taken {r : Request} {s : State} (hc : Carried .configSet r s) (h : badParameter r = none) :
    exec .configSet s = .next (endEvent (answer r (Answer.ok (newParams r s.params).body) (configDone r s))) := by
  show Host.Outcome.next (carryForward .configSet (answered applyConfigSet) s) = _
  rw [carryForward_carried _ hc, answered, applyConfigSet_passes _ h]
  show Host.Outcome.next (endEvent (answer r (Answer.ok (configDone r s).params.body) (configDone r s))) = _
  rw [configDone_params]

/-! ## Room for a report (R170 to R172) -/

/-- The relay takes any report frame, or the station is a repeater, whose relay says yes to each (R17). -/
def Roomy (u : State) : Prop := u.station = 0 ∨ RelayTakes 193 u

theorem SendsOwn.freeCells {u v : State} (h : SendsOwn u v) : v.freeCells ≤ u.freeCells := by
  obtain ⟨-, -, -, cells⟩ := h.own.1
  omega

theorem SendsOwn.takes {u v : State} (h : SendsOwn u v) {n m : Nat} (hm : m ≤ n) (ht : RelayTakes n v) : RelayTakes m u := by
  obtain ⟨h0, hup, hc⟩ := ht
  have hf := h.freeCells
  refine ⟨h.station ▸ h0, (keeps_up h.lines).1 hup, ?_⟩
  unfold cellsFor at hc ⊢
  omega

/-- There was room before frames entered the store if there is after. -/
theorem SendsOwn.roomy {u v : State} (h : SendsOwn u v) (hr : Roomy v) : Roomy u :=
  hr.imp (fun h0 => h.station ▸ h0) (h.takes le_rfl)

theorem record_length (r : Record) : r.bytes.length ≤ 24 := by
  cases r <;> simp [Record.bytes, beBytes]

theorem reportPayload_length (s : State) : s.reportPayload.length ≤ 193 := by
  have few : s.reportRecords.length ≤ 8 := by simp [State.reportRecords]
  have bytes : ∀ rs : List Record, (rs.flatMap Record.bytes).length ≤ 24 * rs.length := by
    intro rs
    induction rs with
    | nil => simp
    | cons r rs ih => have := record_length r; rw [List.flatMap_cons, List.length_append, List.length_cons]; omega
  have := bytes s.reportRecords
  simp only [State.reportPayload, List.length_cons]
  omega

theorem buildDue_sendsOwn (fuel : Nat) (s : State) : SendsOwn s (buildDue fuel s) :=
  have h := buildDue_only fuel s
  ⟨h.keeps (by decide), h.keeps (p := .station) (by decide), (buildDue_reports fuel s).1⟩

/-- Where there is room, the packer builds until no frame is due (R171, R172). -/
theorem buildDue_settles (fuel : Nat) : ∀ s : State, s.fifo.length ≤ fuel → Roomy (buildDue fuel s) → (buildDue fuel s).frameDue = false := by
  induction fuel with
  | zero =>
    intro s hl _
    have : s.fifo = [] := List.eq_nil_of_length_eq_zero (by omega)
    simp [buildDue, State.frameDue, this]
  | succ n ih =>
    intro s hl hr
    rcases (buildDue_sendsOwn _ s).roomy hr with h0 | ht
    · exact (buildDue_repeater _ s h0 hl).1
    · cases hd : s.frameDue with
      | false => simp [buildDue, hd]
      | true =>
        obtain ⟨ref, t, e, hf, -, -⟩ := buildFrame_sent (s := s) (by
          obtain ⟨h0, hup, hc⟩ := ht
          have := reportPayload_length s
          refine ⟨h0, hup, ?_⟩
          unfold cellsFor at hc ⊢
          omega)
        have next : buildDue (n + 1) s = buildDue n t := by simp [buildDue, hd, e]
        obtain ⟨k, hk⟩ := frameDue_length hd
        rw [next] at hr ⊢
        exact ih t (by rw [hf, List.length_drop]; omega) hr

/-- At most seven records wait where no frame is due. -/
theorem few_of_not_due {s : State} (h : s.frameDue = false) : s.fifo.length ≤ 7 := by
  by_contra hl
  have : s.frameDue = true := (frameDue_iff s).2 (.inl (by omega))
  rw [h] at this; cases this

/-! ## The end of an event with room (R170 to R172, R187) -/

theorem judgePacker_sendsOwn (s : State) : SendsOwn s (judgePacker s) := buildDue_sendsOwn _ s

theorem endEvent_sendsOwn (s : State) : SendsOwn s (endEvent s) := sendsOwn_steady.endEvent s

theorem answer_sendsOwn (r : Request) (a : Answer) (s : State) : SendsOwn s (answer r a s) := sendsOwn_steady.answer r a s

theorem offerWraps_none {s : State} (h : s.notes.wraps = []) : offerWraps s = s := by simp [offerWraps, h]

theorem offer_places {s : State} (r : Record) (h : s.fifo.length < 32) : (offer r s).fifo = s.fifo ++ [{ record := r, entered := s.now }]
    ∧ (offer r s).flagSet = s.flagSet ∧ (offer r s).notes = { s.notes with entered := true } := by
  unfold offer; rw [if_pos (show _ < Config.reportRecords from h)]; exact ⟨rfl, rfl, rfl⟩

/-- At the end of an event that owes no COUNTER_WRAP record, where there is room and every eighth record is judged, at most seven records wait and
none has been lost. -/
theorem endEvent_few {u : State} (hw : u.notes.wraps = []) (hl : u.fifo.length < 32) (he : 7 < u.fifo.length → u.notes.entered = true)
    (hr : Roomy (endEvent u)) : (endEvent u).fifo.length ≤ 7 ∧ (endEvent u).flagSet .reportLost = u.flagSet .reportLost := by
  have attention : ∀ w : State, w = offerAttention u →
      w.flagSet .reportLost = u.flagSet .reportLost ∧ (7 < w.fifo.length → w.notes.entered = true) := by
    rintro w rfl
    simp only [offerAttention]; split
    · exact ⟨rfl, he⟩
    · obtain ⟨-, hf, hn⟩ := offer_places (.attention (u.notes.noted &&& u.mask) u.clock) hl
      exact ⟨congrFun hf _, fun _ => by rw [hn]⟩
  have hend : endEvent u = { (if (offerAttention u).notes.entered then judgePacker (offerAttention u) else offerAttention u) with
      notes := EventNotes.empty } := by unfold endEvent; rw [offerWraps_none hw]
  rw [hend] at hr ⊢
  generalize hv : offerAttention u = w at hr ⊢
  obtain ⟨hflag, hentered⟩ := attention w hv.symm
  by_cases hin : w.notes.entered = true
  · rw [if_pos hin] at hr ⊢
    have kept : (judgePacker w).flags = w.flags := (judgePacker_only w).keeps (p := .flags) (by decide)
    refine ⟨few_of_not_due (buildDue_settles _ w le_rfl hr), ?_⟩
    rw [← hflag]; simp only [State.flagSet, kept]
  · rw [if_neg hin]
    exact ⟨not_lt.1 fun h => hin (hentered h), hflag⟩

/-! ## One effect after another -/

/-- Within an event: at most seven records wait, REPORT_LOST stands as given, and no COUNTER_WRAP record is owed. -/
structure Calm (lost : Bool) (u : State) : Prop where
  few : u.fifo.length ≤ 7
  flag : u.flagSet .reportLost = lost
  wraps : u.notes.wraps = []

/-- From `u` to `v` only frames of the station's own are sent, and where there is room to the end no record is lost. -/
structure ConfigStep (u v : State) : Prop where
  own : SendsOwn u v
  calm : ∀ lost, Roomy v → Calm lost u → Calm lost v

theorem ConfigStep.trans {u v w : State} (h : ConfigStep u v) (k : ConfigStep v w) : ConfigStep u w :=
  ⟨h.own.trans k.own, fun lost hr hc => k.calm lost hr (h.calm lost (k.own.roomy hr) hc)⟩

theorem OnlyChanges.configStep {ps : List Part} {u v : State} (h : OnlyChanges ps u v)
    (hp : ∀ p ∈ [Part.records, .flags, .notes] ++ relayView, p ∉ ps) : ConfigStep u v := by
  have records : v.fifo = u.fifo := (h.keeps (p := .records) (hp _ (by decide))).1
  have flags : v.flags = u.flags := h.keeps (p := .flags) (hp _ (by decide))
  have notes : v.notes = u.notes := h.keeps (p := .notes) (hp _ (by decide))
  refine ⟨(h.relayQuiet fun p hm => hp p (by simp [hm])).sendsOwn, fun lost _ hc => ⟨?_, ?_, ?_⟩⟩
  · rw [records]; exact hc.few
  · rw [← hc.flag]; simp only [State.flagSet, flags]
  · rw [notes]; exact hc.wraps

theorem configStep_refl (u : State) : ConfigStep u u := (onlyChanges_refl [] u).configStep (by simp)

theorem configStep_foldl {α : Type} {f : State → α → State} (h : ∀ t x, ConfigStep t (f t x)) (xs : List α) :
    ∀ s : State, ConfigStep s (xs.foldl f s) := by
  induction xs with
  | nil => exact configStep_refl
  | cons x xs ih => exact fun s => (h s x).trans (ih _)

theorem setFlag_wraps (f : Flag) (s : State) : (setFlag f s).notes.wraps = s.notes.wraps := by
  unfold setFlag; split <;> rfl

theorem setFlag_configStep {f : Flag} (hf : f ≠ .reportLost) (u : State) : ConfigStep u (setFlag f u) := by
  have frame := setFlag_only f u
  refine ⟨(frame.relayQuiet (by decide)).sendsOwn, fun lost _ hc => ⟨?_, ?_, ?_⟩⟩
  · rw [(frame.keeps (p := .records) (by decide)).1]; exact hc.few
  · rw [setFlag_flagSet, hc.flag]; simp [hf]
  · rw [setFlag_wraps]; exact hc.wraps

theorem originate_configStep (dest : Nat) (kind : Byte) (express : Bool) (requester : Requester) (payload : List Byte) (u : State) :
    ConfigStep u (originate dest kind express requester payload u).2 := by
  have frame := originate_only dest kind express requester payload u
  have records := (frame.keeps (p := .records) (by decide)).1
  have flags : _ = u.flags := frame.keeps (p := .flags) (by decide)
  have notes : _ = u.notes := frame.keeps (p := .notes) (by decide)
  refine ⟨originate_sendsOwn _ _ _ _ _ u, fun lost _ hc => ⟨?_, ?_, ?_⟩⟩
  · rw [records]; exact hc.few
  · rw [← hc.flag]; simp only [State.flagSet, flags]
  · rw [notes]; exact hc.wraps

theorem answer_configStep (r : Request) (a : Answer) (u : State) : ConfigStep u (answer r a u) := by
  unfold answer; split
  · exact configStep_refl u
  · have sent := originate_configStep r.origin replyCodeKind true .requestHandler (replyPayload r a) u
    revert sent
    generalize originate r.origin replyCodeKind true .requestHandler (replyPayload r a) u = o
    rcases o with ⟨o, t⟩
    intro sent
    cases o with
    | refused => exact sent.trans (setFlag_configStep (by decide) t)
    | accepted ref => exact sent

theorem judgePacker_configStep (u : State) : ConfigStep u (judgePacker u) := by
  have frame := judgePacker_only u
  have flags : _ = u.flags := frame.keeps (p := .flags) (by decide)
  have notes : _ = u.notes := frame.keeps (p := .notes) (by decide)
  refine ⟨judgePacker_sendsOwn u, fun lost _ hc => ⟨?_, ?_, ?_⟩⟩
  · exact (buildDue_fifo _ u).length_le.trans hc.few
  · rw [← hc.flag]; simp only [State.flagSet, flags]
  · rw [notes]; exact hc.wraps

/-! ## Linger timers judged (R34, R115, log 37) -/

/-- A linger timer's expiry brings at most one record, and that is judged at the end of its event. -/
theorem lingerEvent_configStep (x : SlotState) (u : State) : ConfigStep u (event (lingerExpire x) u) := by
  have own : SendsOwn u (event (lingerExpire x) u) :=
    sendsOwn_steady.event (fun v => (((lingerExpire_only x v).relayQuiet (by decide))).sendsOwn) u
  refine ⟨own, fun lost hr hc => ?_⟩
  have few : (beginEvent u).fifo.length ≤ 7 := hc.few
  have judged : ∀ v : State, OnlyChanges displayParts (beginEvent u) v → ∀ g, event (lingerExpire x) u = endEvent (offer g v) →
      Calm lost (event (lingerExpire x) u) := by
    intro v hv g he
    have fifo : v.fifo = (beginEvent u).fifo := (hv.keeps (p := .records) (by decide)).1
    have flags : v.flags = u.flags := hv.keeps (p := .flags) (by decide)
    have notes : v.notes = EventNotes.empty := hv.keeps (p := .notes) (by decide)
    obtain ⟨hf, hfl, hn⟩ := offer_places (s := v) g (by rw [fifo]; omega)
    rw [he] at hr ⊢
    obtain ⟨few', flag⟩ := endEvent_few (u := offer g v) (by rw [hn, notes]; rfl) (by rw [hf, fifo]; simp; omega) (fun _ => by rw [hn]) hr
    refine ⟨few', ?_, rfl⟩
    rw [flag, hfl, ← hc.flag]; simp only [State.flagSet, flags]
  have set : ∀ v y, OnlyChanges displayParts v (State.setSlot v y) := fun v y => (setSlot_only v y).mono (by decide)
  cases hg : (beginEvent u).groupAtPosition x with
  | none =>
    have still : event (lingerExpire x) u = (beginEvent u).setSlot { x with linger := none } := by
      have : lingerExpire x (beginEvent u) = (beginEvent u).setSlot { x with linger := none } := by unfold lingerExpire; rw [hg]
      rw [event, this]; exact endEvent_quiet rfl
    rw [still]; exact ⟨hc.few, hc.flag, rfl⟩
  | some g =>
    refine judged _ ?_ (.linger g.id g.picker g.loc (beginEvent u).clock) (by unfold event lingerExpire; rw [hg])
    exact (((setGroup_only _ _).mono (by decide)).trans (set _ _)).trans ((renewShadow_only _ _).mono (by decide))

theorem judgeLinger_configStep (oldBase : Nat) (s : State) : ConfigStep s (judgeLinger oldBase s) := by
  have set : ∀ (u : State) x, ConfigStep u (u.setSlot x) := fun u x => (setSlot_only u x).configStep (by decide)
  refine configStep_foldl (fun t e => ?_) _ s
  simp only; split
  · exact configStep_refl t
  · split
    · exact set _ _
    · split
      · split
        · exact lingerEvent_configStep _ t
        · exact set _ _
      · split
        · exact set _ _
        · exact configStep_refl t
      · exact configStep_refl t

/-! ## The other effects (R34) -/

theorem applyCombineChange_configStep (old : Params) (u : State) : ConfigStep u (applyCombineChange old u) := by
  unfold applyCombineChange; split
  · have frame := rejudgeCombine_only u
    have judged : ConfigStep u (rejudgeCombine u) :=
      ⟨(frame.relayQuiet (by decide)).sendsOwn, fun lost _ hc => ⟨hc.few, hc.flag, hc.wraps⟩⟩
    exact judged.trans (judgePacker_configStep _)
  · exact configStep_refl u

theorem enterOrphaned_configStep (u : State) : ConfigStep u (enterOrphaned u) := by
  have orphaned : OnlyChanges [.orphaned] u { u with orphaned := true } := by intro p; cases p <;> simp [Keeps]
  exact ((orphaned.configStep (by decide)).trans (setFlag_configStep (by decide) _)).trans ((recomputeAll_only _).configStep (by decide))

theorem applySilenceChange_configStep (old : Params) (u : State) : ConfigStep u (applySilenceChange old u) := by
  have started : ConfigStep u (startSilence old u) := (startSilence_only old u).configStep (by decide)
  rw [applySilenceChange_eq]; split
  · exact started.trans (enterOrphaned_configStep _)
  · exact started

theorem finishDirect_configStep (b : Branch) (code : ReplyCode) (u : State) : ConfigStep u (finishDirect b code u) := by
  unfold finishDirect; split
  · exact configStep_refl u
  · have ended : OnlyChanges [.directs] u (onBranch b (fun x => { x with direct := none }) u) := onBranch_only fun x => by simp
    exact (ended.configStep (by decide)).trans (answer_configStep _ _ _)

theorem endCommand_configStep (b : Branch) (c : Command) (u : State) : ConfigStep u (endCommand b c u) := by
  have clear : ∀ v, ConfigStep v (clearCommand b v) := fun v => (clearCommand_only b v).configStep (by decide)
  unfold endCommand; split
  · exact (clear _).trans ((markUnshown_only _ _ _).configStep (by decide))
  · exact ((settleOwed_only _ _ _ _).configStep (by decide)).trans (clear _)
  · have ended : OnlyChanges [.commands] u (onBranch b (fun x => { x with command := some { c with ended := true } }) u) :=
      onBranch_only fun x => by simp
    exact ended.configStep (by decide)
  · exact (clear _).trans (finishDirect_configStep _ _ _)
  · exact clear _

theorem markMissing_configStep (b : Branch) (m : Module) (u : State) : ConfigStep u (markMissing b m u) := by
  have set : OnlyChanges [.rosters] u (onBranch b (fun x => x.setModule { m with presence := .missing }) u) :=
    onBranch_only fun x => by simp [BranchState.setModule]
  exact ((set.configStep (by decide)).trans (setFlag_configStep (by decide) _)).trans ((noticeModule_only _ _ _).configStep (by decide))

theorem judgeModule_configStep (b : Branch) (addr : Nat) (u : State) : ConfigStep u (judgeModule b addr u) := by
  unfold judgeModule; split
  · exact configStep_refl u
  · rename_i m _
    split
    · refine (markMissing_configStep b m u).trans ?_
      simp only; split
      · exact configStep_refl _
      · split
        · exact endCommand_configStep _ _ _
        · exact configStep_refl _
    · exact configStep_refl u

theorem configEffects_configStep (old : Params) (u : State) : ConfigStep u (configEffects old u) := by
  have linger : ConfigStep u (applyLingerChange old u) := by
    unfold applyLingerChange; split
    · exact judgeLinger_configStep _ _
    · exact configStep_refl u
  have miss : ∀ v, ConfigStep v (applyMissChange old v) := by
    intro v; unfold applyMissChange; split
    · exact configStep_refl v
    · exact (configStep_foldl (fun t addr => judgeModule_configStep .l addr t) _ v).trans
        (configStep_foldl (fun t addr => judgeModule_configStep .r addr t) _ _)
  exact ((linger.trans (applyCombineChange_configStep old _)).trans (applySilenceChange_configStep old _)).trans (miss _)

theorem configHeld_quiet (r : Request) (s : State) : RelayQuiet s (configHeld r s) := (configHeld_only r s).relayQuiet (by decide)

theorem configDone_sendsOwn (r : Request) (s : State) : SendsOwn s (configDone r s) :=
  (configHeld_quiet r s).sendsOwn.trans (configEffects_configStep _ _).own

/-- A CONFIG_SET before which at most seven records wait leaves at most seven and loses none, where the relay takes every frame to its end
(R170, log 37). -/
theorem configSet_records {r : Request} (a : Answer) {s : State} (few : s.fifo.length ≤ 7)
    (hr : Roomy (endEvent (answer r a (configDone r s)))) : (endEvent (answer r a (configDone r s))).fifo.length ≤ 7
      ∧ (endEvent (answer r a (configDone r s))).flagSet .reportLost = s.flagSet .reportLost := by
  have start : Calm (s.flagSet .reportLost) (configHeld r s) := ⟨few, rfl, rfl⟩
  have steps := (configEffects_configStep s.params (configHeld r s)).trans (answer_configStep r a _)
  have done := steps.calm _ ((endEvent_sendsOwn _).roomy hr) start
  have short := done.few
  obtain ⟨few', flag⟩ := endEvent_few done.wraps (lt_of_le_of_lt short (by decide)) (fun h => absurd short (not_le.2 h)) hr
  exact ⟨few', flag.trans done.flag⟩

end Sys2Proof.Machine

/-!
PROOFS. CONFIG_SET: the parameters, the silence limit and the reply (O20).
-/

namespace Sys2Proof.Machine

open Sys2Proof

/-! ## What each effect changes (R34) -/

/-- The parts that the end of a command's attempts changes. -/
def endParts : List Part := [.unshown, .rosters, .commands, .directs, .flags, .notes] ++ relayParts

theorem endCommand_parts (b : Branch) (c : Command) (s : State) : OnlyChanges endParts s (endCommand b c s) := by
  have clear : ∀ t, OnlyChanges endParts t (clearCommand b t) := fun t => (clearCommand_only b t).mono (by decide)
  unfold endCommand; split
  · exact (clear _).trans ((markUnshown_only _ _ _).mono (by decide))
  · exact ((settleOwed_only _ _ _ _).mono (by decide)).trans (clear _)
  · exact onBranch_only fun x => by simp [endParts]
  · exact (clear _).trans ((finishDirect_only _ _ _).mono (by decide))
  · exact clear _

/-- The parts that a changed miss limit changes (R155). -/
def missParts : List Part := endParts ++ displayParts

theorem judgeModule_parts (b : Branch) (addr : Nat) (s : State) : OnlyChanges missParts s (judgeModule b addr s) := by
  unfold judgeModule; split
  · exact onlyChanges_refl _ _
  · rename_i m _
    split
    · have missing := (markMissing_only b m s).mono (qs := missParts) (by decide)
      simp only; split
      · exact missing
      · split
        · exact missing.trans ((endCommand_parts _ _ _).mono (by decide))
        · exact missing
    · exact onlyChanges_refl _ _

/-- A changed miss limit judges the modules one by one: what each judgement keeps is kept. -/
theorem applyMissChange_induct {P : State → Prop} (hP : ∀ b addr t, P t → P (judgeModule b addr t)) (old : Params) {s : State} (h : P s) :
    P (applyMissChange old s) := by
  have all : ∀ (b : Branch) (addrs : List Nat) (t : State), P t → P (addrs.foldl (fun t addr => judgeModule b addr t) t) := by
    intro b addrs
    induction addrs with
    | nil => exact fun _ ht => ht
    | cons a as ih => exact fun t ht => ih _ (hP b a t ht)
  unfold applyMissChange; split
  · exact h
  · exact all _ _ _ (all _ _ _ h)

theorem applyMissChange_parts (old : Params) (s : State) : OnlyChanges missParts s (applyMissChange old s) :=
  applyMissChange_induct (P := OnlyChanges missParts s) (fun b addr t h => h.trans (judgeModule_parts b addr t)) old (onlyChanges_refl _ s)

theorem applyLingerChange_parts (old : Params) (s : State) : OnlyChanges (displayParts ++ eventParts) s (applyLingerChange old s) := by
  unfold applyLingerChange; split
  · exact judgeLinger_only _ _
  · exact onlyChanges_refl _ _

theorem applyCombineChange_parts (old : Params) (s : State) : OnlyChanges (.records :: relayParts) s (applyCombineChange old s) := by
  unfold applyCombineChange; split
  · exact ((rejudgeCombine_only _).mono (by decide)).trans (judgePacker_only _)
  · exact onlyChanges_refl _ _

/-! ## The silence limit (R35, R36) -/

theorem startSilence_since (old : Params) (s : State) : (startSilence old s).silenceSince
    = if old.silence = 0 ∧ s.params.silence ≠ 0 then s.now else s.silenceSince := by
  unfold startSilence; split <;> rfl

theorem applySilenceChange_since (old : Params) (s : State) : (applySilenceChange old s).silenceSince = (startSilence old s).silenceSince := by
  rw [applySilenceChange_eq]; split
  · exact (enterOrphaned_only _).keeps (p := .silence) (by decide)
  · rfl

/-- A changed silence limit is judged at once (R34, R35). -/
theorem applySilenceChange_orphaned (old : Params) (s : State) : (applySilenceChange old s).orphaned = true ↔
    s.orphaned = true ∨ (s.params.silence ≠ old.silence ∧ s.params.silence ≠ 0
      ∧ (startSilence old s).silenceSince + s.params.silence * 16000000 ≤ s.now) := by
  have frame := startSilence_only old s
  have params : (startSilence old s).params = s.params := frame.keeps (p := .params) (by decide)
  have orphaned : (startSilence old s).orphaned = s.orphaned := frame.keeps (p := .orphaned) (by decide)
  have now : (startSilence old s).now = s.now := frame.keeps (p := .moment) (by decide)
  rw [applySilenceChange_eq]
  simp only [silenceDue_iff, params, orphaned, now]
  split
  · rename_i h
    obtain ⟨hne, h0, -, hd⟩ := h
    simp [(enterOrphaned_flags _).1, hne, h0, hd]
  · rename_i h
    rw [orphaned]
    constructor
    · exact .inl
    · rintro (ho | ⟨hne, h0, hd⟩)
      · exact ho
      · cases ho : s.orphaned with
        | true => rfl
        | false => exact absurd ⟨hne, h0, ho, hd⟩ h

theorem applySilenceChange_enters {old : Params} {s : State} (h : s.orphaned = false) (h' : (applySilenceChange old s).orphaned = true) :
    applySilenceChange old s = enterOrphaned (startSilence old s) := by
  have orphaned : (startSilence old s).orphaned = s.orphaned := (startSilence_only old s).keeps (p := .orphaned) (by decide)
  rw [applySilenceChange_eq] at h' ⊢
  split
  · rfl
  · rename_i hn
    rw [if_neg hn, orphaned, h] at h'
    cases h'

/-! ## The groups of an aisle that becomes ORPHANED (R118) -/

theorem GroupsHeld.of_groups {code : Nat} {s t : State} (h : GroupsHeld code s) (he : t.groups = s.groups) : GroupsHeld code t := by
  unfold GroupsHeld; rw [he]; exact h

theorem enterOrphaned_held {e : MapEntry} {s : State} (he : e ∈ s.locMap) (hx : (s.slotAt e.pos).isSome = true) :
    GroupsHeld e.code (enterOrphaned s) := by
  by_cases hg : ∃ g ∈ s.groups, g.loc = e.code
  · exact (enterOrphaned_holds he hg hx).1
  · have none : GroupsHeld e.code s := fun g hm hl => absurd ⟨g, hm, hl⟩ hg
    have frame := setFlag_only .orphaned { s with orphaned := true }
    exact foldl_recompute_keeps (fun u d h hu => h.recompute hu d) _ _ (frame.keeps (p := .orphaned) (by decide))
      (none.of_groups (frame.keeps (p := .groups) (by decide)))

/-- The judgement of a module leaves an ORPHANED aisle so, and its held groups held. -/
theorem judgeModule_orphaned {codes : List Nat} (b : Branch) (addr : Nat) {t : State} (h : t.orphaned = true ∧ ∀ c ∈ codes, GroupsHeld c t) :
    (judgeModule b addr t).orphaned = true ∧ ∀ c ∈ codes, GroupsHeld c (judgeModule b addr t) := by
  obtain ⟨ho, hh⟩ := h
  refine ⟨Eq.trans ((judgeModule_parts b addr t).keeps (p := .orphaned) (by decide)) ho, fun c hc => ?_⟩
  have missing : ∀ m, GroupsHeld c (markMissing b m t) := by
    intro m
    have marked : OnlyChanges [.rosters, .flags, .notes] t
        (setFlag .moduleLost (onBranch b (fun x => x.setModule { m with presence := .missing }) t)) :=
      OnlyChanges.trans (onBranch_only fun x => by simp [BranchState.setModule]) ((setFlag_only _ _).mono (by decide))
    exact foldl_recompute_keeps (fun u d h hu => h.recompute hu d) _ _ (Eq.trans (marked.keeps (p := .orphaned) (by decide)) ho)
      ((hh c hc).of_groups (marked.keeps (p := .groups) (by decide)))
  unfold judgeModule; split
  · exact hh c hc
  · rename_i m _
    split
    · simp only; split
      · exact missing m
      · split
        · exact (missing m).of_groups ((endCommand_parts _ _ _).keeps (p := .groups) (by decide))
        · exact missing m
    · exact hh c hc

theorem applyMissChange_orphaned (old : Params) {codes : List Nat} {t : State} (h : t.orphaned = true ∧ ∀ c ∈ codes, GroupsHeld c t) :
    (applyMissChange old t).orphaned = true ∧ ∀ c ∈ codes, GroupsHeld c (applyMissChange old t) :=
  applyMissChange_induct (P := fun t => t.orphaned = true ∧ ∀ c ∈ codes, GroupsHeld c t) (fun b addr _ => judgeModule_orphaned b addr) old h

theorem applyMissChange_orphaned_eq (old : Params) (t : State) : (applyMissChange old t).orphaned = t.orphaned :=
  (applyMissChange_parts old t).keeps (p := .orphaned) (by decide)

/-! ## Flags that a changed miss limit leaves -/

theorem OnlyChanges.flagSet_eq {ps : List Part} {s t : State} (h : OnlyChanges ps s t) (hp : Part.flags ∉ ps) (f : Flag) :
    t.flagSet f = s.flagSet f := by
  simp only [State.flagSet]; rw [show t.flags = s.flags from h.keeps hp]

theorem clearCommand_flagSet (b : Branch) (s : State) (f : Flag) : (clearCommand b s).flagSet f = s.flagSet f :=
  (clearCommand_only b s).flagSet_eq (by decide) f

theorem finishDirect_flagSet (b : Branch) (code : ReplyCode) (s : State) {f : Flag} (hf : f ≠ .replyDrop) :
    (finishDirect b code s).flagSet f = s.flagSet f := by
  unfold finishDirect; split
  · rfl
  · rw [answer_flagSet _ _ _ hf]
    exact (onBranch_only (ps := [.directs]) fun x => by simp).flagSet_eq (by decide) f

theorem endCommand_flagSet (b : Branch) (c : Command) (s : State) {f : Flag} (hf : f ≠ .replyDrop) :
    (endCommand b c s).flagSet f = s.flagSet f := by
  unfold endCommand; split
  · rw [(markUnshown_only _ _ _).flagSet_eq (by decide), clearCommand_flagSet]
  · rw [clearCommand_flagSet, (settleOwed_only _ _ _ _).flagSet_eq (by decide)]
  · exact (onBranch_only (ps := [.commands]) fun x => by simp).flagSet_eq (by decide) f
  · rw [finishDirect_flagSet _ _ _ hf, clearCommand_flagSet]
  · exact clearCommand_flagSet _ _ _

theorem markMissing_flagSet (b : Branch) (m : Module) (s : State) (f : Flag) :
    (markMissing b m s).flagSet f = (decide (Flag.moduleLost = f) || s.flagSet f) := by
  unfold markMissing
  rw [(noticeModule_only _ _ _).flagSet_eq (by decide), setFlag_flagSet,
    (onBranch_only (ps := [.rosters]) fun x => by simp [BranchState.setModule]).flagSet_eq (by decide)]

theorem judgeModule_flagSet (b : Branch) (addr : Nat) (s : State) {f : Flag} (hd : f ≠ .replyDrop) (hl : f ≠ .moduleLost) :
    (judgeModule b addr s).flagSet f = s.flagSet f := by
  have missing : ∀ m, (markMissing b m s).flagSet f = s.flagSet f := fun m => by
    rw [markMissing_flagSet]; simp [Ne.symm hl]
  unfold judgeModule; split
  · rfl
  · split
    · simp only; split
      · exact missing _
      · split
        · rw [endCommand_flagSet _ _ _ hd, missing]
        · exact missing _
    · rfl

theorem applyMissChange_flagSet (old : Params) (s : State) {f : Flag} (hd : f ≠ .replyDrop) (hl : f ≠ .moduleLost) :
    (applyMissChange old s).flagSet f = s.flagSet f :=
  applyMissChange_induct (P := fun t => t.flagSet f = s.flagSet f) (fun b addr t h => (judgeModule_flagSet b addr t hd hl).trans h) old rfl

/-! ## Slots that linger timers leave held -/

theorem event_slotAt (f : State → State) (s : State) (pos : SlotPos) : (event f s).slotAt pos = (f (beginEvent s)).slotAt pos := by
  have slots : (event f s).slots = (f (beginEvent s)).slots := (endEvent_only _).keeps (p := .slots) (by decide)
  unfold State.slotAt; rw [slots]

theorem offer_slotAt (r : Record) (s : State) (pos : SlotPos) : (offer r s).slotAt pos = s.slotAt pos := by
  unfold State.slotAt; rw [show (offer r s).slots = s.slots from (offer_only r s).keeps (p := .slots) (by decide)]

theorem lingerExpire_isSome (x : SlotState) (s : State) (pos : SlotPos) :
    ((lingerExpire x s).slotAt pos).isSome = (s.slotAt pos).isSome := by
  unfold lingerExpire; split
  · exact setSlot_isSome _ _ _
  · rw [offer_slotAt, renewShadow_isSome, setSlot_isSome]; rfl

/-- One location's linger timer judged under changed parameters (R34, R114, R115). -/
def judgeOne (oldBase : Nat) (t : State) (e : MapEntry) : State :=
  match t.slotAt e.pos with
  | none => t
  | some x =>
    if t.params.lingerBase = 0 then t.setSlot { x with linger := none }
    else
      match x.linger, t.groupAtPosition x with
      | some l, some g =>
        let judged := { l with length := periods (t.lingerLimit g) }
        if judged.due t.now then event (lingerExpire x) t else t.setSlot { x with linger := some judged }
      | none, some g => if oldBase = 0 then t.setSlot { x with linger := t.freshLinger x g } else t
      | _, none => t

theorem judgeLinger_eq (oldBase : Nat) (s : State) : judgeLinger oldBase s = s.locMap.foldl (judgeOne oldBase) s := rfl

/-- The judgement of a location leaves the state, or sets its slot's linger timer, or takes the timer's expiry. -/
theorem judgeOne_cases (oldBase : Nat) (t : State) (e : MapEntry) : judgeOne oldBase t e = t
    ∨ (∃ x timer, t.slotAt e.pos = some x ∧ judgeOne oldBase t e = t.setSlot { x with linger := timer })
    ∨ ∃ x, t.slotAt e.pos = some x ∧ judgeOne oldBase t e = event (lingerExpire x) t := by
  unfold judgeOne; split
  · exact .inl rfl
  · rename_i x hx
    split
    · exact .inr (.inl ⟨x, none, hx, rfl⟩)
    · split
      · simp only; split
        · exact .inr (.inr ⟨x, hx, rfl⟩)
        · exact .inr (.inl ⟨x, _, hx, rfl⟩)
      · split
        · exact .inr (.inl ⟨x, _, hx, rfl⟩)
        · exact .inl rfl
      · exact .inl rfl

theorem judgeOne_isSome (oldBase : Nat) (t : State) (e : MapEntry) (pos : SlotPos) :
    ((judgeOne oldBase t e).slotAt pos).isSome = (t.slotAt pos).isSome := by
  rcases judgeOne_cases oldBase t e with h | ⟨x, timer, -, h⟩ | ⟨x, -, h⟩ <;> rw [h]
  · exact setSlot_isSome _ _ _
  · rw [event_slotAt, lingerExpire_isSome]; rfl

theorem applyLingerChange_isSome (old : Params) (s : State) (pos : SlotPos) :
    ((applyLingerChange old s).slotAt pos).isSome = (s.slotAt pos).isSome := by
  have all : ∀ (es : List MapEntry) (t : State), ((es.foldl (judgeOne old.lingerBase) t).slotAt pos).isSome = (t.slotAt pos).isSome := by
    intro es
    induction es with
    | nil => exact fun _ => rfl
    | cons e es ih => exact fun t => (ih _).trans (judgeOne_isSome _ _ _ _)
  unfold applyLingerChange; split
  · rw [judgeLinger_eq]; exact all _ _
  · rfl

/-! ## The reply (R30 to R32) -/

/-- An addressed reply is stored as this station's own frame, or REPLY_DROP sets. -/
theorem answer_stores {r : Request} {a : Answer} {u : State} (hb : r.broadcast = false) (h0 : u.station ≠ 0) :
    (answer r a u).flagSet .replyDrop = true
      ∨ ∃ x ∈ newFrames u (answer r a u), x.requester = some .requestHandler ∧ x.frame = u.ownFrame r.origin 0x80 true (replyPayload r a) := by
  by_cases ht : RelayTakes (replyPayload r a).length u
  · right
    obtain ⟨t, e⟩ := originate_takes (dest := r.origin) (kind := replyCodeKind) (express := true) (requester := .requestHandler) ht
    have : answer r a u = t := by simp [answer, hb, e]
    rw [this, (originate_sends e).2]
    exact ⟨_, List.mem_singleton.2 rfl, rfl, rfl⟩
  · left
    have : answer r a u = setFlag .replyDrop u := by
      simp [answer, hb, originate_refuses (dest := r.origin) (kind := replyCodeKind) (express := true) (requester := .requestHandler) h0 ht]
    simp [this]

/-- The reply of an event whose earlier effects sent frames too. -/
theorem endEvent_stores {r : Request} {a : Answer} {s u : State} (h : SendsOwn s u) (hb : r.broadcast = false) (h0 : s.station ≠ 0) :
    (endEvent (answer r a u)).flagSet .replyDrop = true
      ∨ ∃ x ∈ newFrames s (endEvent (answer r a u)), x.requester = some .requestHandler
        ∧ x.frame = u.ownFrame r.origin 0x80 true (replyPayload r a) := by
  have reply := answer_sendsOwn r a u
  rcases answer_stores (a := a) hb (h.station.symm ▸ h0) with hd | ⟨x, hx, hq, hf⟩
  · exact .inl (by rw [endEvent_flagSet _ (by decide)]; exact hd)
  · refine .inr ⟨x, ?_, hq, hf⟩
    rw [newFrames_trans (h.trans reply).own.1 (endEvent_sendsOwn _).own.1, newFrames_trans h.own.1 reply.own.1]
    simp [hx]

/-! ## CONFIG_SET (R33, R34) -/

/-- A CONFIG_SET that its check refuses is answered so, and changes nothing. -/
theorem configSet_refused {r : Request} {s : State} {index : Nat} (hc : Carried .configSet r s) (h : badParameter r = some index) :
    ∃ t, exec .configSet s = .next t ∧ Answered [] r .badField [BitVec.ofNat 8 index] s t := by
  have hap : applyConfigSet r (taken s) = (Answer.refuseAt .badField index, taken s) := by unfold applyConfigSet; rw [h]
  have hans := carryForward_reads (apply := applyConfigSet) hc (by rw [hap])
  rw [hap] at hans
  exact ⟨_, rfl, hans⟩

theorem badParameter_adaptive {r : Request} (h3 : r.names 3 = true) (h : 2 ≤ r.field 5 1) : badParameter r = some 4 := by
  have : decide (2 ≤ r.adaptiveByte) = true := decide_eq_true h
  simp [badParameter, h3, this]

theorem badParameter_target {r : Request} (h3 : r.names 3 = true → r.field 5 1 < 2) (h7 : r.names 7 = true)
    (h : r.field 10 1 < 48 ∨ 55 < r.field 10 1) : badParameter r = some 8 := by
  have adaptive : (r.names 3 && decide (2 ≤ r.adaptiveByte)) = false := by
    cases h : r.names 3 with
    | false => rfl
    | true => exact decide_eq_false (not_le.2 (h3 h))
  have target : isSupervisor r.targetByte = false := by
    refine eq_false_of_ne_true fun ht => ?_
    have range : 48 ≤ r.field 10 1 ∧ r.field 10 1 ≤ 55 := (isSupervisor_iff _).1 ht
    omega
  simp [badParameter, adaptive, h7, target]

/-- The state before the silence limit is judged: the linger timers and the packer have been. -/
def configJudged (r : Request) (s : State) : State := applyCombineChange s.params (applyLingerChange s.params (configHeld r s))

theorem configDone_eq (r : Request) (s : State) :
    configDone r s = applyMissChange s.params (applySilenceChange s.params (configJudged r s)) := rfl

theorem configJudged_only (r : Request) (s : State) : OnlyChanges (displayParts ++ eventParts) (configHeld r s) (configJudged r s) :=
  (applyLingerChange_parts _ _).trans ((applyCombineChange_parts _ _).mono (by decide))

theorem configDone_since (r : Request) (s : State) : (configDone r s).silenceSince
    = if s.params.silence = 0 ∧ (newParams r s.params).silence ≠ 0 then s.now else s.silenceSince := by
  have frame := configJudged_only r s
  have params : (configJudged r s).params = newParams r s.params := frame.keeps (p := .params) (by decide)
  have now : (configJudged r s).now = s.now := frame.keeps (p := .moment) (by decide)
  have since : (configJudged r s).silenceSince = s.silenceSince := frame.keeps (p := .silence) (by decide)
  rw [configDone_eq, show (applyMissChange _ _).silenceSince = _ from (applyMissChange_parts _ _).keeps (p := .silence) (by decide),
    applySilenceChange_since, startSilence_since, params, now, since]

theorem configDone_orphaned (r : Request) (s : State) : (configDone r s).orphaned = true ↔ s.orphaned = true
    ∨ ((newParams r s.params).silence ≠ s.params.silence ∧ (newParams r s.params).silence ≠ 0
      ∧ (configDone r s).silenceSince + (newParams r s.params).silence * 16000000 ≤ s.now) := by
  have frame := configJudged_only r s
  have params : (configJudged r s).params = newParams r s.params := frame.keeps (p := .params) (by decide)
  have now : (configJudged r s).now = s.now := frame.keeps (p := .moment) (by decide)
  have orphaned : (configJudged r s).orphaned = s.orphaned := frame.keeps (p := .orphaned) (by decide)
  have since : (configDone r s).silenceSince = (startSilence s.params (configJudged r s)).silenceSince := by
    rw [configDone_eq, show (applyMissChange _ _).silenceSince = _ from (applyMissChange_parts _ _).keeps (p := .silence) (by decide),
      applySilenceChange_since]
  rw [configDone_eq, applyMissChange_orphaned_eq, applySilenceChange_orphaned, params, now, orphaned, ← since]; rfl

/-- A CONFIG_SET that makes the aisle ORPHANED sets the live flag and holds every group. -/
theorem configDone_held {r : Request} {s : State} (h : s.orphaned = false) (h' : (configDone r s).orphaned = true) :
    (configDone r s).flagSet .orphaned = true
      ∧ ∀ e ∈ s.locMap, (s.slotAt e.pos).isSome = true → GroupsHeld e.code (configDone r s) := by
  have frame := configJudged_only r s
  have start := startSilence_only s.params (configJudged r s)
  have orphaned : (configJudged r s).orphaned = s.orphaned := frame.keeps (p := .orphaned) (by decide)
  rw [configDone_eq, applyMissChange_orphaned_eq] at h'
  have enters := applySilenceChange_enters (orphaned.trans h) h'
  rw [configDone_eq, enters]
  refine ⟨?_, fun e he hx => ?_⟩
  · rw [applyMissChange_flagSet _ _ (by decide) (by decide)]; exact (enterOrphaned_flags _).2.1
  · have map : (startSilence s.params (configJudged r s)).locMap = s.locMap :=
      (frame.keeps (p := .locations) (by decide)).trans (start.keeps (by decide))
    have slots : (startSilence s.params (configJudged r s)).slots = (applyLingerChange s.params (configHeld r s)).slots :=
      ((applyCombineChange_parts s.params _).keeps (p := .slots) (by decide)).trans (start.keeps (by decide))
    have held := enterOrphaned_held (s := startSilence s.params (configJudged r s)) (e := e) (by rw [map]; exact he) (by
      have := applyLingerChange_isSome s.params (configHeld r s) e.pos
      unfold State.slotAt at this ⊢
      rw [slots, this]; exact hx)
    exact (applyMissChange_orphaned s.params (codes := [e.code]) ⟨(enterOrphaned_flags _).1, by simpa using held⟩).2 e.code (by simp)

/-! Each effect is none where its parameter has not changed (R34). -/

section
variable {old : Params} {u : State}

theorem applyLingerChange_same (hb : u.params.lingerBase = old.lingerBase) (ha : u.params.adaptive = old.adaptive) :
    applyLingerChange old u = u := if_neg (by simp [hb, ha])

theorem applyCombineChange_same (h : u.params.combine = old.combine) : applyCombineChange old u = u := if_neg (by simp [h])

theorem applySilenceChange_same (h : u.params.silence = old.silence) : applySilenceChange old u = u := by
  have start : startSilence old u = u := if_neg (by simp [h])
  rw [applySilenceChange_eq, start]; exact if_neg (by simp [h])

theorem applyMissChange_same (h : u.params.missLimit = old.missLimit) : applyMissChange old u = u := if_pos h

end

theorem configHeld_params (r : Request) (s : State) : (configHeld r s).params = newParams r s.params := rfl

/-- Where no parameter with an effect on what runs has changed, a CONFIG_SET has none. -/
theorem configDone_same {r : Request} {s : State} (hl : (newParams r s.params).lingerBase = s.params.lingerBase)
    (ha : (newParams r s.params).adaptive = s.params.adaptive) (hc : (newParams r s.params).combine = s.params.combine)
    (hs : (newParams r s.params).silence = s.params.silence) (hm : (newParams r s.params).missLimit = s.params.missLimit) :
    configDone r s = configHeld r s := by
  rw [configDone_eq, configJudged, applyLingerChange_same hl ha, applyCombineChange_same hc, applySilenceChange_same hs,
    applyMissChange_same hm]

/-- Settles O20: the effects leave the parameters, and each is read off where it is brought about. -/
theorem configSetClampsAndApplies : Obligations.ConfigSetClampsAndApplies := by
  intro r s hc body
  refine ⟨fun h3 h => configSet_refused hc (badParameter_adaptive h3 h), fun h3 h7 h => configSet_refused hc (badParameter_target h3 h7 h),
    fun h3 h7 => ⟨_, configSet_taken hc (badParameter_passes h3 h7), ?_⟩⟩
  have reply := answer_only r (Answer.ok (newParams r s.params).body) (configDone r s)
  have stop := endEvent_only (answer r (Answer.ok (newParams r s.params).body) (configDone r s))
  have behind := (reply.mono (qs := eventParts) (by decide)).trans (stop.mono (by decide))
  have done := configDone_only r s
  have own := configDone_sendsOwn r s
  generalize ht : endEvent (answer r (Answer.ok (newParams r s.params).body) (configDone r s)) = t at behind
  have params : t.params = newParams r s.params := Eq.trans (behind.keeps (p := .params) (by decide)) (configDone_params r s)
  have since : t.silenceSince = (configDone r s).silenceSince := behind.keeps (p := .silence) (by decide)
  have orphaned : t.orphaned = (configDone r s).orphaned := behind.keeps (p := .orphaned) (by decide)
  have numeric : ∀ (b : Bool) (most n old : Nat), (if b then clampTo 0 most n else old) = if b then min most n else old := by
    intro b most n old; simp [clampTo]
  refine ⟨Eq.trans (behind.keeps (p := .admitted) (by decide)) (done.keeps (p := .admitted) (by decide)), ?_⟩
  rw [params, since, orphaned]
  refine ⟨rfl, rfl, numeric _ _ _ _, rfl, numeric _ _ _ _, numeric _ _ _ _, rfl, rfl, rfl, configDone_since r s, configDone_orphaned r s,
    fun h' h => ?_, ?_, ?_, fun hb h0 => ?_, fun hl ha hco hs hm => ?_⟩
  · obtain ⟨flag, held⟩ := configDone_held h h'
    have groups : t.groups = (configDone r s).groups := behind.keeps (p := .groups) (by decide)
    refine ⟨?_, fun e he hx g hg hl => (held e he hx g (groups ▸ hg) hl).1⟩
    rw [← ht, endEvent_flagSet _ (by decide), answer_flagSet _ _ _ (by decide)]; exact flag
  · exact (((configHeld_only r s).mono (by decide)).trans (done.mono (by decide))).trans (behind.mono (by decide))
  · rw [← ht]; exact ((own.trans (answer_sendsOwn _ _ _)).trans (endEvent_sendsOwn _)).own
  · have stores := endEvent_stores (a := Answer.ok (newParams r s.params).body) own hb h0
    rw [ht] at stores
    refine stores.imp id ?_
    rintro ⟨x, hx, hq, hf⟩
    have station : (configDone r s).station = s.station := own.station
    refine ⟨x, hx, hq, (configDone r s).seq, hf.trans ?_⟩
    simp only [State.ownFrame, station, configDone_params]; rfl
  · rw [← ht, configDone_same hl ha hco hs hm]
    exact (endEvent_answers (s := { s with params := newParams r s.params }) (apply := fun _ u => (Answer.ok (newParams r s.params).body, u))
      (onlyChanges_refl _ _) (by simp) rfl).1

end Sys2Proof.Machine

/-!
PROOFS. CONFIG_SET: the combine timeout judged (O21).
-/

namespace Sys2Proof.Machine

open Sys2Proof

/-! ## A reply that brings no record -/

/-- A reply that is not due or that the relay takes ends its event. -/
theorem answer_quiet {r : Request} {a : Answer} {v : State} (hn : v.notes = EventNotes.empty)
    (h : r.broadcast = true ∨ v.station = 0 ∨ RelayTakes (4 + a.rest.length) v) :
    endEvent (answer r a v) = answer r a v ∧ OnlyChanges relayParts v (answer r a v) := by
  have sent : OnlyChanges relayParts v (answer r a v) := by
    have frame := originate_only r.origin replyCodeKind true .requestHandler (replyPayload r a) v
    unfold answer; split
    · exact onlyChanges_refl _ _
    · rename_i hb
      rcases h with h | h | h
      · exact absurd h hb
      · rw [originate_repeater h]; exact onlyChanges_refl _ _
      · obtain ⟨t, e⟩ := originate_takes (dest := r.origin) (kind := replyCodeKind) (express := true) (requester := .requestHandler)
          (payload := replyPayload r a) (s := v) (by rw [replyPayload_length]; exact h)
        rw [e] at frame ⊢
        exact frame
  exact ⟨endEvent_quiet (Eq.trans (sent.keeps (p := .notes) (by decide)) hn), sent⟩

theorem paramsBody_length (p : Params) : p.body.length = 10 := by simp [Params.body, beBytes]

/-! ## The cells that the packer takes (R18, R172) -/

/-- A judgement of the packer takes at most four cells for each eight records that wait, or part of eight. -/
theorem buildDue_cells (fuel : Nat) : ∀ s : State, s.freeCells ≤ (buildDue fuel s).freeCells + 4 * ((s.fifo.length + 7) / 8) := by
  have one : ∀ s : State, s.freeCells ≤ (requestReport s).2.freeCells + 4 := by
    intro s
    have len := reportPayload_length s
    rcases originate_cases s.params.target 0x81 (s.reportRecords.any Record.isAttention) .reportPacker s.reportPayload s with
      ⟨e, -⟩ | ⟨e, -⟩ | ⟨t, e, -, -, hc, hf, -⟩
    · rw [requestReport, e]; exact Nat.le_add_right _ _
    · rw [requestReport, e]; exact Nat.le_add_right _ _
    · rw [requestReport, e]
      unfold cellsFor at hc hf
      simp only
      omega
  have records : ∀ s : State, (requestReport s).2.fifo = s.fifo := fun s =>
    ((originate_only s.params.target 0x81 (s.reportRecords.any Record.isAttention) .reportPacker s.reportPayload s).keeps (p := .records)
      (by decide)).1
  induction fuel with
  | zero => exact fun s => Nat.le_add_right _ _
  | succ n ih =>
    intro s
    simp only [buildDue]; split
    · rename_i hd
      obtain ⟨k, hk⟩ := frameDue_length hd
      have cells := one s
      have fifo := records s
      rw [buildFrame_eq]
      revert cells fifo
      rcases requestReport s with ⟨o, t⟩
      intro cells fifo
      cases o with
      | refused => simp only [holdCombine] at cells ⊢; omega
      | accepted ref =>
        have next := ih (settleCombine { t with fifo := t.fifo.drop 8 })
        have short : (settleCombine { t with fifo := t.fifo.drop 8 }).fifo.length = s.fifo.length - 8 := by
          simp only [settleCombine, List.length_drop]; rw [fifo]
        have same : (settleCombine { t with fifo := t.fifo.drop 8 }).freeCells = t.freeCells := rfl
        simp only at cells ⊢
        omega
    · exact Nat.le_add_right _ _

/-! ## The oldest record's timer under a new timeout (R34, R171, log 36) -/

section
variable {r : Request} {s : State}

/-- The reply and the end of the event come behind the effects. -/
theorem configSet_behind (r : Request) (a : Answer) (s : State) :
    OnlyChanges eventParts (configDone r s) (endEvent (answer r a (configDone r s))) :=
  ((answer_only r a (configDone r s)).mono (by decide)).trans ((endEvent_only _).mono (by decide))

theorem configSet_params (r : Request) (a : Answer) (s : State) :
    (endEvent (answer r a (configDone r s))).params = newParams r s.params :=
  Eq.trans ((configSet_behind r a s).keeps (p := .params) (by decide)) (configDone_params r s)

theorem newParams_unnamed (h : ∀ k ∈ [2, 3, 5, 6, 7, 8], r.names k = false) :
    newParams r s.params = { s.params with
      rotation := (newParams r s.params).rotation, feedback := (newParams r s.params).feedback, combine := (newParams r s.params).combine } := by
  simp only [List.forall_mem_cons] at h
  obtain ⟨h2, h3, h5, h6, h7, h8, -⟩ := h
  simp [newParams, h2, h3, h5, h6, h7, h8]

/-- A CONFIG_SET of the combine timeout alone judges the packer and nothing else. -/
theorem configDone_combine (h : ∀ k ∈ [2, 3, 5, 6, 7, 8], r.names k = false) (hc : (newParams r s.params).combine ≠ s.params.combine) :
    configDone r s = judgePacker (rejudgeCombine (configHeld r s)) := by
  have hp := newParams_unnamed (s := s) h
  have linger : applyLingerChange s.params (configHeld r s) = configHeld r s :=
    applyLingerChange_same (by rw [configHeld_params, hp]) (by rw [configHeld_params, hp])
  have combine : applyCombineChange s.params (configHeld r s) = judgePacker (rejudgeCombine (configHeld r s)) := if_pos hc
  have params : (judgePacker (rejudgeCombine (configHeld r s))).params = newParams r s.params := by
    rw [← combine]; exact (applyCombineChange_parts _ _).keeps (p := .params) (by decide)
  rw [configDone_eq, configJudged, linger, combine, applySilenceChange_same (by rw [params, hp]),
    applyMissChange_same (by rw [params, hp])]

theorem rejudge_quiet : RelayQuiet s (rejudgeCombine (configHeld r s)) :=
  (configHeld_quiet r s).trans ((rejudgeCombine_only _).relayQuiet (by decide))

/-- The frame that the packer would build is the one of the state before: its target and hop count have not changed. -/
theorem rejudge_reportFrame (h : ∀ k ∈ [2, 3, 5, 6, 7, 8], r.names k = false) :
    (rejudgeCombine (configHeld r s)).reportFrame = s.reportFrame := by
  have hp := newParams_unnamed (s := s) h
  have target : (rejudgeCombine (configHeld r s)).params.target = s.params.target := by
    show (newParams r s.params).target = _; rw [hp]
  have hops : (rejudgeCombine (configHeld r s)).params.hops = s.params.hops := by
    show (newParams r s.params).hops = _; rw [hp]
  rw [State.reportFrame, target, rejudge_quiet.ownFrame hops]; rfl

variable {w : Waiting} {rest : List Waiting}

theorem rejudge_combine (hf : s.fifo = w :: rest) : (rejudgeCombine (configHeld r s)).combine =
    some ⟨w.entered, s.combineExpired || decide (w.entered + (newParams r s.params).combine * 16000 ≤ s.now)⟩ := by
  have : (configHeld r s).fifo = w :: rest := hf
  simp only [rejudgeCombine, this]
  rfl

theorem rejudge_due (hf : s.fifo = w :: rest) : (rejudgeCombine (configHeld r s)).frameDue = true ↔ 8 ≤ s.fifo.length
    ∨ (s.combineExpired = true ∨ w.entered + (newParams r s.params).combine * 16000 ≤ s.now) ∨ ∃ x ∈ s.fifo, x.record.isAttention = true := by
  have fifo : (rejudgeCombine (configHeld r s)).fifo = s.fifo := rfl
  have params : (rejudgeCombine (configHeld r s)).params = newParams r s.params := rfl
  have now : (rejudgeCombine (configHeld r s)).now = s.now := rfl
  rw [frameDue_iff, State.combineExpired, rejudge_combine hf, fifo, params, now, hf]
  simp
  tauto

/-- Settles the clauses of O21 on the combine timeout. -/
theorem configSet_combine {body : List Byte} (hn : ∀ k ∈ [2, 3, 5, 6, 7, 8], r.names k = false)
    (hc : (newParams r s.params).combine ≠ s.params.combine) (hp : PackerOk s) (hf : s.fifo = w :: rest)
    (hbody : (Answer.ok body).rest.length = 10) :
    let t := endEvent (answer r (Answer.ok body) (configDone r s))
    let elapsed := s.combineExpired = true ∨ w.entered + (newParams r s.params).combine * 16000 ≤ s.now
    let due := 8 ≤ s.fifo.length ∨ elapsed ∨ ∃ x ∈ s.fifo, x.record.isAttention = true
    (due → RelayTakes s.reportPayload.length s → r.broadcast = true ∨ 17 ≤ s.freeCells → t.fifo <:+ s.fifo.drop 8
      ∧ SendsFirst .reportPacker s.reportFrame s t) ∧
    (due → s.station ≠ 0 → ¬ RelayTakes s.reportPayload.length s → r.broadcast = true → t.fifo = s.fifo
      ∧ t.combine = some { since := w.entered, expired := decide elapsed }) ∧
    (¬ due → r.broadcast = true ∨ RelayTakes 14 s → t.fifo = s.fifo ∧ t.combine = some { since := w.entered, expired := false }) := by
  intro t elapsed due
  have judged := configDone_combine (s := s) hn hc
  have quiet := rejudge_quiet (r := r) (s := s)
  have hdue : (rejudgeCombine (configHeld r s)).frameDue = true ↔ due := rejudge_due hf
  have timer := rejudge_combine (r := r) hf
  have notes : (rejudgeCombine (configHeld r s)).notes = EventNotes.empty := rfl
  have payload : (rejudgeCombine (configHeld r s)).reportPayload = s.reportPayload := rfl
  have ending : ∀ v : State, configDone r s = v → v.notes = EventNotes.empty → r.broadcast = true ∨ v.station = 0 ∨ RelayTakes 14 v →
      OnlyChanges relayParts v t ∧ t = answer r (Answer.ok body) v := by
    intro v hv hvn hr
    obtain ⟨he, ho⟩ := answer_quiet (a := Answer.ok body) hvn (by rw [hbody]; exact hr)
    have : t = answer r (Answer.ok body) v := by simp only [t, hv]; exact he
    exact ⟨this ▸ ho, this⟩
  refine ⟨fun hd ht hroom => ?_, fun hd h0 ht hb => ?_, fun hd hr => ?_⟩
  · have takes : RelayTakes (rejudgeCombine (configHeld r s)).reportPayload.length (rejudgeCombine (configHeld r s)) := by
      rw [payload, quiet.takes]; exact ht
    obtain ⟨fifo, first⟩ := judgePacker_sends (hdue.2 hd) takes
    rw [← judged] at fifo first
    rw [rejudge_reportFrame hn] at first
    have first := first.after quiet
    have own := configDone_sendsOwn r s
    have room : r.broadcast = true ∨ (configDone r s).station = 0 ∨ RelayTakes 14 (configDone r s) := by
      refine hroom.imp id fun free => .inr ⟨own.station ▸ ht.1, (keeps_up own.lines).2 ht.2.1, ?_⟩
      have cells := buildDue_cells s.fifo.length (rejudgeCombine (configHeld r s))
      have length : s.fifo.length ≤ 32 := hp.1
      have after : buildDue s.fifo.length (rejudgeCombine (configHeld r s)) = configDone r s := judged.symm
      have before : (rejudgeCombine (configHeld r s)).freeCells = s.freeCells := quiet.store.1
      have waits : (rejudgeCombine (configHeld r s)).fifo.length = s.fifo.length := rfl
      rw [after, before, waits] at cells
      unfold cellsFor
      omega
    have notes' : (configDone r s).notes = EventNotes.empty := by
      rw [judged]; exact Eq.trans ((judgePacker_only _).keeps (p := .notes) (by decide)) notes
    obtain ⟨frame, ht⟩ := ending _ rfl notes' room
    refine ⟨?_, ht ▸ first.andThen own.lines own.station (answer_sendsOwn r (Answer.ok body) (configDone r s)).own⟩
    rw [(frame.keeps (p := .records) (by decide)).1]
    exact fifo
  · have held : configDone r s = holdCombine (rejudgeCombine (configHeld r s)) := by
      rw [judged, judgePacker_refused (hdue.2 hd) (quiet.station ▸ h0) (by rw [payload, quiet.takes]; exact ht)]
    obtain ⟨frame, -⟩ := ending _ held notes (.inl hb)
    obtain ⟨fifo, combine⟩ := frame.keeps (p := .records) (by decide)
    refine ⟨fifo, combine.trans ?_⟩
    have passed : ∀ v : State, v.params = newParams r s.params → v.now = s.now → v.combineElapsed w.entered =
        decide (w.entered + (newParams r s.params).combine * 16000 ≤ s.now) := by
      intro v hp hn; rw [State.combineElapsed, hp, hn]; rfl
    have spent : ∀ a b : Bool, ((a || b) || b) = (a || b) := by decide
    simp only [holdCombine, timer, Option.map_some, passed (rejudgeCombine (configHeld r s)) rfl rfl, spent]
    simp [elapsed]
  · have idle : configDone r s = rejudgeCombine (configHeld r s) := by
      rw [judged, judgePacker_idle (eq_false_of_ne_true (mt hdue.1 hd))]
    obtain ⟨frame, -⟩ := ending _ idle notes (hr.imp id fun h => .inr ((quiet.takes _).2 h))
    obtain ⟨fifo, combine⟩ := frame.keeps (p := .records) (by decide)
    refine ⟨fifo, combine.trans (timer.trans ?_)⟩
    have hel : ¬ elapsed := fun h => hd (.inr (.inl h))
    simp only [elapsed, not_or] at hel
    simp [hel]

end

end Sys2Proof.Machine

/-!
PROOFS. CONFIG_SET: the linger timers judged (O21).
-/

namespace Sys2Proof.Machine

open Sys2Proof

/-! ## Groups whose linger flag sets (R116) -/

/-- A change of groups that sets linger flags and does nothing else. -/
def LingerSet (φ : Group → Group) : Prop := ∀ g, φ g = g ∨ φ g = { g with linger := true }

theorem lingerSet_id : LingerSet id := fun _ => .inl rfl

theorem LingerSet.comp {φ ψ : Group → Group} (hψ : LingerSet ψ) (hφ : LingerSet φ) : LingerSet (ψ ∘ φ) := by
  intro g
  rcases hφ g with h | h <;> rcases hψ (φ g) with k | k <;> simp only [Function.comp_apply, k] <;> simp [h]

theorem LingerSet.place {φ : Group → Group} (h : LingerSet φ) : PlaceKept φ := by
  intro g
  rcases h g with e | e <;> rw [e] <;> exact ⟨rfl, rfl, rfl⟩

/-- A group whose flag is set is left as it is. -/
theorem LingerSet.marked {φ : Group → Group} (h : LingerSet φ) {g : Group} (hg : g.linger = true) : φ g = g := by
  rcases h g with e | e
  · exact e
  · rw [e]; cases g; simp_all

theorem find_map_group {φ : Group → Group} (h : ∀ g, (φ g).id = g.id) (i : Nat) (gs : List Group) :
    (gs.map φ).find? (fun g => g.id == i) = (gs.find? (fun g => g.id == i)).map φ := by
  rw [List.find?_map]; congr 2; funext g; simp [h]

theorem groupOf_map {s t : State} {φ : Group → Group} (h : PlaceKept φ) (hg : t.groups = s.groups.map φ) (i : Nat) :
    t.groupOf i = (s.groupOf i).map φ := by
  unfold State.groupOf; rw [hg]; exact find_map_group (fun g => (h g).1) i _

theorem groupOf_mem {s : State} {i : Nat} {g : Group} (h : s.groupOf i = some g) : g ∈ s.groups ∧ g.id = i :=
  ⟨List.mem_of_find?_eq_some h, by simpa using List.find?_some h⟩

/-- A group put in place of a held one is the one found there. -/
theorem groupOf_setGroup {s : State} {y g : Group} (h : s.groupOf y.id = some g) : (s.setGroup y).groupOf y.id = some y := by
  have ids : ∀ k : Group, (if k.id = y.id then y else k).id = k.id := by
    intro k; split
    · rename_i hk; exact hk.symm
    · rfl
  unfold State.groupOf State.setGroup
  rw [find_map_group ids, show s.groups.find? (fun g => g.id == y.id) = some g from h, Option.map_some, if_pos (groupOf_mem h).2]

/-! ## Some locations judged -/

/-- The group at the position of a location's slot is one of the location's own. -/
def Placed (d : MapEntry) (t : State) : Prop := ∀ x g, t.slotAt d.pos = some x → t.groupAtPosition x = some g → g.loc = d.code

/-- From `s` to `t` the linger timers of some locations have been judged: no slot changes but theirs, and no group but theirs. -/
structure Judged (ds : List MapEntry) (s t : State) : Prop where
  frame : OnlyChanges (displayParts ++ eventParts) s t
  slots : ∀ pos, pos ∉ ds.map (·.pos) → t.slotAt pos = s.slotAt pos
  groups : ∃ φ, LingerSet φ ∧ t.groups = s.groups.map φ ∧ ∀ g ∈ s.groups, g.loc ∉ ds.map (·.code) → φ g = g

namespace Judged

variable {ds es : List MapEntry} {s t u : State}

theorem still (h : OnlyChanges (displayParts ++ eventParts) s t) (hs : ∀ pos, pos ∉ ds.map (·.pos) → t.slotAt pos = s.slotAt pos)
    (hg : t.groups = s.groups) : Judged ds s t := ⟨h, hs, id, lingerSet_id, by rw [hg, List.map_id], fun _ _ _ => rfl⟩

theorem refl (s : State) : Judged [] s s := still (onlyChanges_refl _ s) (fun _ _ => rfl) rfl

theorem trans (h : Judged ds s t) (k : Judged es t u) : Judged (ds ++ es) s u := by
  obtain ⟨φ, hφ, hg, hφf⟩ := h.groups
  obtain ⟨ψ, hψ, kg, kψf⟩ := k.groups
  refine ⟨h.frame.trans k.frame, fun pos hp => ?_, ψ ∘ φ, hψ.comp hφ, by rw [kg, hg, List.map_map], fun g hm hl => ?_⟩
  · simp only [List.map_append, List.mem_append, not_or] at hp
    exact (k.slots pos hp.2).trans (h.slots pos hp.1)
  · simp only [List.map_append, List.mem_append, not_or] at hl
    have same := hφf g hm hl.1
    rw [Function.comp_apply, same]
    exact kψf g (hg ▸ List.mem_map.2 ⟨g, hm, same⟩) hl.2

theorem ids (h : Judged ds s t) : t.groups.map (·.id) = s.groups.map (·.id) := by
  obtain ⟨φ, hφ, hg, -⟩ := h.groups
  rw [hg, List.map_map]
  exact List.map_congr_left fun g _ => (hφ.place g).1

/-- The group at the position of a slot that has not been judged is as it was, but for its flag. -/
theorem placed (h : Judged ds s t) {d : MapEntry} (hd : d.pos ∉ ds.map (·.pos)) (hp : Placed d s) : Placed d t := by
  intro x g hx hg
  obtain ⟨φ, hφ, hgs, -⟩ := h.groups
  rw [h.slots _ hd] at hx
  obtain ⟨i, hi, hgi⟩ := Option.bind_eq_some_iff.1 hg
  rw [groupOf_map hφ.place hgs] at hgi
  obtain ⟨g', hg', rfl⟩ := Option.map_eq_some_iff.1 hgi
  rw [(hφ.place g').2.2]
  exact hp x g' hx (Option.bind_eq_some_iff.2 ⟨i, hi, hg'⟩)

/-- The group at the position of a slot of a location that has not been judged is as it was. -/
theorem position (h : Judged ds s t) {d : MapEntry} (hd : d.code ∉ ds.map (·.code)) (hp : Placed d s) {x : SlotState}
    (hx : s.slotAt d.pos = some x) : t.groupAtPosition x = s.groupAtPosition x := by
  obtain ⟨φ, hφ, hgs, hf⟩ := h.groups
  unfold State.groupAtPosition
  cases hi : x.position with
  | none => rfl
  | some i =>
    show t.groupOf i = s.groupOf i
    rw [groupOf_map hφ.place hgs]
    cases hg : s.groupOf i with
    | none => rfl
    | some g =>
      have loc : g.loc = d.code := hp x g hx (by unfold State.groupAtPosition; rw [hi]; exact hg)
      exact congrArg some (hf g (groupOf_mem hg).1 (loc ▸ hd))

end Judged

/-! ## One location judged -/

section
variable {u : State} {x : SlotState} {g : Group} {oldBase : Nat} {e : MapEntry}

/-- The slot of a linger timer that has expired for a group (R116). -/
def lingered (x : SlotState) (g : Group) : SlotState :=
  { x with linger := none, lingered := x.lingered.filter (· != g.id) ++ [g.id] }

/-- The display before the shadow of an expired timer's slot is derived. -/
def lingerShown (x : SlotState) (g : Group) (u : State) : State := (u.setGroup { g with linger := true }).setSlot (lingered x g)

theorem lingerExpire_eq (hg : u.groupAtPosition x = some g) :
    lingerExpire x u = offer (.linger g.id g.picker g.loc u.clock) (renewShadow x.pos (lingerShown x g u)) := by
  unfold lingerExpire; rw [hg]; rfl

theorem lingerShown_only (x : SlotState) (g : Group) (u : State) : OnlyChanges displayParts u (renewShadow x.pos (lingerShown x g u)) :=
  (((setGroup_only _ _).mono (by decide)).trans ((setSlot_only _ _).mono (by decide))).trans ((renewShadow_only _ _).mono (by decide))

theorem event_groups (f : State → State) (u : State) : (event f u).groups = (f (beginEvent u)).groups :=
  (endEvent_only _).keeps (p := .groups) (by decide)

theorem lingerEvent_groups (hg : u.groupAtPosition x = some g) :
    (event (lingerExpire x) u).groups = (u.setGroup { g with linger := true }).groups := by
  have hg' : (beginEvent u).groupAtPosition x = some g := hg
  rw [event_groups, lingerExpire_eq hg',
    show (offer _ _).groups = _ from (offer_only _ _).keeps (p := .groups) (by decide), renewShadow_groups]
  rfl

/-- The slot after a linger timer's expiry: its timer is stopped, the group has lingered, and the shadow is derived (R116). -/
theorem lingerEvent_slotAt (hx : u.slotAt x.pos = some x) (hg : u.groupAtPosition x = some g) :
    (event (lingerExpire x) u).slotAt x.pos =
        some { lingered x g with shadow := (event (lingerExpire x) u).deriveShadow (lingered x g) }
      ∧ ∀ pos, pos ≠ x.pos → (event (lingerExpire x) u).slotAt pos = u.slotAt pos := by
  have hg' : (beginEvent u).groupAtPosition x = some g := hg
  have frame := event_only (ps := displayParts ++ [.records, .flags, .notes]) (s := u) (lingerExpire_only x)
  have held : (lingerShown x g (beginEvent u)).slotAt x.pos = some (lingered x g) :=
    setSlot_slotAt (y := lingered x g) (congrArg Option.isSome hx)
  have shadow : (event (lingerExpire x) u).deriveShadow (lingered x g) = (lingerShown x g (beginEvent u)).deriveShadow (lingered x g) :=
    deriveShadow_congr (lingerEvent_groups hg) (frame.keeps (p := .pickers) (by decide)) (frame.keeps (p := .locations) (by decide)) _
  refine ⟨?_, fun pos hp => ?_⟩
  · rw [shadow, event_slotAt, lingerExpire_eq hg', offer_slotAt, (renewShadow_slotAt held).1]
  · rw [event_slotAt, lingerExpire_eq hg', offer_slotAt, renewShadow_slotAt_other _ (Ne.symm hp)]
    exact setSlot_slotAt_other _ _ (Ne.symm hp)

/-- What the judgement of a location comes to, by what its slot holds (R34, R114, R115). -/
theorem judgeOne_base (hx : u.slotAt e.pos = some x) (h0 : u.params.lingerBase = 0) :
    judgeOne oldBase u e = u.setSlot { x with linger := none } := by
  unfold judgeOne; rw [hx]; exact if_pos h0

theorem judgeOne_vacant (hx : u.slotAt e.pos = some x) (h0 : u.params.lingerBase ≠ 0) (hg : u.groupAtPosition x = none) :
    judgeOne oldBase u e = u := by
  unfold judgeOne; rw [hx]; simp only [if_neg h0, hg]

theorem judgeOne_stopped (hx : u.slotAt e.pos = some x) (h0 : u.params.lingerBase ≠ 0) (hg : u.groupAtPosition x = some g)
    (hl : x.linger = none) :
    judgeOne oldBase u e = if oldBase = 0 then u.setSlot { x with linger := u.freshLinger x g } else u := by
  unfold judgeOne; rw [hx]; simp only [if_neg h0, hg, hl]

theorem judgeOne_running {l : Timer} (hx : u.slotAt e.pos = some x) (h0 : u.params.lingerBase ≠ 0) (hg : u.groupAtPosition x = some g)
    (hl : x.linger = some l) :
    judgeOne oldBase u e = if l.since + u.lingerLimit g * 16000 ≤ u.now then event (lingerExpire x) u
      else u.setSlot { x with linger := some { l with length := u.lingerLimit g * 16000 } } := by
  unfold judgeOne; rw [hx]; simp only [if_neg h0, hg, hl, Timer.due, decide_eq_true_eq]; rfl

/-- The judgement of one location touches its own slot, and of the groups the one at its position. -/
theorem judgeOne_judged (hn : (u.groups.map (·.id)).Nodup) (hp : Placed e u) : Judged [e] u (judgeOne oldBase u e) := by
  have away : ∀ pos, pos ∉ [e].map (·.pos) → pos ≠ e.pos := by simp
  rcases judgeOne_cases oldBase u e with h | ⟨x, timer, hx, h⟩ | ⟨x, hx, h⟩ <;> rw [h]
  · exact .still (onlyChanges_refl _ _) (fun _ _ => rfl) rfl
  · refine .still ((setSlot_only _ _).mono (by decide)) (fun pos hpos => setSlot_slotAt_other _ _ ?_) rfl
    show x.pos ≠ pos
    rw [slotAt_pos hx]; exact (away pos hpos).symm
  · have hpos := slotAt_pos hx
    have frame : OnlyChanges (displayParts ++ eventParts) u (event (lingerExpire x) u) :=
      (event_only (ps := displayParts ++ [.records, .flags, .notes]) (lingerExpire_only x)).mono (by decide)
    cases hg : u.groupAtPosition x with
    | none =>
      have cleared : lingerExpire x (beginEvent u) = (beginEvent u).setSlot { x with linger := none } := by
        have hg' : (beginEvent u).groupAtPosition x = none := hg
        unfold lingerExpire; rw [hg']
      refine .still frame (fun pos hp' => ?_) (by rw [event_groups, cleared]; rfl)
      rw [event_slotAt, cleared]
      exact setSlot_slotAt_other _ _ (by show x.pos ≠ pos; rw [hpos]; exact (away pos hp').symm)
    | some g =>
      obtain ⟨-, others⟩ := lingerEvent_slotAt (hpos ▸ hx) hg
      have mem : g ∈ u.groups := by
        obtain ⟨i, -, hgi⟩ := Option.bind_eq_some_iff.1 hg
        exact (groupOf_mem hgi).1
      refine ⟨frame, fun pos hp' => others pos (hpos ▸ away pos hp'), fun h => if h.id = g.id then { h with linger := true } else h,
        fun h => ?_, ?_, fun h _ hl => if_neg fun he => ?_⟩
      · by_cases he : h.id = g.id
        · exact .inr (if_pos he)
        · exact .inl (if_neg he)
      · rw [lingerEvent_groups hg]
        refine List.map_congr_left fun h hm => ?_
        by_cases he : h.id = g.id
        · rw [group_unique hn hm mem he]
        · exact (if_neg he).trans (if_neg he).symm
      · rename_i hm
        rw [group_unique hn hm mem he] at hl
        exact hl (by simp [hp x g hx hg])

/-- A list of locations judged one after the other, each in its own slot (R34). -/
theorem judgeAll_judged : ∀ (es : List MapEntry) {u : State}, (es.map (·.pos)).Nodup → (u.groups.map (·.id)).Nodup →
    (∀ d ∈ es, Placed d u) → Judged es u (es.foldl (judgeOne oldBase) u) := by
  intro es
  induction es with
  | nil => exact fun _ _ _ => .refl _
  | cons d es ih =>
    intro u hnd hn hp
    rw [List.map_cons, List.nodup_cons] at hnd
    have one := judgeOne_judged (oldBase := oldBase) hn (hp d List.mem_cons_self)
    refine one.trans (ih hnd.2 (by rw [one.ids]; exact hn) fun d' hd' => one.placed (fun hm => ?_) (hp d' (List.mem_cons_of_mem _ hd')))
    simp only [List.map_cons, List.map_nil, List.mem_singleton] at hm
    exact hnd.1 (hm ▸ List.mem_map.2 ⟨d', hd', rfl⟩)

end

/-! ## The packer while linger timers expire (R116, R170, R171, log 37) -/

/-- Room for more records is room for fewer. -/
theorem PackerQuiet.fewer {n m : Nat} {u : State} (h : PackerQuiet n u) (hm : m ≤ n) : PackerQuiet m u :=
  ⟨lt_of_le_of_lt (Nat.add_le_add_left hm _) h.1, h.2⟩

theorem PackerQuiet.idle {n : Nat} {u : State} (h : PackerQuiet n u) : u.frameDue = false := by
  obtain ⟨few, records, expired, -, -⟩ := h
  refine eq_false_of_ne_true fun hd => ?_
  have eight : Config.recordsPerFrame = 8 := rfl
  rcases (frameDue_iff u).1 hd with hl | ⟨w, hw, ht⟩ | ⟨-, he⟩ | ⟨w, hw, ha⟩
  · omega
  · have := (records w (List.mem_of_head? hw)).2
    omega
  · rw [expired] at he; cases he
  · rw [(records w hw).1] at ha; cases ha

theorem PackerQuiet.of_keeps {n : Nat} {u v : State} {ps : List Part} (h : PackerQuiet n u) (hv : OnlyChanges ps u v)
    (hp : ∀ p ∈ [Part.records, .params, .moment, .counters], p ∉ ps) : PackerQuiet n v := by
  obtain ⟨fifo, combine⟩ := hv.keeps (hp .records (by simp))
  have params : v.params = u.params := hv.keeps (hp .params (by simp))
  have now : v.now = u.now := hv.keeps (hp .moment (by simp))
  have counters : v.counters = u.counters := hv.keeps (hp .counters (by simp))
  unfold PackerQuiet State.combineExpired at *
  rw [fifo, combine, params, now, counters]; exact h

/-- A record that is no ATTENTION record enters, and leaves no frame due. -/
theorem offer_quiet {n : Nat} {u : State} {rec : Record} (h : PackerQuiet (n + 1) u) (hr : rec.isAttention = false) :
    PackerQuiet n (offer rec u) ∧ (offer rec u).fifo = u.fifo ++ [{ record := rec, entered := u.now }]
      ∧ (offer rec u).notes = { u.notes with entered := true } := by
  obtain ⟨few, records, expired, timeout, counters⟩ := h
  have eight : Config.recordsPerFrame = 8 := rfl
  obtain ⟨fifo, -, notes⟩ := offer_places rec (s := u) (by omega)
  have offered : offer rec u = { u with
      fifo := u.fifo ++ [{ record := rec, entered := u.now }]
      combine := if u.fifo.isEmpty then some { since := u.now, expired := false } else u.combine
      notes := { u.notes with entered := true } } := if_pos (show u.fifo.length < 32 by omega)
  refine ⟨⟨?_, ?_, ?_, ?_, ?_⟩, fifo, notes⟩
  · rw [fifo, List.length_append]; simp only [List.length_singleton]; omega
  · rw [fifo, offered]
    intro w hw
    rcases List.mem_append.1 hw with hw | hw
    · exact records w hw
    · rw [List.mem_singleton.1 hw]; exact ⟨hr, by simp only; omega⟩
  · rw [offered]; unfold State.combineExpired at expired ⊢
    simp only; split
    · rfl
    · exact expired
  · rw [offered]; exact timeout
  · rw [offered]; exact counters

/-- The end of an event that has set no flag and made no frame due. -/
theorem endEvent_idle {u : State} (hw : u.notes.wraps = []) (hm : u.notes.noted = 0) (hd : u.frameDue = false) :
    endEvent u = { u with notes := EventNotes.empty } := by
  have unmasked : u.notes.noted &&& u.mask = 0 := by rw [hm]; exact BitVec.zero_and
  have attention : offerAttention u = u := if_pos unmasked
  simp only [endEvent, offerWraps_none hw, attention, judgePacker_idle hd, ite_self]

section
variable {u : State} {x : SlotState} {g : Group} {oldBase n : Nat}

/-- The record of an expiry waits at the end of its event. -/
theorem lingerEvent_quiet (h : PackerQuiet (n + 1) u) (hg : u.groupAtPosition x = some g) :
    PackerQuiet n (event (lingerExpire x) u)
      ∧ (event (lingerExpire x) u).fifo = u.fifo ++ [{ record := .linger g.id g.picker g.loc u.clock, entered := u.now }] := by
  have hg' : (beginEvent u).groupAtPosition x = some g := hg
  have shown : OnlyChanges displayParts (beginEvent u) (renewShadow x.pos (lingerShown x g (beginEvent u))) := lingerShown_only x g _
  have start : PackerQuiet (n + 1) (beginEvent u) := h
  obtain ⟨quiet, fifo, notes⟩ := offer_quiet (rec := .linger g.id g.picker g.loc u.clock) (start.of_keeps shown (by decide)) rfl
  have before : (renewShadow x.pos (lingerShown x g (beginEvent u))).fifo = u.fifo := (shown.keeps (p := .records) (by decide)).1
  have now : (renewShadow x.pos (lingerShown x g (beginEvent u))).now = u.now := shown.keeps (p := .moment) (by decide)
  have empty : (renewShadow x.pos (lingerShown x g (beginEvent u))).notes = EventNotes.empty := shown.keeps (p := .notes) (by decide)
  rw [before, now] at fifo
  rw [empty] at notes
  have expired : lingerExpire x (beginEvent u) =
      offer (.linger g.id g.picker g.loc u.clock) (renewShadow x.pos (lingerShown x g (beginEvent u))) := lingerExpire_eq hg'
  unfold event
  rw [expired, endEvent_idle (by rw [notes]; rfl) (by rw [notes]; rfl) quiet.idle]
  exact ⟨quiet, fifo⟩

theorem judgeOne_quiet {e : MapEntry} (h : PackerQuiet (n + 1) u) :
    PackerQuiet n (judgeOne oldBase u e) ∧ u.fifo ⊆ (judgeOne oldBase u e).fifo := by
  rcases judgeOne_cases oldBase u e with k | ⟨x, timer, -, k⟩ | ⟨x, -, k⟩ <;> rw [k]
  · exact ⟨h.fewer (Nat.le_succ n), List.Subset.refl _⟩
  · exact ⟨h.fewer (Nat.le_succ n), List.Subset.refl _⟩
  · cases hg : u.groupAtPosition x with
    | none =>
      have hg' : (beginEvent u).groupAtPosition x = none := hg
      have cleared : event (lingerExpire x) u = (beginEvent u).setSlot { x with linger := none } := by
        unfold event lingerExpire; rw [hg']; exact endEvent_quiet rfl
      rw [cleared]; exact ⟨h.fewer (Nat.le_succ n), List.Subset.refl _⟩
    | some g =>
      obtain ⟨quiet, fifo⟩ := lingerEvent_quiet h hg
      exact ⟨quiet, by rw [fifo]; exact List.subset_append_left _ _⟩

theorem judgeAll_quiet : ∀ (es : List MapEntry) {u : State}, PackerQuiet (n + es.length) u →
    PackerQuiet n (es.foldl (judgeOne oldBase) u) ∧ u.fifo ⊆ (es.foldl (judgeOne oldBase) u).fifo := by
  intro es
  induction es with
  | nil => exact fun h => ⟨h, List.Subset.refl _⟩
  | cons e es ih =>
    intro u h
    obtain ⟨quiet, kept⟩ := judgeOne_quiet (oldBase := oldBase) (e := e) (n := n + es.length) h
    obtain ⟨quiet', kept'⟩ := ih quiet
    exact ⟨quiet', List.Subset.trans kept kept'⟩

end

/-! ## What a reply leaves waiting -/

/-- Where the relay takes no frame, the end of an event takes no record. -/
theorem endEvent_starved {u : State} (h0 : u.station ≠ 0) (h : ∀ n, ¬ RelayTakes n u) : u.fifo ⊆ (endEvent u).fifo := by
  have offered : ∀ (rec : Record) (v : State), v.fifo ⊆ (offer rec v).fifo := by
    intro rec v; unfold offer; split
    · exact List.subset_append_left _ _
    · exact ((setFlag_only .reportLost v).keeps (p := .records) (by decide)).1 ▸ List.Subset.refl _
  have wraps : ∀ (ks : List CounterNo) (v : State), v.fifo ⊆ (ks.foldl (fun t k => offer (.counterWrap k t.clock) t) v).fifo := by
    intro ks
    induction ks with
    | nil => exact fun _ => List.Subset.refl _
    | cons k ks ih => exact fun v => List.Subset.trans (offered _ v) (ih _)
  have attention : ∀ v : State, v.fifo ⊆ (offerAttention v).fifo := by
    intro v; simp only [offerAttention]; split
    · exact List.Subset.refl _
    · exact offered _ _
  have frame : OnlyChanges [.records, .flags, .notes] u (offerAttention (offerWraps u)) :=
    (offerWraps_only u).trans (offerAttention_only _)
  have same := frame.relayQuiet (by decide)
  have judged : (judgePacker (offerAttention (offerWraps u))).fifo = (offerAttention (offerWraps u)).fifo := by
    cases hd : (offerAttention (offerWraps u)).frameDue with
    | false => rw [judgePacker_idle hd]
    | true => rw [judgePacker_refused hd (same.station ▸ h0) (by rw [same.takes]; exact h _)]; rfl
  have offers : u.fifo ⊆ (offerAttention (offerWraps u)).fifo := List.Subset.trans (wraps _ u) (attention (offerWraps u))
  refine List.Subset.trans offers ?_
  unfold endEvent
  simp only; split
  · rw [judged]; exact List.Subset.refl _
  · exact List.Subset.refl _

/-- A reply takes no record from the packer: it is no report, and where the relay refuses it, it refuses every frame (R20, R32). -/
theorem answer_fifo (r : Request) (a : Answer) {v : State} (hn : v.notes = EventNotes.empty) (ha : a.rest.length ≤ 51) :
    v.fifo ⊆ (endEvent (answer r a v)).fifo := by
  by_cases hq : r.broadcast = true ∨ v.station = 0 ∨ RelayTakes (4 + a.rest.length) v
  · obtain ⟨he, sent⟩ := answer_quiet hn hq
    rw [he, (sent.keeps (p := .records) (by decide)).1]; exact List.Subset.refl _
  · simp only [not_or] at hq
    obtain ⟨hb, h0, ht⟩ := hq
    have refused : ∀ n, ¬ RelayTakes n v := by
      rintro n ⟨h0, hup, hc⟩
      exact ht ⟨h0, hup, by unfold cellsFor at hc ⊢; omega⟩
    have dropped : OnlyChanges [.flags, .notes] v (answer r a v) := by
      unfold answer
      rw [if_neg hb, originate_refuses h0 (by rw [replyPayload_length]; exact ht)]
      exact setFlag_only _ _
    have same := dropped.relayQuiet (by decide)
    have kept : (answer r a v).fifo = v.fifo := (dropped.keeps (p := .records) (by decide)).1
    rw [← kept]
    exact endEvent_starved (same.station ▸ h0) fun n hn => refused n ((same.takes n).1 hn)

/-! ## One location among those judged -/

/-- The timers of the locations before one, its own, and those of the locations behind it have been judged on the way from `u` by `v` to `t`. -/
structure JudgedAt (oldBase : Nat) (e : MapEntry) (u v t : State) : Prop where
  before : ∃ ds : List MapEntry, Judged ds u v ∧ e.pos ∉ ds.map (·.pos) ∧ e.code ∉ ds.map (·.code)
  here : Judged [e] v (judgeOne oldBase v e)
  after : ∃ es : List MapEntry, Judged es (judgeOne oldBase v e) t ∧ e.pos ∉ es.map (·.pos)
  placed : Placed e u

namespace JudgedAt

variable {oldBase : Nat} {e : MapEntry} {u v t : State} {x : SlotState}

theorem frame_before (h : JudgedAt oldBase e u v t) : OnlyChanges (displayParts ++ eventParts) u v := by
  obtain ⟨ds, hd, -⟩ := h.before
  exact hd.frame

theorem frame_after (h : JudgedAt oldBase e u v t) : OnlyChanges (displayParts ++ eventParts) v t := by
  obtain ⟨es, he, -⟩ := h.after
  exact h.here.frame.trans he.frame

theorem slotAt_before (h : JudgedAt oldBase e u v t) : v.slotAt e.pos = u.slotAt e.pos := by
  obtain ⟨ds, hd, hp, -⟩ := h.before
  exact hd.slots _ hp

theorem slotAt_after (h : JudgedAt oldBase e u v t) : t.slotAt e.pos = (judgeOne oldBase v e).slotAt e.pos := by
  obtain ⟨es, he, hp⟩ := h.after
  exact he.slots _ hp

theorem position (h : JudgedAt oldBase e u v t) (hx : u.slotAt e.pos = some x) : v.groupAtPosition x = u.groupAtPosition x := by
  obtain ⟨ds, hd, -, hc⟩ := h.before
  exact hd.position hc h.placed hx

theorem params (h : JudgedAt oldBase e u v t) : t.params = v.params := h.frame_after.keeps (p := .params) (by decide)

theorem limit (h : JudgedAt oldBase e u v t) (g : Group) : v.lingerLimit g = t.lingerLimit g := by
  have pickers : t.pickers = v.pickers := h.frame_after.keeps (p := .pickers) (by decide)
  simp only [State.lingerLimit, State.pickerOf, h.params, pickers]

theorem now (h : JudgedAt oldBase e u v t) : v.now = u.now := h.frame_before.keeps (p := .moment) (by decide)

theorem clock (h : JudgedAt oldBase e u v t) : v.clock = u.clock := (h.frame_before.keeps (p := .clock) (by decide)).1

/-- The end of the event behind the judgements changes no group and no slot. -/
theorem andEnd {w : State} (h : JudgedAt oldBase e u v w) (hw : OnlyChanges eventParts w t) : JudgedAt oldBase e u v t := by
  obtain ⟨es, he, hp⟩ := h.after
  have slots : t.slots = w.slots := hw.keeps (p := .slots) (by decide)
  have stop : Judged [] w t := .still (hw.mono (by decide)) (fun pos _ => by unfold State.slotAt; rw [slots])
    (hw.keeps (p := .groups) (by decide))
  exact ⟨h.before, h.here, ⟨es, by simpa using he.trans stop, hp⟩, h.placed⟩

variable (h : JudgedAt oldBase e u v t) (hx : u.slotAt e.pos = some x)
include h hx

theorem slotAt_set {timer : Option Timer} (hj : judgeOne oldBase v e = v.setSlot { x with linger := timer }) :
    t.slotAt e.pos = some { x with linger := timer } := by
  have hpos := slotAt_pos hx
  rw [h.slotAt_after, hj, ← hpos]
  exact setSlot_slotAt (y := { x with linger := timer }) (by show (v.slotAt x.pos).isSome = true; rw [hpos, h.slotAt_before, hx]; rfl)

theorem slotAt_same (hj : judgeOne oldBase v e = v) : t.slotAt e.pos = some x := by
  rw [h.slotAt_after, hj, h.slotAt_before, hx]

/-- A timer expires for the group at the position: what its event leaves, stays (R116). -/
theorem expired {g : Group} (hg : u.groupAtPosition x = some g) (hj : judgeOne oldBase v e = event (lingerExpire x) v) :
    t.slotAt e.pos = some { lingered x g with shadow := t.deriveShadow (lingered x g) } ∧ { g with linger := true } ∈ t.groups := by
  have hpos := slotAt_pos hx
  have hv : v.slotAt x.pos = some x := by rw [hpos, h.slotAt_before, hx]
  have hgv : v.groupAtPosition x = some g := (h.position hx).trans hg
  obtain ⟨slot, -⟩ := lingerEvent_slotAt hv hgv
  obtain ⟨i, hi, hgi⟩ := Option.bind_eq_some_iff.1 hgv
  obtain ⟨es, after, -⟩ := h.after
  obtain ⟨φ, hφ, groups, -⟩ := after.groups
  rw [hj] at groups
  have marked : φ { g with linger := true } = { g with linger := true } := hφ.marked rfl
  have found : (event (lingerExpire x) v).groupOf i = some { g with linger := true } := by
    have id : g.id = i := (groupOf_mem hgi).2
    unfold State.groupOf
    rw [lingerEvent_groups hgv, ← id]
    exact groupOf_setGroup (y := { g with linger := true }) (id ▸ hgi)
  have found' : t.groupOf i = some { g with linger := true } := by
    rw [groupOf_map hφ.place groups, found, Option.map_some, marked]
  have shadow : t.deriveShadow (lingered x g) = (event (lingerExpire x) v).deriveShadow (lingered x g) := by
    have pickers : t.pickers = (event (lingerExpire x) v).pickers := hj ▸ after.frame.keeps (p := .pickers) (by decide)
    have here : t.groupAtPosition (lingered x g) = (event (lingerExpire x) v).groupAtPosition (lingered x g) := by
      have position : (lingered x g).position = some i := hi
      simp only [State.groupAtPosition, position, Option.bind_some, found, found']
    have value : (event (lingerExpire x) v).groupAtPosition (lingered x g) = some { g with linger := true } := by
      have position : (lingered x g).position = some i := hi
      simp only [State.groupAtPosition, position, Option.bind_some, found]
    simp only [State.deriveShadow, here, value, State.groupShadow, State.pickerOf, pickers]
  refine ⟨?_, (groupOf_mem found').1⟩
  rw [h.slotAt_after, hj, shadow, ← hpos, slot]

end JudgedAt

/-! ## Every location judged (R34) -/

/-- The slots' sets and the map in order: the group at a slot's position is one of the slot's own location (R40, R97). -/
theorem placed_of_slotsOk {s : State} (hm : MapOk s) (hn : (s.groups.map (·.id)).Nodup) (hs : SlotsOk s) {d : MapEntry} (hd : d ∈ s.locMap) :
    Placed d s := by
  intro x g hx hg
  obtain ⟨i, hi, hgi⟩ := Option.bind_eq_some_iff.1 hg
  obtain ⟨mem, id⟩ := groupOf_mem hgi
  obtain ⟨-, -, slots, -⟩ := hs
  obtain ⟨-, -, groups, ⟨position, -⟩, -⟩ := slots x (List.mem_of_find?_eq_some hx)
  obtain ⟨g', mem', id', -, loc⟩ := groups i (position i hi)
  rw [slotAt_pos hx] at loc
  obtain ⟨d', hd', hloc⟩ := Option.map_eq_some_iff.1 loc
  have same : d' = d := by
    have pos : d'.pos = d.pos := by simpa using List.find?_some hd'
    exact List.inj_on_of_nodup_map hm.2.1 (List.mem_of_find?_eq_some hd') hd pos
  rw [group_unique hn mem mem' (id.trans id'.symm), ← hloc, same]

/-- On the way through the map each location is judged once, the packer taking a record for each at most (R34, log 37). -/
theorem judgeLinger_at {oldBase : Nat} {u : State} (hm : MapOk u) (hn : (u.groups.map (·.id)).Nodup) (hp : ∀ d ∈ u.locMap, Placed d u)
    {e : MapEntry} (he : e ∈ u.locMap) : ∃ v, JudgedAt oldBase e u v (judgeLinger oldBase u)
      ∧ (PackerQuiet u.locMap.length u → PackerQuiet 1 v ∧ (judgeOne oldBase v e).fifo ⊆ (judgeLinger oldBase u).fifo) := by
  obtain ⟨ds, es, split⟩ := List.append_of_mem he
  obtain ⟨codes, positions, -⟩ := hm
  have codes : (u.locMap.map (·.code)).Nodup := codes.imp fun h => ne_of_lt h
  rw [judgeLinger_eq]
  simp only [split, List.foldl_append, List.foldl_cons, List.length_append, List.length_cons]
  rw [split, List.map_append, List.map_cons] at positions codes
  obtain ⟨dsPos, esPos, apartPos⟩ := List.nodup_append.1 positions
  obtain ⟨-, -, apartCode⟩ := List.nodup_append.1 codes
  rw [List.nodup_cons] at esPos
  have hds : e.pos ∉ ds.map (·.pos) := fun h => apartPos _ h _ List.mem_cons_self rfl
  have before := judgeAll_judged (oldBase := oldBase) ds dsPos hn fun d hd => hp d (by rw [split]; exact List.mem_append_left _ hd)
  have nodup : ((ds.foldl (judgeOne oldBase) u).groups.map (·.id)).Nodup := by rw [before.ids]; exact hn
  have here := judgeOne_judged (oldBase := oldBase) nodup (before.placed hds (hp e he))
  have behind : ∀ d ∈ es, Placed d (judgeOne oldBase (ds.foldl (judgeOne oldBase) u) e) := by
    intro d hd
    have pos : d.pos ∈ es.map (·.pos) := List.mem_map.2 ⟨d, hd, rfl⟩
    refine (before.trans here).placed (fun h => ?_) (hp d (by rw [split]; exact List.mem_append_right _ (List.mem_cons_of_mem _ hd)))
    simp only [List.map_append, List.map_cons, List.map_nil, List.mem_append, List.mem_singleton] at h
    rcases h with h | h
    · exact apartPos _ h _ (List.mem_cons_of_mem _ pos) rfl
    · exact esPos.1 (h ▸ pos)
  have after := judgeAll_judged (oldBase := oldBase) es esPos.2 (by rw [here.ids]; exact nodup) behind
  refine ⟨_, ⟨⟨ds, before, hds, fun h => apartCode _ h _ List.mem_cons_self rfl⟩, here, ⟨es, after, esPos.1⟩, hp e he⟩, fun quiet => ?_⟩
  obtain ⟨quiet, -⟩ := judgeAll_quiet (oldBase := oldBase) (n := es.length + 1) ds (quiet.fewer (by omega))
  obtain ⟨next, -⟩ := judgeOne_quiet (oldBase := oldBase) (e := e) quiet
  exact ⟨quiet.fewer (by omega), (judgeAll_quiet (n := 0) es (next.fewer (by omega))).2⟩

/-- Settles the clauses of O21 on one location's linger timer. -/
theorem JudgedAt.outcome {oldBase : Nat} {e : MapEntry} {u v t : State} {x : SlotState} (h : JudgedAt oldBase e u v t)
    (hx : u.slotAt e.pos = some x) (hq : PackerQuiet u.locMap.length u → PackerQuiet 1 v ∧ (judgeOne oldBase v e).fifo ⊆ t.fifo) :
    (t.params.lingerBase = 0 → t.slotAt e.pos = some { x with linger := none }) ∧
    (x.position.bind u.groupOf = none → t.params.lingerBase ≠ 0 → t.slotAt e.pos = some x) ∧
    ∀ g, x.position.bind u.groupOf = some g → t.params.lingerBase ≠ 0 →
      let limit := t.lingerLimit g * 16000
      (x.linger = none → oldBase ≠ 0 → t.slotAt e.pos = some x) ∧
      (x.linger = none → oldBase = 0 → t.slotAt e.pos = some { x with
        linger := if g.linger = false ∧ g.id ∉ x.lingered then some { since := u.now, length := limit } else none }) ∧
      (∀ l, x.linger = some l → u.now < l.since + limit → t.slotAt e.pos = some { x with linger := some { l with length := limit } }) ∧
      (∀ l, x.linger = some l → l.since + limit ≤ u.now →
        (∃ y, t.slotAt e.pos = some y ∧ y.linger = none ∧ y.position = x.position ∧ y.rotation = x.rotation ∧ g.id ∈ y.lingered
          ∧ y.shadow = t.deriveShadow y)
        ∧ { g with linger := true } ∈ t.groups
        ∧ (PackerQuiet u.locMap.length u → ∃ w ∈ t.fifo, w.record = .linger g.id g.picker g.loc u.clock)) := by
  have hv : v.slotAt e.pos = some x := h.slotAt_before.trans hx
  have hposition := h.position hx
  rw [h.params]
  refine ⟨fun h0 => h.slotAt_set hx (judgeOne_base hv h0), fun hg h0 => h.slotAt_same hx (judgeOne_vacant hv h0 (hposition.trans hg)),
    fun g hg h0 => ?_⟩
  have hgv : v.groupAtPosition x = some g := hposition.trans hg
  intro limit
  refine ⟨fun hl ho => ?_, fun hl ho => ?_, fun l hl hnow => ?_, fun l hl hnow => ?_⟩
  · exact h.slotAt_same hx (by rw [judgeOne_stopped hv h0 hgv hl, if_neg ho])
  · have fresh : v.freshLinger x g = if g.linger = false ∧ g.id ∉ x.lingered then some ⟨u.now, limit⟩ else none := by
      simp only [State.freshLinger, startTimer, h.limit, h.now, h0, ne_eq, not_false_eq_true, true_and]; rfl
    exact h.slotAt_set hx (by rw [judgeOne_stopped hv h0 hgv hl, if_pos ho, fresh])
  · exact h.slotAt_set hx (by rw [judgeOne_running hv h0 hgv hl, h.limit, h.now, if_neg (not_le.2 hnow)])
  · have due : judgeOne oldBase v e = event (lingerExpire x) v := by
      rw [judgeOne_running hv h0 hgv hl, h.limit, h.now, if_pos hnow]
    obtain ⟨slot, group⟩ := h.expired hx hg due
    refine ⟨⟨_, slot, rfl, rfl, rfl, by simp [lingered], (deriveShadow_shadow _ _ _).symm⟩, group, fun quiet => ?_⟩
    obtain ⟨quiet, kept⟩ := hq quiet
    obtain ⟨-, fifo⟩ := lingerEvent_quiet (n := 0) quiet hgv
    rw [due, fifo, h.clock] at kept
    exact ⟨_, kept (List.mem_append_right _ List.mem_cons_self), rfl⟩

/-! ## The CONFIG_SET -/

section
variable {r : Request} {s : State}

/-- A CONFIG_SET that leaves the combine timeout, the silence limit and the miss limit judges the linger timers alone. -/
theorem configDone_linger (h : ∀ k ∈ [4, 5, 8], r.names k = false) : configDone r s = applyLingerChange s.params (configHeld r s) := by
  simp only [List.forall_mem_cons] at h
  obtain ⟨h4, h5, h8, -⟩ := h
  have params : (applyLingerChange s.params (configHeld r s)).params = newParams r s.params :=
    (applyLingerChange_parts _ _).keeps (p := .params) (by decide)
  have combine : (newParams r s.params).combine = s.params.combine := by simp [newParams, h4]
  have silence : (newParams r s.params).silence = s.params.silence := by simp [newParams, h5]
  have miss : (newParams r s.params).missLimit = s.params.missLimit := by simp [newParams, h8]
  rw [configDone_eq, configJudged, applyCombineChange_same (by rw [params, combine]), applySilenceChange_same (by rw [params, silence]),
    applyMissChange_same (by rw [params, miss])]

/-- An expiry is an event of its own: what the judgements leave has noted nothing (log 37). -/
theorem judgeLinger_notes (oldBase : Nat) {u : State} (h : u.notes = EventNotes.empty) :
    (judgeLinger oldBase u).notes = EventNotes.empty := by
  rw [judgeLinger_eq]
  refine List.foldlRecOn (motive := fun t : State => t.notes = EventNotes.empty) u.locMap _ h fun t ht e _ => ?_
  rcases judgeOne_cases oldBase t e with k | ⟨x, timer, -, k⟩ | ⟨x, -, k⟩ <;> rw [k]
  · exact ht
  · exact ht
  · rfl

/-- Settles the clauses of O21 on the linger base and adaptive linger. -/
theorem configSet_linger {a : Answer} (hn : ∀ k ∈ [4, 5, 8], r.names k = false) (hm : MapOk s) (hi : (s.groups.map (·.id)).Nodup)
    (hs : SlotsOk s) (ha : a.rest.length ≤ 51) :
    let t := endEvent (answer r a (configDone r s))
    let changed := t.params.lingerBase ≠ s.params.lingerBase ∨ t.params.adaptive ≠ s.params.adaptive
    (¬ changed → Keeps .slots s t ∧ Keeps .groups s t) ∧
    ∀ e ∈ s.locMap, ∀ x, s.slotAt e.pos = some x → changed →
      (t.params.lingerBase = 0 → t.slotAt e.pos = some { x with linger := none }) ∧
      (x.position.bind s.groupOf = none → t.params.lingerBase ≠ 0 → t.slotAt e.pos = some x) ∧
      ∀ g, x.position.bind s.groupOf = some g → t.params.lingerBase ≠ 0 →
        let limit := t.lingerLimit g * 16000
        (x.linger = none → s.params.lingerBase ≠ 0 → t.slotAt e.pos = some x) ∧
        (x.linger = none → s.params.lingerBase = 0 → t.slotAt e.pos = some { x with
          linger := if g.linger = false ∧ g.id ∉ x.lingered then some { since := s.now, length := limit } else none }) ∧
        (∀ l, x.linger = some l → s.now < l.since + limit → t.slotAt e.pos = some { x with linger := some { l with length := limit } }) ∧
        (∀ l, x.linger = some l → l.since + limit ≤ s.now →
          (∃ y, t.slotAt e.pos = some y ∧ y.linger = none ∧ y.position = x.position ∧ y.rotation = x.rotation ∧ g.id ∈ y.lingered
            ∧ y.shadow = t.deriveShadow y)
          ∧ { g with linger := true } ∈ t.groups
          ∧ (PackerQuiet s.locMap.length s → ∃ w ∈ t.fifo, w.record = .linger g.id g.picker g.loc s.clock)) := by
  intro t changed
  have behind : OnlyChanges eventParts (configDone r s) t := configSet_behind r a s
  have params : t.params = newParams r s.params := configSet_params r a s
  have judged := configDone_linger (s := s) hn
  refine ⟨fun same => ?_, fun e he x hx moved => ?_⟩
  · simp only [changed, not_or, not_not, params] at same
    rw [judged, applyLingerChange_same (by rw [configHeld_params]; exact same.1) (by rw [configHeld_params]; exact same.2)] at behind
    exact ⟨behind.keeps (p := .slots) (by decide), behind.keeps (p := .groups) (by decide)⟩
  · have applied : configDone r s = judgeLinger s.params.lingerBase (configHeld r s) := by
      have changed : (newParams r s.params).lingerBase ≠ s.params.lingerBase ∨ (newParams r s.params).adaptive ≠ s.params.adaptive :=
        params ▸ moved
      rw [judged]; exact if_pos changed
    obtain ⟨v, at_, quiet⟩ := judgeLinger_at (oldBase := s.params.lingerBase) (u := configHeld r s) hm hi
      (fun d hd => placed_of_slotsOk (s := s) hm hi hs hd) he
    rw [← applied] at at_ quiet
    have notes : (configDone r s).notes = EventNotes.empty := by rw [applied]; exact judgeLinger_notes _ rfl
    have clauses := (at_.andEnd behind).outcome hx fun hq =>
      ⟨(quiet hq).1, List.Subset.trans (quiet hq).2 (answer_fifo r a notes ha)⟩
    obtain ⟨zero, vacant, group⟩ := clauses
    refine ⟨zero, vacant, fun g hg h0 => ?_⟩
    obtain ⟨stopped, fresh, runs, expires⟩ := group g hg h0
    refine ⟨stopped, fresh, runs, fun l hl hnow => ?_⟩
    obtain ⟨slot, mem, record⟩ := expires l hl hnow
    refine ⟨slot, mem, fun hq => record ?_⟩
    have combine : (newParams r s.params).combine = s.params.combine := by simp [newParams, hn 4 (by simp)]
    unfold PackerQuiet at hq ⊢
    rw [configHeld_params, combine]
    exact hq

end

end Sys2Proof.Machine

/-!
PROOFS. CONFIG_SET: the modules judged by a changed miss limit, and the four effects together (O21).
-/

namespace Sys2Proof.Machine

open Sys2Proof

/-! ## A branch's roster and its command -/

/-- From `s` to `t` a branch keeps its roster, its command, its pending direct command and the slots that await a SHOW. -/
structure LineKept (b : Branch) (s t : State) : Prop where
  roster : (t.branch b).roster = (s.branch b).roster
  command : (t.branch b).command = (s.branch b).command
  direct : (t.branch b).direct = (s.branch b).direct
  unshown : (t.branch b).unshown = (s.branch b).unshown

namespace LineKept

variable {b d : Branch} {s t u : State}

theorem refl (s : State) : LineKept b s s := ⟨rfl, rfl, rfl, rfl⟩

theorem trans (h : LineKept b s t) (k : LineKept b t u) : LineKept b s u :=
  ⟨k.roster.trans h.roster, k.command.trans h.command, k.direct.trans h.direct, k.unshown.trans h.unshown⟩

theorem of_only {ps : List Part} (h : OnlyChanges ps s t) (hp : ∀ p ∈ [Part.rosters, .commands, .directs, .unshown], p ∉ ps) :
    LineKept b s t := by
  have rosters := h.keeps (hp .rosters (by simp))
  have commands := h.keeps (hp .commands (by simp))
  have directs := h.keeps (hp .directs (by simp))
  have unshown := h.keeps (hp .unshown (by simp))
  cases b
  · exact ⟨rosters.1, commands.1, directs.1, unshown.1⟩
  · exact ⟨rosters.2, commands.2, directs.2, unshown.2⟩

/-- A change of the other branch. -/
theorem onOther (h : b ≠ d) (f : BranchState → BranchState) (s : State) : LineKept b s (onBranch d f s) := by
  obtain ⟨same, -⟩ := onBranch_otherKept d f s b h
  exact ⟨by rw [same], by rw [same], by rw [same], by rw [same]⟩

theorem awaits (h : LineKept b s t) (c : Command) : Awaits b c t ↔ Awaits b c s := by unfold Awaits; rw [h.command]

end LineKept

theorem answer_lines (b : Branch) (r : Request) (a : Answer) (s : State) : LineKept b s (answer r a s) :=
  .of_only (answer_only r a s) (by decide)

theorem finishDirect_otherLines {b d : Branch} (h : b ≠ d) (code : ReplyCode) (s : State) : LineKept b s (finishDirect d code s) := by
  unfold finishDirect; split
  · exact .refl s
  · exact (LineKept.onOther h _ s).trans (answer_lines _ _ _ _)

theorem endCommand_otherLines {b d : Branch} (h : b ≠ d) (c : Command) (s : State) : LineKept b s (endCommand d c s) := by
  have clear : ∀ v, LineKept b v (clearCommand d v) := fun v => .onOther h _ v
  unfold endCommand; split
  · exact (clear _).trans (.onOther h _ _)
  · refine LineKept.trans ?_ (clear _)
    unfold settleOwed; split
    · exact .onOther h _ _
    · exact .refl _
  · exact .onOther h _ _
  · exact (clear _).trans (finishDirect_otherLines h _ _)
  · exact clear _

/-- A branch once a module has been marked MISSING, before the locations that its slots carry are recomputed. -/
def withMissing (b : Branch) (m : Module) (s : State) : State :=
  setFlag .moduleLost (onBranch b (fun x => x.setModule { m with presence := .missing }) s)

theorem withMissing_only (b : Branch) (m : Module) (s : State) : OnlyChanges [.rosters, .flags, .notes] s (withMissing b m s) :=
  ((onBranch_only fun x => by simp [BranchState.setModule]).mono (ps := [.rosters]) (by decide)).trans ((setFlag_only _ _).mono (by decide))

theorem markMissing_eq (b : Branch) (m : Module) (s : State) : markMissing b m s = noticeModule b m.addr (withMissing b m s) := rfl

theorem markMissing_otherLines {b d : Branch} (h : b ≠ d) (m : Module) (s : State) : LineKept b s (markMissing d m s) :=
  ((LineKept.onOther h _ s).trans (.of_only (setFlag_only _ _) (by decide))).trans (.of_only (noticeModule_only _ _ _) (by decide))

/-- A module marked MISSING: its entry alone changes on its branch (R155). -/
theorem markMissing_lines (b : Branch) (m : Module) (s : State) :
    LineKept b (onBranch b (fun x => x.setModule { m with presence := .missing }) s) (markMissing b m s) :=
  (LineKept.of_only (setFlag_only _ _) (by decide)).trans (.of_only (noticeModule_only _ _ _) (by decide))

theorem judgeModule_otherLines {b d : Branch} (h : b ≠ d) (addr : Nat) (s : State) : LineKept b s (judgeModule d addr s) := by
  unfold judgeModule; split
  · exact .refl s
  · rename_i m _
    have missing := markMissing_otherLines h m s
    split
    · simp only; split
      · exact missing
      · split
        · exact missing.trans (endCommand_otherLines h _ _)
        · exact missing
    · exact .refl s

/-! ## A command that ends (R147, R148, R155 step 3, R166) -/

/-- What the end of a command to a lost module leaves on its branch. -/
def EndedBy (b : Branch) (c : Command) (t : State) : Prop :=
  match c.what with
  | .ident _ => (t.branch b).command = some { c with ended := true }
  | .direct _ _ => (t.branch b).command = none ∧ (t.branch b).direct = none
  | .showSlot pos _ _ => (t.branch b).command = none ∧ pos ∈ (t.branch b).unshown
  | .poll _ | .allDark => (t.branch b).command = none

section
variable {b : Branch} {c : Command} {s t : State}

theorem EndedBy.mono (h : EndedBy b c s) (hc : (t.branch b).command = (s.branch b).command) (hd : (t.branch b).direct = (s.branch b).direct)
    (hu : (s.branch b).unshown ⊆ (t.branch b).unshown) : EndedBy b c t := by
  cases hw : c.what <;> simp only [EndedBy, hw, hc, hd] at h ⊢
  case showSlot => exact ⟨h.1, hu h.2⟩
  all_goals exact h

/-- A command that has ended awaits no reply. -/
theorem EndedBy.command (h : EndedBy b c t) : ∀ c', (t.branch b).command = some c' → c'.ended = true := by
  unfold EndedBy at h
  intro c' hc'
  split at h
  · rw [h] at hc'; exact Option.some.inj hc' ▸ rfl
  · rw [h.1] at hc'; cases hc'
  · rw [h.1] at hc'; cases hc'
  · rw [h] at hc'; cases hc'
  · rw [h] at hc'; cases hc'

theorem finishDirect_line (b : Branch) (code : ReplyCode) (s : State) : ((finishDirect b code s).branch b).direct = none
    ∧ ((finishDirect b code s).branch b).command = (s.branch b).command ∧ ((finishDirect b code s).branch b).roster = (s.branch b).roster
    ∧ ((finishDirect b code s).branch b).unshown = (s.branch b).unshown := by
  unfold finishDirect; split
  · rename_i h; exact ⟨h, rfl, rfl, rfl⟩
  · rename_i d _
    have kept := answer_lines b d.request { code := code, rest := [] } (onBranch b (fun x => { x with direct := none }) s)
    refine ⟨?_, ?_, ?_, ?_⟩
    · rw [kept.direct, onBranch_branch]
    · rw [kept.command, onBranch_branch]
    · rw [kept.roster, onBranch_branch]
    · rw [kept.unshown, onBranch_branch]

theorem endCommand_ended (b : Branch) (c : Command) (s : State) : EndedBy b c (endCommand b c s) := by
  have cleared : ((clearCommand b s).branch b).command = none := by simp [clearCommand]
  cases hw : c.what <;> simp only [EndedBy, endCommand, hw]
  case showSlot pos d tag =>
    exact ⟨by simp [markUnshown, cleared], (mem_markUnshown b [pos] _ pos).2 (.inr List.mem_cons_self)⟩
  case direct pos d =>
    obtain ⟨direct, command, -⟩ := finishDirect_line b .notOpen (clearCommand b s)
    exact ⟨command.trans cleared, direct⟩
  case ident addr => simp
  case poll addr => simp [clearCommand]
  case allDark => exact cleared

theorem endCommand_unshown (b : Branch) (c : Command) (s : State) :
    (s.branch b).unshown ⊆ ((endCommand b c s).branch b).unshown := by
  have owed : ∀ addr drew, ((settleOwed b addr drew s).branch b).unshown = (s.branch b).unshown := by
    intro addr drew; unfold settleOwed; split <;> simp
  unfold endCommand; split
  · intro q hq; rw [mem_markUnshown]; exact .inl (by simpa [clearCommand] using hq)
  · simp [clearCommand, owed]
  · simp
  · rw [(finishDirect_line _ _ _).2.2.2]; simp [clearCommand]
  · simp [clearCommand]

/-- A module once a command to an address has ended: a POLL that drew an invalid reply owes no acknowledge (R148). -/
def owedAfter (c : Command) (m : Module) : Module := if c.what = .poll m.addr ∧ c.invalid = true then { m with owed := 0 } else m

theorem endCommand_roster (b : Branch) (c : Command) (s : State) :
    ((endCommand b c s).branch b).roster = (s.branch b).roster.map (owedAfter c) := by
  have unpolled : (∀ addr, c.what ≠ .poll addr) → (s.branch b).roster.map (owedAfter c) = (s.branch b).roster := by
    intro h; exact List.map_id'' (fun m => if_neg fun hm => h _ hm.1) _
  unfold endCommand; split
  · rename_i hw; rw [unpolled (by simp [hw])]; simp [markUnshown, clearCommand]
  · rename_i addr hw
    cases hi : c.invalid with
    | false =>
      have same : (s.branch b).roster.map (owedAfter c) = (s.branch b).roster :=
        List.map_id'' (fun m => if_neg (by simp [hi])) _
      rw [same]; simp [settleOwed, clearCommand]
    | true =>
      have each : owedAfter c = fun m : Module => if m.addr = addr then { m with owed := 0 } else m := by
        funext m; simp [owedAfter, hw, hi, eq_comm]
      rw [each]; simp [settleOwed, clearCommand]
  · rename_i hw; rw [unpolled (by simp [hw])]; simp
  · rename_i hw; rw [unpolled (by simp [hw]), (finishDirect_line _ _ _).2.2.1]; simp [clearCommand]
  · rename_i hw; rw [unpolled (by simp [hw])]; simp [clearCommand]

end

/-! ## Modules judged by a miss limit: the roster and the command (R34, R155) -/

/-- A module that the miss limit takes for lost (R155). -/
abbrev Lost (limit : Nat) (m : Module) : Prop := m.presence = .silent ∧ limit ≤ m.misses

/-- A POLL to an address is in progress and has drawn an invalid reply (R148). -/
def drewInvalid (command : Option Command) (addr : Nat) : Bool := command.any fun c => !c.ended && c.what == .poll addr && c.invalid

/-- A module once those at some addresses have been judged. -/
def judgedAs (limit : Nat) (command : Option Command) (ds : List Nat) (m : Module) : Module :=
  if m.addr ∈ ds ∧ Lost limit m then { m with presence := .missing, owed := if drewInvalid command m.addr then 0 else m.owed } else m

theorem judgedAs_addr (limit : Nat) (command : Option Command) (ds : List Nat) (m : Module) : (judgedAs limit command ds m).addr = m.addr := by
  unfold judgedAs; split <;> rfl

theorem judgedAs_away {limit : Nat} {command : Option Command} {ds : List Nat} {m : Module} (h : m.addr ∉ ds) :
    judgedAs limit command ds m = m := if_neg fun k => h k.1

theorem drewInvalid_awaits {b : Branch} {s : State} {addr : Nat} (h : drewInvalid (s.branch b).command addr = true) :
    ∃ c, Awaits b c s ∧ c.what.addr = addr := by
  obtain ⟨c, hc, h⟩ := Option.any_eq_true .. |>.1 h
  simp only [Bool.and_eq_true, Bool.not_eq_true', beq_iff_eq] at h
  obtain ⟨⟨he, hw⟩, -⟩ := h
  exact ⟨c, ⟨hc, he, by simp [hw]⟩, by rw [hw]; rfl⟩

theorem awaits_unique {b : Branch} {s : State} {c d : Command} (h : Awaits b c s) (k : Awaits b d s) : c = d :=
  Option.some.inj (h.1.symm.trans k.1)

/-- The command in progress is to a module that has been judged and lost. -/
def CommandHit (limit : Nat) (b : Branch) (ds : List Nat) (c : Command) (s : State) : Prop :=
  ∃ m ∈ (s.branch b).roster, m.addr ∈ ds ∧ Lost limit m ∧ m.addr = c.what.addr

/-- From `s` to `t` the modules of a branch at some addresses have been judged: each lost one is MISSING, and a command to one has ended. -/
structure LinesJudged (limit : Nat) (b : Branch) (ds : List Nat) (s t : State) : Prop where
  roster : (t.branch b).roster = (s.branch b).roster.map (judgedAs limit (s.branch b).command ds)
  ended : ∀ c, Awaits b c s → CommandHit limit b ds c s → EndedBy b c t
  kept : (∀ c, Awaits b c s → ¬ CommandHit limit b ds c s) →
    (t.branch b).command = (s.branch b).command ∧ (t.branch b).direct = (s.branch b).direct
  unshown : (s.branch b).unshown ⊆ (t.branch b).unshown

namespace LinesJudged

variable {limit : Nat} {b : Branch} {ds es : List Nat} {s t u : State}

/-- Nothing is judged where no module at the addresses is lost. -/
theorem none (h : LineKept b s t) (hn : ∀ m ∈ (s.branch b).roster, m.addr ∈ ds → ¬ Lost limit m) : LinesJudged limit b ds s t := by
  have missed : ∀ c, ¬ CommandHit limit b ds c s := fun c ⟨m, hm, hd, hl, _⟩ => hn m hm hd hl
  refine ⟨?_, fun c _ hit => absurd hit (missed c), fun _ => ⟨h.command, h.direct⟩, by rw [h.unshown]; exact List.Subset.refl _⟩
  rw [h.roster]
  conv_lhs => rw [← List.map_id (s.branch b).roster]
  exact List.map_congr_left fun m hm => (if_neg fun k => hn m hm k.1 k.2).symm

/-- A module that is not among those judged is as it was. -/
theorem mem_away (h : LinesJudged limit b ds s t) {m : Module} (hd : m.addr ∉ ds) : m ∈ (t.branch b).roster ↔ m ∈ (s.branch b).roster := by
  rw [h.roster, List.mem_map]
  constructor
  · rintro ⟨m', hm', rfl⟩
    rw [judgedAs_addr] at hd
    rwa [judgedAs_away hd]
  · exact fun hm => ⟨m, hm, judgedAs_away hd⟩

theorem hit_away (h : LinesJudged limit b ds s t) (apart : ∀ a ∈ es, a ∉ ds) (c : Command) :
    CommandHit limit b es c t ↔ CommandHit limit b es c s := by
  constructor
  · rintro ⟨m, hm, hd, k⟩
    exact ⟨m, (h.mem_away (apart _ hd)).1 hm, hd, k⟩
  · rintro ⟨m, hm, hd, k⟩
    exact ⟨m, (h.mem_away (apart _ hd)).2 hm, hd, k⟩

theorem hit_append (c : Command) : CommandHit limit b (ds ++ es) c s ↔ CommandHit limit b ds c s ∨ CommandHit limit b es c s := by
  unfold CommandHit
  simp only [List.mem_append]
  grind

/-- Whether a POLL to an address that has not been judged has drawn an invalid reply is as it was: no other command takes its place. -/
theorem drewInvalid_away (h : LinesJudged limit b ds s t) {addr : Nat} (hd : addr ∉ ds) :
    drewInvalid (t.branch b).command addr = drewInvalid (s.branch b).command addr := by
  by_cases hit : ∃ c, Awaits b c s ∧ CommandHit limit b ds c s
  · obtain ⟨c, hc, hm⟩ := hit
    have hushed : drewInvalid (t.branch b).command addr = false := by
      refine eq_false_of_ne_true fun k => ?_
      obtain ⟨c', ⟨hc', he, -⟩, -⟩ := drewInvalid_awaits k
      rw [(h.ended c hc hm).command c' hc'] at he; cases he
    have away : drewInvalid (s.branch b).command addr = false := by
      refine eq_false_of_ne_true fun k => ?_
      obtain ⟨c', hc', haddr⟩ := drewInvalid_awaits k
      obtain ⟨m, -, hmd, -, hma⟩ := hm
      exact hd (by rw [← haddr, ← awaits_unique hc hc', ← hma]; exact hmd)
    rw [hushed, away]
  · rw [(h.kept fun c hc hm => hit ⟨c, hc, hm⟩).1]

/-- What leaves the branch before a judgement or behind it. -/
theorem after (h : LinesJudged limit b ds t u) (k : LineKept b s t) : LinesJudged limit b ds s u := by
  have same : ∀ c, CommandHit limit b ds c t ↔ CommandHit limit b ds c s := fun c => by unfold CommandHit; rw [k.roster]
  refine ⟨by rw [h.roster, k.roster, k.command], fun c hc hit => h.ended c ((k.awaits c).2 hc) ((same c).2 hit), fun free => ?_,
    by rw [← k.unshown]; exact h.unshown⟩
  obtain ⟨command, direct⟩ := h.kept fun c hc hit => free c ((k.awaits c).1 hc) ((same c).1 hit)
  exact ⟨command.trans k.command, direct.trans k.direct⟩

theorem andThen (h : LinesJudged limit b ds s t) (k : LineKept b t u) : LinesJudged limit b ds s u := by
  refine ⟨k.roster.trans h.roster, fun c hc hit => (h.ended c hc hit).mono k.command k.direct (by rw [k.unshown]; exact List.Subset.refl _),
    fun free => ?_, by rw [k.unshown]; exact h.unshown⟩
  obtain ⟨command, direct⟩ := h.kept free
  exact ⟨k.command.trans command, k.direct.trans direct⟩

/-- Judging some addresses and then others, none of them twice. -/
theorem trans (h : LinesJudged limit b ds s t) (k : LinesJudged limit b es t u) (apart : ∀ a ∈ es, a ∉ ds) :
    LinesJudged limit b (ds ++ es) s u := by
  refine ⟨?_, fun c hc hit => ?_, fun free => ?_, List.Subset.trans h.unshown k.unshown⟩
  · rw [k.roster, h.roster, List.map_map]
    refine List.map_congr_left fun m _ => ?_
    rw [Function.comp_apply]
    by_cases hd : m.addr ∈ ds
    · have he : m.addr ∉ es := fun he => apart _ he hd
      rw [judgedAs_away (by rw [judgedAs_addr]; exact he)]
      simp [judgedAs, hd]
    · rw [judgedAs_away hd]
      simp [judgedAs, hd, h.drewInvalid_away hd]
  · by_cases first : CommandHit limit b ds c s
    · have done := h.ended c hc first
      have none : ∀ c', Awaits b c' t → ¬ CommandHit limit b es c' t := by
        rintro c' ⟨hc', he, -⟩ -
        rw [done.command c' hc'] at he; cases he
      exact done.mono (k.kept none).1 (k.kept none).2 k.unshown
    · have second : CommandHit limit b es c s := ((hit_append c).1 hit).resolve_left first
      obtain ⟨same, -⟩ := h.kept fun c' hc' => awaits_unique hc hc' ▸ first
      have hc' : Awaits b c t := by unfold Awaits at hc ⊢; rw [same]; exact hc
      exact k.ended c hc' ((h.hit_away apart c).2 second)
  · obtain ⟨command, direct⟩ := h.kept fun c hc hit => free c hc ((hit_append c).2 (.inl hit))
    obtain ⟨command', direct'⟩ := k.kept fun c hc hit => by
      have hc' : Awaits b c s := by unfold Awaits at hc ⊢; rw [← command]; exact hc
      exact free c hc' ((hit_append c).2 (.inr ((h.hit_away apart c).1 hit)))
    exact ⟨command'.trans command, direct'.trans direct⟩

end LinesJudged

/-! ## One module judged -/

theorem awaiting_iff {b : Branch} {s : State} {c : Command} : (s.branch b).awaiting = some c ↔ Awaits b c s := by
  refine ⟨awaiting_some, fun ⟨hc, he, hw⟩ => ?_⟩
  simp [BranchState.awaiting, hc, he, hw]

/-- The roster holds one entry for an address: what stands at a module's address is the module. -/
theorem moduleAt_unique {x : BranchState} (order : (x.roster.map (·.addr)).Nodup) {addr : Nat} {m n : Module}
    (h : x.moduleAt addr = some m) (hn : n ∈ x.roster) (ha : n.addr = addr) : n = m := by
  have at_ : m.addr = addr := by simpa using List.find?_some h
  exact List.inj_on_of_nodup_map order hn (List.mem_of_find?_eq_some h) (ha.trans at_.symm)

section
variable {b : Branch} {addr : Nat} {s : State} {m : Module}

/-- No module is judged where none is lost. -/
theorem judgeModule_spared (h : ∀ m, (s.branch b).moduleAt addr = some m → ¬ Lost s.params.missLimit m) : judgeModule b addr s = s := by
  unfold judgeModule; split
  · rfl
  · rename_i m hm; exact if_neg (h m hm)

/-- A lost module is marked MISSING, and a command to it ends (R155). -/
theorem judgeModule_lost (hm : (s.branch b).moduleAt addr = some m) (hl : Lost s.params.missLimit m) :
    (∃ c, Awaits b c s ∧ c.what.addr = addr ∧ judgeModule b addr s = endCommand b c (markMissing b m s))
      ∨ ((∀ c, Awaits b c s → c.what.addr ≠ addr) ∧ judgeModule b addr s = markMissing b m s) := by
  have awaits : ∀ c, Awaits b c (markMissing b m s) ↔ Awaits b c s := fun c => by
    rw [(markMissing_lines b m s).awaits]; unfold Awaits; rw [onBranch_branch]; rfl
  unfold judgeModule
  rw [hm]
  simp only [if_pos hl]
  split
  · rename_i none
    refine .inr ⟨fun c hc => ?_, rfl⟩
    rw [awaiting_iff.2 ((awaits c).2 hc)] at none; cases none
  · rename_i c hc
    have hc := (awaits c).1 (awaiting_iff.1 hc)
    split
    · rename_i ha; exact .inl ⟨c, hc, ha, rfl⟩
    · rename_i ha; exact .inr ⟨fun c' hc' => awaits_unique hc hc' ▸ ha, rfl⟩

theorem judgeModule_lines (order : ((s.branch b).roster.map (·.addr)).Nodup) :
    LinesJudged s.params.missLimit b [addr] s (judgeModule b addr s) := by
  by_cases hl : ∃ m, (s.branch b).moduleAt addr = some m ∧ Lost s.params.missLimit m
  · obtain ⟨m, hm, hl⟩ := hl
    have at_ : m.addr = addr := by simpa using List.find?_some hm
    have hit : ∀ c : Command, c.what.addr = addr → CommandHit s.params.missLimit b [addr] c s := fun c hc =>
      ⟨m, List.mem_of_find?_eq_some hm, by simp [at_], hl, at_.trans hc.symm⟩
    have line := markMissing_lines b m s
    have roster : ((markMissing b m s).branch b).roster
        = (s.branch b).roster.map (fun n => if n.addr = m.addr then { m with presence := .missing } else n) := by
      rw [line.roster, onBranch_branch]; rfl
    have command : ((markMissing b m s).branch b).command = (s.branch b).command := by rw [line.command, onBranch_branch]; rfl
    have direct : ((markMissing b m s).branch b).direct = (s.branch b).direct := by rw [line.direct, onBranch_branch]; rfl
    have unshown : ((markMissing b m s).branch b).unshown = (s.branch b).unshown := by rw [line.unshown, onBranch_branch]; rfl
    rcases judgeModule_lost hm hl with ⟨c, hc, ha, e⟩ | ⟨free, e⟩ <;> rw [e]
    · refine ⟨?_, fun c' hc' _ => ?_, fun free => absurd (hit c ha) (free c hc), ?_⟩
      · rw [endCommand_roster, roster, List.map_map]
        refine List.map_congr_left fun n hn => ?_
        rw [Function.comp_apply]
        by_cases same : n.addr = addr
        · rw [moduleAt_unique order hm hn same, if_pos rfl]
          have drew : drewInvalid (s.branch b).command m.addr = decide (c.what = .poll m.addr ∧ c.invalid = true) := by
            obtain ⟨hcmd, he, -⟩ := hc
            rw [Bool.eq_iff_iff]; simp [drewInvalid, hcmd, he]
          rw [judgedAs, if_pos ⟨by simp [at_], hl⟩, drew, owedAfter]
          simp only [decide_eq_true_eq]
          split <;> rfl
        · rw [if_neg (by rw [at_]; exact same), judgedAs_away (by simpa using same)]
          refine if_neg fun hp => same ?_
          rw [← ha, hp.1]; rfl
      · rw [← awaits_unique hc hc']; exact endCommand_ended _ _ _
      · rw [← unshown]; exact endCommand_unshown _ _ _
    · refine ⟨?_, fun c hc hit => ?_, fun _ => ⟨command, direct⟩, by rw [unshown]; exact List.Subset.refl _⟩
      · rw [roster]
        refine List.map_congr_left fun n hn => ?_
        by_cases same : n.addr = addr
        · have drew : drewInvalid (s.branch b).command addr = false := by
            refine eq_false_of_ne_true fun h => ?_
            obtain ⟨c, hc, ha⟩ := drewInvalid_awaits h
            exact free c hc ha
          rw [moduleAt_unique order hm hn same, if_pos rfl, judgedAs, if_pos ⟨by simp [at_], hl⟩, at_, drew]; rfl
        · rw [if_neg (by rw [at_]; exact same), judgedAs_away (by simpa using same)]
      · obtain ⟨n, -, hd, -, ha⟩ := hit
        exact absurd (ha.symm.trans (List.mem_singleton.1 hd)) (free c hc)
  · have spared : ∀ m, (s.branch b).moduleAt addr = some m → ¬ Lost s.params.missLimit m := fun m hm k => hl ⟨m, hm, k⟩
    rw [judgeModule_spared spared]
    refine .none (.refl s) fun n hn hd => spared n ?_
    cases hm : (s.branch b).moduleAt addr with
    | none => simpa [List.mem_singleton.1 hd] using List.find?_eq_none.1 hm n hn
    | some m => rw [moduleAt_unique order hm hn (List.mem_singleton.1 hd)]

end

/-! ## The displays of a module's locations (R97, R119) -/

/-- What a slot position's standing reads of its branch: the line fault, and its module's presence and slot count (R96). -/
theorem eligible_reads {s t : State} {e : MapEntry} (hl : t.locked = s.locked) (hp : t.pickers = s.pickers) (ho : t.orphaned = s.orphaned)
    (hf : Keeps .faults s t) (hm : ((t.branch e.pos.branch).moduleAt e.pos.addr).map (fun m => (m.presence, m.slots))
      = ((s.branch e.pos.branch).moduleAt e.pos.addr).map (fun m => (m.presence, m.slots))) (g : Group) :
    t.eligible e g = s.eligible e g := by
  have fault : (t.branch e.pos.branch).fault = (s.branch e.pos.branch).fault := by
    cases e.pos.branch
    · exact hf.1
    · exact hf.2
  have reachable : t.reachable e.pos = s.reachable e.pos := by
    simp only [State.reachable, fault]
    revert hm
    cases (t.branch e.pos.branch).moduleAt e.pos.addr <;> cases (s.branch e.pos.branch).moduleAt e.pos.addr <;> intro hm
    · rfl
    · cases hm
    · cases hm
    · simp only [Option.map_some, Option.some.injEq, Prod.mk.injEq] at hm
      simp only [Option.elim_some, hm.1, hm.2]
  unfold State.eligible State.areaLocked State.pickerOf
  rw [hl, hp, ho, reachable]

theorem moduleAt_map {x y : BranchState} {f : Module → Module} (hf : ∀ m, (f m).addr = m.addr) (h : y.roster = x.roster.map f) (addr : Nat) :
    y.moduleAt addr = (x.moduleAt addr).map f := by
  unfold BranchState.moduleAt
  rw [h, List.find?_map]; congr 2; funext m; simp [hf]

section
variable {b : Branch} {addr : Nat} {s : State} {m : Module}

/-- The locations whose slots a module carries. -/
def At (b : Branch) (addr : Nat) (e : MapEntry) : Prop := e.pos.branch = b ∧ e.pos.addr = addr

/-- A module that is lost is one of its branch's roster, and its address is its own. -/
def LostAt (limit : Nat) (b : Branch) (ds : List Nat) (s : State) (e : MapEntry) : Prop :=
  e.pos.branch = b ∧ ∃ m ∈ (s.branch b).roster, m.addr ∈ ds ∧ Lost limit m ∧ m.addr = e.pos.addr

theorem HeldAsEligible.of_imp {p q : MapEntry → Prop} {t : State} (h : HeldAsEligible p t) (hq : ∀ e ∈ t.locMap, q e → p e) :
    HeldAsEligible q t := fun e he hqe => h e he (hq e he hqe)

/-- What stands as its eligibility says stays so where neither the groups nor what eligibility reads have changed. -/
theorem HeldAsEligible.of_same {p : MapEntry → Prop} {s t : State} (h : HeldAsEligible p s) (hm : t.locMap = s.locMap)
    (hs : t.slots = s.slots) (hg : t.groups = s.groups) (he : ∀ e g, t.eligible e g = s.eligible e g) : HeldAsEligible p t := by
  intro e hme hpe hx g hgm hl
  rw [hm] at hme
  rw [hg] at hgm
  rw [State.slotAt, hs] at hx
  rw [he]
  exact h e hme hpe hx g hgm hl

/-- A module marked MISSING leaves the eligibility at every other module's slots (R96). -/
theorem markMissing_eligible {e : MapEntry} (h : ¬ At b m.addr e) (g : Group) : (markMissing b m s).eligible e g = s.eligible e g := by
  have frame := markMissing_only b m s
  refine eligible_reads (frame.keeps (p := .areas) (by decide)) (frame.keeps (p := .pickers) (by decide))
    (frame.keeps (p := .orphaned) (by decide)) (frame.keeps (p := .faults) (by decide)) ?_ g
  by_cases hb : e.pos.branch = b
  · have line := (markMissing_lines b m s).roster
    rw [onBranch_branch] at line
    rw [hb, moduleAt_map (f := fun n => if n.addr = m.addr then { m with presence := .missing } else n) ?_ line]
    · cases hm : (s.branch b).moduleAt e.pos.addr with
      | none => rfl
      | some n =>
        have at_ : n.addr = e.pos.addr := by simpa using List.find?_some hm
        have away : n.addr ≠ m.addr := fun k => h ⟨hb, at_.symm.trans k⟩
        simp [away]
    · intro n
      by_cases k : n.addr = m.addr
      · rw [if_pos k]; exact k.symm
      · rw [if_neg k]
  · unfold BranchState.moduleAt
    rw [(markMissing_otherLines hb m s).roster]

/-- A command's end leaves every eligibility. -/
theorem endCommand_eligible (b : Branch) (c : Command) (s : State) (e : MapEntry) (g : Group) :
    (endCommand b c s).eligible e g = s.eligible e g := by
  have frame := endCommand_parts b c s
  refine eligible_reads (frame.keeps (p := .areas) (by decide)) (frame.keeps (p := .pickers) (by decide))
    (frame.keeps (p := .orphaned) (by decide)) (frame.keeps (p := .faults) (by decide)) ?_ g
  by_cases hb : e.pos.branch = b
  · have kept : ∀ n, (owedAfter c n).addr = n.addr ∧ (owedAfter c n).presence = n.presence ∧ (owedAfter c n).slots = n.slots := by
      intro n; unfold owedAfter; split <;> exact ⟨rfl, rfl, rfl⟩
    rw [hb, moduleAt_map (fun n => (kept n).1) (endCommand_roster b c s), Option.map_map]
    congr 1; funext n
    simp [(kept n).2.1, (kept n).2.2]
  · unfold BranchState.moduleAt
    rw [(endCommand_otherLines hb c s).roster]

/-- A module marked MISSING: its locations are redrawn, and the others' groups stand as they did (R119, R155). -/
theorem markMissing_held {p : MapEntry → Prop} (hm : MapOk s) (hn : (s.groups.map (·.id)).Nodup) (h : HeldAsEligible p s) :
    HeldAsEligible (fun e => p e ∨ At b m.addr e) (markMissing b m s) := by
  have start := withMissing_only b m s
  have map : (withMissing b m s).locMap = s.locMap := start.keeps (p := .locations) (by decide)
  have groups : (withMissing b m s).groups = s.groups := start.keeps (p := .groups) (by decide)
  have slots : (withMissing b m s).slots = s.slots := start.keeps (p := .slots) (by decide)
  have mapOk : MapOk (withMissing b m s) := by unfold MapOk at hm ⊢; rw [map]; exact hm
  obtain ⟨drawn, others, untouched⟩ := recomputeWhere_redrawn
    (fun e => e.pos.branch == b && e.pos.addr == m.addr && (withMissing b m s).hasGroups e.code) mapOk (by rw [groups]; exact hn)
  rw [markMissing_eq]
  have map' : (noticeModule b m.addr (withMissing b m s)).locMap = s.locMap :=
    Eq.trans ((noticeModule_only b m.addr _).keeps (p := .locations) (by decide)) map
  intro e he hpe hx g hg hl
  have picked : ∀ d : MapEntry, (d.pos.branch == b && d.pos.addr == m.addr && (withMissing b m s).hasGroups d.code) = true ↔
      At b m.addr d ∧ (withMissing b m s).hasGroups d.code = true := by intro d; simp [At]
  have apart : ∀ d ∈ s.locMap, d.code = e.code ∨ d.pos = e.pos → d = e := by
    intro d hd same
    have hme : e ∈ s.locMap := map' ▸ he
    rcases same with k | k
    · exact List.inj_on_of_nodup_map (hm.1.imp fun h => ne_of_lt h) hd hme k
    · exact List.inj_on_of_nodup_map hm.2.1 hd hme k
  by_cases redrawn : At b m.addr e ∧ (withMissing b m s).hasGroups e.code = true
  · obtain ⟨y, hy⟩ := Option.isSome_iff_exists.1 hx
    obtain ⟨-, -, standing⟩ := drawn e he ((picked e).2 redrawn) y hy
    exact (standing g hg hl).2
  · have away : ∀ d ∈ (noticeModule b m.addr (withMissing b m s)).locMap,
        (d.pos.branch == b && d.pos.addr == m.addr && (withMissing b m s).hasGroups d.code) = true → d ≠ e := by
      rintro d - hd rfl; exact redrawn ((picked d).1 hd)
    have mem : g ∈ s.groups := by
      rw [← groups]
      refine (others g fun d hd hq hc => away d hd hq (apart d (map' ▸ hd) (.inl (hc.trans hl)))).1 hg
    have grouped : (withMissing b m s).hasGroups e.code = true := by
      unfold State.hasGroups; rw [groups]; exact List.any_eq_true.2 ⟨g, mem, by simp [hl]⟩
    have elsewhere : ¬ At b m.addr e := fun k => redrawn ⟨k, grouped⟩
    have eligible := markMissing_eligible (s := s) elsewhere g
    have slot := untouched e.pos fun d hd hq hc => away d hd hq (apart d (map' ▸ hd) (.inr hc))
    have hx' : ((noticeModule b m.addr (withMissing b m s)).slotAt e.pos).isSome = true := hx
    unfold noticeModule at hx'
    rw [slot, State.slotAt, slots] at hx'
    rw [markMissing_eq] at eligible
    rw [eligible]
    exact h e (map' ▸ he) (hpe.resolve_right elsewhere) hx' g mem hl

theorem judgeModule_held {p : MapEntry → Prop} (hm : MapOk s) (hn : (s.groups.map (·.id)).Nodup)
    (order : ((s.branch b).roster.map (·.addr)).Nodup) (h : HeldAsEligible p s) :
    HeldAsEligible (fun e => p e ∨ LostAt s.params.missLimit b [addr] s e) (judgeModule b addr s) := by
  by_cases hl : ∃ m, (s.branch b).moduleAt addr = some m ∧ Lost s.params.missLimit m
  · obtain ⟨m, hma, hl⟩ := hl
    have at_ : m.addr = addr := by simpa using List.find?_some hma
    have held : HeldAsEligible (fun e => p e ∨ LostAt s.params.missLimit b [addr] s e) (markMissing b m s) :=
      (markMissing_held hm hn h).of_imp fun e _ he => he.imp id fun ⟨hb, n, _, hd, _, ha⟩ =>
        ⟨hb, by rw [← ha, at_]; exact List.mem_singleton.1 hd⟩
    rcases judgeModule_lost hma hl with ⟨c, -, -, e⟩ | ⟨-, e⟩ <;> rw [e]
    · have frame := endCommand_parts b c (markMissing b m s)
      exact held.of_same (frame.keeps (p := .locations) (by decide)) (frame.keeps (p := .slots) (by decide))
        (frame.keeps (p := .groups) (by decide)) (endCommand_eligible b c _)
    · exact held
  · have spared : ∀ m, (s.branch b).moduleAt addr = some m → ¬ Lost s.params.missLimit m := fun m hm k => hl ⟨m, hm, k⟩
    rw [judgeModule_spared spared]
    refine h.of_imp fun e _ he => he.resolve_right ?_
    rintro ⟨-, n, hn, hd, hln, -⟩
    cases hm : (s.branch b).moduleAt addr with
    | none =>
      have := List.find?_eq_none.1 hm n hn
      simp [List.mem_singleton.1 hd] at this
    | some m => exact spared n (by rw [hm, moduleAt_unique order hm hn (List.mem_singleton.1 hd)]) hln

end

/-! ## A branch's modules judged in turn (R34, log 16) -/

theorem noticeModule_ids (b : Branch) (addr : Nat) (s : State) : (noticeModule b addr s).groups.map (·.id) = s.groups.map (·.id) :=
  List.foldlRecOn (motive := fun t : State => t.groups.map (·.id) = s.groups.map (·.id)) _ _ rfl fun t ht e _ => (recompute_ids e t).trans ht

theorem judgeModule_ids (b : Branch) (addr : Nat) (s : State) : (judgeModule b addr s).groups.map (·.id) = s.groups.map (·.id) := by
  have missing : ∀ m, (markMissing b m s).groups.map (·.id) = s.groups.map (·.id) := fun m => by
    rw [markMissing_eq, noticeModule_ids, show (withMissing b m s).groups = s.groups from
      (withMissing_only b m s).keeps (p := .groups) (by decide)]
  unfold judgeModule; split
  · rfl
  · split
    · simp only; split
      · exact missing _
      · split
        · rw [show (endCommand _ _ _).groups = _ from (endCommand_parts _ _ _).keeps (p := .groups) (by decide)]; exact missing _
        · exact missing _
    · rfl

/-- A lost module sets MODULE_LOST, and no judgement clears it (R155, R183). -/
theorem judgeModule_lostFlag (b : Branch) (addr : Nat) (s : State) : (judgeModule b addr s).flagSet .moduleLost = true ↔
    s.flagSet .moduleLost = true ∨ ∃ m, (s.branch b).moduleAt addr = some m ∧ Lost s.params.missLimit m := by
  by_cases hl : ∃ m, (s.branch b).moduleAt addr = some m ∧ Lost s.params.missLimit m
  · obtain ⟨m, hm, hl⟩ := hl
    have set : (judgeModule b addr s).flagSet .moduleLost = true := by
      rcases judgeModule_lost hm hl with ⟨c, -, -, e⟩ | ⟨-, e⟩ <;> rw [e]
      · rw [endCommand_flagSet _ _ _ (by decide), markMissing_flagSet]; rfl
      · rw [markMissing_flagSet]; rfl
    exact ⟨fun _ => .inr ⟨m, hm, hl⟩, fun _ => set⟩
  · rw [judgeModule_spared fun m hm k => hl ⟨m, hm, k⟩]
    exact ⟨.inl, fun h => h.resolve_right hl⟩

/-- From `s` to `t` the modules of a branch at some addresses have been judged by the miss limit (R155). -/
structure MissJudged (limit : Nat) (b : Branch) (ds : List Nat) (s t : State) : Prop where
  frame : OnlyChanges missParts s t
  lines : LinesJudged limit b ds s t
  others : ∀ d, d ≠ b → LineKept d s t
  stays : s.flagSet .moduleLost = true → t.flagSet .moduleLost = true
  flag : ∀ m ∈ (s.branch b).roster, m.addr ∈ ds → Lost limit m → t.flagSet .moduleLost = true
  held : ∀ p, HeldAsEligible p s → HeldAsEligible (fun e => p e ∨ LostAt limit b ds s e) t
  ids : t.groups.map (·.id) = s.groups.map (·.id)

theorem MissJudged.refl (limit : Nat) (b : Branch) (s : State) : MissJudged limit b [] s s :=
  ⟨onlyChanges_refl _ s, .none (.refl s) (by simp), fun _ _ => .refl s, id, by simp, fun p h => h.of_imp fun e _ he =>
    he.resolve_right fun ⟨_, _, _, hd, _⟩ => by simp at hd, rfl⟩

theorem MissJudged.trans {limit : Nat} {b : Branch} {ds es : List Nat} {s t u : State} (h : MissJudged limit b ds s t)
    (k : MissJudged limit b es t u) (apart : ∀ a ∈ es, a ∉ ds) : MissJudged limit b (ds ++ es) s u := by
  refine ⟨h.frame.trans k.frame, h.lines.trans k.lines apart, fun d hd => (h.others d hd).trans (k.others d hd), k.stays ∘ h.stays,
    fun m hm hd hl => ?_, fun p hp => (k.held _ (h.held p hp)).of_imp fun e _ he => ?_, k.ids.trans h.ids⟩
  · rcases List.mem_append.1 hd with hd | hd
    · exact k.stays (h.flag m hm hd hl)
    · exact k.flag m ((h.lines.mem_away (apart _ hd)).2 hm) hd hl
  · rcases he with he | ⟨hb, m, hm, hd, hl, ha⟩
    · exact .inl (.inl he)
    · rcases List.mem_append.1 hd with hd | hd
      · exact .inl (.inr ⟨hb, m, hm, hd, hl, ha⟩)
      · exact .inr ⟨hb, m, (h.lines.mem_away (apart _ hd)).2 hm, hd, hl, ha⟩

theorem judgeModule_judged {b : Branch} {addr : Nat} {s : State} (hm : MapOk s) (hn : (s.groups.map (·.id)).Nodup)
    (order : ((s.branch b).roster.map (·.addr)).Nodup) : MissJudged s.params.missLimit b [addr] s (judgeModule b addr s) := by
  refine ⟨judgeModule_parts b addr s, judgeModule_lines order, fun d hd => judgeModule_otherLines hd addr s,
    fun h => (judgeModule_lostFlag b addr s).2 (.inl h), fun m hmem hd hl => (judgeModule_lostFlag b addr s).2 (.inr ⟨m, ?_, hl⟩),
    fun p h => judgeModule_held hm hn order h, judgeModule_ids b addr s⟩
  cases hat : (s.branch b).moduleAt addr with
  | none =>
    have := List.find?_eq_none.1 hat m hmem
    simp [List.mem_singleton.1 hd] at this
  | some n => rw [moduleAt_unique order hat hmem (List.mem_singleton.1 hd)]

theorem judgeModules_judged {b : Branch} : ∀ (ds : List Nat) {s : State}, ds.Nodup → MapOk s → (s.groups.map (·.id)).Nodup →
    ((s.branch b).roster.map (·.addr)).Nodup →
    MissJudged s.params.missLimit b ds s (ds.foldl (fun t addr => judgeModule b addr t) s) := by
  intro ds
  induction ds with
  | nil => exact fun _ _ _ _ => .refl _ _ _
  | cons a ds ih =>
    intro s hd hm hn order
    obtain ⟨ha, hd⟩ := List.nodup_cons.1 hd
    have one := judgeModule_judged (addr := a) hm hn order
    have params : (judgeModule b a s).params = s.params := one.frame.keeps (p := .params) (by decide)
    have map : (judgeModule b a s).locMap = s.locMap := one.frame.keeps (p := .locations) (by decide)
    have addrs : ((judgeModule b a s).branch b).roster.map (·.addr) = (s.branch b).roster.map (·.addr) := by
      rw [one.lines.roster, List.map_map]; exact List.map_congr_left fun m _ => judgedAs_addr _ _ _ m
    have rest := ih hd (s := judgeModule b a s) (by unfold MapOk at hm ⊢; rw [map]; exact hm) (by rw [one.ids]; exact hn)
      (by rw [addrs]; exact order)
    rw [params] at rest
    exact one.trans rest fun d hm k => ha (List.mem_singleton.1 k ▸ hm)

/-! ## Both branches judged -/

/-- Every module of a branch judged, in ascending address (R34, log 16). -/
def judgeBranch (b : Branch) (s : State) : State := ((s.branch b).roster.map (·.addr)).foldl (fun t addr => judgeModule b addr t) s

theorem applyMissChange_eq {old : Params} {s : State} (hc : s.params.missLimit ≠ old.missLimit) :
    applyMissChange old s = judgeBranch .r (judgeBranch .l s) := if_neg hc

/-- What a changed miss limit leaves on one branch: every module of it has been judged (R34, R155). -/
structure BranchJudged (limit : Nat) (b : Branch) (s t : State) : Prop where
  lines : LinesJudged limit b ((s.branch b).roster.map (·.addr)) s t
  flag : ∀ m ∈ (s.branch b).roster, Lost limit m → t.flagSet .moduleLost = true
  held : HeldAsEligible (LostAt limit b ((s.branch b).roster.map (·.addr)) s) t

theorem BranchJudged.andEnd {limit : Nat} {b : Branch} {s t u : State} (h : BranchJudged limit b s t) (hu : OnlyChanges eventParts t u)
    (hf : u.flagSet .moduleLost = t.flagSet .moduleLost) : BranchJudged limit b s u := by
  refine ⟨h.lines.andThen (.of_only hu (by decide)), fun m hm hl => hf.trans (h.flag m hm hl), ?_⟩
  have kept : EligibilityKept t u := ⟨hu.keeps (p := .areas) (by decide), hu.keeps (p := .pickers) (by decide),
    hu.keeps (p := .orphaned) (by decide), hu.keeps (p := .faults) (by decide), hu.keeps (p := .rosters) (by decide)⟩
  exact h.held.of_same (hu.keeps (p := .locations) (by decide)) (hu.keeps (p := .slots) (by decide))
    (hu.keeps (p := .groups) (by decide)) kept.eligible

theorem applyMissChange_judged {old : Params} {s : State} (hc : s.params.missLimit ≠ old.missLimit) (hm : MapOk s)
    (hn : (s.groups.map (·.id)).Nodup) (order : ∀ b, ((s.branch b).roster.map (·.addr)).Nodup) (b : Branch) :
    BranchJudged s.params.missLimit b s (applyMissChange old s) := by
  have first : MissJudged s.params.missLimit .l _ s (judgeBranch .l s) := judgeModules_judged _ (order .l) hm hn (order .l)
  rw [applyMissChange_eq hc]
  generalize judgeBranch .l s = t at first ⊢
  have params : t.params = s.params := first.frame.keeps (p := .params) (by decide)
  have map : t.locMap = s.locMap := first.frame.keeps (p := .locations) (by decide)
  have right := first.others .r (by decide)
  have order' : ((t.branch .r).roster.map (·.addr)).Nodup := by rw [right.roster]; exact order .r
  have second : MissJudged t.params.missLimit .r _ t (judgeBranch .r t) := judgeModules_judged _ order'
    (by unfold MapOk at hm ⊢; rw [map]; exact hm) (by rw [first.ids]; exact hn) order'
  rw [params] at second
  have nothing : HeldAsEligible (fun _ => False) s := fun _ _ h => h.elim
  cases b
  · refine ⟨first.lines.andThen (second.others .l (by decide)), fun m hmem hl => second.stays (first.flag m hmem (List.mem_map_of_mem hmem) hl),
      (second.held _ (first.held _ nothing)).of_imp fun e _ he => .inl (.inr he)⟩
  · have lines := second.lines.after right
    rw [right.roster] at lines
    refine ⟨lines, fun m hmem hl => second.flag m (right.roster ▸ hmem) (List.mem_map_of_mem (right.roster ▸ hmem)) hl,
      (second.held _ (first.held _ nothing)).of_imp fun e _ he => .inr ?_⟩
    unfold LostAt at he ⊢
    rw [right.roster]; exact he

section
variable {r : Request} {s : State}

/-- A CONFIG_SET that leaves the linger base, adaptive linger, the combine timeout and the silence limit judges the modules alone. -/
theorem configDone_miss (h : ∀ k ∈ [2, 3, 4, 5], r.names k = false) : configDone r s = applyMissChange s.params (configHeld r s) := by
  simp only [List.forall_mem_cons] at h
  obtain ⟨h2, h3, h4, h5, -⟩ := h
  have base : (newParams r s.params).lingerBase = s.params.lingerBase := by simp [newParams, h2]
  have adaptive : (newParams r s.params).adaptive = s.params.adaptive := by simp [newParams, h3]
  have combine : (newParams r s.params).combine = s.params.combine := by simp [newParams, h4]
  have silence : (newParams r s.params).silence = s.params.silence := by simp [newParams, h5]
  rw [configDone_eq, configJudged, applyLingerChange_same (by rw [configHeld_params, base]) (by rw [configHeld_params, adaptive]),
    applyCombineChange_same (by rw [configHeld_params, combine]), applySilenceChange_same (by rw [configHeld_params, silence])]

theorem configHeld_branch (r : Request) (s : State) (b : Branch) : (configHeld r s).branch b = s.branch b := by cases b <;> rfl

/-- Settles the clauses of O21 on the miss limit. -/
theorem configSet_miss {a : Answer} (hn : ∀ k ∈ [2, 3, 4, 5], r.names k = false)
    (hc : (newParams r s.params).missLimit ≠ s.params.missLimit) (hm : MapOk s) (hi : (s.groups.map (·.id)).Nodup) (hb : BranchesOk s)
    (b : Branch) :
    let t := endEvent (answer r a (configDone r s))
    let lost (m : Module) := m.presence = .silent ∧ (newParams r s.params).missLimit ≤ m.misses
    let polled (m : Module) : Bool := (s.branch b).command.any fun c => !c.ended && c.what == .poll m.addr && c.invalid
    (t.branch b).roster = (s.branch b).roster.map (fun m => if m.presence = .silent ∧ (newParams r s.params).missLimit ≤ m.misses then
        { m with presence := .missing, owed := if polled m then 0 else m.owed } else m)
    ∧ (∀ m ∈ (s.branch b).roster, lost m → t.flagSet .moduleLost = true)
    ∧ HeldAsEligible (fun e => e.pos.branch = b ∧ ∃ m ∈ (s.branch b).roster, lost m ∧ m.addr = e.pos.addr) t
    ∧ (∀ c, Awaits b c s → (∃ m ∈ (s.branch b).roster, lost m ∧ m.addr = c.what.addr) → EndedBy b c t)
    ∧ ((∀ c, Awaits b c s → ∀ m ∈ (s.branch b).roster, lost m → m.addr ≠ c.what.addr) →
        (t.branch b).command = (s.branch b).command ∧ (t.branch b).direct = (s.branch b).direct) := by
  intro t lost polled
  have order : ∀ d, (((configHeld r s).branch d).roster.map (·.addr)).Nodup := fun d => by
    rw [configHeld_branch]; exact (hb.fits d).order.imp fun h => ne_of_lt h
  have judged := applyMissChange_judged (old := s.params) (s := configHeld r s) hc hm hi order b
  rw [← configDone_miss hn] at judged
  have behind : OnlyChanges eventParts (configDone r s) t := configSet_behind r a s
  have flag : t.flagSet .moduleLost = (configDone r s).flagSet .moduleLost := by
    rw [show t.flagSet .moduleLost = _ from endEvent_flagSet _ (by decide), answer_flagSet _ _ _ (by decide)]
  obtain ⟨lines, lostFlag, held⟩ := judged.andEnd behind flag
  have awaits : ∀ c, Awaits b c (configHeld r s) ↔ Awaits b c s := fun c => by unfold Awaits; rw [configHeld_branch]
  have hits : ∀ c, CommandHit (newParams r s.params).missLimit b ((s.branch b).roster.map (·.addr)) c (configHeld r s) ↔
      ∃ m ∈ (s.branch b).roster, lost m ∧ m.addr = c.what.addr := fun c => by
    unfold CommandHit
    rw [configHeld_branch]
    exact ⟨fun ⟨m, hm, _, h⟩ => ⟨m, hm, h⟩, fun ⟨m, hm, h⟩ => ⟨m, hm, List.mem_map_of_mem hm, h⟩⟩
  have roster := lines.roster
  have kept := lines.kept
  have ended := lines.ended
  simp only [configHeld_branch, configHeld_params, awaits, hits] at roster kept ended lostFlag
  refine ⟨?_, lostFlag, held.of_imp fun e _ he => ?_, ended, fun free => kept fun c hc ⟨m, hm, hl, ha⟩ => free c hc m hm hl ha⟩
  · rw [roster]
    refine List.map_congr_left fun m hm => ?_
    unfold judgedAs
    simp only [List.mem_map_of_mem hm, true_and]
    rfl
  · obtain ⟨hb, m, hm, hl, ha⟩ := he
    unfold LostAt
    rw [configHeld_branch]
    exact ⟨hb, m, hm, List.mem_map_of_mem hm, hl, ha⟩

end

/-! ## The CONFIG_SET as a whole -/

/-- Settles O21: each effect is read off where its parameter alone of those with effects has changed; records are counted through all four. -/
theorem configSetJudgesWhatRuns : Obligations.ConfigSetJudgesWhatRuns := by
  intro r s hc h3 h7
  have reply : (Answer.ok (newParams r s.params).body).rest.length = 10 := paramsBody_length _
  have params := configSet_params r (Answer.ok (newParams r s.params).body) s
  refine ⟨_, configSet_taken hc (badParameter_passes h3 h7), fun few room => ?_, fun hn hm hi hs => ?_, fun hn hch hp w rest hf => ?_,
    fun hn hch hm hi hb b => ?_⟩
  · refine configSet_records _ few (room.imp (fun h0 => ?_) id)
    have own := ((configDone_sendsOwn r s).trans (answer_sendsOwn r (Answer.ok (newParams r s.params).body) _)).trans (endEvent_sendsOwn _)
    rw [own.station, h0]
  · exact configSet_linger hn hm hi hs (by rw [reply]; decide)
  · rw [params] at hch ⊢
    exact configSet_combine hn hch hp hf reply
  · rw [params] at hch ⊢
    exact configSet_miss hn hch hm hi hb b

end Sys2Proof.Machine

/-!
PROOFS. The reads of the tables (O23), and the requests that lock areas and pause pickers (O28).
-/

namespace Sys2Proof.Machine

open Sys2Proof

/-! ## Requests with one known effect -/

section
variable {k : ReqKind} {r : Request} {s : State} {apply : Request → State → Answer × State} {a : Answer}

/-- A request whose block answers without any effect changes nothing. -/
theorem carryForward_unchanged (hc : Carried k r s) (h : apply r (taken s) = (a, taken s)) :
    Answered [] r a.code a.rest s (carryForward k (answered apply) s) := by
  have hans := carryForward_reads hc (congrArg Prod.snd h)
  rwa [h] at hans

/-- A request whose block answers with a known effect is answered so, and the effect stands at the end of its event. -/
theorem carryForward_applied {ps : List Part} {u : State} (hc : Carried k r s) (h : apply r (taken s) = (a, u))
    (hu : OnlyChanges ps (taken s) u)
    (hps : ∀ p ∈ [Part.lines, .station, .queues, .sequence, .store, .admitted, .notes, .params], p ∉ ps) :
    Answered ps r a.code a.rest s (carryForward k (answered apply) s)
      ∧ OnlyChanges eventParts u (carryForward k (answered apply) s) := by
  have hops : u.params.hops = s.params.hops := congrArg Params.hops (hu.keeps (p := .params) (hps _ (by decide)))
  have hans := carryForward_answers (ps := ps) (apply := apply) hc (by rw [h]; exact hu)
    (fun p hp => hps p (by simp at hp ⊢; tauto)) (by rw [h]; exact hops)
  rwa [h] at hans

end

/-! ## The reads that return entries (R51, R65, R91, R152) -/

theorem applyRosterRead_in {r : Request} {b : Branch} (s : State) (hb : r.field 0 1 = (branchCode b).toNat) (h1 : 1 ≤ r.field 1 1)
    (h48 : r.field 1 1 ≤ 48) : applyRosterRead r s =
      let found := (s.branch b).roster.filter (fun m => r.field 1 1 ≤ m.addr)
      (Answer.ok (BitVec.ofNat 8 (found.take 16).length :: (found.take 16).flatMap Module.body ++ [indication (16 < found.length)]), s) := by
  have hrange : ¬ (r.startAddress < 1 ∨ 48 < r.startAddress) := by unfold Request.startAddress; omega
  unfold applyRosterRead
  rw [branch_of_code hb]
  simp only [if_neg hrange]
  rfl

theorem applyRosterRead_out {r : Request} (s : State) (h : 1 < r.field 0 1 ∨ r.field 1 1 = 0 ∨ 48 < r.field 1 1) :
    applyRosterRead r s = (Answer.refuse .badField, s) := by
  unfold applyRosterRead
  cases hb : r.branch with
  | none => rfl
  | some b =>
    have hrange : r.startAddress < 1 ∨ 48 < r.startAddress := by
      unfold Request.startAddress
      rcases h with h | h
      · rw [branch_out_of_range h] at hb; cases hb
      · omega
    simp only [if_pos hrange]

theorem pickerOf_none {s : State} {id : Nat} (h : ∀ p ∈ s.pickers, p.id ≠ id) : s.pickerOf id = none :=
  List.find?_eq_none.2 fun p hp => by simpa using h p hp

theorem taskOf_none {s : State} {n : Nat} (h : ∀ x ∈ s.tasks, x.number ≠ n) : s.taskOf n = none :=
  List.find?_eq_none.2 fun x hx => by simpa using h x hx

theorem Picker.indexed_body (p : Picker) : [BitVec.ofNat 8 p.index] ++ beBytes 2 p.id
    ++ [p.colour.code, BitVec.ofNat 8 p.priority, p.state.code] ++ beBytes 2 p.openTasks ++ beBytes 2 (p.pace.getD 0)
    ++ [indication p.pace.isSome] = BitVec.ofNat 8 p.index :: p.body := by simp [Picker.body]

theorem applyPickerRead_all {r : Request} (s : State) (h : r.field 0 2 = 0) : applyPickerRead r s =
    (Answer.ok (BitVec.ofNat 8 s.pickers.length :: s.pickers.flatMap fun p => BitVec.ofNat 8 p.index :: p.body), s) := if_pos h

theorem applyPickerRead_one {r : Request} {s : State} {p : Picker} (h : r.field 0 2 ≠ 0) (hp : s.pickerOf (r.field 0 2) = some p) :
    applyPickerRead r s = (Answer.ok (BitVec.ofNat 8 p.index :: p.body), s) := by
  unfold applyPickerRead Request.pickerId
  rw [if_neg h, hp]

theorem applyPickerRead_unknown {r : Request} {s : State} (h : r.field 0 2 ≠ 0) (hp : ∀ p ∈ s.pickers, p.id ≠ r.field 0 2) :
    applyPickerRead r s = (Answer.refuse .unknownPicker, s) := by
  unfold applyPickerRead Request.pickerId
  rw [if_neg h, pickerOf_none hp]

theorem applyTaskQuery_open {r : Request} {s : State} {x : Task} {g : Group} (hx : s.taskOf (r.field 0 4) = some x)
    (hg : s.groupOf x.group = some g) : applyTaskQuery r s = (Answer.ok (queryBody x g), s) := by
  unfold applyTaskQuery Request.taskNumber
  rw [hx]
  simp only [hg]

theorem applyTaskQuery_unknown {r : Request} {s : State} (h : ∀ x ∈ s.tasks, x.number ≠ r.field 0 4) :
    applyTaskQuery r s = (Answer.refuse .unknownTask, s) := by
  unfold applyTaskQuery Request.taskNumber
  rw [taskOf_none h]

/-- Settles O23: each read answers from the table as it stands when it is taken, and a name that the table does not hold is refused. -/
theorem readsReturnEntries : Obligations.ReadsReturnEntries := by
  refine fun r s => ⟨fun hc => ⟨_, rfl, carryForward_unchanged (apply := applyMapRead) hc rfl⟩,
    fun hc => ⟨fun b hb h1 h48 => ?_, fun h => ?_⟩, fun hc => ?_, fun hc => ⟨fun x g hx hg => ?_, fun hn => ?_⟩⟩
  · have hread := applyRosterRead_in (taken s) hb h1 h48
    rw [taken_branch] at hread
    exact ⟨_, rfl, carryForward_unchanged hc hread⟩
  · exact ⟨_, rfl, carryForward_unchanged hc (applyRosterRead_out (taken s) h)⟩
  · simp only [Picker.indexed_body]
    exact ⟨fun h => ⟨_, rfl, carryForward_unchanged hc (applyPickerRead_all (taken s) h)⟩,
      fun h p hp => ⟨_, rfl, carryForward_unchanged hc (applyPickerRead_one (s := taken s) h hp)⟩,
      fun h hn => ⟨_, rfl, carryForward_unchanged hc (applyPickerRead_unknown (s := taken s) h hn)⟩⟩
  · have hans := carryForward_unchanged hc (applyTaskQuery_open (s := taken s) hx hg)
    simp only [Answer.ok, queryBody] at hans
    exact ⟨_, rfl, hans⟩
  · exact ⟨_, rfl, carryForward_unchanged hc (applyTaskQuery_unknown (s := taken s) hn)⟩

/-! ## Notices to the display (R53, R54, R62, R63) -/

/-- Locations recomputed after a request's change that leaves the map, the groups and the slots alone have been redrawn, and no others. -/
theorem notice_redrawn {ps : List Part} {p : MapEntry → Bool} {s u t : State} (hm : MapOk s) (hn : (s.groups.map (·.id)).Nodup)
    (hu : OnlyChanges ps (taken s) u) (hps : ∀ q ∈ [Part.locations, .groups, .slots], q ∉ ps)
    (ht : OnlyChanges eventParts (recomputeWhere p u) t) :
    Redrawn (fun e => p e = true) s t := by
  have hmap : u.locMap = s.locMap := hu.keeps (p := .locations) (hps _ (by decide))
  have hgroups : u.groups = s.groups := hu.keeps (p := .groups) (hps _ (by decide))
  have hslots : u.slots = s.slots := hu.keeps (p := .slots) (hps _ (by decide))
  have hdrawn := recomputeWhere_redrawn p (hm.of_eq hmap) (hgroups ▸ hn)
  exact (hdrawn.of_start hgroups hslots).trans_only ht (by decide)

theorem Redrawn.of_iff {p q : MapEntry → Prop} {s t : State} (h : Redrawn p s t) (hpq : ∀ e, p e ↔ q e) : Redrawn q s t :=
  (funext fun e => propext (hpq e) : p = q) ▸ h

theorem recomputeWhere_none {p : MapEntry → Bool} (s : State) (h : ∀ e, p e = false) : recomputeWhere p s = s := by
  rw [recomputeWhere, List.filter_eq_nil_iff.2 fun e _ => by simp [h e]]; rfl

/-! ## AREA_LOCK and AREA_UNLOCK (R53, R54) -/

/-- The area states written, and the notice of the areas that have changed. -/
def areasSwitched (changed locked : BitVec 16) (s : State) : State := noticeAreas changed { s with locked := locked }

theorem areasWritten_only (locked : BitVec 16) (s : State) : OnlyChanges [.areas] s { s with locked := locked } := by
  intro p; cases p <;> simp [Keeps]

theorem areasSwitched_only (changed locked : BitVec 16) (s : State) :
    OnlyChanges (.areas :: displayParts) s (areasSwitched changed locked s) :=
  ((areasWritten_only locked s).mono (by decide)).trans ((recomputeWhere_only _ _).mono (by decide))

theorem areasSwitched_locked (changed locked : BitVec 16) (s : State) : (areasSwitched changed locked s).locked = locked :=
  (recomputeWhere_only _ { s with locked := locked }).keeps (p := .areas) (by decide)

theorem areasSwitched_none (locked : BitVec 16) (s : State) : areasSwitched 0 locked s = { s with locked := locked } :=
  recomputeWhere_none _ fun e => by simp

theorem applyAreaLock_eq (r : Request) (s : State) : applyAreaLock r s =
    (Answer.ok (beBytes 2 (s.locked ||| r.areaSet).toNat), areasSwitched (r.areaSet &&& ~~~s.locked) (s.locked ||| r.areaSet) s) :=
  Prod.ext (congrArg (fun x : BitVec 16 => Answer.ok (beBytes 2 x.toNat)) (areasSwitched_locked _ _ s)) rfl

theorem applyAreaUnlock_eq (r : Request) (s : State) : applyAreaUnlock r s =
    (Answer.ok (beBytes 2 (s.locked &&& ~~~r.areaSet).toNat), areasSwitched (r.areaSet &&& s.locked) (s.locked &&& ~~~r.areaSet) s) :=
  Prod.ext (congrArg (fun x : BitVec 16 => Answer.ok (beBytes 2 x.toNat)) (areasSwitched_locked _ _ s)) rfl

/-- A request that writes the area states is answered with them, and the locations with open groups in the areas changed are redrawn. -/
theorem areas_answered {k : ReqKind} {r : Request} {s : State} {apply : Request → State → Answer × State} {changed locked : BitVec 16}
    (hc : Carried k r s) (h : apply r (taken s) = (Answer.ok (beBytes 2 locked.toNat), areasSwitched changed locked (taken s))) :
    let t := carryForward k (answered apply) s
    t.locked = locked ∧ Answered (.areas :: displayParts) r .ok (beBytes 2 t.locked.toNat) s t
      ∧ (MapOk s → (s.groups.map (·.id)).Nodup →
          Redrawn (fun e => (∃ g ∈ s.groups, g.loc = e.code) ∧ changed.getLsbD e.area = true) s t)
      ∧ (changed = 0 → Answered [.areas] r .ok (beBytes 2 t.locked.toNat) s t) := by
  intro t
  obtain ⟨hans, hend⟩ := carryForward_applied hc h (areasSwitched_only _ _ _) (by decide)
  have hlocked : t.locked = locked := Eq.trans (hend.keeps (p := .areas) (by decide)) (areasSwitched_locked changed locked (taken s))
  refine ⟨hlocked, hlocked.symm ▸ hans, fun hm hn => ?_, fun h0 => ?_⟩
  · refine (notice_redrawn hm hn (areasWritten_only locked (taken s)) (by decide) hend).of_iff fun e => ?_
    rw [Bool.and_eq_true, hasGroups_iff]
    exact and_comm
  · subst h0
    rw [areasSwitched_none] at h
    rw [hlocked]
    exact (carryForward_applied hc h (areasWritten_only _ _) (by decide)).1

/-- The areas named that were not LOCKED (R53). -/
theorem area_newly_locked (named locked : BitVec 16) (i : Nat) :
    (named &&& ~~~locked).getLsbD i = true ↔ named.getLsbD i = true ∧ locked.getLsbD i = false := by
  have hi : named.getLsbD i = true → i < 16 := BitVec.lt_of_getLsbD
  simp only [BitVec.getLsbD_and, BitVec.getLsbD_not, Bool.and_eq_true, decide_eq_true_eq, Bool.not_eq_true']
  tauto

/-! ## PICKER_PAUSE and PICKER_RESUME (R62, R63) -/

/-- A picker entry in a new state, and the notice of its locations. -/
def pickerSwitched (goal : PickerState) (p : Picker) (s : State) : State := noticePicker p.id (s.setPicker { p with state := goal })

theorem pickerSwitched_only (goal : PickerState) (p : Picker) (s : State) :
    OnlyChanges (.pickers :: displayParts) s (pickerSwitched goal p s) :=
  ((setPicker_only s _).mono (by decide)).trans ((recomputeWhere_only _ _).mono (by decide))

theorem setPickerState_known {goal : PickerState} {r : Request} {s : State} {p : Picker} (hp : s.pickerOf (r.field 0 2) = some p) :
    setPickerState goal r s =
      (Answer.ok ([goal.code] ++ beBytes 2 p.openTasks), if p.state = goal then s else pickerSwitched goal p s) := by
  unfold setPickerState Request.pickerId
  rw [hp]
  rfl

theorem setPickerState_unknown {goal : PickerState} {r : Request} {s : State} (h : ∀ p ∈ s.pickers, p.id ≠ r.field 0 2) :
    setPickerState goal r s = (Answer.refuse .unknownPicker, s) := by
  unfold setPickerState Request.pickerId
  rw [pickerOf_none h]

/-- PICKER_PAUSE and PICKER_RESUME both set a picker's state. -/
theorem exec_setPickerState {c : Instr} {goal : PickerState} {k : ReqKind}
    (h : (c = .pickerPause ∧ k = .pickerPause ∧ goal = .paused) ∨ (c = .pickerResume ∧ k = .pickerResume ∧ goal = .active)) (s : State) :
    exec c s = .next (carryForward k (answered (setPickerState goal)) s) := by
  rcases h with ⟨rfl, rfl, rfl⟩ | ⟨rfl, rfl, rfl⟩ <;> rfl

/-- A picker that changes its state is answered with it, and the locations with a group of that picker are redrawn. -/
theorem picker_answered {goal : PickerState} {k : ReqKind} {r : Request} {s : State} {p : Picker} (hc : Carried k r s)
    (hp : s.pickerOf (r.field 0 2) = some p) (hs : p.state ≠ goal) :
    let t := carryForward k (answered (setPickerState goal)) s
    t.pickers = s.pickers.map (fun x => if x.id = p.id then { p with state := goal } else x)
      ∧ (MapOk s → (s.groups.map (·.id)).Nodup → Redrawn (fun e => ∃ g ∈ s.groups, g.loc = e.code ∧ g.picker = p.id) s t)
      ∧ Answered (.pickers :: displayParts) r .ok ([goal.code] ++ beBytes 2 p.openTasks) s t := by
  intro t
  have hap := setPickerState_known (goal := goal) (s := taken s) hp
  rw [if_neg hs] at hap
  obtain ⟨hans, hend⟩ := carryForward_applied hc hap (pickerSwitched_only _ _ _) (by decide)
  refine ⟨?_, fun hm hn => ?_, hans⟩
  · exact Eq.trans (hend.keeps (p := .pickers) (by decide))
      ((recomputeWhere_only _ ((taken s).setPicker { p with state := goal })).keeps (p := .pickers) (by decide))
  · refine (notice_redrawn hm hn (setPicker_only (taken s) { p with state := goal }) (by decide) hend).of_iff fun e => ?_
    simp [taken]

/-- Settles O28: each request writes its states and then notices the locations concerned; where nothing changes, none is. -/
theorem areasAndPickersSwitch : Obligations.AreasAndPickersSwitch := by
  refine ⟨fun r s => ⟨fun hc => ?_, fun hc => ?_⟩, fun c goal k r s hreq hc => ⟨fun p hp => ⟨fun hs => ?_, fun hs => ?_⟩, fun hn => ?_⟩⟩
  · obtain ⟨hlocked, hans, hdrawn, hsame⟩ := areas_answered hc (applyAreaLock_eq r (taken s))
    refine ⟨_, rfl, hlocked, hans, fun hm hn => (hdrawn hm hn).of_iff fun e => ?_, hsame⟩
    rw [area_newly_locked]; rfl
  · obtain ⟨hlocked, hans, hdrawn, hsame⟩ := areas_answered hc (applyAreaUnlock_eq r (taken s))
    refine ⟨_, rfl, hlocked, hans, fun hm hn => (hdrawn hm hn).of_iff fun e => ?_, hsame⟩
    rw [BitVec.getLsbD_and, Bool.and_eq_true]; rfl
  · exact ⟨_, exec_setPickerState hreq s, picker_answered hc hp hs⟩
  · have hap := setPickerState_known (goal := goal) (s := taken s) hp
    rw [if_pos hs] at hap
    exact ⟨_, exec_setPickerState hreq s, carryForward_unchanged hc hap⟩
  · exact ⟨_, exec_setPickerState hreq s, carryForward_unchanged hc (setPickerState_unknown (s := taken s) hn)⟩

end Sys2Proof.Machine

/-!
PROOFS. The requests that edit the location map (O24, O25, O26): how a map takes an entry, which checks an entry passes, and what a changed
map does to the slots and the display work queues.
-/

namespace Sys2Proof.Machine

open Sys2Proof

/-! ## An entry held in the map (R40, R48) -/

theorem mapWith_front {map : List MapEntry} {e : MapEntry} (h : ∀ x ∈ map, e.code < x.code) : mapWith map e = e :: map := by
  rw [mapWith, List.filter_eq_nil_iff.2 (by simpa using fun x hx => (h x hx).le), List.filter_eq_self.2 (by simpa using h)]; rfl

theorem mapWith_behind {x e : MapEntry} (h : x.code < e.code) (map : List MapEntry) : mapWith (x :: map) e = x :: mapWith map e := by
  simp [mapWith, h, h.le]

theorem mapWith_same {x e : MapEntry} (h : x.code = e.code) (map : List MapEntry) : mapWith (x :: map) e = mapWith map e := by
  simp [mapWith, h]

/-- A new code joins the map in its place. -/
theorem insertEntry_mapWith {e : MapEntry} {map : List MapEntry} (h : (map.map (·.code)).Pairwise (· < ·)) (hnew : e.code ∉ map.map (·.code)) :
    insertEntry e map = mapWith map e := by
  induction map with
  | nil => rfl
  | cons x xs ih =>
    obtain ⟨hx, hxs⟩ := List.pairwise_cons.1 h
    obtain ⟨hne, hnot⟩ : e.code ≠ x.code ∧ e.code ∉ xs.map (·.code) := by simpa using hnew
    by_cases hlt : e.code < x.code
    · rw [insertEntry, if_pos hlt, mapWith_front fun y hy => ?_]
      rcases List.mem_cons.1 hy with rfl | hy
      · exact hlt
      · exact hlt.trans (hx _ (List.mem_map_of_mem hy))
    · rw [insertEntry, if_neg hlt, ih hxs hnot, mapWith_behind (by omega)]

/-- An entry takes the place of the one with its code. -/
theorem replace_mapWith {e : MapEntry} {map : List MapEntry} (h : (map.map (·.code)).Pairwise (· < ·)) (held : e.code ∈ map.map (·.code)) :
    (map.map fun x => if x.code = e.code then e else x) = mapWith map e := by
  induction map with
  | nil => simp at held
  | cons x xs ih =>
    obtain ⟨hx, hxs⟩ := List.pairwise_cons.1 h
    have above : ∀ y ∈ xs, x.code < y.code := fun y hy => hx _ (List.mem_map_of_mem hy)
    by_cases hc : x.code = e.code
    · have later : ∀ y ∈ xs, e.code < y.code := fun y hy => hc ▸ above y hy
      have rest : (xs.map fun x => if x.code = e.code then e else x) = xs := by
        conv_rhs => rw [← List.map_id xs]
        exact List.map_congr_left fun y hy => if_neg (later y hy).ne'
      rw [List.map_cons, if_pos hc, rest, mapWith_same hc, mapWith_front later]
    · have hmem : e.code ∈ xs.map (·.code) := (List.mem_cons.1 held).resolve_left (Ne.symm hc)
      rw [List.map_cons, if_neg hc, ih hxs hmem, mapWith_behind (hx _ hmem)]

/-! ## The checks of one entry (R43 to R47) -/

/-- A code that the map holds and that has open groups (R44). -/
def InUse (s : State) (map : List MapEntry) (e : MapEntry) : Prop := e.code ∈ map.map (·.code) ∧ ∃ g ∈ s.groups, g.loc = e.code

/-- A slot position that the map gives to another code (R45). -/
def SlotTaken (map : List MapEntry) (e : MapEntry) : Prop := ∃ x ∈ map, x.pos = e.pos ∧ x.code ≠ e.code

/-- A slot beyond the slot count of its module's roster entry (R46). -/
def SlotBeyond (s : State) (e : MapEntry) : Prop := ∃ m, (s.branch e.pos.branch).moduleAt e.pos.addr = some m ∧ m.slots < e.pos.slot

theorem any_code_iff (map : List MapEntry) (c : Nat) : map.any (fun x => x.code == c) = true ↔ c ∈ map.map (·.code) := by simp

theorem inUse_iff (s : State) (map : List MapEntry) (e : MapEntry) :
    (map.any (fun x => x.code == e.code) && s.hasGroups e.code) = true ↔ InUse s map e := by
  rw [Bool.and_eq_true, any_code_iff, hasGroups_iff]; rfl

theorem slotTaken_iff (map : List MapEntry) (e : MapEntry) :
    map.any (fun x => x.pos == e.pos && x.code != e.code) = true ↔ SlotTaken map e := by simp [SlotTaken]

theorem slotBeyond_iff (s : State) (e : MapEntry) : slotBeyond e.pos s = true ↔ SlotBeyond s e := by
  rw [slotBeyond, elim_false_iff]
  simp only [decide_eq_true_eq]; rfl

/-- The checks pass where none of them names a fault and a new code finds room. -/
theorem loadPasses_iff (s : State) (map : List MapEntry) (e : MapEntry) : LoadPasses s map e ↔
    ¬ InUse s map e ∧ ¬ SlotTaken map e ∧ ¬ SlotBeyond s e ∧ (e.code ∈ map.map (·.code) ∨ map.length < Config.mapEntries) := by
  simp only [LoadPasses, InUse, SlotTaken, SlotBeyond, not_and, not_exists, not_lt, ne_eq, not_not]

section
variable {s : State} {i : LoadItem} {w : LoadProgress} {e : MapEntry}

theorem loadOne_noEntry (h : i.entry = none) : loadOne s i w = .error .badField := by
  unfold loadOne; rw [h]

theorem loadOne_inUse (h : i.entry = some e) (hu : InUse s w.map e) : loadOne s i w = .error .inUse := by
  unfold loadOne; rw [h]
  simp only [if_pos ((inUse_iff s w.map e).2 hu)]

theorem loadOne_slotTaken (h : i.entry = some e) (hu : ¬ InUse s w.map e) (ht : SlotTaken w.map e) : loadOne s i w = .error .slotTaken := by
  unfold loadOne; rw [h]
  simp only [if_neg (mt (inUse_iff s w.map e).1 hu), if_pos ((slotTaken_iff w.map e).2 ht)]

theorem loadOne_beyond (h : i.entry = some e) (hu : ¬ InUse s w.map e) (ht : ¬ SlotTaken w.map e) (hb : SlotBeyond s e) :
    loadOne s i w = .error .badField := by
  unfold loadOne; rw [h]
  simp only [if_neg (mt (inUse_iff s w.map e).1 hu), if_neg (mt (slotTaken_iff w.map e).1 ht), if_pos ((slotBeyond_iff s e).2 hb)]

/-- A MAP_LOAD has gone from one progress to another by holding entries: each was added or replaced. -/
structure Loaded (es : List MapEntry) (w v : LoadProgress) : Prop where
  map : v.map = es.foldl mapWith w.map
  added : v.map.length + w.added = w.map.length + v.added
  replaced : v.added + v.replaced = w.added + w.replaced + es.length

theorem Loaded.nil (w : LoadProgress) : Loaded [] w w := ⟨rfl, rfl, rfl⟩

theorem Loaded.cons {es : List MapEntry} {u v : LoadProgress} (h : Loaded [e] w u) (k : Loaded es u v) : Loaded (e :: es) w v where
  map := by rw [k.map, h.map]; rfl
  added := by have := h.added; have := k.added; omega
  replaced := by have := h.replaced; have := k.replaced; simp only [List.length_cons, List.length_nil] at *; omega

/-- An entry that passes is held. -/
theorem loadOne_passes (h : i.entry = some e) (hw : MapInOrder w.map) (hp : LoadPasses s w.map e) :
    ∃ v, loadOne s i w = .ok v ∧ Loaded [e] w v := by
  obtain ⟨hu, ht, hb, hroom⟩ := (loadPasses_iff s w.map e).1 hp
  unfold loadOne; rw [h]
  simp only [if_neg (mt (inUse_iff s w.map e).1 hu), if_neg (mt (slotTaken_iff w.map e).1 ht), if_neg (mt (slotBeyond_iff s e).1 hb),
    any_code_iff]
  by_cases held : e.code ∈ w.map.map (·.code)
  · rw [if_pos held]
    exact ⟨_, rfl, replace_mapWith hw.1 held, by simp, by simp; omega⟩
  · have hins := insertEntry_mapWith hw.1 held
    have hlen : (insertEntry e w.map).length = w.map.length + 1 := by rw [insertEntry_eq, List.orderedInsert_length]
    rw [if_neg held, if_neg (Nat.not_le.2 (hroom.resolve_left held))]
    exact ⟨_, rfl, hins, by simp only [hlen]; omega, by simp; omega⟩

end

/-! ## The entries of a MAP_LOAD in frame order (R42) -/

/-- Each entry passes against a map as the entries before it left it: AllPass, from any map. -/
def PassFrom (s : State) (map : List MapEntry) (es : List MapEntry) : Prop :=
  ∀ i e, es[i]? = some e → LoadPasses s ((es.take i).foldl mapWith map) e

theorem passFrom_cons {s : State} {map : List MapEntry} {e : MapEntry} {es : List MapEntry} (h : PassFrom s map (e :: es)) :
    LoadPasses s map e ∧ PassFrom s (mapWith map e) es := ⟨h 0 e rfl, fun i d hd => h (i + 1) d hd⟩

theorem allPass_taken {s : State} {es : List MapEntry} (h : AllPass s es) : PassFrom (taken s) s.locMap es := by
  intro i e he
  have hp := h i e he
  unfold LoadPasses at hp ⊢
  rwa [taken_branch]

/-- The entries that pass are held, and those behind them are judged against the map so made. -/
theorem loadAll_append {s : State} (rest : List LoadItem) (items : List LoadItem) : ∀ {es : List MapEntry} {n : Nat} {w : LoadProgress},
    MapInOrder w.map → items.map LoadItem.entry = es.map some → PassFrom s w.map es →
    ∃ v, loadAll s n (items ++ rest) w = loadAll s (n + items.length) rest v ∧ MapInOrder v.map ∧ Loaded es w v := by
  induction items with
  | nil =>
    intro es n w hw hes _
    obtain rfl : es = [] := List.map_eq_nil_iff.1 hes.symm
    exact ⟨w, rfl, hw, Loaded.nil w⟩
  | cons i is ih =>
    intro es n w hw hes hp
    obtain ⟨e, es, rfl, he, hrest⟩ := List.map_eq_cons_iff.1 hes.symm
    obtain ⟨hpass, hmore⟩ := passFrom_cons hp
    obtain ⟨u, hu, hheld⟩ := loadOne_passes he.symm hw hpass
    obtain ⟨v, hv, hin, hall⟩ := ih (n := n + 1) (loadOne_inOrder hu hw) hrest.symm (by rw [hheld.map]; exact hmore)
    refine ⟨v, ?_, hin, hheld.cons hall⟩
    rw [List.cons_append, loadAll, hu]
    simp only [hv, List.length_cons]
    congr 1; omega

/-- The progress with which a MAP_LOAD begins. -/
def loadStart (s : State) : LoadProgress := { map := s.locMap, added := 0, replaced := 0 }

/-- A list cut at the place of one of its elements. -/
theorem cut_at {α : Type} {l : List α} {i : Nat} {a : α} (h : l[i]? = some a) :
    l = l.take i ++ a :: l.drop (i + 1) ∧ (l.take i).length = i := by
  obtain ⟨hi, rfl⟩ := List.getElem?_eq_some_iff.1 h
  exact ⟨by simp, by simp; omega⟩

/-- The judgement of a MAP_LOAD whose first `i` entries pass is that of its entry `i`. -/
theorem loadAll_at {s : State} {items : List LoadItem} {i : Nat} {item : LoadItem} {es : List MapEntry} {code : ReplyCode}
    (hm : MapOk s) (hi : items[i]? = some item) (hes : (items.take i).map LoadItem.entry = es.map some) (hp : PassFrom s s.locMap es)
    (hbad : ∀ w, w.map = es.foldl mapWith s.locMap → loadOne s item w = .error code) :
    loadAll s 1 items (loadStart s) = .error (code, i + 1) := by
  obtain ⟨hcut, hlen⟩ := cut_at hi
  obtain ⟨v, hv, -, hloaded⟩ := loadAll_append (n := 1) (w := loadStart s) (item :: items.drop (i + 1)) _ hm hes hp
  rw [hcut, hv, hlen, loadAll, hbad v hloaded.map, Nat.add_comm]

/-- A MAP_LOAD that a check refuses is answered with the code and the entry's index, and changes nothing. -/
theorem mapLoad_refused {r : Request} {s : State} {code : ReplyCode} {n : Nat} (hc : Carried .mapLoad r s)
    (h : loadAll (taken s) 1 r.loadItems (loadStart (taken s)) = .error (code, n)) :
    ∃ t, exec .mapLoad s = .next t ∧ Answered [] r code [BitVec.ofNat 8 n] s t := by
  have hap : applyMapLoad r (taken s) = (Answer.refuseAt code n, taken s) := by
    unfold applyMapLoad
    rw [show loadAll (taken s) 1 r.loadItems { map := (taken s).locMap, added := 0, replaced := 0 } = _ from h]
  exact ⟨_, rfl, carryForward_unchanged hc hap⟩

theorem loadItem_noEntry {i : LoadItem}
    (h : i.code = 0 ∨ 1 < i.branch ∨ i.addr = 0 ∨ 48 < i.addr ∨ i.slot = 0 ∨ 4 < i.slot ∨ 15 < i.area) :
    i.entry = none := by
  unfold LoadItem.entry
  split
  · rfl
  · rename_i b hb
    have hbranch : i.branch ≤ 1 := by
      unfold branchOfCode at hb
      split at hb <;> simp_all
    rw [if_pos (by omega)]

/-- Settles O25: the entries before the first bad one are held one by one, and that one is judged against the map they leave. -/
theorem mapLoadRefusedWhole : Obligations.MapLoadRefusedWhole := by
  intro r i item es s hc hm hi hes hp map refused
  have bad {code : ReplyCode} (h : ∀ w : LoadProgress, w.map = map → loadOne (taken s) item w = .error code) : refused code :=
    mapLoad_refused hc (loadAll_at (s := taken s) hm hi hes (allPass_taken hp) h)
  refine ⟨fun hfields => bad fun w _ => loadOne_noEntry (loadItem_noEntry hfields), fun e he =>
    ⟨fun hu => bad fun w hw => ?_, fun hu ht => bad fun w hw => ?_, fun hu ht hb => bad fun w hw => ?_⟩⟩
  · exact loadOne_inUse he (hw ▸ hu)
  · exact loadOne_slotTaken he (hw ▸ hu) (hw ▸ ht)
  · refine loadOne_beyond he (hw ▸ hu) (hw ▸ ht) ?_
    unfold SlotBeyond; rw [taken_branch]; exact hb

/-! ## The slots that a changed map releases and takes up (R48) -/

theorem codeAt_isNone (map : List MapEntry) (pos : SlotPos) : (codeAt map pos).isNone = true ↔ pos ∉ map.map (·.pos) := by
  simp [codeAt]

theorem codeAt_eq_some {map : List MapEntry} (h : (map.map (·.pos)).Nodup) (pos : SlotPos) (c : Nat) :
    codeAt map pos = some c ↔ ∃ x ∈ map, x.pos = pos ∧ x.code = c := by
  simp only [codeAt, Option.map_eq_some_iff]
  constructor
  · rintro ⟨x, hx, rfl⟩
    exact ⟨x, List.mem_of_find?_eq_some hx, by simpa using List.find?_some hx, rfl⟩
  · rintro ⟨x, hx, rfl, rfl⟩
    cases hf : map.find? (fun e => e.pos == x.pos) with
    | none => simpa using List.find?_eq_none.1 hf x hx
    | some y =>
      obtain rfl := List.inj_on_of_nodup_map h (List.mem_of_find?_eq_some hf) hx (by simpa using List.find?_some hf)
      exact ⟨y, rfl, rfl⟩

theorem releasedSlots_eq (before after : List MapEntry) :
    releasedSlots before after = (before.filter (fun e => e.pos ∉ after.map (·.pos))).map (·.pos) := by
  rw [releasedSlots, List.filter_map]
  congr 1
  refine List.filter_congr fun e _ => ?_
  rw [Bool.eq_iff_iff, decide_eq_true_iff]
  exact codeAt_isNone after e.pos

theorem takenUpSlots_eq {before after : List MapEntry} (hb : (before.map (·.pos)).Nodup) (ha : (after.map (·.pos)).Nodup) :
    takenUpSlots before after = (after.filter (fun e => ¬ ∃ x ∈ before, x.pos = e.pos ∧ x.code = e.code)).map (·.pos) := by
  rw [takenUpSlots, List.filter_map]
  congr 1
  refine List.filter_congr fun e he => ?_
  have hcode : codeAt after e.pos = some e.code := (codeAt_eq_some ha _ _).2 ⟨e, he, rfl, rfl⟩
  rw [Bool.eq_iff_iff, decide_eq_true_iff, ← codeAt_eq_some hb e.pos e.code, Function.comp, hcode, bne_iff_ne]
  exact ne_comm

theorem taken_up_not_released {before after : List MapEntry} {pos : SlotPos} (h : pos ∈ takenUpSlots before after) :
    pos ∉ releasedSlots before after := fun hr => (codeAt_isNone after pos).1 (List.mem_filter.1 hr).2 (List.mem_filter.1 h).1

/-- A map without some of its entries takes up no slot. -/
theorem takenUpSlots_filter {before : List MapEntry} (h : (before.map (·.pos)).Nodup) (q : MapEntry → Bool) :
    takenUpSlots before (before.filter q) = [] := by
  rw [takenUpSlots_eq h (h.sublist (List.filter_sublist.map _)), List.filter_eq_nil_iff.2 fun e he => ?_]
  · rfl
  · simpa using ⟨e, List.mem_of_mem_filter he, rfl, rfl⟩

/-! ## Slots that change one after another (R48, R95, R103) -/

theorem keeps_work {s t : State} (h : Keeps .work s t) (b : Branch) : (t.branch b).work = (s.branch b).work := by
  cases b
  · exact h.1
  · exact h.2

theorem WorkGains.between {b : Branch} {added : List SlotPos} {r s t u : State} (h : WorkGains b added s t) (hs : Keeps .work r s)
    (ht : Keeps .work t u) : WorkGains b added r u := by
  unfold WorkGains at h ⊢
  rw [keeps_work ht, h, keeps_work hs]

theorem WorkGains.none {b : Branch} {s t : State} (h : Keeps .work s t) : WorkGains b [] s t := by
  rw [WorkGains, keeps_work h]; simp

/-- Slots that enter behind others, all different, stand behind them. -/
theorem WorkGains.append {b : Branch} {xs ys : List SlotPos} {s t u : State} (h : WorkGains b xs s t) (k : WorkGains b ys t u)
    (apart : ∀ y ∈ ys, y ∉ xs) : WorkGains b (xs ++ ys) s u := by
  unfold WorkGains at h k ⊢
  rw [k, h, List.filter_append, List.append_assoc]
  congr 2
  refine List.filter_congr fun y hy => ?_
  simp [apart y hy]

theorem enqueueSlot_gains (pos : SlotPos) (s : State) (b : Branch) : WorkGains b [pos] s (enqueueSlot pos s) := by
  unfold WorkGains
  by_cases hb : pos.branch = b
  · subst hb
    rw [enqueueSlot_branch]
    by_cases hp : pos ∈ (s.branch pos.branch).work <;> simp [hp]
  · rw [enqueueSlot_branch_other pos s (Ne.symm hb)]; simp [hb]

/-- What changes one slot: it leaves a record of its own making there, and queues the slot by the record that it finds. -/
structure ChangesSlot (f : State → SlotPos → State) (new : SlotPos → Option SlotState) (queued : Option SlotState → Bool) : Prop where
  slot : ∀ s pos q, (f s pos).slotAt q = if q = pos then new q else s.slotAt q
  work : ∀ s pos b, WorkGains b ([pos].filter fun p => queued (s.slotAt p)) s (f s pos)

/-- The same change made to one slot after another, all different. -/
theorem ChangesSlot.foldl {f : State → SlotPos → State} {new : SlotPos → Option SlotState} {queued : Option SlotState → Bool}
    (h : ChangesSlot f new queued) (ps : List SlotPos) : ∀ s : State, ps.Nodup →
    (∀ q, (ps.foldl f s).slotAt q = if q ∈ ps then new q else s.slotAt q)
      ∧ ∀ b, WorkGains b (ps.filter fun p => queued (s.slotAt p)) s (ps.foldl f s) := by
  induction ps with
  | nil => exact fun s _ => ⟨fun q => by simp, fun b => WorkGains.none (Keeps.refl _ s)⟩
  | cons p ps ih =>
    intro s hnd
    obtain ⟨hp, hps⟩ := List.nodup_cons.1 hnd
    obtain ⟨hslot, hwork⟩ := ih (f s p) hps
    refine ⟨fun q => ?_, fun b => ?_⟩
    · rw [List.foldl_cons, hslot, h.slot]
      by_cases hq : q = p <;> by_cases hm : q ∈ ps <;> simp [hq, hm]
    · have unchanged : (ps.filter fun q => queued ((f s p).slotAt q)) = ps.filter fun q => queued (s.slotAt q) :=
        List.filter_congr fun q hq => by rw [h.slot, if_neg fun e : q = p => hp (e ▸ hq)]
      have hcut : (p :: ps).filter (fun q => queued (s.slotAt q)) = [p].filter (fun q => queued (s.slotAt q)) ++ ps.filter fun q => queued (s.slotAt q) :=
        List.filter_append [p] ps
      rw [hcut]
      refine (h.work s p b).append (unchanged ▸ hwork b) fun y hy hx => hp ?_
      obtain rfl : y = p := by simpa using List.mem_of_mem_filter hx
      exact List.mem_of_mem_filter hy

theorem find_filter_other (xs : List SlotState) (pos q : SlotPos) :
    (xs.filter (fun y => y.pos != pos)).find? (fun x => x.pos == q) = if q = pos then none else xs.find? (fun x => x.pos == q) := by
  rw [List.find?_filter]
  split
  · rename_i hq
    exact List.find?_eq_none.2 fun x _ => by simp [hq]
  · rename_i hq
    congr 1; funext x
    by_cases hx : x.pos = q <;> simp [hx, hq]

/-- A slot's record shows something. -/
def litRecord (x : Option SlotState) : Bool := x.any fun y => y.shadow ≠ Shadow.darkShadow

theorem releaseSlot_changes : ChangesSlot (fun t pos => releaseSlot pos t) (fun _ => none) litRecord where
  slot s pos q := by
    simp only [releaseSlot]
    split
    · rename_i hn
      split
      · rename_i hq; rw [hq, hn]
      · rfl
    · split
      · exact find_filter_other s.slots pos q
      · rw [enqueueSlot_slotAt]; exact find_filter_other s.slots pos q
  work s pos b := by
    have kept : Keeps .work s { s with slots := s.slots.filter (fun y => y.pos != pos) } := ⟨rfl, rfl⟩
    simp only [releaseSlot]
    split
    · rename_i hn
      rw [show [pos].filter (fun p => litRecord (s.slotAt p)) = [] by simp [litRecord, hn]]
      exact WorkGains.none (Keeps.refl _ s)
    · rename_i x hx
      split
      · rename_i hd
        rw [show [pos].filter (fun p => litRecord (s.slotAt p)) = [] by simp [litRecord, hx, hd]]
        exact WorkGains.none kept
      · rename_i hd
        rw [show [pos].filter (fun p => litRecord (s.slotAt p)) = [pos] by simp [litRecord, hx, hd]]
        exact (enqueueSlot_gains pos _ b).between kept (Keeps.refl _ _)

theorem takeUpSlot_changes : ChangesSlot (fun t pos => takeUpSlot pos t) (fun pos => some (SlotState.fresh pos)) (fun _ => true) where
  slot s pos q := by
    rw [takeUpSlot, enqueueSlot_slotAt]
    simp only [State.slotAt, List.find?_append, find_filter_other]
    by_cases hq : q = pos
    · subst hq; simp [SlotState.fresh]
    · simp [hq, SlotState.fresh, Ne.symm hq]
  work s pos b := (enqueueSlot_gains pos { s with slots := s.slots.filter (fun y => y.pos != pos) ++ [SlotState.fresh pos] } b).between
    ⟨rfl, rfl⟩ (Keeps.refl .work _)

/-- A changed map is held; the slots it releases lose their records and are queued where they showed something, and behind them those that it
takes up begin anew (R48, R95, log 18). -/
theorem changeMap_slots {map : List MapEntry} {s : State} (hs : (s.locMap.map (·.pos)).Nodup) (hm : (map.map (·.pos)).Nodup) :
    (∀ q, (changeMap map s).slotAt q = if q ∈ takenUpSlots s.locMap map then some (SlotState.fresh q)
        else if q ∈ releasedSlots s.locMap map then none else s.slotAt q)
      ∧ ∀ b, WorkGains b ((releasedSlots s.locMap map).filter (fun pos => Lit pos s) ++ takenUpSlots s.locMap map) s (changeMap map s) := by
  obtain ⟨rslot, rwork⟩ := releaseSlot_changes.foldl (releasedSlots s.locMap map) { s with locMap := map } (hs.filter _)
  obtain ⟨tslot, twork⟩ := takeUpSlot_changes.foldl (takenUpSlots s.locMap map) ((releasedSlots s.locMap map).foldl
    (fun t pos => releaseSlot pos t) { s with locMap := map }) (hm.filter _)
  refine ⟨fun q => (tslot q).trans (by rw [rslot]; rfl), fun b => ?_⟩
  rw [List.filter_true] at twork
  exact WorkGains.append ((rwork b).between ⟨rfl, rfl⟩ (Keeps.refl _ _)) (twork b) fun q ht hr => taken_up_not_released ht (List.mem_of_mem_filter hr)

theorem changeMap_locMap (map : List MapEntry) (s : State) : (changeMap map s).locMap = map := by
  have released := onlyChanges_foldl (fun u pos => releaseSlot_only pos u) (releasedSlots s.locMap map) { s with locMap := map }
  have takenUp := onlyChanges_foldl (fun u pos => takeUpSlot_only pos u) (takenUpSlots s.locMap map)
    ((releasedSlots s.locMap map).foldl (fun t pos => releaseSlot pos t) { s with locMap := map })
  exact (released.keeps (p := .locations) (by decide)).trans (takenUp.keeps (p := .locations) (by decide))

/-- A request that changes the map is answered, and what the change does to the slots stands at the end of its event. -/
theorem mapChange_answered {k : ReqKind} {r : Request} {s : State} {apply : Request → State → Answer × State} {a : Answer} {map : List MapEntry}
    (hc : Carried k r s) (h : apply r (taken s) = (a, changeMap map (taken s))) (hs : (s.locMap.map (·.pos)).Nodup) (hm : (map.map (·.pos)).Nodup) :
    let t := carryForward k (answered apply) s
    t.locMap = map
      ∧ (∀ q, t.slotAt q = if q ∈ takenUpSlots s.locMap map then some (SlotState.fresh q)
          else if q ∈ releasedSlots s.locMap map then none else s.slotAt q)
      ∧ (∀ b, WorkGains b ((releasedSlots s.locMap map).filter (fun pos => Lit pos s) ++ takenUpSlots s.locMap map) s t)
      ∧ Answered [.locations, .slots, .work] r a.code a.rest s t := by
  intro t
  obtain ⟨hans, hend⟩ := carryForward_applied hc h (changeMap_only map (taken s)) (by decide)
  obtain ⟨hslot, hwork⟩ := changeMap_slots (s := taken s) hs hm
  have hheld : (changeMap map (taken s)).locMap = map := changeMap_locMap map (taken s)
  have hslots : t.slots = (changeMap map (taken s)).slots := hend.keeps (p := .slots) (by decide)
  refine ⟨Eq.trans (hend.keeps (p := .locations) (by decide)) hheld, fun q => ?_, fun b => ?_, hans⟩
  · unfold State.slotAt; rw [hslots]; exact hslot q
  · exact (hwork b).between ((taken_only s).keeps (by decide)) (hend.keeps (by decide))

/-! ## MAP_LOAD (R42 to R48) -/

/-- A MAP_LOAD whose entries all pass has its counts from the lengths of the map before and after. -/
theorem applyMapLoad_passes {r : Request} {es : List MapEntry} {s : State} (hm : MapOk s) (hes : r.loadItems.map LoadItem.entry = es.map some)
    (hp : PassFrom s s.locMap es) :
    let map := es.foldl mapWith s.locMap
    MapInOrder map ∧ applyMapLoad r s = (Answer.ok (beBytes 2 (map.length - s.locMap.length)
      ++ beBytes 2 (es.length - (map.length - s.locMap.length)) ++ beBytes 2 map.length), changeMap map s) := by
  intro map
  obtain ⟨v, hv, hin, hmap, hadded, hreplaced⟩ := loadAll_append (n := 1) (w := loadStart s) [] _ hm hes hp
  have hv' : loadAll s 1 r.loadItems { map := s.locMap, added := 0, replaced := 0 } = .ok v := by
    rw [List.append_nil] at hv; exact hv
  have hvm : v.map = map := hmap
  simp only [loadStart, hvm] at hadded hreplaced
  have hcounts : v.added = map.length - s.locMap.length ∧ v.replaced = es.length - (map.length - s.locMap.length) := by omega
  refine ⟨hvm ▸ hin, ?_⟩
  obtain ⟨ha, hr⟩ := hcounts
  rw [applyMapLoad, hv', ← hr, ← ha, ← hvm]

/-- Settles O24: the entries are held one by one, and the slots that the whole change releases and takes up follow. -/
theorem mapLoadApplied : Obligations.MapLoadApplied := by
  intro r es s hc hm hes hp map released takenUp
  obtain ⟨hin, hap⟩ := applyMapLoad_passes (s := taken s) hm hes (allPass_taken hp)
  obtain ⟨-, hbefore, -, -⟩ := hm
  obtain ⟨hcodes, hafter, -, -⟩ := hin
  obtain ⟨hheld, hslot, hwork, hans⟩ := mapChange_answered (map := map) hc hap hbefore hafter
  have hreleased : releasedSlots s.locMap map = released := releasedSlots_eq _ _
  have htakenUp : takenUpSlots s.locMap map = takenUp := takenUpSlots_eq hbefore hafter
  have apart : ∀ pos ∈ released, pos ∉ takenUp := fun pos hr ht => taken_up_not_released (htakenUp ▸ ht) (hreleased ▸ hr)
  rw [hreleased, htakenUp] at hslot
  refine ⟨_, rfl, hheld, hcodes, fun pos hr => ?_, fun pos ht => ?_, fun pos hr ht => ?_, fun b => ?_, hans⟩
  · rw [hslot, if_neg (apart pos hr), if_pos hr]
  · rw [hslot, if_pos ht]
  · rw [hslot, if_neg ht, if_neg hr]
  · rw [← hreleased, ← htakenUp]; exact hwork b

/-! ## MAP_REMOVE (R48, R49) -/

/-- A code that the map holds and that has no open groups (R49). -/
def Removable (s : State) (map : List MapEntry) (c : Nat) : Prop := c ∈ map.map (·.code) ∧ ∀ g ∈ s.groups, g.loc ≠ c

theorem entryOf_isSome (s : State) (c : Nat) : (s.entryOf c).isSome = true ↔ c ∈ s.locMap.map (·.code) := by
  simp [State.entryOf]

theorem removable_iff (s : State) (c : Nat) : Removable s s.locMap c ↔ (s.entryOf c).isSome = true ∧ ∀ g ∈ s.groups, g.loc ≠ c := by
  rw [entryOf_isSome]; rfl

section
variable {s : State} {map : List MapEntry} {c : Nat}

theorem mem_codes_filter (map : List MapEntry) (p : Nat → Bool) (c : Nat) :
    c ∈ (map.filter fun e => p e.code).map (·.code) ↔ c ∈ map.map (·.code) ∧ p c = true := by
  rw [← List.mem_filter, List.filter_map]; rfl

theorem removeAll_unknown (h : c ∉ map.map (·.code)) (n : Nat) (rest : List Nat) :
    removeAll s n (c :: rest) map = .error (.unknownLocation, n) := by
  have habsent : (!map.any fun e => e.code == c) = true := by
    rw [Bool.not_eq_true', ← Bool.not_eq_true, any_code_iff]; exact h
  rw [removeAll, if_pos habsent]

theorem removeAll_held (h : c ∈ map.map (·.code)) (n : Nat) (rest : List Nat) : removeAll s n (c :: rest) map =
    if s.hasGroups c then .error (.inUse, n) else removeAll s (n + 1) rest (map.filter (fun x => x.code != c)) := by
  rw [removeAll, if_neg (by rw [(any_code_iff map c).2 h]; decide)]

theorem removeAll_inUse (h : c ∈ map.map (·.code)) (hg : ∃ g ∈ s.groups, g.loc = c) (n : Nat) (rest : List Nat) :
    removeAll s n (c :: rest) map = .error (.inUse, n) := by
  rw [removeAll_held h, if_pos ((hasGroups_iff s c).2 hg)]

theorem removeAll_removable (h : Removable s map c) (n : Nat) (rest : List Nat) :
    removeAll s n (c :: rest) map = removeAll s (n + 1) rest (map.filter (fun x => x.code != c)) := by
  rw [removeAll_held h.1, if_neg fun hg => ?_]
  obtain ⟨g, hm, hl⟩ := (hasGroups_iff s c).1 hg
  exact h.2 g hm hl

end

/-- Codes that can be removed, each named once, leave the map, and those behind them are judged against the map so left. -/
theorem removeAll_append {s : State} (rest : List Nat) (cs : List Nat) : ∀ {n : Nat} {map : List MapEntry},
    (∀ c ∈ cs, Removable s map c) → cs.Nodup →
    removeAll s n (cs ++ rest) map = removeAll s (n + cs.length) rest (map.filter (fun e => e.code ∉ cs)) := by
  induction cs with
  | nil => intro n map _ _; simp
  | cons c cs ih =>
    intro n map hfree hnd
    obtain ⟨hc, hcs⟩ := List.nodup_cons.1 hnd
    have later : ∀ d ∈ cs, Removable s (map.filter (fun x => x.code != c)) d := fun d hd => by
      obtain ⟨hin, hg⟩ := hfree d (List.mem_cons_of_mem c hd)
      have hne : (d != c) = true := bne_iff_ne.2 fun e => hc (e ▸ hd)
      exact ⟨(mem_codes_filter map (fun x => x != c) d).2 ⟨hin, hne⟩, hg⟩
    rw [List.cons_append, removeAll_removable (hfree c (List.mem_cons_self ..)), ih later hcs, List.filter_filter]
    congr 1
    · simp only [List.length_cons]; omega
    · refine List.filter_congr fun e _ => ?_
      rw [Bool.eq_iff_iff]; simp [and_comm]

/-- The judgement of a MAP_REMOVE whose first `i` codes pass is that of its code `i`. -/
theorem removeAll_at {s : State} {cs : List Nat} {i c : Nat} (hi : cs[i]? = some c) (hfree : ∀ d ∈ cs.take i, Removable s s.locMap d)
    (hnd : (cs.take i).Nodup) : removeAll s 1 cs s.locMap
      = removeAll s (i + 1) (c :: cs.drop (i + 1)) (s.locMap.filter (fun e => e.code ∉ cs.take i)) := by
  obtain ⟨hcut, hlen⟩ := cut_at hi
  conv_lhs => rw [hcut]
  rw [removeAll_append _ _ hfree hnd, hlen, Nat.add_comm]

theorem mapRemove_refused {r : Request} {s : State} {code : ReplyCode} {n : Nat} (hc : Carried .mapRemove r s)
    (h : removeAll (taken s) 1 r.numberItems (taken s).locMap = .error (code, n)) :
    ∃ t, exec .mapRemove s = .next t ∧ Answered [] r code [BitVec.ofNat 8 n] s t := by
  have hap : applyMapRemove r (taken s) = (Answer.refuseAt code n, taken s) := by unfold applyMapRemove; rw [h]
  exact ⟨_, rfl, carryForward_unchanged hc hap⟩

/-- The slots that a map gives up with the entries of some codes are those of these entries. -/
theorem releasedSlots_codes {map : List MapEntry} (h : (map.map (·.pos)).Nodup) (cs : List Nat) :
    releasedSlots map (map.filter (fun e => e.code ∉ cs)) = (map.filter (fun e => e.code ∈ cs)).map (·.pos) := by
  rw [releasedSlots_eq]
  congr 1
  refine List.filter_congr fun e he => ?_
  rw [decide_eq_decide]
  constructor
  · exact fun hpos => by_contra fun hc => hpos (List.mem_map.2 ⟨e, List.mem_filter.2 ⟨he, by simpa using hc⟩, rfl⟩)
  · intro hc hpos
    obtain ⟨x, hx, hxe⟩ := List.mem_map.1 hpos
    obtain ⟨hxm, hxc⟩ := List.mem_filter.1 hx
    obtain rfl := List.inj_on_of_nodup_map h hxm he hxe
    exact absurd hc (by simpa using hxc)

/-- Settles O26: the codes before the first bad one leave the map one by one, and that one is judged against the map they leave. -/
theorem mapRemoveWholeOrNothing : Obligations.MapRemoveWholeOrNothing := by
  intro r s hc hm codes free released
  obtain ⟨-, hbefore, -, -⟩ := hm
  refine ⟨fun hfree hnd => ?_, fun i c hi hfree hnd => ⟨fun hbad => ?_, fun hnew hin hg => ?_⟩⟩
  · have hall := removeAll_append (s := taken s) (n := 1) (map := s.locMap) [] codes (fun c hm => (removable_iff s c).2 (hfree c hm)) hnd
    rw [List.append_nil] at hall
    have hap : applyMapRemove r (taken s) = (Answer.ok (beBytes 2 codes.length ++ beBytes 2 (s.locMap.filter (fun e => e.code ∉ codes)).length),
        changeMap (s.locMap.filter (fun e => e.code ∉ codes)) (taken s)) := by
      unfold applyMapRemove
      rw [show removeAll (taken s) 1 r.numberItems (taken s).locMap = _ from hall]; rfl
    obtain ⟨hheld, hslot, hwork, hans⟩ := mapChange_answered hc hap hbefore (hbefore.sublist (List.filter_sublist.map _))
    simp only [takenUpSlots_filter hbefore, releasedSlots_codes hbefore, List.append_nil, List.not_mem_nil, if_false] at hslot hwork
    exact ⟨_, rfl, hheld, hslot, hwork, by rw [hheld]; exact hans⟩
  · have hat := removeAll_at (s := taken s) hi (fun d hd => (removable_iff s d).2 (hfree d hd)) hnd
    refine mapRemove_refused hc (hat.trans (removeAll_unknown (fun hmem => ?_) _ _))
    obtain ⟨hin, hnot⟩ := (mem_codes_filter s.locMap (fun d => d ∉ codes.take i) c).1 hmem
    rcases hbad with hnone | hagain
    · rw [(entryOf_isSome s c).2 hin] at hnone; cases hnone
    · exact absurd hagain (by simpa using hnot)
  · have hat := removeAll_at (s := taken s) hi (fun d hd => (removable_iff s d).2 (hfree d hd)) hnd
    exact mapRemove_refused hc (hat.trans (removeAll_inUse (s := taken s)
      ((mem_codes_filter s.locMap (fun d => d ∉ codes.take i) c).2 ⟨(entryOf_isSome s c).1 hin, by simpa using hnew⟩) hg _ _))

end Sys2Proof.Machine

/-!
PROOFS. The rules of the task table, the groups and the open counts (chapters 4 and 5): what each shared operation writes.
-/

namespace Sys2Proof.Machine

open Sys2Proof

/-! ## Groups taken away and open counts changed (R61, R70, R75) -/

theorem removeGroup_groups (g : Group) (s : State) : (removeGroup g s).groups = s.groups.filter fun h => h.id != g.id := by
  unfold removeGroup; simp only; split <;> rfl

theorem changeOpen_ids (id : Nat) (f : Nat → Nat) (s : State) : (changeOpen id f s).pickers.map (·.id) = s.pickers.map (·.id) := by
  unfold changeOpen; split
  · rfl
  · exact map_key_replace Picker.id _ s.pickers

/-- Where each entry's open count follows from its id, a changed one is the old one changed (R61). -/
theorem changeOpen_counts {id : Nat} {f n : Nat → Nat} {s : State} (h : ∀ p ∈ s.pickers, p.openTasks = n p.id) :
    ∀ q ∈ (changeOpen id f s).pickers, q.openTasks = if q.id = id then f (n id) else n q.id := by
  unfold changeOpen; split
  · rename_i hn
    intro q hq
    rw [if_neg (by simpa using List.find?_eq_none.1 hn q hq)]; exact h q hq
  · rename_i p hp
    obtain ⟨hm, hid⟩ := pickerOf_mem hp
    intro q hq
    obtain ⟨x, hx, rfl⟩ := List.mem_map.1 hq
    split
    · show f p.openTasks = f (n id)
      rw [h p hm, hid]
    · rename_i hne
      rw [if_neg (hid ▸ hne)]; exact h x hx

theorem find_map_picker {q : Picker} : ∀ l : List Picker, (l.find? (fun p => p.id == q.id)).isSome = true →
    (l.map fun p => if p.id = q.id then q else p).find? (fun p => p.id == q.id) = some q := by
  intro l
  induction l with
  | nil => intro h; cases h
  | cons a l ih =>
    intro h
    by_cases ha : a.id = q.id
    · simp [ha]
    · rw [List.find?_cons_of_neg (by simpa using ha)] at h
      rw [List.map_cons, if_neg ha, List.find?_cons_of_neg (by simpa using ha)]
      exact ih h

/-- An entry put in place of the held one with its id is the one found there. -/
theorem setPicker_pickerOf {s : State} {p q : Picker} {id : Nat} (h : s.pickerOf id = some p) (hq : q.id = id) :
    (s.setPicker q).pickerOf id = some q := by
  subst hq
  exact find_map_picker s.pickers (congrArg Option.isSome h)

theorem changeOpen_pickerOf {id : Nat} {f : Nat → Nat} {s : State} {p : Picker} (h : s.pickerOf id = some p) :
    (changeOpen id f s).pickerOf id = some { p with openTasks := f p.openTasks } := by
  unfold changeOpen
  rw [h]
  exact setPicker_pickerOf h (pickerOf_mem h).2

/-! ## Group ids (R73) -/

theorem nextGroupId_range (c : Nat) : 1 ≤ nextGroupId c ∧ nextGroupId c ≤ 65535 := by
  unfold nextGroupId; split <;> omega

theorem nextGroupId_eq {c : Nat} (h : c ≤ 65535) : nextGroupId c = c % 65535 + 1 := by
  unfold nextGroupId; split <;> omega

/-- The `k`-th id from a counter on, 1 following 65535. -/
def idFrom (c k : Nat) : Nat := (c - 1 + k) % 65535 + 1

theorem idFrom_range (c k : Nat) : 1 ≤ idFrom c k ∧ idFrom c k ≤ 65535 := by
  unfold idFrom; omega

theorem idFrom_zero {c : Nat} (h : 1 ≤ c ∧ c ≤ 65535) : idFrom c 0 = c := by
  unfold idFrom; omega

theorem idFrom_next {c : Nat} (h : 1 ≤ c ∧ c ≤ 65535) (k : Nat) : idFrom (nextGroupId c) k = idFrom c (k + 1) := by
  rw [nextGroupId_eq h.2]; unfold idFrom; omega

/-- The tries find the first id from the counter on that no group has, or are used up (R73). -/
theorem freeGroupId_tries (gs : List Group) (fuel : Nat) : ∀ {c : Nat}, 1 ≤ c ∧ c ≤ 65535 →
    ∃ k ≤ fuel, freeGroupId fuel c gs = idFrom c k ∧ (∀ j < k, idFrom c j ∈ gs.map (·.id))
      ∧ (k < fuel → idFrom c k ∉ gs.map (·.id)) := by
  induction fuel with
  | zero => exact fun hc => ⟨0, Nat.le_refl 0, (idFrom_zero hc).symm, by simp, by simp⟩
  | succ fuel ih =>
    intro c hc
    have used : gs.any (fun g => g.id == c) = true ↔ idFrom c 0 ∈ gs.map (·.id) := by simp [idFrom_zero hc]
    unfold freeGroupId; split
    · rename_i hu
      obtain ⟨k, hk, heq, hbefore, hfree⟩ := ih (nextGroupId_range c)
      simp only [idFrom_next hc] at heq hbefore hfree
      refine ⟨k + 1, by omega, heq, fun j hj => ?_, fun hlt => hfree (by omega)⟩
      cases j with
      | zero => exact used.1 hu
      | succ j => exact hbefore j (by omega)
    · rename_i hu
      exact ⟨0, Nat.zero_le _, (idFrom_zero hc).symm, by simp, fun _ => fun h => hu (used.2 h)⟩

/-- With fewer groups than tries, an id that no group has is found (R73). -/
theorem freeGroupId_free {gs : List Group} {fuel c : Nat} (hc : 1 ≤ c ∧ c ≤ 65535) (hf : fuel ≤ 65535) (hl : gs.length < fuel) :
    ∃ k, freeGroupId fuel c gs = idFrom c k ∧ (∀ j < k, idFrom c j ∈ gs.map (·.id)) ∧ idFrom c k ∉ gs.map (·.id) := by
  obtain ⟨k, hk, heq, hbefore, hfree⟩ := freeGroupId_tries gs fuel hc
  refine ⟨k, heq, hbefore, hfree (lt_of_le_of_ne hk ?_)⟩
  rintro rfl
  have distinct : ((List.range k).map (idFrom c)).Nodup := by
    refine List.Nodup.map_on (fun i hi j hj he => ?_) List.nodup_range
    rw [List.mem_range] at hi hj
    unfold idFrom at he; omega
  have within : (List.range k).map (idFrom c) ⊆ gs.map (·.id) := fun i hi => by
    obtain ⟨j, hj, rfl⟩ := List.mem_map.1 hi
    exact hbefore j (List.mem_range.1 hj)
  have := (distinct.subperm within).length_le
  simp only [List.length_map, List.length_range] at this
  omega

/-! ## One posted task (R79 to R83) -/

/-- A posted task passes R79's checks. -/
structure TaskFits (t : TaskItem) (s : State) : Prop where
  number : t.number ≠ 0
  quantity : 1 ≤ t.quantity ∧ t.quantity ≤ 9999
  fresh : ∀ y ∈ s.tasks, y.number ≠ t.number
  known : ∃ p ∈ s.pickers, p.id = t.picker
  mapped : ∃ e ∈ s.locMap, e.code = t.loc
  room : s.tasks.length < 256

section
variable {t : TaskItem} {s : State}

theorem taskOf_isSome (s : State) (n : Nat) : (s.taskOf n).isSome = true ↔ ∃ y ∈ s.tasks, y.number = n := by
  simp [State.taskOf]

theorem pickerOf_isNone (s : State) (id : Nat) : (s.pickerOf id).isNone = true ↔ ¬ ∃ p ∈ s.pickers, p.id = id := by
  simp [State.pickerOf]

theorem entryOf_isNone (s : State) (c : Nat) : (s.entryOf c).isNone = true ↔ ¬ ∃ e ∈ s.locMap, e.code = c := by
  simp [State.entryOf]

/-- R79's checks in order, each said of the tables. -/
theorem taskRefusal_eq (t : TaskItem) (s : State) : taskRefusal t s =
    open Classical in
    if ¬ (t.number ≠ 0 ∧ 1 ≤ t.quantity ∧ t.quantity ≤ 9999) then some .badField
    else if ∃ y ∈ s.tasks, y.number = t.number then some .duplicate
    else if ¬ ∃ p ∈ s.pickers, p.id = t.picker then some .unknownPicker
    else if ¬ ∃ e ∈ s.locMap, e.code = t.loc then some .unknownLocation
    else if 256 ≤ s.tasks.length then some .tableFull
    else none := by
  have fields : (t.number = 0 ∨ t.quantity < 1 ∨ 9999 < t.quantity) ↔ ¬ (t.number ≠ 0 ∧ 1 ≤ t.quantity ∧ t.quantity ≤ 9999) := by omega
  simp only [taskRefusal, taskOf_isSome, pickerOf_isNone, entryOf_isNone, Config.maxQuantity, Config.openTasks, fields]
  congr

theorem taskRefusal_none (h : taskRefusal t s = none) : TaskFits t s := by
  rw [taskRefusal_eq] at h
  split at h; · cases h
  split at h; · cases h
  split at h; · cases h
  split at h; · cases h
  split at h; · cases h
  rename_i hf hd hp hl hr
  obtain ⟨hn, hq⟩ := not_not.1 hf
  exact ⟨hn, hq, fun y hy e => hd ⟨y, hy, e⟩, not_not.1 hp, not_not.1 hl, by omega⟩

theorem TaskFits.accepted (h : TaskFits t s) : taskRefusal t s = none := by
  obtain ⟨hn, hq, hd, hp, hl, hr⟩ := h
  rw [taskRefusal_eq, if_neg (not_not.2 ⟨hn, hq⟩), if_neg (by simpa using hd), if_neg (not_not.2 hp), if_neg (not_not.2 hl),
    if_neg (by omega)]

theorem postTask_refused {code : ReplyCode} (h : taskRefusal t s = some code) :
    postTask t s = ({ code := code, group := 0, placement := 0 }, s) := by
  unfold postTask; rw [h]

/-- The record of an accepted task (R68, R83). -/
def taskRecord (t : TaskItem) (s : State) : Task :=
  { number := t.number, picker := t.picker, loc := t.loc, quantity := t.quantity, group := (placeTask t s).1.group, posted := s.clock }

/-- The state in which an accepted task stands in its group and in the table (R80 to R83). -/
def recorded (t : TaskItem) (s : State) : State :=
  let u := (placeTask t s).2
  { u with tasks := u.tasks ++ [{ taskRecord t s with posted := u.clock }] }

theorem recorded_tasks (t : TaskItem) (s : State) : (recorded t s).tasks = s.tasks ++ [taskRecord t s] := by
  have placed := placeTask_only t s
  simp only [recorded, show (placeTask t s).2.tasks = s.tasks from placed.keeps (p := .tasks) (by decide),
    show (placeTask t s).2.clock = s.clock from (placed.keeps (p := .clock) (by decide)).1]
  rfl

theorem recorded_only (t : TaskItem) (s : State) : OnlyChanges [.tasks, .groups, .nextGroup] s (recorded t s) := by
  have record : ∀ (u : State) (xs : List Task), OnlyChanges [.tasks] u { u with tasks := xs } := by
    intro u xs p; cases p <;> simp [Keeps]
  exact ((placeTask_only t s).mono (by decide)).trans ((record _ _).mono (by decide))

theorem recorded_placeOf (t : TaskItem) (s : State) (id : Nat) : (recorded t s).placeOf id = s.placeOf id := by
  simp only [State.placeOf, State.pickerOf]
  rw [show (recorded t s).pickers = s.pickers from (recorded_only t s).keeps (p := .pickers) (by decide)]

/-- An accepted task is placed and recorded, then counted, signalled and judged (R61, R79 to R83, R92). -/
theorem postTask_accepted (h : taskRefusal t s = none) : postTask t s = ((placeTask t s).1,
    judgeTasksHigh (signal .taskPosted (s.placeOf t.picker) (changeOpen t.picker (· + 1) (recorded t s)))) := by
  unfold postTask
  rw [h, ← recorded_placeOf t s]
  rfl

/-- A task joins the last group of its location's queue that takes it (R80, R81). -/
theorem placeTask_joins {g : Group} (h : joinTarget t s = some g) :
    placeTask t s = ({ code := .ok, group := g.id, placement := 2 }, s.setGroup (g.join t.number t.quantity)) := by
  unfold placeTask; rw [h]

/-- The state with a group that a task starts (R73, R82). -/
def started (t : TaskItem) (s : State) : State :=
  { s with
    groups := s.groups ++ [Group.start (freeGroupId 257 s.nextGroup s.groups) t]
    nextGroup := nextGroupId (freeGroupId 257 s.nextGroup s.groups) }

theorem placeTask_starts (h : joinTarget t s = none) :
    placeTask t s = ({ code := .ok, group := freeGroupId 257 s.nextGroup s.groups, placement := 1 }, started t s) := by
  unfold placeTask; rw [h]; rfl

theorem placeTask_code (t : TaskItem) (s : State) : (placeTask t s).1.code = .ok := by
  unfold placeTask; split <;> rfl

/-- The group that a task joins stands at its location, is of its picker and takes it (R80). -/
theorem joinTarget_some {g : Group} (h : joinTarget t s = some g) :
    g ∈ s.groups ∧ g.loc = t.loc ∧ g.takes t = true := by
  obtain ⟨hq, ht⟩ := List.mem_filter.1 (List.mem_of_getLast? h)
  simp only [State.queueOf, List.mem_flatMap, List.mem_filter] at hq
  obtain ⟨k, -, ⟨hm, hl⟩, -⟩ := hq
  exact ⟨hm, by simpa using hl, ht⟩

theorem takes_picker {g : Group} (h : g.takes t = true) : g.picker = t.picker := by
  simp only [Group.takes, Bool.and_eq_true, beq_iff_eq] at h
  exact h.1.1.1

/-- No group of the queue takes a task that none of its location's groups takes (R76, R80). -/
theorem joinTarget_none (h : ∀ g ∈ s.groups, g.loc = t.loc → s.priorityOf g.picker ≤ 3 → g.takes t = false) : joinTarget t s = none := by
  unfold joinTarget
  rw [List.getLast?_eq_none_iff, List.filter_eq_nil_iff]
  intro g hg
  simp only [State.queueOf, List.mem_flatMap, List.mem_filter] at hg
  obtain ⟨k, hk, ⟨hm, hl⟩, hp⟩ := hg
  rw [h g hm (by simpa using hl) ?_]
  · simp
  · rw [show s.priorityOf g.picker = k by simpa using hp]
    simp at hk; omega

/-- What of the state at the end of an accepted post is left of the state in which the task is recorded and counted. -/
theorem postTask_end (h : taskRefusal t s = none) :
    OnlyChanges [.counters, .flags, .notes] (changeOpen t.picker (· + 1) (recorded t s)) (postTask t s).2 := by
  rw [postTask_accepted h]
  exact (signal_only _ _ _).trans ((judgeTasksHigh_only _).mono (by decide))

end

end Sys2Proof.Machine

/-!
PROOFS. Tasks, groups and pickers that fit each other (O56): the invariant by its parts, and what each operation on a task or a group does to it.
-/

namespace Sys2Proof.Machine

open Sys2Proof

/-! ## The invariant by its parts -/

/-- The open tasks of a group. -/
def tasksIn (tasks : List Task) (i : Nat) : List Task := tasks.filter (fun t => t.group = i)

/-- The open tasks of a picker. -/
def tasksOf (tasks : List Task) (id : Nat) : List Task := tasks.filter (fun t => t.picker = id)

/-- The task table fits the picker table: within its size, each number once, each task of a picker in the table, each open count right (R61, R68). -/
structure TasksFit (tasks : List Task) (pickers : List Picker) : Prop where
  few : tasks.length ≤ Config.openTasks
  numbers : (tasks.map (·.number)).Nodup
  known : ∀ t ∈ tasks, ∃ p ∈ pickers, p.id = t.picker
  counts : ∀ p ∈ pickers, p.openTasks = (tasksOf tasks p.id).length

/-- The groups fit the task table: each id once, each task placed in a group of its picker and location, each group with the numbers and the sum of
its tasks, at least one (R71, R74). -/
structure GroupsFit (tasks : List Task) (groups : List Group) : Prop where
  ids : (groups.map (·.id)).Nodup
  placed : ∀ t ∈ tasks, ∃ g ∈ groups, g.id = t.group ∧ g.picker = t.picker ∧ g.loc = t.loc
  nonempty : ∀ g ∈ groups, g.members ≠ []
  members : ∀ g ∈ groups, g.members.Perm ((tasksIn tasks g.id).map (·.number))
  sums : ∀ g ∈ groups, g.remaining = ((tasksIn tasks g.id).map (·.quantity)).sum

/-- TasksOk and LinksOk by their parts. -/
structure Fits (s : State) : Prop where
  tasks : TasksFit s.tasks s.pickers
  groups : GroupsFit s.tasks s.groups
  next : 1 ≤ s.nextGroup ∧ s.nextGroup ≤ 65535

theorem mem_tasksIn {tasks : List Task} {i : Nat} {t : Task} : t ∈ tasksIn tasks i ↔ t ∈ tasks ∧ t.group = i := by simp [tasksIn]

theorem task_unique {tasks : List Task} (hn : (tasks.map (·.number)).Nodup) {t u : Task} (ht : t ∈ tasks) (hu : u ∈ tasks)
    (he : t.number = u.number) : t = u := List.inj_on_of_nodup_map hn ht hu he

/-- A group's members are the numbers of its tasks (R74). -/
theorem GroupsFit.mem_members {tasks : List Task} {groups : List Group} (h : GroupsFit tasks groups) {g : Group} (hg : g ∈ groups) {n : Nat} :
    n ∈ g.members ↔ ∃ t ∈ tasks, t.number = n ∧ t.group = g.id := by
  rw [(h.members g hg).mem_iff, List.mem_map]
  simp only [mem_tasksIn]
  constructor
  · rintro ⟨t, ⟨ht, hi⟩, hn⟩; exact ⟨t, ht, hn, hi⟩
  · rintro ⟨t, ht, hn, hi⟩; exact ⟨t, ⟨ht, hi⟩, hn⟩

/-- A task is of the picker and the location of the group it is in. -/
theorem GroupsFit.agree {tasks : List Task} {groups : List Group} (h : GroupsFit tasks groups) {g : Group} (hg : g ∈ groups) {t : Task}
    (ht : t ∈ tasks) (hi : t.group = g.id) : g.picker = t.picker ∧ g.loc = t.loc := by
  obtain ⟨k, hk, hid, hp, hl⟩ := h.placed t ht
  obtain rfl : k = g := List.inj_on_of_nodup_map h.ids hk hg (hid.trans hi)
  exact ⟨hp, hl⟩

theorem fits_iff (s : State) : Fits s ↔ TasksOk s ∧ LinksOk s := by
  constructor
  · rintro ⟨ht, hg, hn⟩
    refine ⟨⟨ht.few, ht.numbers⟩, hg.ids, hn, fun t hm => ⟨?_, ht.known t hm⟩, fun g hm => ⟨hg.nonempty g hm, ?_, fun n hn => ?_, hg.sums g hm⟩,
      ht.counts⟩
    · obtain ⟨g, hgm, hid, -, -⟩ := hg.placed t hm
      exact ⟨g, hgm, hid, (hg.mem_members hgm).2 ⟨t, hm, rfl, hid.symm⟩⟩
    · exact (hg.members g hm).nodup_iff.2 (ht.numbers.sublist (List.filter_sublist.map _))
    · obtain ⟨t, htm, hnum, hid⟩ := (hg.mem_members hm).1 hn
      obtain ⟨hp, hl⟩ := hg.agree hm htm hid
      exact ⟨t, htm, hnum, hid, hp.symm, hl.symm⟩
  · rintro ⟨⟨hfew, hnum⟩, hids, hn, htasks, hgroups, hcounts⟩
    have inside : ∀ t ∈ s.tasks, ∀ g ∈ s.groups, g.id = t.group → t.number ∈ g.members := fun t ht g hg hi => by
      obtain ⟨⟨k, hk, hki, hkm⟩, -⟩ := htasks t ht
      obtain rfl : k = g := group_unique hids hk hg (hki.trans hi.symm)
      exact hkm
    refine ⟨⟨hfew, hnum, fun t ht => (htasks t ht).2, hcounts⟩, ⟨hids, fun t ht => ?_, fun g hg => (hgroups g hg).1, fun g hg => ?_,
      fun g hg => (hgroups g hg).2.2.2⟩, hn⟩
    · obtain ⟨⟨g, hg, hi, hm⟩, -⟩ := htasks t ht
      obtain ⟨-, -, hmem, -⟩ := hgroups g hg
      obtain ⟨u, hu, hun, -, hp, hl⟩ := hmem _ hm
      obtain rfl := task_unique hnum hu ht hun
      exact ⟨g, hg, hi, hp.symm, hl.symm⟩
    · obtain ⟨-, hnd, hmem, -⟩ := hgroups g hg
      refine (List.perm_ext_iff_of_nodup hnd (hnum.sublist (List.filter_sublist.map _))).2 fun n => ⟨fun hm => ?_, fun hm => ?_⟩
      · obtain ⟨t, ht, hn, hi, -, -⟩ := hmem n hm
        exact List.mem_map.2 ⟨t, mem_tasksIn.2 ⟨ht, hi⟩, hn⟩
      · obtain ⟨t, ht, rfl⟩ := List.mem_map.1 hm
        obtain ⟨ht, hi⟩ := mem_tasksIn.1 ht
        exact inside t ht g hg hi.symm

/-! ## Tasks recorded and closed (R61, R68, R70) -/

/-- A task apart from the others of a table in which its number stands once. -/
theorem perm_cons_others {tasks : List Task} (hn : (tasks.map (·.number)).Nodup) {t : Task} (ht : t ∈ tasks) :
    tasks.Perm (t :: tasks.filter (fun x => x.number != t.number)) := by
  have hnd : tasks.Nodup := List.Nodup.of_map _ hn
  refine (List.perm_cons_erase ht).trans (List.Perm.cons _ ?_)
  rw [hnd.erase_eq_filter]
  refine List.Perm.of_eq (List.filter_congr fun x hx => ?_)
  rw [Bool.eq_iff_iff, bne_iff_ne, bne_iff_ne]
  exact ⟨fun h e => h (task_unique hn hx ht e), fun h e => h (e ▸ rfl)⟩

theorem TasksFit.record {s : State} {tasks : List Task} {r : Task} (h : TasksFit tasks s.pickers) (hroom : tasks.length < Config.openTasks)
    (hnew : ∀ t ∈ tasks, t.number ≠ r.number) (hknown : ∃ p ∈ s.pickers, p.id = r.picker) :
    TasksFit (tasks ++ [r]) (changeOpen r.picker (· + 1) s).pickers := by
  have hids : ∀ id, (∃ p ∈ s.pickers, p.id = id) → ∃ p ∈ (changeOpen r.picker (· + 1) s).pickers, p.id = id := fun id => by
    simp only [← List.mem_map, changeOpen_ids, imp_self]
  refine ⟨by simpa using hroom, ?_, fun t ht => ?_, fun q hq => ?_⟩
  · rw [List.map_append, List.nodup_append]
    refine ⟨h.numbers, by simp, fun n hn m hm => ?_⟩
    obtain ⟨t, ht, rfl⟩ := List.mem_map.1 hn
    obtain rfl : m = r.number := by simpa using hm
    exact hnew t ht
  · rcases List.mem_append.1 ht with ht | ht
    · exact hids _ (h.known t ht)
    · rw [List.mem_singleton.1 ht]; exact hids _ hknown
  · rw [changeOpen_counts (n := fun id => (tasksOf tasks id).length) h.counts q hq]
    simp only [tasksOf, List.filter_append, List.length_append, List.filter_singleton]
    by_cases hid : q.id = r.picker
    · simp [hid]
    · simp [hid, Ne.symm hid]

/-- A task that closes leaves the table, and its picker's open count falls with it (R61, R70). -/
theorem TasksFit.close {s : State} (h : TasksFit s.tasks s.pickers) {t : Task} (ht : t ∈ s.tasks) :
    TasksFit (closeTask t s).tasks (closeTask t s).pickers := by
  have htasks : (closeTask t s).tasks = s.tasks.filter (fun x => x.number != t.number) := (changeOpen_only _ _ _).keeps (p := .tasks) (by decide)
  have hids : (closeTask t s).pickers.map (·.id) = s.pickers.map (·.id) := changeOpen_ids _ _ _
  rw [htasks]
  refine ⟨(List.length_filter_le _ _).trans h.few, h.numbers.sublist (List.filter_sublist.map _), fun u hu => ?_, fun q hq => ?_⟩
  · rw [← List.mem_map, hids, List.mem_map]; exact h.known u (List.mem_of_mem_filter hu)
  · rw [changeOpen_counts (s := { s with tasks := s.tasks.filter (fun x => x.number != t.number) })
      (n := fun id => (tasksOf s.tasks id).length) h.counts q hq]
    have split : ∀ id, (tasksOf s.tasks id).length = (if t.picker = id then 1 else 0)
        + (tasksOf (s.tasks.filter (fun x => x.number != t.number)) id).length := fun id => by
      rw [tasksOf, ((perm_cons_others h.numbers ht).filter _).length_eq, List.filter_cons]
      by_cases hp : t.picker = id
      · simp [hp, tasksOf, Nat.add_comm]
      · simp [hp, tasksOf]
    by_cases hid : q.id = t.picker
    · rw [if_pos hid, hid, split]; simp
    · rw [if_neg hid, split, if_neg (Ne.symm hid), Nat.zero_add]

theorem closeTask_tasks (t : Task) (s : State) : (closeTask t s).tasks = s.tasks.filter (fun x => x.number != t.number) :=
  (changeOpen_only _ _ _).keeps (p := .tasks) (by decide)

theorem closeTask_groups (t : Task) (s : State) : (closeTask t s).groups = s.groups := (closeTask_only t s).keeps (p := .groups) (by decide)

/-- Tasks closed one after another, each a task of the table, leave the task table fitting the picker table. -/
theorem TasksFit.closeAll {f : State → Task × Nat → State} (hf : ∀ u m, (f u m).tasks = (closeTask m.1 u).tasks
      ∧ (f u m).pickers = (closeTask m.1 u).pickers) (ms : List (Task × Nat)) : ∀ {s : State}, TasksFit s.tasks s.pickers →
    (∀ m ∈ ms, m.1 ∈ s.tasks) → (ms.map (·.1.number)).Nodup →
    TasksFit (ms.foldl f s).tasks (ms.foldl f s).pickers
      ∧ (ms.foldl f s).tasks = s.tasks.filter (fun x => x.number ∉ ms.map (·.1.number)) := by
  induction ms with
  | nil => intro s h _ _; exact ⟨h, by simp⟩
  | cons m ms ih =>
    intro s h hm hn
    obtain ⟨hout, hn⟩ := List.nodup_cons.1 hn
    obtain ⟨ht, hp⟩ := hf s m
    have closed := h.close (hm m (by simp))
    have still : ∀ k ∈ ms, k.1 ∈ (f s m).tasks := fun k hk => by
      rw [ht, closeTask_tasks, List.mem_filter, bne_iff_ne]
      exact ⟨hm k (by simp [hk]), fun e => hout (List.mem_map.2 ⟨k, hk, e⟩)⟩
    obtain ⟨hfit, htasks⟩ := ih (s := f s m) (by rw [ht, hp]; exact closed) still hn
    refine ⟨hfit, ?_⟩
    rw [List.foldl_cons, htasks, ht, closeTask_tasks, List.filter_filter]
    refine List.filter_congr fun x _ => ?_
    rw [Bool.eq_iff_iff]; simp [and_comm]

/-! ## Groups changed (R74, R75, R81, R82, R86) -/

/-- Groups changed in place that keep what the task table is held against. -/
theorem GroupsFit.map {tasks : List Task} {groups : List Group} (h : GroupsFit tasks groups) {φ : Group → Group}
    (hφ : ∀ g ∈ groups, (φ g).id = g.id ∧ (φ g).picker = g.picker ∧ (φ g).loc = g.loc
      ∧ (φ g).members = g.members ∧ (φ g).remaining = g.remaining) :
    GroupsFit tasks (groups.map φ) := by
  refine ⟨?_, fun t ht => ?_, ?_, ?_, ?_⟩
  · rw [List.map_map]; exact (List.map_congr_left fun g hg => (hφ g hg).1 : _ = groups.map (·.id)) ▸ h.ids
  · obtain ⟨g, hg, hi, hp, hl⟩ := h.placed t ht
    obtain ⟨hid, hpk, hloc, -, -⟩ := hφ g hg
    exact ⟨φ g, List.mem_map_of_mem hg, hid.trans hi, hpk.trans hp, hloc.trans hl⟩
  all_goals
    intro k hk
    obtain ⟨g, hg, rfl⟩ := List.mem_map.1 hk
    obtain ⟨hid, -, -, hm, hr⟩ := hφ g hg
  · rw [hm]; exact h.nonempty g hg
  · rw [hm, hid]; exact h.members g hg
  · rw [hr, hid]; exact h.sums g hg

/-- Tasks and groups that go together: a task goes exactly where its group goes. -/
theorem GroupsFit.drop {tasks : List Task} {groups : List Group} (h : GroupsFit tasks groups) {p : Task → Bool} {q : Group → Bool}
    (hpq : ∀ t ∈ tasks, ∀ g ∈ groups, g.id = t.group → p t = q g) : GroupsFit (tasks.filter p) (groups.filter q) := by
  have same : ∀ g ∈ groups.filter q, tasksIn (tasks.filter p) g.id = tasksIn tasks g.id := fun g hg => by
    obtain ⟨hg, hq⟩ := List.mem_filter.1 hg
    rw [tasksIn, List.filter_filter]
    refine List.filter_congr fun t ht => ?_
    by_cases hi : t.group = g.id
    · simp [hi, hpq t ht g hg hi.symm, hq]
    · simp [hi]
  refine ⟨h.ids.sublist (List.filter_sublist.map _), fun t ht => ?_, fun g hg => h.nonempty g (List.mem_of_mem_filter hg),
    fun g hg => ?_, fun g hg => ?_⟩
  · obtain ⟨ht, hp⟩ := List.mem_filter.1 ht
    obtain ⟨g, hg, hi, hrest⟩ := h.placed t ht
    exact ⟨g, List.mem_filter.2 ⟨hg, (hpq t ht g hg hi).symm.trans hp⟩, hi, hrest⟩
  · rw [same g hg]; exact h.members g (List.mem_of_mem_filter hg)
  · rw [same g hg]; exact h.sums g (List.mem_of_mem_filter hg)

/-- One group replaced, with the tasks of that group alone changed. -/
theorem GroupsFit.replace {tasks tasks' : List Task} {groups : List Group} (h : GroupsFit tasks groups) {g k : Group} (hg : g ∈ groups)
    (hid : k.id = g.id) (hpk : k.picker = g.picker) (hloc : k.loc = g.loc)
    (placed : ∀ t ∈ tasks', t.group = g.id ∧ t.picker = g.picker ∧ t.loc = g.loc ∨ t ∈ tasks)
    (others : ∀ i, i ≠ g.id → tasksIn tasks' i = tasksIn tasks i) (nonempty : k.members ≠ [])
    (members : k.members.Perm ((tasksIn tasks' g.id).map (·.number))) (sum : k.remaining = ((tasksIn tasks' g.id).map (·.quantity)).sum) :
    GroupsFit tasks' (groups.map fun x => if x.id = k.id then k else x) := by
  have split : ∀ y ∈ groups.map (fun x => if x.id = k.id then k else x), y = k ∨ y ∈ groups ∧ y.id ≠ g.id := fun y hy => by
    obtain ⟨x, hx, rfl⟩ := List.mem_map.1 hy
    split
    · exact .inl rfl
    · rename_i hne; exact .inr ⟨hx, hid ▸ hne⟩
  refine ⟨?_, fun t ht => ?_, fun y hy => ?_, fun y hy => ?_, fun y hy => ?_⟩
  · rw [map_key_replace Group.id]; exact h.ids
  · have here : k ∈ groups.map fun x => if x.id = k.id then k else x := List.mem_map.2 ⟨g, hg, if_pos hid.symm⟩
    rcases placed t ht with ⟨ht, hp, hl⟩ | ht
    · exact ⟨k, here, hid.trans ht.symm, hpk.trans hp.symm, hloc.trans hl.symm⟩
    · obtain ⟨x, hx, hi, hp, hl⟩ := h.placed t ht
      by_cases hx' : x.id = k.id
      · obtain rfl : x = g := List.inj_on_of_nodup_map h.ids hx hg (hx'.trans hid)
        exact ⟨k, here, hid.trans hi, hpk.trans hp, hloc.trans hl⟩
      · exact ⟨x, List.mem_map.2 ⟨x, hx, if_neg hx'⟩, hi, hp, hl⟩
  · rcases split y hy with rfl | ⟨hy, -⟩
    · exact nonempty
    · exact h.nonempty y hy
  · rcases split y hy with rfl | ⟨hy, hne⟩
    · rw [hid]; exact members
    · rw [others _ hne]; exact h.members y hy
  · rcases split y hy with rfl | ⟨hy, hne⟩
    · rw [hid]; exact sum
    · rw [others _ hne]; exact h.sums y hy

/-- A recorded task joins a group of its picker and location (R81). -/
theorem GroupsFit.join {tasks : List Task} {groups : List Group} (h : GroupsFit tasks groups) {g : Group} (hg : g ∈ groups) {r : Task}
    (hi : r.group = g.id) (hp : r.picker = g.picker) (hl : r.loc = g.loc) :
    GroupsFit (tasks ++ [r]) (groups.map fun x => if x.id = g.id then g.join r.number r.quantity else x) := by
  have inside : tasksIn (tasks ++ [r]) g.id = tasksIn tasks g.id ++ [r] := by simp [tasksIn, hi]
  refine h.replace (k := g.join r.number r.quantity) hg rfl rfl rfl (fun t ht => ?_) (fun i hne => ?_) (by simp [Group.join]) ?_ ?_
  · rcases List.mem_append.1 ht with ht | ht
    · exact .inr ht
    · rw [List.mem_singleton.1 ht]; exact .inl ⟨hi, hp, hl⟩
  · simp [tasksIn, hi, Ne.symm hne]
  · rw [inside, List.map_append]; exact (h.members g hg).append_right _
  · rw [inside, List.map_append, List.sum_append]; simp [Group.join, h.sums g hg]

/-- A recorded task starts a group with an id that no group has (R73, R82). -/
theorem GroupsFit.start {tasks : List Task} {groups : List Group} (h : GroupsFit tasks groups) {k : Group} {r : Task}
    (hnew : k.id ∉ groups.map (·.id)) (hi : k.id = r.group) (hp : k.picker = r.picker) (hl : k.loc = r.loc) (hm : k.members = [r.number])
    (hr : k.remaining = r.quantity) : GroupsFit (tasks ++ [r]) (groups ++ [k]) := by
  have none : tasksIn tasks k.id = [] := by
    rw [tasksIn, List.filter_eq_nil_iff]
    intro t ht he
    obtain ⟨g, hg, hgi, -⟩ := h.placed t ht
    exact hnew (List.mem_map.2 ⟨g, hg, hgi.trans (by simpa using he)⟩)
  have own : tasksIn (tasks ++ [r]) k.id = [r] := by
    rw [tasksIn, List.filter_append, ← tasksIn, none]; simp [hi]
  have others : ∀ g ∈ groups, tasksIn (tasks ++ [r]) g.id = tasksIn tasks g.id := fun g hg => by
    have hne : r.group ≠ g.id := fun e => hnew (List.mem_map.2 ⟨g, hg, e.symm.trans hi.symm⟩)
    simp [tasksIn, hne]
  refine ⟨?_, fun t ht => ?_, ?_, ?_, ?_⟩
  · rw [List.map_append, List.nodup_append]
    refine ⟨h.ids, by simp, fun i hm j hj e => hnew ?_⟩
    obtain rfl : j = k.id := by simpa using hj
    exact e ▸ hm
  · rcases List.mem_append.1 ht with ht | ht
    · obtain ⟨g, hg, hrest⟩ := h.placed t ht
      exact ⟨g, List.mem_append_left _ hg, hrest⟩
    · rw [List.mem_singleton.1 ht]; exact ⟨k, by simp, hi, hp, hl⟩
  all_goals
    intro g hg
    rcases List.mem_append.1 hg with hg | hg
  · exact h.nonempty g hg
  · rw [List.mem_singleton.1 hg, hm]; simp
  · rw [others g hg]; exact h.members g hg
  · rw [List.mem_singleton.1 hg, own, hm]; exact List.Perm.refl _
  · rw [others g hg]; exact h.sums g hg
  · rw [List.mem_singleton.1 hg, own, hr]; simp

/-- No more groups are open than tasks, since each has one (R74). -/
theorem GroupsFit.length_le {tasks : List Task} {groups : List Group} (h : GroupsFit tasks groups) : groups.length ≤ tasks.length := by
  have within : groups.map (·.id) ⊆ tasks.map (·.group) := fun i hi => by
    obtain ⟨g, hg, rfl⟩ := List.mem_map.1 hi
    obtain ⟨n, hn⟩ := List.exists_mem_of_ne_nil _ (h.nonempty g hg)
    obtain ⟨t, ht, -, hti⟩ := (h.mem_members hg).1 hn
    exact List.mem_map.2 ⟨t, ht, hti⟩
  simpa using (h.ids.subperm within).length_le

/-- What a task that closes leaves of its group's tasks. -/
theorem GroupsFit.others_in {tasks : List Task} {groups : List Group} (h : GroupsFit tasks groups) (hn : (tasks.map (·.number)).Nodup) {g : Group}
    (hg : g ∈ groups) {t : Task} (ht : t ∈ tasks) (hi : t.group = g.id) :
    (g.members.filter (· != t.number)).Perm ((tasksIn (tasks.filter (fun x => x.number != t.number)) g.id).map (·.number))
      ∧ g.remaining = t.quantity + ((tasksIn (tasks.filter (fun x => x.number != t.number)) g.id).map (·.quantity)).sum := by
  refine ⟨?_, ?_⟩
  · have filtered := (h.members g hg).filter (· != t.number)
    rw [List.filter_map] at filtered
    refine filtered.trans (List.Perm.of_eq (congrArg _ ?_))
    simp only [tasksIn, List.filter_filter]
    exact List.filter_congr fun x _ => Bool.and_comm _ _
  · have apart : (tasksIn tasks g.id).Perm (t :: tasksIn (tasks.filter (fun x => x.number != t.number)) g.id) := by
      have := (perm_cons_others hn ht).filter (fun x => x.group = g.id)
      rwa [List.filter_cons_of_pos (by simpa using hi)] at this
    rw [h.sums g hg, (apart.map _).sum_eq, List.map_cons, List.sum_cons]

/-- A task that closes beside others leaves its group, which keeps the rest (R86). -/
theorem GroupsFit.close {tasks : List Task} {groups : List Group} (h : GroupsFit tasks groups) (hn : (tasks.map (·.number)).Nodup) {g k : Group}
    (hg : g ∈ groups) {t : Task} (ht : t ∈ tasks) (hi : t.group = g.id) (hid : k.id = g.id) (hpk : k.picker = g.picker) (hloc : k.loc = g.loc)
    (hm : k.members = g.members.filter (· != t.number)) (hr : k.remaining = g.remaining - t.quantity) (hne : k.members ≠ []) :
    GroupsFit (tasks.filter (fun x => x.number != t.number)) (groups.map fun x => if x.id = k.id then k else x) := by
  obtain ⟨hmem, hsum⟩ := h.others_in hn hg ht hi
  refine h.replace hg hid hpk hloc (fun u hu => .inr (List.mem_of_mem_filter hu)) (fun i hne => ?_) hne (hm ▸ hmem) (by omega)
  rw [tasksIn, List.filter_filter]
  refine List.filter_congr fun x hx => ?_
  by_cases hxi : x.group = i
  · have : x.number ≠ t.number := fun e => hne (by rw [← hxi, task_unique hn hx ht e, hi])
    simp [hxi, this]
  · simp [hxi]

/-- A task that closes as the last of its group takes the group with it (R75, R86). -/
theorem GroupsFit.closeLast {tasks : List Task} {groups : List Group} (h : GroupsFit tasks groups) (hn : (tasks.map (·.number)).Nodup) {g : Group}
    (hg : g ∈ groups) {t : Task} (ht : t ∈ tasks) (hi : t.group = g.id) (hm : g.members.filter (· != t.number) = []) :
    GroupsFit (tasks.filter (fun x => x.number != t.number)) (groups.filter (fun x => x.id != g.id)) := by
  refine h.drop fun u hu k hk hki => ?_
  rw [Bool.eq_iff_iff, bne_iff_ne, bne_iff_ne]
  constructor
  · intro hne he
    obtain rfl : k = g := List.inj_on_of_nodup_map h.ids hk hg he
    exact List.filter_eq_nil_iff.1 hm u.number ((h.mem_members hk).2 ⟨u, hu, rfl, hki.symm⟩) (by simpa using hne)
  · rintro hne he
    exact hne (by rw [hki, task_unique hn hu ht he, hi])

/-- A task whose quantity changes, with its group's R (R86, R88). -/
theorem GroupsFit.amend {tasks : List Task} {groups : List Group} (h : GroupsFit tasks groups) (hn : (tasks.map (·.number)).Nodup) {g k : Group}
    (hg : g ∈ groups) {t : Task} (ht : t ∈ tasks) (hi : t.group = g.id) {q : Nat} (hid : k.id = g.id) (hpk : k.picker = g.picker)
    (hloc : k.loc = g.loc) (hm : k.members = g.members) (hr : k.remaining = g.remaining - t.quantity + q) :
    GroupsFit (tasks.map fun x => if x.number = t.number then { x with quantity := q } else x)
      (groups.map fun x => if x.id = k.id then k else x) := by
  have rewritten : ∀ x, (if x.number = t.number then { x with quantity := q } else x : Task).group = x.group
      ∧ (if x.number = t.number then { x with quantity := q } else x : Task).number = x.number
      ∧ (if x.number = t.number then { x with quantity := q } else x : Task).picker = x.picker
      ∧ (if x.number = t.number then { x with quantity := q } else x : Task).loc = x.loc := fun x => by split <;> simp
  have inside : ∀ i, tasksIn (tasks.map fun x => if x.number = t.number then { x with quantity := q } else x) i
      = (tasksIn tasks i).map fun x => if x.number = t.number then { x with quantity := q } else x := fun i => by
    rw [tasksIn, List.filter_map]
    congr 1
    exact List.filter_congr fun x _ => by simp [(rewritten x).1]
  refine h.replace hg hid hpk hloc (fun u hu => ?_) (fun i hne => ?_) (hm ▸ h.nonempty g hg) ?_ ?_
  · obtain ⟨x, hx, rfl⟩ := List.mem_map.1 hu
    by_cases hxn : x.number = t.number
    · obtain rfl := task_unique hn hx ht hxn
      obtain ⟨hp, hl⟩ := h.agree hg hx hi
      rw [if_pos rfl]; exact .inl ⟨hi, hp.symm, hl.symm⟩
    · rw [if_neg hxn]; exact .inr hx
  · rw [inside]
    conv_rhs => rw [← List.map_id (tasksIn tasks i)]
    refine List.map_congr_left fun x hx => ?_
    obtain ⟨hx, hxi⟩ := mem_tasksIn.1 hx
    rw [if_neg fun e => hne (by rw [← hxi, task_unique hn hx ht e, hi])]; rfl
  · rw [inside, List.map_map, hm]
    refine (h.members g hg).trans (List.Perm.of_eq (List.map_congr_left fun x _ => ((rewritten x).2.1).symm))
  · have apart := (perm_cons_others hn ht).filter (fun x => x.group = g.id)
    rw [List.filter_cons_of_pos (by simpa using hi)] at apart
    obtain ⟨-, hsum⟩ := h.others_in hn hg ht hi
    have kept : (tasksIn (tasks.filter (fun x => x.number != t.number)) g.id).map
        ((·.quantity) ∘ fun x => if x.number = t.number then { x with quantity := q } else x)
          = (tasksIn (tasks.filter (fun x => x.number != t.number)) g.id).map (·.quantity) :=
      List.map_congr_left fun x hx => by
        rw [Function.comp_apply, if_neg (by simpa using (List.mem_filter.1 (mem_tasksIn.1 hx).1).2)]
    rw [inside, List.map_map, ((show (tasksIn tasks g.id).Perm _ from apart).map _).sum_eq, List.map_cons, List.sum_cons, hr]
    rw [← tasksIn, kept, Function.comp_apply, if_pos rfl]
    show _ = q + _
    omega

end Sys2Proof.Machine

/-!
PROOFS. What every step keeps of tasks, groups and pickers (O56): the operations of the display and of the branch lines, which change how groups
stand on the display and nothing that the task table is held against.
-/

namespace Sys2Proof.Machine

open Sys2Proof

/-! ## Groups that stand otherwise on the display (R99, R116) -/

/-- A change of how a group stands on the display alone: its state, first-shown time and linger flag. -/
def Restates (φ : Group → Group) : Prop :=
  ∀ g, φ g = { g with state := (φ g).state, firstShown := (φ g).firstShown, linger := (φ g).linger }

theorem Restates.comp {φ ψ : Group → Group} (hψ : Restates ψ) (hφ : Restates φ) : Restates (ψ ∘ φ) := fun g => by
  rw [Function.comp_apply, hψ (φ g), hφ g]

theorem Restates.place {φ : Group → Group} (h : Restates φ) : PlaceKept φ := fun g => by
  rw [h g]; exact ⟨rfl, rfl, rfl⟩

theorem settledAt_restates (e : MapEntry) (s : State) : Restates (settledAt e s) := by
  intro g; unfold settledAt settleGroup; split
  · split <;> rfl
  · rfl

/-- From `s` to `t` the tasks, the pickers and the next group id are as they were, and the groups at most stand otherwise on the display. -/
structure BooksKept (s t : State) : Prop where
  tasks : t.tasks = s.tasks
  pickers : t.pickers = s.pickers
  next : t.nextGroup = s.nextGroup
  groups : (s.groups.map (·.id)).Nodup → ∃ φ, Restates φ ∧ t.groups = s.groups.map φ

/-- The parts that the tables of tasks, groups and pickers are. -/
def bookParts : List Part := [.tasks, .pickers, .groups, .nextGroup]

theorem BooksKept.of_groups {ps : List Part} {s t : State} (h : OnlyChanges ps s t) (hp : ∀ p ∈ [Part.tasks, .pickers, .nextGroup], p ∉ ps)
    (hg : (s.groups.map (·.id)).Nodup → ∃ φ, Restates φ ∧ t.groups = s.groups.map φ) : BooksKept s t :=
  ⟨h.keeps (p := .tasks) (hp _ (by decide)), h.keeps (p := .pickers) (hp _ (by decide)), h.keeps (p := .nextGroup) (hp _ (by decide)), hg⟩

theorem OnlyChanges.booksKept {ps : List Part} {s t : State} (h : OnlyChanges ps s t) (hp : ∀ p ∈ bookParts, p ∉ ps) : BooksKept s t :=
  .of_groups h (fun p m => hp p (by simp [bookParts] at m ⊢; tauto)) fun _ =>
    ⟨id, fun _ => rfl, by rw [List.map_id]; exact h.keeps (p := .groups) (hp _ (by decide))⟩

theorem BooksKept.trans {s t u : State} (h : BooksKept s t) (k : BooksKept t u) : BooksKept s u := by
  refine ⟨k.tasks.trans h.tasks, k.pickers.trans h.pickers, k.next.trans h.next, fun hn => ?_⟩
  obtain ⟨φ, hφ, hg⟩ := h.groups hn
  obtain ⟨ψ, hψ, hk⟩ := k.groups (by
    rw [hg, List.map_map]; exact (List.map_congr_left fun g _ => (hφ.place g).1 : _ = s.groups.map (·.id)) ▸ hn)
  exact ⟨ψ ∘ φ, hψ.comp hφ, by rw [hk, hg, List.map_map]⟩

theorem books_steady : Steady bookParts BooksKept where
  only h hp := h.booksKept hp
  trans h k := h.trans k
  sends _ _ _ _ _ _ := (originate_only _ _ _ _ _ _).booksKept (by decide)
  away := by decide

theorem onBranch_books (b : Branch) (f : BranchState → BranchState) (s : State) : BooksKept s (onBranch b f s) := by
  refine ⟨?_, ?_, ?_, fun _ => ⟨id, fun _ => rfl, ?_⟩⟩ <;> simp [onBranch]

/-! ## The display -/

theorem recompute_books (e : MapEntry) (s : State) : BooksKept s (recompute e s) := by
  refine .of_groups (recompute_only e s) (by decide) fun _ => ?_
  cases h : s.slotAt e.pos with
  | none => exact ⟨id, fun _ => rfl, by rw [recompute_unmapped h, List.map_id]⟩
  | some x => exact ⟨settledAt e s, settledAt_restates e s, (recompute_slotAt h).1⟩

theorem recomputeWhere_books (p : MapEntry → Bool) (s : State) : BooksKept s (recomputeWhere p s) :=
  books_steady.foldl (fun t e => recompute_books e t) _ s

theorem recomputeCodes_books (codes : List Nat) (s : State) : BooksKept s (recomputeCodes codes s) := recomputeWhere_books _ s

/-- The linger flag of the group with an id sets (R116). -/
theorem setLinger_books {g : Group} {s : State} (hg : g ∈ s.groups) : BooksKept s (s.setGroup { g with linger := true }) := by
  refine .of_groups (setGroup_only s _) (by decide) fun hn =>
    ⟨fun h => if h.id = g.id then { h with linger := true } else h, fun h => by simp only; split <;> rfl, ?_⟩
  refine List.map_congr_left fun h hh => ?_
  simp only; split
  · rename_i he; rw [group_unique hn hh hg he]
  · rfl

theorem groupAtPosition_mem {s : State} {x : SlotState} {g : Group} (h : s.groupAtPosition x = some g) : g ∈ s.groups := by
  obtain ⟨i, -, hi⟩ := Option.bind_eq_some_iff.1 h
  exact (groupOf_mem hi).1

theorem lingerExpire_books (x : SlotState) (s : State) : BooksKept s (lingerExpire x s) := by
  cases hg : s.groupAtPosition x with
  | none =>
    unfold lingerExpire; rw [hg]
    exact (setSlot_only _ _).booksKept (by decide)
  | some g =>
    rw [lingerExpire_eq hg]
    have set : BooksKept s (lingerShown x g s) :=
      (setLinger_books (groupAtPosition_mem hg)).trans ((setSlot_only _ _).booksKept (by decide))
    exact (set.trans ((renewShadow_only _ _).booksKept (by decide))).trans (books_steady.offer _ _)

theorem judgeOne_books (oldBase : Nat) (t : State) (e : MapEntry) : BooksKept t (judgeOne oldBase t e) := by
  rcases judgeOne_cases oldBase t e with h | ⟨x, timer, -, h⟩ | ⟨x, -, h⟩
  · rw [h]; exact books_steady.refl t
  · rw [h]; exact (setSlot_only _ _).booksKept (by decide)
  · rw [h]; exact books_steady.event (lingerExpire_books x) t

theorem judgeLinger_books (oldBase : Nat) (s : State) : BooksKept s (judgeLinger oldBase s) :=
  books_steady.foldl (judgeOne_books oldBase) s.locMap s

theorem enterOrphaned_books (s : State) : BooksKept s (enterOrphaned s) := by
  have enter : OnlyChanges [.orphaned] s { s with orphaned := true } := by intro p; cases p <;> simp [Keeps]
  exact ((enter.booksKept (by decide)).trans (books_steady.setFlag _ _)).trans (recomputeWhere_books _ _)

theorem leaveOrphaned_books (s : State) : BooksKept s (leaveOrphaned s) := by
  have leave : OnlyChanges [.orphaned] s { s with orphaned := false } := by intro p; cases p <;> simp [Keeps]
  exact (((leave.booksKept (by decide)).trans ((clearFlag_only _ _).booksKept (by decide))).trans (books_steady.setFlag _ _)).trans
    (recomputeWhere_books _ _)

/-! ## Deliveries -/

theorem takeDelivery_books (f : Frame) (s : State) : BooksKept s (takeDelivery f s) := by
  unfold takeDelivery; split
  · exact books_steady.signal _ _ _
  · rename_i r _
    split
    · exact books_steady.signal _ _ _
    · have admission : OnlyChanges [.silence, .admitted] s { s with silenceSince := s.now, admitted := s.admitted ++ [r] } := by
        intro p; cases p <;> simp [Keeps]
      simp only; split
      · exact (admission.booksKept (by decide)).trans (leaveOrphaned_books _)
      · exact admission.booksKept (by decide)

theorem deliverFrame_books (f : Frame) (s : State) : BooksKept s (deliverFrame f s) := by
  have recent : ∀ l, OnlyChanges [.recent] s { s with recent := l } := by intro l p; cases p <;> simp [Keeps]
  simp only [deliverFrame]; split
  · exact ((recent _).booksKept (by decide)).trans (books_steady.signal _ _ _)
  · exact (((recent _).booksKept (by decide)).trans (books_steady.signal _ _ _)).trans (takeDelivery_books _ _)

theorem disposeFrame_books (p : Port) (f : Frame) (s : State) : BooksKept s (disposeFrame p f s) := by
  have fwd : ∀ t, BooksKept t (forwardFrame p f t) := fun t => (forwardFrame_only p f t).booksKept (by decide)
  unfold disposeFrame
  split
  · exact fwd s
  split
  · split
    · exact books_steady.refl s
    · exact books_steady.setFlag _ _
  split
  · exact deliverFrame_books _ _
  split
  · exact (deliverFrame_books f s).trans (fwd _)
  · exact fwd s

theorem takeArrival_books (p : Port) (s : State) : BooksKept s (takeArrival p s) := by
  have drop : ∀ flag, BooksKept s (dropFrame flag s) := fun flag => (dropFrame_only flag s).booksKept (by decide)
  simp only [takeArrival]
  split
  · exact drop _
  split
  · exact drop _
  split
  · exact drop _
  · exact disposeFrame_books _ _ _

/-! ## The branch lines (chapter 8) -/

theorem endCommand_books (b : Branch) (c : Command) (s : State) : BooksKept s (endCommand b c s) :=
  (endCommand_parts b c s).booksKept (by decide)

theorem finishDirect_books (b : Branch) (code : ReplyCode) (s : State) : BooksKept s (finishDirect b code s) :=
  (finishDirect_only b code s).booksKept (by decide)

theorem markMissing_books (b : Branch) (m : Module) (s : State) : BooksKept s (markMissing b m s) :=
  ((onBranch_books _ _ _).trans (books_steady.setFlag _ _)).trans (recomputeWhere_books _ _)

theorem retryOrEnd_books (b : Branch) (c : Command) (s : State) : BooksKept s (retryOrEnd b c s) := by
  unfold retryOrEnd; split
  · exact onBranch_books _ _ _
  · exact endCommand_books _ _ _

theorem missAttempt_books (b : Branch) (c : Command) (drew : Bool) (s : State) : BooksKept s (missAttempt b c drew s) := by
  have signalled : BooksKept s (signal .moduleMiss none s) := books_steady.signal _ _ _
  simp only [missAttempt]; split
  · exact signalled.trans (retryOrEnd_books _ _ _)
  rename_i m _
  have missed := signalled.trans (onBranch_books b (fun x => x.setModule m.missed) _)
  split
  · exact missed.trans (endCommand_books _ _ _)
  split
  · exact (missed.trans (markMissing_books _ _ _)).trans (endCommand_books _ _ _)
  · exact missed.trans (retryOrEnd_books _ _ _)

theorem validReply_books (b : Branch) (addr : Nat) (s : State) : BooksKept s (validReply b addr s) := by
  unfold validReply; split
  · exact books_steady.refl s
  split
  · unfold moduleReturns
    exact (((onBranch_books _ _ _).trans (books_steady.setFlag _ _)).trans (recomputeWhere_books _ _)).trans
      ((enqueueReturning_only _ _ _).booksKept (by decide))
  · exact onBranch_books _ _ _

theorem answeredCommand_books (b : Branch) (addr : Nat) (s : State) : BooksKept s (clearCommand b (validReply b addr s)) :=
  (validReply_books b addr s).trans (onBranch_books _ _ _)

theorem acknowledge_books (b : Branch) (c : Command) (s : State) : BooksKept s (acknowledge b c s) := by
  simp only [acknowledge]; split
  · exact (answeredCommand_books _ _ _).trans (finishDirect_books _ _ _)
  all_goals exact answeredCommand_books _ _ _

theorem takePollReply_books (b : Branch) (addr : Nat) (bytes : List Byte) (s : State) : BooksKept s (takePollReply b addr bytes s) := by
  have handed := (answeredCommand_books b addr s).trans (onBranch_books b (fun x => { x with
      keys := x.keys ++ keyEvents b addr bytes
      roster := x.roster.map fun (m : Module) => if m.addr = addr then { m with owed := (keyEvents b addr bytes).length } else m }) _)
  have faulty : ∀ (c : Bool) (u : State), BooksKept u (if c then signal .moduleFault none u else u) := by
    intro c u; split
    · exact books_steady.signal _ _ _
    · exact books_steady.refl u
  have lost : ∀ (c : Bool) (u : State), BooksKept u (if c then signal .keysLost none (setFlag .keysLost u) else u) := by
    intro c u; split
    · exact (books_steady.setFlag _ _).trans (books_steady.signal _ _ _)
    · exact books_steady.refl u
  exact (handed.trans (lost _ _)).trans (faulty _ _)

theorem advanceScan_books (b : Branch) (addr found : Nat) (s : State) : BooksKept s (advanceScan b addr found s) := by
  have free : BooksKept s (clearCommand b s) := onBranch_books _ _ _
  simp only [advanceScan]; split
  · unfold completeScan
    exact (((free.trans (books_steady.setFlag _ _)).trans (books_steady.offer _ _)).trans ((setScanning_only _ _ _).booksKept (by decide))).trans
      (onBranch_books _ _ _)
  · exact free.trans (onBranch_books _ _ _)

theorem recordIdentity_books (b : Branch) (addr : Nat) (bytes : List Byte) (s : State) : BooksKept s (recordIdentity b addr bytes s) := by
  have notice : ∀ u, BooksKept u (noticeModule b addr u) := fun u => recomputeWhere_books _ u
  have found : ∀ u, BooksKept u (enqueueFound b addr u) := fun u => (enqueueFound_only b addr u).booksKept (by decide)
  have changed : ∀ u, BooksKept u (enqueueModule b addr u) := fun u => (enqueueModule_only b addr u).booksKept (by decide)
  unfold recordIdentity; split
  · exact ((onBranch_books _ _ _).trans (notice _)).trans (found _)
  · rename_i m _
    have known : BooksKept s (identifyModule b addr bytes (validReply b addr s)) := (validReply_books b addr s).trans (onBranch_books _ _ _)
    have other : BooksKept s (if (m.identified bytes).serial = m.serial then identifyModule b addr bytes (validReply b addr s)
        else enqueueModule b addr (identifyModule b addr bytes (validReply b addr s))) := by
      split
      · exact known
      · exact known.trans (changed _)
    simp only; split
    · exact other
    split
    · exact (other.trans (notice _)).trans (found _)
    · exact (other.trans (notice _)).trans (changed _)

theorem identUnanswered_books (b : Branch) (addr : Nat) (s : State) : BooksKept s (identUnanswered b addr s) := by
  refine BooksKept.trans ?_ (advanceScan_books _ _ _ _)
  split
  · exact books_steady.refl s
  split
  · exact books_steady.refl s
  · exact markMissing_books _ _ _

theorem abandonCommand_books (b : Branch) (c : Command) (taken : Bool) (s : State) : BooksKept s (abandonCommand b c taken s) := by
  have free : ∀ u, BooksKept u (clearCommand b u) := fun u => onBranch_books _ _ u
  unfold abandonCommand; split
  · exact (free s).trans ((enqueueSlot_only _ _).booksKept (by decide))
  · exact ((settleOwed_only _ _ _ _).booksKept (by decide)).trans (free _)
  · exact free s
  · exact (free s).trans (finishDirect_books _ _ _)
  · exact free s

theorem setFault_books (b : Branch) (stillSending : Bool) (s : State) : BooksKept s (setFault b stillSending s) := by
  have faulty : BooksKept s (setFlag (branchFaultFlag b) (onBranch b (fun x => { x with fault := true }) s)) :=
    (onBranch_books _ _ _).trans (books_steady.setFlag _ _)
  have tail : ∀ u, BooksKept u (finishDirect b .notOpen (noticeBranch b u)) := fun u =>
    (recomputeWhere_books _ u).trans (finishDirect_books _ _ _)
  simp only [setFault]; split
  · exact faulty.trans (tail _)
  split
  · exact faulty.trans (tail _)
  · exact (faulty.trans (abandonCommand_books _ _ _ _)).trans (tail _)

theorem clearFault_books (b : Branch) (s : State) : BooksKept s (clearFault b s) :=
  ((onBranch_books _ _ _).trans ((clearFlag_only _ _).booksKept (by decide))).trans (recomputeWhere_books _ _)

/-! ## CONFIG_SET (R34) -/

theorem judgeModule_books (b : Branch) (addr : Nat) (s : State) : BooksKept s (judgeModule b addr s) := by
  unfold judgeModule; split
  · exact books_steady.refl s
  rename_i m _
  split
  · refine (markMissing_books b m s).trans ?_
    simp only; split
    · exact books_steady.refl _
    split
    · exact endCommand_books _ _ _
    · exact books_steady.refl _
  · exact books_steady.refl s

theorem configEffects_books (old : Params) (s : State) : BooksKept s (configEffects old s) := by
  have linger : BooksKept s (applyLingerChange old s) := by
    unfold applyLingerChange; split
    · exact judgeLinger_books _ _
    · exact books_steady.refl s
  have combine : ∀ u, BooksKept u (applyCombineChange old u) := fun u => (applyCombineChange_parts old u).booksKept (by decide)
  have silence : ∀ u, BooksKept u (applySilenceChange old u) := fun u => by
    have started := (startSilence_only old u).booksKept (by decide)
    rw [applySilenceChange_eq]; split
    · exact started.trans (enterOrphaned_books _)
    · exact started
  have miss : ∀ u, BooksKept u (applyMissChange old u) := fun u =>
    applyMissChange_induct (P := BooksKept u) (fun b addr t h => h.trans (judgeModule_books b addr t)) old (books_steady.refl u)
  exact ((linger.trans (combine _)).trans (silence _)).trans (miss _)

theorem applyConfigSet_books (r : Request) (s : State) : BooksKept s (applyConfigSet r s).2 := by
  cases h : badParameter r with
  | some index => unfold applyConfigSet; rw [h]; exact books_steady.refl s
  | none =>
    have held : OnlyChanges [.params] s { s with params := newParams r s.params } := by intro p; cases p <;> simp [Keeps]
    rw [applyConfigSet_passes s h]
    exact (held.booksKept (by decide)).trans (configEffects_books _ _)

/-! ## Areas (R53, R54) -/

theorem areasSwitched_books (changed locked : BitVec 16) (s : State) : BooksKept s (areasSwitched changed locked s) :=
  ((areasWritten_only locked s).booksKept (by decide)).trans (recomputeWhere_books _ _)

theorem applyAreaLock_books (r : Request) (s : State) : BooksKept s (applyAreaLock r s).2 := by
  rw [applyAreaLock_eq]; exact areasSwitched_books _ _ s

theorem applyAreaUnlock_books (r : Request) (s : State) : BooksKept s (applyAreaUnlock r s).2 := by
  rw [applyAreaUnlock_eq]; exact areasSwitched_books _ _ s

end Sys2Proof.Machine

/-!
PROOFS. PICKER_LEAVE: the tasks and groups that go, and what is left of the tables (O29, O56).
-/

namespace Sys2Proof.Machine

open Sys2Proof

/-! ## A picker's groups removed (R64, R75) -/

theorem foldl_removeGroup_groups (gs : List Group) : ∀ s : State,
    (gs.foldl (fun t g => removeGroup g t) s).groups = s.groups.filter fun h => !gs.any fun g => g.id == h.id := by
  induction gs with
  | nil => intro s; simp
  | cons g gs ih =>
    intro s
    rw [List.foldl_cons, ih, removeGroup_groups, List.filter_filter]
    refine List.filter_congr fun h _ => ?_
    rw [List.any_cons, Bool.not_or, Bool.and_comm, bne, BEq.comm (a := h.id)]

/-- Where ids are distinct, the groups of a picker are those that go when they are removed one by one (R64). -/
theorem removeOwn_groups {s : State} (hn : (s.groups.map (·.id)).Nodup) (id : Nat) :
    s.groups.filter (fun h => !(s.groups.filter fun g => g.picker == id).any fun g => g.id == h.id) = s.groups.filter (fun h => h.picker != id) := by
  refine List.filter_congr fun h hh => ?_
  rw [Bool.eq_iff_iff, Bool.not_eq_true', ← Bool.not_eq_true, List.any_eq_true, bne_iff_ne]
  refine not_congr ⟨?_, fun he => ⟨h, List.mem_filter.2 ⟨hh, by simpa using he⟩, by simp⟩⟩
  rintro ⟨g, hg, he⟩
  obtain ⟨hg, hp⟩ := List.mem_filter.1 hg
  rw [← group_unique hn hg hh (by simpa using he)]; simpa using hp

/-! ## The state that PICKER_LEAVE leaves (R64) -/

/-- A picker's groups, in creation order. -/
def ownGroups (id : Nat) (s : State) : List Group := s.groups.filter fun g => g.picker == id

/-- The state without a picker's tasks and groups, its locations still to be recomputed. -/
def withdrawn (id : Nat) (s : State) : State :=
  (ownGroups id s).foldl (fun t g => removeGroup g t) { s with tasks := s.tasks.filter fun t => t.picker != id }

/-- The same with TASKS_HIGH judged and the locations recomputed. -/
def withdrawnShown (id : Nat) (s : State) : State := recomputeCodes ((ownGroups id s).map (·.loc)) (judgeTasksHigh (withdrawn id s))

/-- The state that PICKER_LEAVE leaves. -/
def pickerLeft (id : Nat) (s : State) : State :=
  { withdrawnShown id s with pickers := (withdrawnShown id s).pickers.filter fun q => q.id != id }

theorem applyPickerLeave_known {r : Request} {s : State} {p : Picker} (h : s.pickerOf r.pickerId = some p) :
    applyPickerLeave r s =
      (Answer.ok (beBytes 2 (s.tasks.filter fun t => t.picker == p.id).length ++ [BitVec.ofNat 8 p.index]), pickerLeft p.id s) := by
  unfold applyPickerLeave; rw [h]; rfl

theorem applyPickerLeave_unknown {r : Request} {s : State} (h : s.pickerOf r.pickerId = none) :
    applyPickerLeave r s = (Answer.refuse .unknownPicker, s) := by
  unfold applyPickerLeave; rw [h]

section
variable (id : Nat) (s : State)

theorem removeOwn_only :
    OnlyChanges [.groups, .slots] { s with tasks := s.tasks.filter fun t => t.picker != id } (withdrawn id s) :=
  onlyChanges_foldl (fun t g => removeGroup_only g t) (ownGroups id s) _

theorem withdrawn_tasks : (withdrawn id s).tasks = s.tasks.filter fun t => t.picker != id :=
  (removeOwn_only id s).keeps (p := .tasks) (by decide)

theorem withdrawn_only : OnlyChanges [.tasks, .groups, .slots] s (withdrawn id s) := by
  have cut : OnlyChanges [.tasks] s { s with tasks := s.tasks.filter fun t => t.picker != id } := by
    intro p; cases p <;> simp [Keeps]
  exact (cut.mono (by decide)).trans ((removeOwn_only id s).mono (by decide))

theorem withdrawnShown_only : OnlyChanges ([.flags, .notes] ++ displayParts) (withdrawn id s) (withdrawnShown id s) :=
  ((judgeTasksHigh_only _).mono (by decide)).trans ((recomputeCodes_only _ _).mono (by decide))

theorem pickerLeft_tasks : (pickerLeft id s).tasks = s.tasks.filter fun t => t.picker != id :=
  Eq.trans ((withdrawnShown_only id s).keeps (p := .tasks) (by decide)) (withdrawn_tasks id s)

theorem pickerLeft_pickers : (pickerLeft id s).pickers = s.pickers.filter fun q => q.id != id := by
  have shown : (withdrawnShown id s).pickers = (withdrawn id s).pickers := (withdrawnShown_only id s).keeps (p := .pickers) (by decide)
  have before : (withdrawn id s).pickers = s.pickers := (withdrawn_only id s).keeps (p := .pickers) (by decide)
  rw [pickerLeft, shown, before]

theorem pickerLeft_nextGroup : (pickerLeft id s).nextGroup = s.nextGroup :=
  Eq.trans ((withdrawnShown_only id s).keeps (p := .nextGroup) (by decide)) ((withdrawn_only id s).keeps (p := .nextGroup) (by decide))

variable {id} {s}

theorem withdrawn_groups (hn : (s.groups.map (·.id)).Nodup) : (withdrawn id s).groups = s.groups.filter fun g => g.picker != id := by
  rw [withdrawn, foldl_removeGroup_groups]; exact removeOwn_groups hn id

/-- The groups left stand at their locations as before, of their pickers (R99). -/
theorem pickerLeft_groups (hn : (s.groups.map (·.id)).Nodup) :
    ∃ φ, Restates φ ∧ (pickerLeft id s).groups = (s.groups.filter fun g => g.picker != id).map φ := by
  have books := ((judgeTasksHigh_only (withdrawn id s)).booksKept (by decide)).trans
    (recomputeCodes_books ((ownGroups id s).map (·.loc)) _)
  obtain ⟨φ, hφ, hg⟩ := books.groups (by rw [withdrawn_groups hn]; exact hn.sublist (List.filter_sublist.map _))
  exact ⟨φ, hφ, by rw [← withdrawn_groups hn]; exact hg⟩

end

end Sys2Proof.Machine

/-!
PROOFS. What every step keeps of tasks, groups and pickers (O56): the requests and presses that change them, and every command.
-/

namespace Sys2Proof.Machine

open Sys2Proof

/-! ## From state to state -/

/-- From `s` to `t` tasks, groups and pickers that fit each other still do. -/
structure FitsKept (s t : State) : Prop where
  fits : Fits s → Fits t

theorem FitsKept.trans {s t u : State} (h : FitsKept s t) (k : FitsKept t u) : FitsKept s u := ⟨k.fits ∘ h.fits⟩

theorem BooksKept.fitsKept {s t : State} (h : BooksKept s t) : FitsKept s t := by
  refine ⟨fun ⟨ht, hg, hn⟩ => ?_⟩
  obtain ⟨φ, hφ, hgroups⟩ := h.groups hg.ids
  refine ⟨?_, ?_, ?_⟩
  · rw [h.tasks, h.pickers]; exact ht
  · rw [h.tasks, hgroups]
    exact hg.map fun g _ => by rw [hφ g]; exact ⟨rfl, rfl, rfl, rfl, rfl⟩
  · rw [h.next]; exact hn

theorem OnlyChanges.fitsKept {ps : List Part} {s t : State} (h : OnlyChanges ps s t) (hp : ∀ p ∈ bookParts, p ∉ ps) : FitsKept s t :=
  (h.booksKept hp).fitsKept

theorem fits_steady : Steady bookParts FitsKept where
  only h hp := h.fitsKept hp
  trans h k := h.trans k
  sends _ _ _ _ _ _ := (originate_only _ _ _ _ _ _).fitsKept (by decide)
  away := by decide

theorem recomputeCodes_fits (codes : List Nat) (s : State) : FitsKept s (recomputeCodes codes s) := (recomputeCodes_books codes s).fitsKept

theorem judgeTasksHigh_fits (s : State) : FitsKept s (judgeTasksHigh s) := (judgeTasksHigh_only s).fitsKept (by decide)

theorem resetTo_fits (station : Nat) (cause : ResetCause) (lines : LineLevels) (s : State) : FitsKept s (resetTo station cause lines s) := by
  have empty : Fits State.reset := (fits_iff _).2 ⟨reset_work.1, reset_links⟩
  have h : FitsKept s (resetState station cause lines s) := ⟨fun _ => ⟨empty.tasks, empty.groups, empty.next⟩⟩
  exact h.trans ((resetTo_only _ _ _ _).fitsKept (by decide))

/-! ## The picker table (R57, R61 to R64) -/

/-- Entries that come for those with their ids bring the same open counts. -/
theorem TasksFit.of_pickers {tasks : List Task} {ps qs : List Picker} (h : TasksFit tasks ps) (hids : ∀ p ∈ ps, ∃ q ∈ qs, q.id = p.id)
    (hcounts : ∀ q ∈ qs, q.openTasks = (tasksOf tasks q.id).length) : TasksFit tasks qs := by
  refine ⟨h.few, h.numbers, fun t ht => ?_, hcounts⟩
  obtain ⟨p, hp, hpt⟩ := h.known t ht
  obtain ⟨q, hq, hqp⟩ := hids p hp
  exact ⟨q, hq, hqp.trans hpt⟩

/-- An entry changed in all but its id and its open count. -/
theorem setPicker_fits {s : State} {p q : Picker} (hp : p ∈ s.pickers) (hid : q.id = p.id) (ho : q.openTasks = p.openTasks) :
    FitsKept s (s.setPicker q) := by
  refine ⟨fun ⟨ht, hg, hn⟩ => ⟨ht.of_pickers (fun x hx => ⟨_, List.mem_map_of_mem hx, ?_⟩) fun x hx => ?_, hg, hn⟩⟩
  · split
    · rename_i he; exact he.symm
    · rfl
  · obtain ⟨y, hy, rfl⟩ := List.mem_map.1 hx
    split
    · rw [ho, hid]; exact ht.counts p hp
    · exact ht.counts y hy

theorem samplePace_fits (id : Nat) (a b : ClockValue) (s : State) : FitsKept s (samplePace id a b s) := by
  unfold samplePace; split
  · exact fits_steady.refl s
  · rename_i p hp; exact setPicker_fits (pickerOf_mem hp).1 rfl rfl

theorem mem_insertPicker {q p : Picker} {l : List Picker} : p ∈ insertPicker q l ↔ p = q ∨ p ∈ l := by
  rw [insertPicker_eq, (List.perm_orderedInsert _ q l).mem_iff, List.mem_cons]

/-- A new entry with no open tasks joins, as no task is of a picker that the table does not hold (R58, R61). -/
theorem insertPicker_fits {s : State} {q : Picker} (hnew : ∀ p ∈ s.pickers, p.id ≠ q.id) (ho : q.openTasks = 0) :
    FitsKept s { s with pickers := insertPicker q s.pickers } := by
  refine ⟨fun ⟨ht, hg, hn⟩ => ⟨ht.of_pickers (fun p hp => ⟨p, mem_insertPicker.2 (.inr hp), rfl⟩) fun p hp => ?_, hg, hn⟩⟩
  rcases mem_insertPicker.1 hp with rfl | hp
  · rw [ho, tasksOf, List.filter_eq_nil_iff.2, List.length_nil]
    intro t hm he
    obtain ⟨x, hx, hxt⟩ := ht.known t hm
    exact hnew x hx (hxt.trans (by simpa using he))
  · exact ht.counts p hp

theorem pickerNotice_fits (old new : Picker) (s : State) : FitsKept s (pickerNotice old new s) := by
  unfold pickerNotice; split
  · exact (recomputeWhere_books _ _).fitsKept
  split
  · exact (renewColour_only _ _).fitsKept (by decide)
  · exact fits_steady.refl s

theorem applyPickerSet_fits (r : Request) (s : State) : FitsKept s (applyPickerSet r s).2 := by
  unfold applyPickerSet; split
  · exact fits_steady.refl s
  simp only; split
  · exact fits_steady.refl s
  split
  · exact fits_steady.refl s
  split
  · rename_i p hp
    exact (setPicker_fits (q := { p with colour := (pickerColour r.colourByte).getD .white, priority := r.priorityByte })
      (pickerOf_mem hp).1 rfl rfl).trans (pickerNotice_fits _ _ _)
  · rename_i hp
    exact insertPicker_fits (by simpa [State.pickerOf] using hp) rfl

theorem setPickerState_fits (goal : PickerState) (r : Request) (s : State) : FitsKept s (setPickerState goal r s).2 := by
  unfold setPickerState; split
  · exact fits_steady.refl s
  · rename_i p hp
    simp only; split
    · exact fits_steady.refl s
    · exact (setPicker_fits (q := { p with state := goal }) (pickerOf_mem hp).1 rfl rfl).trans (recomputeWhere_books _ _).fitsKept

/-- The picker's tasks, groups and entry have gone; its locations are still to be recomputed (R64). -/
theorem TasksFit.leave {tasks : List Task} {pickers : List Picker} (h : TasksFit tasks pickers) (id : Nat) :
    TasksFit (tasks.filter (fun t => t.picker != id)) (pickers.filter (fun q => q.id != id)) := by
  refine ⟨(List.length_filter_le _ _).trans h.few, h.numbers.sublist (List.filter_sublist.map _), fun t ht => ?_, fun q hq => ?_⟩
  · obtain ⟨ht, hne⟩ := List.mem_filter.1 ht
    obtain ⟨p, hp, hpt⟩ := h.known t ht
    exact ⟨p, List.mem_filter.2 ⟨hp, hpt ▸ hne⟩, hpt⟩
  · obtain ⟨hq, hne⟩ := List.mem_filter.1 hq
    rw [h.counts q hq, tasksOf, tasksOf, List.filter_filter]
    congr 1
    refine List.filter_congr fun t _ => ?_
    by_cases he : t.picker = q.id
    · rw [he, hne, Bool.and_true]
    · simp [he]

theorem applyPickerLeave_fits (r : Request) (s : State) : FitsKept s (applyPickerLeave r s).2 := by
  cases hp : s.pickerOf r.pickerId with
  | none => rw [applyPickerLeave_unknown hp]; exact fits_steady.refl s
  | some p =>
    rw [applyPickerLeave_known hp]
    refine ⟨fun ⟨ht, hg, hn⟩ => ⟨?_, ?_, ?_⟩⟩
    · rw [pickerLeft_tasks, pickerLeft_pickers]; exact ht.leave p.id
    · obtain ⟨φ, hφ, hgroups⟩ := pickerLeft_groups (id := p.id) hg.ids
      rw [pickerLeft_tasks, hgroups]
      refine (hg.drop fun t hm g hgm hi => ?_).map fun g _ => by rw [hφ g]; exact ⟨rfl, rfl, rfl, rfl, rfl⟩
      rw [(hg.agree hgm hm hi.symm).1]
    · rw [pickerLeft_nextGroup]; exact hn

/-! ## TASK_POST, TASK_CANCEL and TASK_AMEND (R78 to R88) -/

/-- An accepted task in its group, recorded and counted (R61, R79 to R83). -/
theorem recorded_fits {t : TaskItem} {s : State} (h : TaskFits t s) (hs : Fits s) : Fits (changeOpen t.picker (· + 1) (recorded t s)) := by
  obtain ⟨ht, hg, hn⟩ := hs
  have frame := changeOpen_only t.picker (· + 1) (recorded t s)
  have htasks : (changeOpen t.picker (· + 1) (recorded t s)).tasks = s.tasks ++ [taskRecord t s] :=
    (show _ = (recorded t s).tasks from frame.keeps (p := .tasks) (by decide)).trans (recorded_tasks t s)
  have hgroups : (changeOpen t.picker (· + 1) (recorded t s)).groups = (placeTask t s).2.groups := frame.keeps (p := .groups) (by decide)
  have hnext : (changeOpen t.picker (· + 1) (recorded t s)).nextGroup = (placeTask t s).2.nextGroup := frame.keeps (p := .nextGroup) (by decide)
  have hpickers : (recorded t s).pickers = s.pickers := (recorded_only t s).keeps (p := .pickers) (by decide)
  have table : TasksFit (s.tasks ++ [taskRecord t s]) (changeOpen t.picker (· + 1) (recorded t s)).pickers :=
    TasksFit.record (r := taskRecord t s) (hpickers ▸ ht) h.room h.fresh (hpickers ▸ h.known)
  refine ⟨htasks ▸ table, ?_, ?_⟩
  · rw [htasks, hgroups]
    cases hj : joinTarget t s with
    | some g =>
      obtain ⟨hm, hl, htk⟩ := joinTarget_some hj
      have hr : (taskRecord t s).group = g.id := by rw [taskRecord, placeTask_joins hj]
      rw [placeTask_joins hj]
      exact hg.join hm hr (takes_picker htk).symm hl.symm
    | none =>
      obtain ⟨k, hid, -, hfree⟩ := freeGroupId_free (gs := s.groups) (fuel := 257) hn (by decide) (by
        have := hg.length_le; have := h.room; omega)
      have hr : (taskRecord t s).group = idFrom s.nextGroup k := by rw [taskRecord, placeTask_starts hj]; exact hid
      rw [placeTask_starts hj, started, hid]
      exact hg.start (k := Group.start (idFrom s.nextGroup k) t) hfree hr.symm rfl rfl rfl rfl
  · rw [hnext]
    cases hj : joinTarget t s with
    | some g => rw [placeTask_joins hj]; exact hn
    | none => rw [placeTask_starts hj]; exact nextGroupId_range _

theorem postTask_fits (t : TaskItem) (s : State) : FitsKept s (postTask t s).2 := by
  cases h : taskRefusal t s with
  | some code => rw [postTask_refused h]; exact fits_steady.refl s
  | none =>
    have counted : FitsKept s (changeOpen t.picker (· + 1) (recorded t s)) := ⟨recorded_fits (taskRefusal_none h)⟩
    exact counted.trans ((postTask_end h).fitsKept (by decide))

theorem applyTaskPost_fits (r : Request) (s : State) : FitsKept s (applyTaskPost r s).2 := by
  rw [applyTaskPost_eq]
  exact (fits_steady.foldl (fun u x => postTask_fits x u) r.taskItems s).trans (recomputeCodes_fits _ _)

theorem taskOf_mem {s : State} {n : Nat} {t : Task} (h : s.taskOf n = some t) : t ∈ s.tasks ∧ t.number = n :=
  ⟨List.mem_of_find?_eq_some h, by simpa using List.find?_some h⟩

theorem cancelTask_fits (n : Nat) (s : State) : FitsKept s (cancelTask n s).2.2 := by
  unfold cancelTask; split
  · exact fits_steady.refl s
  rename_i t ht
  obtain ⟨hm, rfl⟩ := taskOf_mem ht
  refine ⟨fun ⟨hfit, hg, hn⟩ => ?_⟩
  have closed := hfit.close hm
  have htasks := closeTask_tasks t s
  have hgroups := closeTask_groups t s
  have hnext : (closeTask t s).nextGroup = s.nextGroup := (closeTask_only t s).keeps (p := .nextGroup) (by decide)
  obtain ⟨k, hk, hki, -⟩ := hg.placed t hm
  simp only; split
  · rename_i hnone
    have := List.find?_eq_none.1 hnone k (hgroups ▸ hk)
    simp [hki] at this
  rename_i g hfound
  obtain ⟨hgm, hgi⟩ := groupOf_mem hfound
  rw [hgroups] at hgm
  split
  · rename_i hempty
    have gone : ∀ h : Group, OnlyChanges [.groups, .slots] (closeTask t s) (removeGroup h (closeTask t s)) := fun h => removeGroup_only h _
    refine ⟨?_, ?_, ?_⟩
    · rw [show (removeGroup _ _).tasks = _ from (gone _).keeps (p := .tasks) (by decide),
        show (removeGroup _ _).pickers = _ from (gone _).keeps (p := .pickers) (by decide)]
      exact closed
    · rw [show (removeGroup _ _).tasks = _ from (gone _).keeps (p := .tasks) (by decide), removeGroup_groups, htasks, hgroups]
      exact hg.closeLast hfit.numbers hgm hm hgi.symm (by simpa [Group.remainingChange] using hempty)
    · rw [show (removeGroup _ _).nextGroup = _ from (gone _).keeps (p := .nextGroup) (by decide), hnext]; exact hn
  · rename_i hrest
    refine ⟨closed, ?_, ?_⟩
    · show GroupsFit (closeTask t s).tasks ((closeTask t s).groups.map _)
      rw [htasks, hgroups]
      exact hg.close (k := Group.remainingChange { g with members := g.members.filter (· != t.number) } (g.remaining - t.quantity))
        hfit.numbers hgm hm hgi.symm rfl rfl rfl rfl rfl (by simpa [Group.remainingChange] using hrest)
    · exact hnext ▸ hn

theorem applyTaskCancel_fits (r : Request) (s : State) : FitsKept s (applyTaskCancel r s).2 := by
  rw [applyTaskCancel_eq]
  exact ((fits_steady.foldl (fun u n => cancelTask_fits n u) r.numberItems s).trans (judgeTasksHigh_fits _)).trans (recomputeCodes_fits _ _)

/-- The task table takes a new quantity without a new number, picker or location (R88). -/
theorem TasksFit.amend {tasks : List Task} {pickers : List Picker} (h : TasksFit tasks pickers) (n q : Nat) :
    TasksFit (tasks.map fun x => if x.number = n then { x with quantity := q } else x) pickers := by
  have kept : ∀ x : Task, (if x.number = n then { x with quantity := q } else x).number = x.number
      ∧ (if x.number = n then { x with quantity := q } else x).picker = x.picker := fun x => by split <;> simp
  refine ⟨by simpa using h.few, ?_, fun t ht => ?_, fun p hp => ?_⟩
  · rw [List.map_map]; exact (List.map_congr_left fun x _ => (kept x).1 : _ = tasks.map (·.number)) ▸ h.numbers
  · obtain ⟨x, hx, rfl⟩ := List.mem_map.1 ht
    rw [(kept x).2]; exact h.known x hx
  · rw [h.counts p hp, tasksOf, tasksOf, List.filter_map, List.length_map]
    congr 1
    exact List.filter_congr fun x _ => by simp [(kept x).2]

theorem applyTaskAmend_fits (r : Request) (s : State) : FitsKept s (applyTaskAmend r s).2 := by
  unfold applyTaskAmend; split
  · exact fits_steady.refl s
  rename_i t ht
  obtain ⟨ht, -⟩ := taskOf_mem ht
  simp only; split
  · exact fits_steady.refl s
  split
  · exact fits_steady.refl s
  rename_i g hfound
  obtain ⟨hgm, hgi⟩ := groupOf_mem hfound
  split
  · exact fits_steady.refl s
  simp only; split
  · rename_i hq
    refine ⟨fun hs => ?_⟩
    have same : (s.tasks.map fun x => if x.number = t.number then { x with quantity := r.newQuantity } else x) = s.tasks := by
      conv_rhs => rw [← List.map_id s.tasks]
      refine List.map_congr_left fun x hx => ?_
      split
      · rename_i he
        rw [task_unique hs.tasks.numbers hx ht he, hq]; rfl
      · rfl
    rw [same]; exact hs
  · have changed : FitsKept s (State.setGroup
        { s with tasks := s.tasks.map fun x => if x.number = t.number then { x with quantity := r.newQuantity } else x }
        (g.remainingChange (g.remaining - t.quantity + r.newQuantity))) := by
      refine ⟨fun ⟨hfit, hg, hn⟩ => ⟨hfit.amend _ _, ?_, hn⟩⟩
      exact hg.amend (k := g.remainingChange (g.remaining - t.quantity + r.newQuantity)) hfit.numbers hgm ht hgi.symm rfl rfl rfl rfl rfl
    exact changed.trans (recomputeCodes_fits _ _)

/-! ## Keys (R123, R132 to R136) -/

theorem membersOf_numbers {s : State} (hs : Fits s) {g : Group} (hg : g ∈ s.groups) : (s.membersOf g).map (·.number) = g.members := by
  have found : ∀ n ∈ g.members, ∃ t, s.taskOf n = some t ∧ t.number = n := fun n hn => by
    obtain ⟨t, ht, htn, -⟩ := (hs.groups.mem_members hg).1 hn
    obtain ⟨u, hu⟩ := Option.isSome_iff_exists.1 ((taskOf_isSome s n).2 ⟨t, ht, htn⟩)
    exact ⟨u, hu, (taskOf_mem hu).2⟩
  unfold State.membersOf
  revert found
  generalize g.members = ns
  intro found
  induction ns with
  | nil => rfl
  | cons n ns ih =>
    obtain ⟨t, ht, htn⟩ := found n (by simp)
    rw [List.filterMap_cons_some ht, List.map_cons, htn, ih fun m hm => found m (by simp [hm])]

theorem mem_membersOf {s : State} {g : Group} {t : Task} (h : t ∈ s.membersOf g) : t ∈ s.tasks := by
  obtain ⟨n, -, hn⟩ := List.mem_filterMap.1 h
  exact (taskOf_mem hn).1

theorem allocate_length (qs : List Nat) : ∀ c, (allocate c qs).length = qs.length := by
  induction qs with
  | nil => exact fun _ => rfl
  | cons q qs ih => exact fun c => congrArg (· + 1) (ih _)

/-- The credited group's tasks with their shares (R133). -/
def creditedShares (g : Group) (recorded : Nat) (s : State) : List (Task × Nat) :=
  (s.membersOf g).zip (allocate (min recorded g.remaining) ((s.membersOf g).map (·.quantity)))

theorem creditedShares_tasks (g : Group) (recorded : Nat) (s : State) : (creditedShares g recorded s).map (·.1) = s.membersOf g :=
  List.map_fst_zip (by rw [allocate_length, List.length_map])

/-- The members of the credited group closed one after another (R134 step 2). -/
def membersClosed (g : Group) (recorded : Nat) (s : State) : State :=
  (creditedShares g recorded s).foldl (fun t m => closeMember g m.1 m.2 t) s

theorem closeMember_books (g : Group) (t : Task) (share : Nat) (s : State) : BooksKept (closeTask t s) (closeMember g t share s) := by
  simp only [closeMember]; split
  · exact (books_steady.offer _ _).trans (books_steady.signal _ _ _)
  · exact books_steady.offer _ _

theorem closeMember_closes (g : Group) (t : Task) (share : Nat) (s : State) : (closeMember g t share s).tasks = (closeTask t s).tasks
    ∧ (closeMember g t share s).pickers = (closeTask t s).pickers :=
  ⟨(closeMember_books g t share s).tasks, (closeMember_books g t share s).pickers⟩

end Sys2Proof.Machine

/-!
PROOFS. What every step keeps of tasks, groups and pickers (O56): presses, and every command.
-/

namespace Sys2Proof.Machine

open Sys2Proof

/-! ## An accepted CONFIRM (R126 to R136) -/

/-- What an accepted CONFIRM has been checked for (R126 to R130). -/
theorem decideConfirm_accepted {e : MapEntry} {k : KeyEvent} {s : State} {g : Group} {n : Nat} (h : decideConfirm e k s = .accepted g n) :
    ∃ i, s.groupOf i = some g := by
  unfold decideConfirm at h
  split at h; · cases h
  split at h
  · split at h; · cases h
    split at h <;> cases h
  rename_i x hx
  split at h; · cases h
  split at h; · cases h
  split at h; · cases h
  cases h
  obtain ⟨y, -, hy⟩ := Option.bind_eq_some_iff.1 hx
  obtain ⟨g', hg, he⟩ := Option.map_eq_some_iff.1 hy
  cases he
  exact ⟨y.1, hg⟩

/-- The parts that a closing member changes. -/
def closeParts : List Part := [.tasks, .pickers, .counters, .records, .flags, .notes]

theorem closeMember_parts (g : Group) (t : Task) (share : Nat) (s : State) : OnlyChanges closeParts s (closeMember g t share s) := by
  have offered : ∀ r, OnlyChanges closeParts s (offer r (closeTask t s)) := fun r =>
    ((closeTask_only t s).mono (by decide)).trans ((offer_only _ _).mono (by decide))
  simp only [closeMember]; split
  · exact (offered _).trans ((signal_only _ _ _).mono (by decide))
  · exact offered _

theorem membersClosed_only (g : Group) (n : Nat) (s : State) : OnlyChanges closeParts s (membersClosed g n s) :=
  onlyChanges_foldl (f := fun t m => closeMember g m.1 m.2 t) (fun u m => closeMember_parts g m.1 m.2 u) (creditedShares g n s) s

theorem creditedShares_numbers {s : State} (hs : Fits s) {g : Group} (hg : g ∈ s.groups) (n : Nat) :
    (creditedShares g n s).map (·.1.number) = g.members := by
  have := congrArg (List.map (·.number)) (creditedShares_tasks g n s)
  rwa [List.map_map, membersOf_numbers hs hg] at this

theorem GroupsFit.members_nodup {tasks : List Task} {groups : List Group} (h : GroupsFit tasks groups) (hn : (tasks.map (·.number)).Nodup)
    {g : Group} (hg : g ∈ groups) : g.members.Nodup :=
  (h.members g hg).nodup_iff.2 (hn.sublist (List.filter_sublist.map _))

/-- The members of a group close: its tasks go, and the picker table still fits the tasks (R134). -/
theorem membersClosed_tasks {s : State} (hs : Fits s) {g : Group} (hg : g ∈ s.groups) (n : Nat) :
    TasksFit (membersClosed g n s).tasks (membersClosed g n s).pickers
      ∧ (membersClosed g n s).tasks = s.tasks.filter (fun x => x.number ∉ g.members) := by
  have each := TasksFit.closeAll (f := fun t m => closeMember g m.1 m.2 t) (fun u m => closeMember_closes g m.1 m.2 u)
    (creditedShares g n s) hs.tasks (fun m hm => mem_membersOf (by
      rw [← creditedShares_tasks g n s]; exact List.mem_map_of_mem hm))
    (by rw [creditedShares_numbers hs hg]; exact hs.groups.members_nodup hs.tasks.numbers hg)
  rwa [creditedShares_numbers hs hg] at each

/-- A group goes with its tasks (R75, R134). -/
theorem groupClosed_fits {g : Group} {s : State} (hg : g ∈ s.groups) (n : Nat) :
    FitsKept s (removeGroup g (membersClosed g n s)) := by
  refine ⟨fun hs => ?_⟩
  obtain ⟨hfit, htasks⟩ := membersClosed_tasks hs hg n
  have closed := membersClosed_only g n s
  have gone := removeGroup_only g (membersClosed g n s)
  refine ⟨?_, ?_, ?_⟩
  · rw [show (removeGroup _ _).tasks = _ from gone.keeps (p := .tasks) (by decide),
      show (removeGroup _ _).pickers = _ from gone.keeps (p := .pickers) (by decide)]
    exact hfit
  · rw [show (removeGroup _ _).tasks = _ from gone.keeps (p := .tasks) (by decide), removeGroup_groups, htasks,
      show (membersClosed g n s).groups = s.groups from closed.keeps (p := .groups) (by decide)]
    refine hs.groups.drop fun t ht k hk hkt => ?_
    rw [Bool.eq_iff_iff, decide_eq_true_iff, bne_iff_ne]
    refine not_congr ⟨fun hm => ?_, fun he => (hs.groups.mem_members hg).2 ⟨t, ht, rfl, hkt.symm.trans he⟩⟩
    obtain ⟨u, hu, hun, hug⟩ := (hs.groups.mem_members hg).1 hm
    obtain rfl := task_unique hs.tasks.numbers hu ht hun
    exact hkt.trans hug
  · rw [show (removeGroup _ _).nextGroup = _ from gone.keeps (p := .nextGroup) (by decide),
      show (membersClosed g n s).nextGroup = s.nextGroup from closed.keeps (p := .nextGroup) (by decide)]
    exact hs.next

theorem acceptConfirm_fits {g : Group} {s : State} (hg : g ∈ s.groups) (n : Nat) : FitsKept s (acceptConfirm g n s) := by
  have closed : FitsKept s (removeGroup g (membersClosed g n s)) := groupClosed_fits hg n
  simp only [acceptConfirm]
  refine FitsKept.trans ?_ (recomputeCodes_fits _ _)
  refine FitsKept.trans ?_ (fits_steady.signal _ _ _)
  refine FitsKept.trans ?_ (judgeTasksHigh_fits _)
  cases g.firstShown with
  | none => exact closed
  | some shown => exact closed.trans (samplePace_fits _ _ _ _)

theorem refusePress_fits (e : MapEntry) (k : KeyEvent) (why : PressRefusal) (s : State) : FitsKept s (refusePress e k why s) := by
  have shown : FitsKept s (showFeedback k.pos why.symbol s) := (showFeedback_only k.pos why.symbol s).fitsKept (by decide)
  cases why with
  | stale | locked => exact (shown.trans (fits_steady.offer _ _)).trans (fits_steady.signal _ _ _)
  | orphaned => exact shown.trans (fits_steady.offer _ _)
  | busy => exact shown.trans (fits_steady.signal _ _ _)

theorem takeConfirm_fits (k : KeyEvent) (s : State) : FitsKept s (takeConfirm k s) := by
  unfold takeConfirm; split
  · exact fits_steady.signal _ _ _
  split
  · exact refusePress_fits _ _ _ _
  · rename_i g n h
    obtain ⟨i, hi⟩ := decideConfirm_accepted h
    exact acceptConfirm_fits (groupOf_mem hi).1 n

/-! ## UP and DOWN (R122, R123) -/

theorem adjustTarget_mem {k : KeyEvent} {s : State} {g : Group} (h : adjustTarget k s = some g) : g ∈ s.groups := by
  unfold adjustTarget at h
  split at h; · cases h
  split at h
  · split at h
    · rename_i g' hg
      obtain ⟨i, -, hi⟩ := Option.bind_eq_some_iff.1 hg
      split at h
      · cases h; exact (groupOf_mem hi).1
      · cases h
    · cases h
  · cases h

/-- A group's display value and linger flag change (R123). -/
theorem setDisplay_fits {g : Group} {s : State} (hg : g ∈ s.groups) (d : Nat) :
    FitsKept s (s.setGroup { g with display := d, linger := false }) := by
  refine ⟨fun ⟨ht, hfit, hn⟩ => ⟨ht, hfit.map fun h hh => ?_, hn⟩⟩
  split
  · rename_i he
    rw [group_unique hfit.ids hh hg he]; exact ⟨rfl, rfl, rfl, rfl, rfl⟩
  · exact ⟨rfl, rfl, rfl, rfl, rfl⟩

theorem acceptAdjust_fits {k : KeyEvent} {g : Group} {s : State} (hg : g ∈ s.groups) : FitsKept s (acceptAdjust k g s) := by
  have held : ∀ u : State, FitsKept u (match u.slotAt k.pos with | none => u | some x => u.setSlot (x.heldFor g u)) := by
    intro u; split
    · exact fits_steady.refl u
    · exact (setSlot_only _ _).fitsKept (by decide)
  simp only [acceptAdjust]
  refine FitsKept.trans ?_ (fits_steady.signal _ _ _)
  split
  · exact ((setDisplay_fits hg _).trans (held _)).trans (recomputeCodes_fits _ _)
  · exact (held _).trans ((renewShadow_only _ _).fitsKept (by decide))

theorem takeAdjust_fits (k : KeyEvent) (s : State) : FitsKept s (takeAdjust k s) := by
  unfold takeAdjust; split
  · exact fits_steady.signal _ _ _
  split
  · exact fits_steady.signal _ _ _
  · rename_i g h
    exact acceptAdjust_fits (adjustTarget_mem h)

/-! ## Every command -/

theorem execIdentReply_fits {b : Branch} {bytes : Option (List Byte)} {s t : State} (h : execIdentReply b bytes s = .next t) : FitsKept s t := by
  rcases execIdentReply_event h with rfl | ⟨c, addr, -, -, ⟨bs, -, rfl⟩ | rfl⟩
  · exact fits_steady.refl _
  · exact fits_steady.event (fun u => ((recordIdentity_books b addr bs u).trans (advanceScan_books _ _ _ _)).fitsKept) _
  · exact fits_steady.event (fun u => (identUnanswered_books b addr u).fitsKept) _

theorem exec_fits (c : Instr) (s t : State) (h : exec c s = .next t) : FitsKept s t := by
  have st := fits_steady
  cases c with
  | powerOn straps lines => rw [next_inj h]; exact st.event (fun u => resetTo_fits _ _ _ u) s
  | resetPin straps lines => rw [next_inj h]; exact st.event (fun u => resetTo_fits _ _ _ u) s
  | softReset lines =>
    rcases execSoftReset_event h with rfl | rfl
    · exact st.refl _
    · exact st.event (resetTo_fits _ _ _) _
  | aisleReset lines =>
    rw [next_inj h]
    exact st.carryForward (fun r u _ _ => serveAisleReset_steady st (by decide) resetTo_fits lines r u) s
  | frameArrival p bytes =>
    have filled : FitsKept s (fillBuffer p bytes s) := (fillBuffer_only p bytes s).fitsKept (by decide)
    have freed : ∀ u, FitsKept u (freeBuffer p u) := fun u => (freeBuffer_only p u).fitsKept (by decide)
    rcases execFrameArrival_event h with rfl | rfl
    · exact filled.trans (freed _)
    · exact filled.trans (st.event (fun u => (takeArrival_books p u).fitsKept.trans (freed _)) _)
  | areaLock => rw [next_inj h]; exact st.carryAnswered (fun r u => (applyAreaLock_books r u).fitsKept) s
  | areaUnlock => rw [next_inj h]; exact st.carryAnswered (fun r u => (applyAreaUnlock_books r u).fitsKept) s
  | configSet => rw [next_inj h]; exact st.carryAnswered (fun r u => (applyConfigSet_books r u).fitsKept) s
  | pickerSet => rw [next_inj h]; exact st.carryAnswered applyPickerSet_fits s
  | pickerPause => rw [next_inj h]; exact st.carryAnswered (setPickerState_fits .paused) s
  | pickerResume => rw [next_inj h]; exact st.carryAnswered (setPickerState_fits .active) s
  | pickerLeave => rw [next_inj h]; exact st.carryAnswered applyPickerLeave_fits s
  | taskPost => rw [next_inj h]; exact st.carryAnswered applyTaskPost_fits s
  | taskCancel => rw [next_inj h]; exact st.carryAnswered applyTaskCancel_fits s
  | taskAmend => rw [next_inj h]; exact st.carryAnswered applyTaskAmend_fits s
  | confirmKey b =>
    rcases execConfirmKey_event h with rfl | ⟨k, rest, -, -, rfl⟩
    · exact st.refl _
    · exact st.event (fun u => ((takeKey_only b _ u).fitsKept (by decide)).trans (takeConfirm_fits _ _)) _
  | adjustKey b =>
    rcases execAdjustKey_event h with rfl | ⟨k, rest, -, -, rfl⟩
    · exact st.refl _
    · exact st.event (fun u => ((takeKey_only b _ u).fitsKept (by decide)).trans (takeAdjust_fits _ _)) _
  | silenceLimitExpiry =>
    rcases execSilenceLimitExpiry_event h with rfl | ⟨-, rfl⟩
    · exact st.refl _
    · exact st.event (fun u => (enterOrphaned_books u).fitsKept) _
  | lingerExpiry pos =>
    rcases execLingerExpiry_event h with rfl | ⟨x, -, -, -, rfl⟩
    · exact st.refl _
    · exact st.event (fun u => (lingerExpire_books x u).fitsKept) _
  | showAcknowledge b bytes =>
    rcases execShowAcknowledge_event h with rfl | ⟨c, -, rfl⟩
    · exact st.refl _
    · exact st.event (fun u => (acknowledge_books b c u).fitsKept) _
  | pollReply b bytes =>
    rcases execPollReply_event h with rfl | ⟨addr, -, rfl⟩
    · exact st.refl _
    · exact st.event (fun u => (takePollReply_books b addr _ u).fitsKept) _
  | identReply b bytes => exact execIdentReply_fits h
  | invalidReply b cutOff bytes =>
    rcases execInvalidReply_event h with rfl | ⟨c, -, rfl⟩
    · exact st.refl _
    · exact st.event (fun u => (missAttempt_books b c true u).fitsKept) _
  | replyTimeout b =>
    rcases execReplyTimeout_event h with rfl | ⟨c, -, rfl⟩
    · exact st.refl _
    · exact st.event (fun u => (missAttempt_books b c false u).fitsKept) _
  | branchFaultSet b stillSending =>
    rcases execBranchFaultSet_event h with rfl | rfl
    · exact st.refl _
    · exact st.event (fun u => (setFault_books b stillSending u).fitsKept) _
  | branchFaultClear b =>
    rcases execBranchFaultClear_event h with rfl | rfl
    · exact st.refl _
    · exact st.event (fun u => (clearFault_books b u).fitsKept) _
  | branchArbiter b => exact (execBranchArbiter_only h).fitsKept (by decide)
  | missingTurnSpacing b => exact (execMissingTurnSpacing_only h).fitsKept (by decide)
  | rotationExpiry pos => exact (execRotationExpiry_only h).fitsKept (by decide)
  | feedbackExpiry pos => exact (execFeedbackExpiry_only h).fitsKept (by decide)
  | mapLoad => exact (execMapLoad_only h).fitsKept (by decide)
  | mapRemove => exact (execMapRemove_only h).fitsKept (by decide)
  | branchScan => exact (execBranchScan_only h).fitsKept (by decide)
  | lampDirect => exact (execLampDirect_only h).fitsKept (by decide)
  | lineDown p => exact (execLineDown_only h).fitsKept (by decide)
  | lineUp p => exact (execLineUp_only h).fitsKept (by decide)
  | transmissionEnd p => exact (execTransmissionEnd_only h).fitsKept (by decide)
  | roomNoticeBuild => exact (execRoomNoticeBuild_only h).fitsKept (by decide)
  | combineExpiry => exact (execCombineExpiry_only h).fitsKept (by decide)
  | rightsSet => exact (execRightsSet_only h).fitsKept (by decide)
  | taskQuery => exact (execTaskQuery_only h).fitsKept (by decide)
  | pickerRead => exact (execPickerRead_only h).fitsKept (by decide)
  | mapRead => exact (execMapRead_only h).fitsKept (by decide)
  | configRead => exact (execConfigRead_only h).fitsKept (by decide)
  | timeSet => exact (execTimeSet_only h).fitsKept (by decide)
  | counterSet => exact (execCounterSet_only h).fitsKept (by decide)
  | counterRead => exact (execCounterRead_only h).fitsKept (by decide)
  | attentionMask => exact (execAttentionMask_only h).fitsKept (by decide)
  | attentionClear => exact (execAttentionClear_only h).fitsKept (by decide)
  | attentionRead => exact (execAttentionRead_only h).fitsKept (by decide)
  | statusRead => exact (execStatusRead_only h).fitsKept (by decide)
  | rosterRead => exact (execRosterRead_only h).fitsKept (by decide)
  | aisleClockAdvance => exact (execAisleClockAdvance_only h).fitsKept (by decide)

theorem step_fits {s t : State} (h : step s = .next t) : FitsKept s t := by
  unfold step at h
  split at h
  · rw [next_inj h]; exact (tick_only s).fitsKept (by decide)
  · rename_i c rest _
    have wait : OnlyChanges [.waiting] s { s with pending := rest } := by intro p; cases p <;> simp [Keeps]
    exact (wait.fitsKept (by decide)).trans (exec_fits c _ t h)

/-- Settles O56: a command that changes a task changes its group and its picker's count with it, and no other changes more of a group than how it
stands on the display. -/
theorem everyStepKeepsLinks : Obligations.EveryStepKeepsLinks := fun _ _ ht _ hl h =>
  ((fits_iff _).1 ((step_fits h).fits ((fits_iff _).2 ⟨ht, hl⟩))).2

end Sys2Proof.Machine

/-!
PROOFS. One posted task (O30) and a pace sample (O41).
-/

namespace Sys2Proof.Machine

open Sys2Proof

/-! ## The state after an accepted task (R61, R79 to R83, R92) -/

section
variable {x : TaskItem} {s : State}

theorem postTask_result (h : taskRefusal x s = none) : (postTask x s).1 = (placeTask x s).1 := by rw [postTask_accepted h]

theorem postTask_tasks (h : taskRefusal x s = none) : (postTask x s).2.tasks = s.tasks ++ [taskRecord x s] := by
  rw [show (postTask x s).2.tasks = _ from (postTask_end h).keeps (p := .tasks) (by decide),
    show (changeOpen _ _ _).tasks = _ from (changeOpen_only _ _ _).keeps (p := .tasks) (by decide), recorded_tasks]

theorem postTask_groups (h : taskRefusal x s = none) : (postTask x s).2.groups = (placeTask x s).2.groups :=
  Eq.trans ((postTask_end h).keeps (p := .groups) (by decide)) ((changeOpen_only x.picker (· + 1) (recorded x s)).keeps (p := .groups) (by decide))

theorem postTask_nextGroup (h : taskRefusal x s = none) : (postTask x s).2.nextGroup = (placeTask x s).2.nextGroup :=
  Eq.trans ((postTask_end h).keeps (p := .nextGroup) (by decide))
    ((changeOpen_only x.picker (· + 1) (recorded x s)).keeps (p := .nextGroup) (by decide))

theorem postTask_counters (h : taskRefusal x s = none) :
    (postTask x s).2.counters = s.counters.after .taskPosted (s.placeOf x.picker) := by
  have counted : OnlyChanges [.tasks, .groups, .nextGroup, .pickers] s (changeOpen x.picker (· + 1) (recorded x s)) :=
    ((recorded_only x s).mono (by decide)).trans ((changeOpen_only _ _ _).mono (by decide))
  rw [postTask_accepted h, show (judgeTasksHigh _).counters = _ from (judgeTasksHigh_only _).keeps (p := .counters) (by decide), signal_counters,
    show (changeOpen _ _ _).counters = s.counters from counted.keeps (p := .counters) (by decide)]

theorem judgeTasksHigh_flag (s : State) : (judgeTasksHigh s).flagSet .tasksHigh = decide (240 ≤ (judgeTasksHigh s).tasks.length) := by
  rw [show (judgeTasksHigh s).tasks = s.tasks from (judgeTasksHigh_only s).keeps (p := .tasks) (by decide), judgeTasksHigh, followFlag_flagSet,
    if_pos rfl]
  rfl

theorem postTask_tasksHigh (h : taskRefusal x s = none) :
    (postTask x s).2.flagSet .tasksHigh = decide (240 ≤ (postTask x s).2.tasks.length) := by
  rw [postTask_accepted h]; exact judgeTasksHigh_flag _

theorem postTask_picker (h : taskRefusal x s = none) {p : Picker} (hp : s.pickerOf x.picker = some p) :
    (postTask x s).2.pickerOf x.picker = some { p with openTasks := p.openTasks + 1 } := by
  have kept : (recorded x s).pickerOf x.picker = some p := by
    rw [State.pickerOf, show (recorded x s).pickers = s.pickers from (recorded_only x s).keeps (p := .pickers) (by decide)]; exact hp
  rw [State.pickerOf, show (postTask x s).2.pickers = _ from (postTask_end h).keeps (p := .pickers) (by decide)]
  exact changeOpen_pickerOf kept

theorem postTask_changes (h : taskRefusal x s = none) :
    OnlyChanges [.tasks, .groups, .nextGroup, .pickers, .counters, .flags, .notes] s (postTask x s).2 :=
  (((recorded_only x s).mono (by decide)).trans ((changeOpen_only _ _ _).mono (by decide))).trans ((postTask_end h).mono (by decide))

/-- A task that joins extends the group that takes it (R81). -/
theorem postTask_joins (h : taskRefusal x s = none) {g : Group} (hj : joinTarget x s = some g) :
    (postTask x s).1 = { code := .ok, group := g.id, placement := 2 } ∧ (postTask x s).2.nextGroup = s.nextGroup
      ∧ (postTask x s).2.groups = (s.setGroup (g.join x.number x.quantity)).groups := by
  rw [postTask_result h, postTask_nextGroup h, postTask_groups h, placeTask_joins hj]
  exact ⟨rfl, rfl, rfl⟩

/-- A task that joins no group starts one (R73, R82). -/
theorem postTask_starts (h : taskRefusal x s = none) (hj : joinTarget x s = none) :
    (postTask x s).1 = { code := .ok, group := freeGroupId 257 s.nextGroup s.groups, placement := 1 }
      ∧ (postTask x s).2.nextGroup = nextGroupId (freeGroupId 257 s.nextGroup s.groups)
      ∧ (postTask x s).2.groups = s.groups ++ [Group.start (freeGroupId 257 s.nextGroup s.groups) x] := by
  rw [postTask_result h, postTask_nextGroup h, postTask_groups h, placeTask_starts hj]
  exact ⟨rfl, rfl, rfl⟩

end

/-- Settles O30: R79's checks decide between the refusals and the record; the join test decides between joining and starting. -/
theorem taskPostedOrRefused : Obligations.TaskPostedOrRefused := by
  intro x s
  simp only
  refine ⟨fun hf => ?_, fun hf hd => ?_, fun hf hd hk => ?_, fun hf hd hk hm => ?_, fun hf hd hk hm hr => ?_, fun hf hd hk hm hr => ?_⟩
  · exact postTask_refused (by rw [taskRefusal_eq, if_pos hf])
  · exact postTask_refused (by rw [taskRefusal_eq, if_neg (not_not.2 hf), if_pos (by simpa using hd)])
  · exact postTask_refused (by rw [taskRefusal_eq, if_neg (not_not.2 hf), if_neg (by simpa using hd), if_pos hk])
  · exact postTask_refused (by rw [taskRefusal_eq, if_neg (not_not.2 hf), if_neg (by simpa using hd), if_neg (not_not.2 hk), if_pos hm])
  · exact postTask_refused (by
      rw [taskRefusal_eq, if_neg (not_not.2 hf), if_neg (by simpa using hd), if_neg (not_not.2 hk), if_neg (not_not.2 hm), if_pos hr])
  have ok : taskRefusal x s = none := TaskFits.accepted ⟨hf.1, hf.2, hd, hk, hm, hr⟩
  refine ⟨(postTask x s).1, (postTask x s).2, rfl, (congrArg (·.code) (postTask_result ok)).trans (placeTask_code x s), ?_,
    postTask_counters ok, postTask_tasksHigh ok, fun p hp => postTask_picker ok hp, postTask_changes ok, fun g hg => ?_,
    fun hnone hfew hlo hhi => ?_⟩
  · rw [postTask_tasks ok, postTask_result ok]; rfl
  · obtain ⟨hres, hnext, hgroups⟩ := postTask_joins ok hg
    rw [hres, hnext, hgroups]; exact ⟨rfl, rfl, rfl, rfl⟩
  · obtain ⟨hres, hnext, hgroups⟩ := postTask_starts ok (joinTarget_none hnone)
    obtain ⟨k, hid, hbefore, hfree⟩ := freeGroupId_free (gs := s.groups) (fuel := 257) ⟨hlo, hhi⟩ (by decide) (by omega)
    rw [hres, hnext, hgroups, hid]
    obtain ⟨h1, h2⟩ := idFrom_range s.nextGroup k
    refine ⟨rfl, h1, h2, fun g hg he => hfree (List.mem_map.2 ⟨g, hg, he⟩), ⟨k, rfl, fun j hj => ?_⟩, nextGroupId_eq h2, rfl⟩
    exact List.mem_map.1 (hbefore j hj)

/-! ## Pace (R66) -/

/-- The pace that a sample gives stays within 65535. -/
theorem newPace_le {old : Option Nat} (h : ∀ n, old = some n → n ≤ 65535) {d : Nat} (hd : d ≤ 65535) : newPace old d ≤ 65535 := by
  unfold newPace
  cases old with
  | none => exact hd
  | some n =>
    have := h n rfl
    show (7 * n + d + 4) / 8 ≤ 65535
    omega

theorem samplePace_pickerOf {id : Nat} {shown press : ClockValue} {p : Picker} {s : State} (h : s.pickerOf id = some p) :
    (samplePace id shown press s).pickerOf id = some { p with pace := some (newPace p.pace (dwell10 shown press)) } := by
  unfold samplePace; rw [h]
  exact setPicker_pickerOf h (pickerOf_mem h).2

/-- A pace sample leaves the other entries as they are. -/
theorem samplePace_others {id : Nat} {shown press : ClockValue} {s : State} {q : Picker} (hq : q ∈ s.pickers) (hne : q.id ≠ id) :
    q ∈ (samplePace id shown press s).pickers := by
  unfold samplePace; split
  · exact hq
  · rename_i p hp
    exact List.mem_map.2 ⟨q, hq, if_neg ((pickerOf_mem hp).2 ▸ hne)⟩

/-- Settles O41: the clock's difference is a subtraction of 32-bit values, so the dwell is the statement's. -/
theorem paceSample : Obligations.PaceSample := by
  intro id shown press p s hp
  have dwell : min ((press.toNat + 2 ^ 32 - shown.toNat) % 2 ^ 32 / 10) 65535 = dwell10 shown press := by
    have := shown.isLt
    rw [dwell10, BitVec.toNat_sub, show press.toNat + 2 ^ 32 - shown.toNat = 2 ^ 32 - shown.toNat + press.toNat by omega]
  simp only [dwell]
  refine ⟨?_, fun q hq hne => samplePace_others hq hne, fun hold => ?_, samplePace_only id shown press s⟩
  · rw [samplePace_pickerOf hp]
    cases p.pace <;> rfl
  · have bound : newPace p.pace (dwell10 shown press) ≤ 65535 := newPace_le hold (Nat.min_le_right _ _)
    revert bound
    cases p.pace <;> exact fun h => h

end Sys2Proof.Machine

/-!
PROOFS. Groups that leave (O29, O42): their slots and tag histories, the recomputation of their locations behind them, and TASKS_HIGH.
-/

namespace Sys2Proof.Machine

open Sys2Proof

/-! ## Slots and tag histories (R75, R109) -/

/-- A group's removal changes the slot of its location and no other (R75). -/
theorem removeGroup_slotAt (g : Group) (s : State) (q : SlotPos) : (removeGroup g s).slotAt q =
    if (s.entryOf g.loc).map (·.pos) = some q then (s.slotAt q).map (·.dropGroup g.id) else s.slotAt q := by
  unfold removeGroup
  simp only [show ({ s with groups := s.groups.filter fun h => h.id != g.id } : State).entryOf g.loc = s.entryOf g.loc from rfl]
  cases s.entryOf g.loc with
  | none => rfl
  | some e =>
    simp only [Option.bind_some, Option.map_some, Option.some.injEq]
    generalize hu : ({ s with groups := s.groups.filter fun h => h.id != g.id } : State) = u
    have hat : ∀ q, s.slotAt q = u.slotAt q := fun q => by subst hu; rfl
    simp only [hat]
    cases hx : u.slotAt e.pos with
    | none =>
      by_cases he : e.pos = q
      · rw [if_pos he, ← he, hx]; rfl
      · rw [if_neg he]
    | some x =>
      have hpos : (x.dropGroup g.id).pos = e.pos := by
        show x.pos = e.pos
        exact slotAt_pos hx
      show (u.setSlot (x.dropGroup g.id)).slotAt q = _
      by_cases he : e.pos = q
      · rw [if_pos he, ← he, hx, ← hpos]; exact setSlot_slotAt (by rw [hpos, hx]; rfl)
      · rw [if_neg he]; exact setSlot_slotAt_other u _ (by rw [hpos]; exact he)

theorem removeGroup_locMap (g : Group) (s : State) : (removeGroup g s).locMap = s.locMap :=
  (removeGroup_only g s).keeps (p := .locations) (by decide)

/-- The location code that names an entry's slot position is the entry's (R40). -/
theorem entryOf_pos_iff {s : State} (hm : MapOk s) {e : MapEntry} (he : e ∈ s.locMap) (c : Nat) :
    (s.entryOf c).map (·.pos) = some e.pos ↔ c = e.code := by
  constructor
  · intro h
    obtain ⟨d, hd, hp⟩ := Option.map_eq_some_iff.1 h
    obtain rfl := List.inj_on_of_nodup_map hm.2.1 (List.mem_of_find?_eq_some hd) he hp
    exact (by simpa using List.find?_some hd : d.code = c).symm
  · rintro rfl
    cases hd : s.entryOf e.code with
    | none => simpa using List.find?_eq_none.1 hd e he
    | some d =>
      have codes : (s.locMap.map (·.code)).Nodup := hm.1.imp fun h => h.ne
      obtain rfl := List.inj_on_of_nodup_map codes (List.mem_of_find?_eq_some hd) he (by simpa using List.find?_some hd)
      rfl

/-- A group leaves the tag history of its location's slot (R75, R109). -/
theorem removeGroup_historyAt {s : State} (hm : MapOk s) {e : MapEntry} (he : e ∈ s.locMap) (g : Group) :
    (removeGroup g s).historyAt e.pos
      = (s.historyAt e.pos).filter fun h => !(g.loc == e.code && h.shown.map (·.1) == some g.id) := by
  unfold State.historyAt
  rw [removeGroup_slotAt]
  by_cases hc : g.loc = e.code
  · rw [if_pos ((entryOf_pos_iff hm he _).2 hc)]
    cases s.slotAt e.pos with
    | none => rfl
    | some x =>
      simp only [Option.map_some, Option.getD_some, hc, BEq.rfl, Bool.true_and]
      rfl
  · rw [if_neg fun h => hc ((entryOf_pos_iff hm he _).1 h)]
    rw [beq_eq_false_iff_ne.2 hc]
    exact (List.filter_eq_self.2 fun _ _ => rfl).symm

/-- Groups removed one after another leave the slots of other locations alone. -/
theorem removeGroups_slotAt_other {q : SlotPos} (gs : List Group) : ∀ {s : State},
    (∀ g ∈ gs, (s.entryOf g.loc).map (·.pos) ≠ some q) → (gs.foldl (fun t g => removeGroup g t) s).slotAt q = s.slotAt q := by
  induction gs with
  | nil => exact fun _ => rfl
  | cons g gs ih =>
    intro s h
    rw [List.foldl_cons, ih (s := removeGroup g s) fun k hk => ?_, removeGroup_slotAt, if_neg (h g (by simp))]
    rw [State.entryOf, removeGroup_locMap]; exact h k (by simp [hk])

/-- Groups removed one after another leave the tag history of their location's slot, each its own entries. -/
theorem removeGroups_historyAt {e : MapEntry} (gs : List Group) : ∀ {s : State}, MapOk s → e ∈ s.locMap →
    (gs.foldl (fun t g => removeGroup g t) s).historyAt e.pos
      = (s.historyAt e.pos).filter fun h => !gs.any fun g => g.loc == e.code && h.shown.map (·.1) == some g.id := by
  induction gs with
  | nil => intro s _ _; simp
  | cons g gs ih =>
    intro s hm he
    have hmap := removeGroup_locMap g s
    rw [List.foldl_cons, ih (hm.of_eq hmap) (hmap ▸ he), removeGroup_historyAt hm he, List.filter_filter]
    refine List.filter_congr fun h _ => ?_
    rw [List.any_cons, Bool.not_or, Bool.and_comm]

/-! ## A recomputation keeps the tag histories (R99) -/

theorem setSlot_historyAt {s : State} {x y : SlotState} (hx : s.slotAt y.pos = some x) (hh : y.history = x.history) (q : SlotPos) :
    (s.setSlot y).historyAt q = s.historyAt q := by
  unfold State.historyAt
  by_cases hq : y.pos = q
  · subst hq; rw [setSlot_slotAt (by rw [hx]; rfl), hx, Option.map_some, Option.map_some, hh]
  · rw [setSlot_slotAt_other s y hq]

theorem renewShadow_historyAt (pos : SlotPos) (s : State) (q : SlotPos) : (renewShadow pos s).historyAt q = s.historyAt q := by
  by_cases hq : pos = q
  · subst hq
    cases hx : s.slotAt pos with
    | none => unfold renewShadow; rw [hx]
    | some x => rw [State.historyAt, (renewShadow_slotAt hx).1, State.historyAt, hx]; rfl
  · rw [State.historyAt, renewShadow_slotAt_other s hq]; rfl

/-- A recomputation's slot keeps its history. -/
theorem recompute_slot {e : MapEntry} {s : State} {x : SlotState} (h : s.slotAt e.pos = some x) :
    ∃ (gs : List Group) (y : SlotState), recompute e s = renewShadow e.pos (State.setSlot { s with groups := gs } y)
      ∧ y.pos = x.pos ∧ y.history = x.history := by
  unfold recompute
  rw [h]
  exact ⟨_, _, rfl, rfl, rfl⟩

theorem recompute_historyAt (e : MapEntry) (s : State) (q : SlotPos) : (recompute e s).historyAt q = s.historyAt q := by
  cases h : s.slotAt e.pos with
  | none => rw [recompute_unmapped h]
  | some x =>
    obtain ⟨gs, y, heq, hpos, hhist⟩ := recompute_slot h
    have at_y : ({ s with groups := gs } : State).slotAt y.pos = some x := by
      rw [hpos, slotAt_pos h]; exact h
    rw [heq, renewShadow_historyAt, setSlot_historyAt at_y hhist]
    rfl

theorem recomputeWhere_historyAt (p : MapEntry → Bool) (s : State) (q : SlotPos) : (recomputeWhere p s).historyAt q = s.historyAt q := by
  unfold recomputeWhere
  induction s.locMap.filter p generalizing s with
  | nil => rfl
  | cons e es ih => rw [List.foldl_cons, ih, recompute_historyAt]

/-- Where each mapped slot's history is filtered, the groups that the filter goes by have been forgotten. -/
theorem Forgotten.of_filter {gone : Group → Prop} {s t : State} {keep : MapEntry → HistEntry → Bool}
    (ht : ∀ e ∈ s.locMap, t.historyAt e.pos = (s.historyAt e.pos).filter (keep e))
    (hk : ∀ e h, keep e h = true ↔ ∀ g ∈ s.groups, gone g → g.loc = e.code → h.shown.map (·.1) ≠ some g.id) : Forgotten gone s t := by
  intro e he x y hx hy
  have hist : y.history = x.history.filter (keep e) := by
    have := ht e he
    rwa [State.historyAt, State.historyAt, hx, hy] at this
  rw [hist]
  exact ⟨List.filter_sublist, fun h hh => by rw [List.mem_filter, hk]; exact and_iff_right hh⟩

/-! ## What is redrawn when groups go (R75, R98) -/

/-- A redrawing can be told from a state with the same groups and, off the locations picked, the same slots. -/
theorem Redrawn.of_slots {q : MapEntry → Prop} {r s t : State} (hr : Redrawn q s t) (hg : s.groups = r.groups)
    (hs : ∀ pos, (∀ e ∈ t.locMap, q e → e.pos ≠ pos) → s.slotAt pos = r.slotAt pos) : Redrawn q r t :=
  ⟨hr.1, fun g h => hg ▸ hr.2.1 g h, fun pos h => (hr.2.2 pos h).trans (hs pos h)⟩

/-- A location's display reads the picker table at the pickers of open groups only. -/
theorem Displayed.of_pickers {e : MapEntry} {s : State} {qs : List Picker} (h : Displayed e s)
    (hq : ∀ g ∈ s.groups, ({ s with pickers := qs } : State).pickerOf g.picker = s.pickerOf g.picker) :
    Displayed e { s with pickers := qs } := by
  generalize ht : ({ s with pickers := qs } : State) = t at hq
  have hgroups : t.groups = s.groups := by subst ht; rfl
  have eligible : ∀ g ∈ s.groups, t.eligible e g = s.eligible e g := fun g hg => by
    have := hq g hg
    subst ht
    unfold State.eligible; rw [this]; rfl
  have priority : ∀ g ∈ s.groups, t.priorityOf g.picker = s.priorityOf g.picker := fun g hg => by
    unfold State.priorityOf; rw [hq g hg]
  have queue : t.queueOf e.code = s.queueOf e.code := by
    unfold State.queueOf
    rw [hgroups]
    refine List.flatMap_congr fun k _ => List.filter_congr fun g hg => ?_
    rw [priority g (List.mem_of_mem_filter hg)]
  have member : ∀ g ∈ s.queueOf e.code, g ∈ s.groups := fun g hg => by
    obtain ⟨k, -, hk⟩ := List.mem_flatMap.1 hg
    exact List.mem_of_mem_filter (List.mem_of_mem_filter hk)
  have ids : t.rotationIds e = s.rotationIds e := by
    unfold State.rotationIds
    rw [queue, List.filter_congr fun g hg => eligible g (member g hg)]
  have shadow : ∀ y, t.deriveShadow y = s.deriveShadow y := fun y => by
    have found : t.groupAtPosition y = s.groupAtPosition y := by
      unfold State.groupAtPosition State.groupOf; rw [hgroups]
    unfold State.deriveShadow
    rw [found]
    split
    · rfl
    split
    · rename_i g hg
      unfold State.groupShadow; rw [hq g (groupAtPosition_mem hg)]
    · subst ht; rfl
  intro y hy
  obtain ⟨hrot, hsh, hstates⟩ := h y (by subst ht; exact hy)
  refine ⟨hrot.trans ids.symm, hsh.trans (shadow y).symm, fun g hg hl => ?_⟩
  rw [hgroups] at hg
  rw [eligible g hg]; exact hstates g hg hl

theorem Redrawn.of_pickers {q : MapEntry → Prop} {s t : State} {qs : List Picker} (h : Redrawn q s t)
    (hq : ∀ g ∈ t.groups, ({ t with pickers := qs } : State).pickerOf g.picker = t.pickerOf g.picker) :
    Redrawn q s { t with pickers := qs } :=
  ⟨fun e he hp => (h.1 e he hp).of_pickers hq, h.2.1, h.2.2⟩

/-! ## TASKS_HIGH (R92) -/

/-- TASKS_HIGH notes no event where it is set already or does not set (R187). -/
theorem judgeTasksHigh_quiet {s : State} (h : 240 ≤ s.tasks.length → s.flagSet .tasksHigh = true) : OnlyChanges [.flags] s (judgeTasksHigh s) := by
  unfold judgeTasksHigh followFlag
  split
  · rename_i hc
    have few : 240 ≤ s.tasks.length := of_decide_eq_true hc
    rw [setFlag, if_pos (h few)]; exact onlyChanges_refl _ _
  · exact clearFlag_only _ _

end Sys2Proof.Machine

/-!
PROOFS. PICKER_LEAVE as a command (O29): what is redrawn and forgotten when the groups go.
-/

namespace Sys2Proof.Machine

open Sys2Proof

/-! ## The display and TASKS_HIGH behind PICKER_LEAVE -/

section
variable {id : Nat} {s : State}

/-- Without a new setting of TASKS_HIGH, no flag is noted (R187). -/
theorem pickerLeft_only (h : 240 ≤ s.tasks.length → s.flagSet .tasksHigh = true) :
    OnlyChanges ([.tasks, .pickers, .flags] ++ displayParts) s (pickerLeft id s) := by
  have quiet : OnlyChanges [.flags] (withdrawn id s) (judgeTasksHigh (withdrawn id s)) := by
    refine judgeTasksHigh_quiet fun hl => ?_
    rw [withdrawn_tasks] at hl
    rw [(withdrawn_only id s).flagSet_eq (by decide)]
    exact h (hl.trans (List.length_filter_le _ _))
  have drop : OnlyChanges [.pickers] (withdrawnShown id s) (pickerLeft id s) := by
    intro p; cases p <;> simp [Keeps, pickerLeft]
  exact ((((withdrawn_only id s).mono (by decide)).trans (quiet.mono (by decide))).trans
    ((recomputeCodes_only _ _).mono (by decide))).trans (drop.mono (by decide))

theorem pickerLeft_tasksHigh : (pickerLeft id s).flagSet .tasksHigh = decide (240 ≤ (pickerLeft id s).tasks.length) := by
  have redraw := recomputeCodes_only ((ownGroups id s).map (·.loc)) (judgeTasksHigh (withdrawn id s))
  show (withdrawnShown id s).flagSet .tasksHigh = decide (240 ≤ (withdrawnShown id s).tasks.length)
  rw [withdrawnShown, redraw.flagSet_eq (by decide), judgeTasksHigh_flag,
    show (recomputeCodes _ _).tasks = _ from redraw.keeps (p := .tasks) (by decide)]

theorem mem_ownCodes {c : Nat} : ((ownGroups id s).map (·.loc)).contains c = true ↔ ∃ g ∈ s.groups, g.loc = c ∧ g.picker = id := by
  rw [List.contains_iff_mem, List.mem_map]
  constructor
  · rintro ⟨g, hg, rfl⟩
    obtain ⟨hg, hp⟩ := List.mem_filter.1 hg
    exact ⟨g, hg, rfl, by simpa using hp⟩
  · rintro ⟨g, hg, rfl, hp⟩
    exact ⟨g, List.mem_filter.2 ⟨hg, by simpa using hp⟩, rfl⟩

theorem withdrawn_slotAt_other {q : SlotPos} (h : ∀ e ∈ s.locMap, (∃ g ∈ s.groups, g.loc = e.code ∧ g.picker = id) → e.pos ≠ q) :
    (withdrawn id s).slotAt q = s.slotAt q := by
  refine (removeGroups_slotAt_other (s := { s with tasks := s.tasks.filter fun t => t.picker != id }) _ fun g hg he => ?_).trans rfl
  obtain ⟨e, hf, hp⟩ := Option.map_eq_some_iff.1 he
  obtain ⟨hg, hown⟩ := List.mem_filter.1 hg
  have code : e.code = g.loc := by simpa using List.find?_some hf
  exact h e (List.mem_of_find?_eq_some hf) ⟨g, hg, code.symm, by simpa using hown⟩ hp

/-- The locations of the groups that go are recomputed, against a picker table that their entry has left, and no other changes (R64, R75). -/
theorem pickerLeft_redrawn (hm : MapOk s) (hn : (s.groups.map (·.id)).Nodup) :
    Redrawn (fun e => ∃ g ∈ s.groups, g.loc = e.code ∧ g.picker = id) { s with groups := s.groups.filter fun g => g.picker != id }
      (pickerLeft id s) := by
  have high := judgeTasksHigh_only (withdrawn id s)
  have groups : (judgeTasksHigh (withdrawn id s)).groups = (withdrawn id s).groups := high.keeps (p := .groups) (by decide)
  have slots : (judgeTasksHigh (withdrawn id s)).slots = (withdrawn id s).slots := high.keeps (p := .slots) (by decide)
  have locMap : (judgeTasksHigh (withdrawn id s)).locMap = s.locMap :=
    Eq.trans (high.keeps (p := .locations) (by decide)) ((withdrawn_only id s).keeps (p := .locations) (by decide))
  have drawn : Redrawn (fun e => ((ownGroups id s).map (·.loc)).contains e.code = true) (judgeTasksHigh (withdrawn id s)) (withdrawnShown id s) :=
    recomputeWhere_redrawn _ (hm.of_eq locMap) (by rw [groups, withdrawn_groups hn]; exact hn.sublist (List.filter_sublist.map _))
  have behind : Redrawn (fun e => ∃ g ∈ s.groups, g.loc = e.code ∧ g.picker = id) (withdrawn id s) (withdrawnShown id s) :=
    (drawn.of_start groups slots).of_iff fun e => mem_ownCodes
  have shown : (withdrawnShown id s).locMap = s.locMap :=
    Eq.trans ((recomputeCodes_only _ _).keeps (p := .locations) (by decide)) locMap
  refine (behind.of_pickers fun g hg => ?_).of_slots (withdrawn_groups hn) fun pos h => withdrawn_slotAt_other fun e he => h e (shown ▸ he)
  obtain ⟨φ, hφ, hmap⟩ := pickerLeft_groups (id := id) hn
  obtain ⟨k, hk, rfl⟩ := List.mem_map.1 (hmap ▸ hg : g ∈ _)
  have other : (φ k).picker ≠ id := by
    rw [(hφ.place k).2.1]; simpa using (List.mem_filter.1 hk).2
  show ((withdrawnShown id s).pickers.filter fun q => q.id != id).find? _ = (withdrawnShown id s).pickers.find? _
  rw [List.find?_filter]
  refine List.find?_congr fun q _ => ?_
  by_cases hq : q.id = (φ k).picker
  · simp [hq, other]
  · simp [hq]

/-- The groups that go leave the tag histories (R75, R109). -/
theorem pickerLeft_forgotten (hm : MapOk s) : Forgotten (fun g => g.picker = id) s (pickerLeft id s) := by
  refine Forgotten.of_filter (keep := fun e h => !(ownGroups id s).any fun g => g.loc == e.code && h.shown.map (·.1) == some g.id)
    (fun e he => ?_) fun e h => ?_
  · have slots : (judgeTasksHigh (withdrawn id s)).slots = (withdrawn id s).slots := (judgeTasksHigh_only _).keeps (p := .slots) (by decide)
    calc (pickerLeft id s).historyAt e.pos
        = (judgeTasksHigh (withdrawn id s)).historyAt e.pos := recomputeWhere_historyAt _ _ _
      _ = (withdrawn id s).historyAt e.pos := by simp only [State.historyAt, State.slotAt, slots]
      _ = _ := removeGroups_historyAt _ (hm.of_eq rfl) he
  · rw [Bool.not_eq_true', ← Bool.not_eq_true, List.any_eq_true]
    constructor
    · intro hno g hg hp hl hi
      exact hno ⟨g, List.mem_filter.2 ⟨hg, by simpa using hp⟩, by simp [hl, hi]⟩
    · rintro hall ⟨g, hg, hgi⟩
      obtain ⟨hg, hp⟩ := List.mem_filter.1 hg
      rw [Bool.and_eq_true, beq_iff_eq, beq_iff_eq] at hgi
      exact hall g hg (by simpa using hp) hgi.1 hgi.2

end

/-! ## The command (R64) -/

theorem filter_ne {α : Type} (l : List α) (f : α → Nat) (i : Nat) : (l.filter fun x => f x != i) = l.filter fun x => f x ≠ i :=
  List.filter_congr fun x _ => by by_cases h : f x = i <;> simp [h]

theorem filter_eq {α : Type} (l : List α) (f : α → Nat) (i : Nat) : (l.filter fun x => f x == i) = l.filter fun x => f x = i :=
  List.filter_congr fun x _ => by by_cases h : f x = i <;> simp [h]

/-- Settles O29: the picker's tasks and groups go by one filter each; its locations are recomputed while its entry still stands, which no group
left there names. -/
theorem pickerLeaveWithdraws : Obligations.PickerLeaveWithdraws := by
  intro r s hc hl hn
  obtain ⟨-, -, -, -, -, high⟩ := hl
  refine ⟨fun p hp => ?_, fun hnone => ?_⟩
  · have apply := applyPickerLeave_known (s := taken s) hp
    have only : OnlyChanges ([.tasks, .pickers, .flags] ++ displayParts) (taken s) (pickerLeft p.id (taken s)) :=
      pickerLeft_only fun h => high.trans (decide_eq_true h)
    obtain ⟨hans, hend⟩ := carryForward_applied hc apply only (by decide)
    have flag : (carryForward .pickerLeave (answered applyPickerLeave) s).flagSet .tasksHigh = (pickerLeft p.id (taken s)).flagSet .tasksHigh := by
      rw [carryForward_carried _ hc, endEvent_flagSet _ (by decide), answered, apply, answer_flagSet _ _ _ (by decide)]
    have tasks : (carryForward .pickerLeave (answered applyPickerLeave) s).tasks = (pickerLeft p.id (taken s)).tasks :=
      hend.keeps (p := .tasks) (by decide)
    have groups : (carryForward .pickerLeave (answered applyPickerLeave) s).groups = (pickerLeft p.id (taken s)).groups :=
      hend.keeps (p := .groups) (by decide)
    refine ⟨_, rfl, ?_, ?_, ?_, ?_, fun hm => ⟨?_, ?_⟩, ?_⟩
    · rw [tasks, pickerLeft_tasks]; exact filter_ne _ _ _
    · rw [show (carryForward _ _ s).pickers = _ from hend.keeps (p := .pickers) (by decide), pickerLeft_pickers]; exact filter_ne _ _ _
    · obtain ⟨φ, hφ, hg⟩ := pickerLeft_groups (s := taken s) (id := p.id) hn
      rw [groups, hg, List.map_map, filter_ne]
      exact List.map_congr_left fun g _ => (hφ.place g).1
    · rw [flag, tasks]; exact pickerLeft_tasksHigh
    · have drawn := (pickerLeft_redrawn (s := taken s) (id := p.id) (hm.of_eq rfl) hn).trans_only hend (by decide)
      exact drawn.of_slots (filter_ne _ _ _) fun _ _ => rfl
    · intro e he x y hx hy
      refine pickerLeft_forgotten (s := taken s) (hm.of_eq rfl) e he x y hx ?_
      rw [State.slotAt, ← show (carryForward _ _ s).slots = _ from hend.keeps (p := .slots) (by decide)]; exact hy
    · rw [← filter_eq]; exact hans
  · exact ⟨_, rfl, carryForward_unchanged hc (applyPickerLeave_unknown (s := taken s) (pickerOf_none hnone))⟩

end Sys2Proof.Machine

/-!
PROOFS. PICKER_SET (O27): its checks in order, what each outcome writes, and the shadows that a changed colour renews.
-/

namespace Sys2Proof.Machine

open Sys2Proof

/-! ## The checks (R57) -/

theorem pickerColour_iff (n : Nat) (c : Colour) : pickerColour n = some c ↔ Colour.ofCode n = some c ∧ c ≠ .white := by
  refine ⟨fun h => ⟨?_, pickerColour_ne_white h⟩, fun ⟨h, hne⟩ => ?_⟩
  · unfold pickerColour at h
    split at h
    · cases h
    · exact h
  · unfold pickerColour
    rw [h]
    cases c with
    | white => exact absurd rfl hne
    | _ => rfl

theorem pickerColour_none {n : Nat} : pickerColour n = none ↔ ∀ c, ¬ (Colour.ofCode n = some c ∧ c ≠ .white) := by
  simp only [← pickerColour_iff, Option.eq_none_iff_forall_ne_some, ne_eq]

section
variable {r : Request} {s : State} {c : Colour}

/-- A request whose fields pass the first check, with the colour it names. -/
structure PickerFields (r : Request) (c : Colour) : Prop where
  id : r.pickerId ≠ 0
  colour : pickerColour r.colourByte = some c
  priority : r.priorityByte ≤ 3

theorem badPickerField_id (h : r.pickerId = 0) : badPickerField r = some 1 := by rw [badPickerField, if_pos h]

theorem badPickerField_colour (hi : r.pickerId ≠ 0) (hc : pickerColour r.colourByte = none) : badPickerField r = some 2 := by
  rw [badPickerField, if_neg hi, if_pos (by rw [hc]; rfl)]

theorem badPickerField_priority (hi : r.pickerId ≠ 0) (hc : pickerColour r.colourByte = some c) (hp : 3 < r.priorityByte) :
    badPickerField r = some 3 := by
  rw [badPickerField, if_neg hi, if_neg (by simp [hc]), if_pos hp]

theorem PickerFields.fine (h : PickerFields r c) : badPickerField r = none := by
  rw [badPickerField, if_neg h.id, if_neg (by simp [h.colour]), if_neg (by have := h.priority; omega)]

theorem applyPickerSet_bad {index : Nat} (h : badPickerField r = some index) : applyPickerSet r s = (Answer.refuseAt .badField index, s) := by
  unfold applyPickerSet; rw [h]

/-- A new id finds no free place (R56, R57). -/
theorem applyPickerSet_full (hf : PickerFields r c) (hp : s.pickerOf r.pickerId = none) (hr : s.freePlace = none) :
    applyPickerSet r s = (Answer.refuse .tableFull, s) := by
  unfold applyPickerSet; rw [hf.fine, hp, hr]

/-- Another entry holds the colour (R57). -/
theorem applyPickerSet_held (hf : PickerFields r c) (hp : s.pickerOf r.pickerId ≠ none ∨ s.freePlace ≠ none)
    (hc : s.colourHeld c r.pickerId = true) : applyPickerSet r s = (Answer.refuse .colourInUse, s) := by
  have held : s.colourHeld ((pickerColour r.colourByte).getD .white) r.pickerId = true := by rw [hf.colour]; exact hc
  unfold applyPickerSet
  rw [hf.fine]
  simp only; split
  · rename_i h1 h2
    exact absurd h2 (hp.resolve_left fun h => h h1)
  · rw [if_pos held]

/-- An entry with the request's colour and priority (R59). -/
def repainted (p : Picker) (c : Colour) (priority : Nat) : Picker := { p with colour := c, priority := priority }

/-- An id in the table: its entry takes colour and priority, and the notice follows (R59, R60). -/
theorem applyPickerSet_updates {p : Picker} (hf : PickerFields r c) (hp : s.pickerOf r.pickerId = some p)
    (hc : s.colourHeld c r.pickerId = false) :
    applyPickerSet r s = (Answer.ok ([0, BitVec.ofNat 8 p.index] ++ (repainted p c r.priorityByte).body),
      pickerNotice p (repainted p c r.priorityByte) (s.setPicker (repainted p c r.priorityByte))) := by
  unfold applyPickerSet
  rw [hf.fine, hf.colour, hp]
  simp only [Option.getD_some, hc]
  rfl

/-- The entry of a new id (R58). -/
def newPicker (r : Request) (i : Nat) (c : Colour) : Picker :=
  { index := i, id := r.pickerId, colour := c, priority := r.priorityByte, state := .active, openTasks := 0, pace := none }

/-- A new id takes the free place of lowest index (R56, R58). -/
theorem applyPickerSet_registers {i : Nat} (hf : PickerFields r c) (hp : s.pickerOf r.pickerId = none) (hi : s.freePlace = some i)
    (hc : s.colourHeld c r.pickerId = false) :
    applyPickerSet r s = (Answer.ok ([1, BitVec.ofNat 8 i] ++ (newPicker r i c).body),
      { s with pickers := insertPicker (newPicker r i c) s.pickers }) := by
  unfold applyPickerSet
  rw [hf.fine, hf.colour, hp, hi]
  simp only [Option.getD_some, hc]
  rfl

theorem freePlace_none : s.freePlace = none ↔ ¬ ∃ i, i < 8 ∧ ∀ p ∈ s.pickers, p.index ≠ i := by
  simp [State.freePlace, Config.pickerPlaces]

/-- A free place below which none is free is the one found (R56). -/
theorem freePlace_lowest {i : Nat} (hi : i < 8) (hfree : ∀ p ∈ s.pickers, p.index ≠ i) (hlow : ∀ j, j < i → ∃ p ∈ s.pickers, p.index = j) :
    s.freePlace = some i := by
  unfold State.freePlace
  rw [List.find?_range_eq_some]
  refine ⟨by simpa using hfree, List.mem_range.2 hi, fun j hj => ?_⟩
  simpa using hlow j hj

theorem colourHeld_iff {id : Nat} : s.colourHeld c id = true ↔ ∃ p ∈ s.pickers, p.id ≠ id ∧ p.colour = c := by
  simp only [State.colourHeld, List.any_eq_true, Bool.and_eq_true, beq_iff_eq, bne_iff_ne]
  exact exists_congr fun p => and_congr_right fun _ => and_comm

theorem pickerOf_eq_none {id : Nat} : s.pickerOf id = none ↔ ¬ ∃ p ∈ s.pickers, p.id = id := by
  rw [← Option.isNone_iff_eq_none, pickerOf_isNone]

end

/-! ## Shadows renewed after a changed colour (R59) -/

theorem setSlot_branch (s : State) (y : SlotState) (b : Branch) : (s.setSlot y).branch b = s.branch b := by cases b <;> rfl

theorem mem_work_renewShadow {b : Branch} {q : SlotPos} {s : State} (pos : SlotPos) (h : q ∈ (s.branch b).work) :
    q ∈ ((renewShadow pos s).branch b).work := by
  by_cases hb : b = pos.branch
  · subst hb
    unfold renewShadow; split
    · exact h
    simp only; split
    · exact h
    · rw [mem_enqueueSlot_iff, setSlot_branch]; exact .inl h
  · rw [renewShadow_branch pos s hb]; exact h

theorem mem_work_renewShadows {b : Branch} {q : SlotPos} (es : List MapEntry) : ∀ {s : State}, q ∈ (s.branch b).work →
    q ∈ ((es.foldl (fun t e => renewShadow e.pos t) s).branch b).work := by
  induction es with
  | nil => exact id
  | cons e es ih => exact fun h => ih (mem_work_renewShadow e.pos h)

theorem renewShadows_slotAt_other {q : SlotPos} (es : List MapEntry) : ∀ {s : State}, (∀ e ∈ es, e.pos ≠ q) →
    (es.foldl (fun t e => renewShadow e.pos t) s).slotAt q = s.slotAt q := by
  induction es with
  | nil => exact fun _ => rfl
  | cons e es ih =>
    intro s h
    exact (ih fun d hd => h d (by simp [hd])).trans (renewShadow_slotAt_other s (h e (by simp)))

theorem renewShadow_deriveShadow (pos : SlotPos) (s : State) (x : SlotState) : (renewShadow pos s).deriveShadow x = s.deriveShadow x := by
  have frame := renewShadow_only pos s
  exact deriveShadow_congr (frame.keeps (p := .groups) (by decide)) (frame.keeps (p := .pickers) (by decide))
    (frame.keeps (p := .locations) (by decide)) x

/-- Shadows renewed one after another at different positions: each slot gets its own, and is queued where it differs (R102, R103). -/
theorem renewShadows_slotAt (es : List MapEntry) : ∀ {s : State} {e : MapEntry} {x : SlotState}, (es.map (·.pos)).Nodup → e ∈ es →
    s.slotAt e.pos = some x →
    (es.foldl (fun t e => renewShadow e.pos t) s).slotAt e.pos = some { x with shadow := s.deriveShadow x }
      ∧ (s.deriveShadow x ≠ x.shadow → e.pos ∈ ((es.foldl (fun t e => renewShadow e.pos t) s).branch e.pos.branch).work) := by
  induction es with
  | nil => intro s e x _ he; cases he
  | cons d ds ih =>
    intro s e x hn he hx
    obtain ⟨hd, hds⟩ := List.nodup_cons.1 hn
    rw [List.foldl_cons]
    rcases List.mem_cons.1 he with rfl | he
    · obtain ⟨hslot, hwork, -⟩ := renewShadow_slotAt hx
      refine ⟨?_, fun hne => mem_work_renewShadows ds (hwork hne)⟩
      rw [renewShadows_slotAt_other ds fun k hk hp => hd (List.mem_map.2 ⟨k, hk, hp⟩), hslot]
    · have hne : d.pos ≠ e.pos := fun h => hd (List.mem_map.2 ⟨e, he, h.symm⟩)
      have step := ih (s := renewShadow d.pos s) hds he ((renewShadow_slotAt_other s hne).trans hx)
      rwa [renewShadow_deriveShadow] at step

/-- The location shows a group of the picker. -/
def ShowsPicker (id : Nat) (s : State) (e : MapEntry) : Prop := ∃ g ∈ s.groups, g.loc = e.code ∧ g.picker = id ∧ g.state = .shown

/-- A changed colour renews the shadows where the picker's groups are SHOWN, and no other (R59). -/
theorem renewColour_slotAt {s : State} (hm : MapOk s) (id : Nat) {e : MapEntry} (he : e ∈ s.locMap) {x : SlotState} (hx : s.slotAt e.pos = some x) :
    (ShowsPicker id s e → (renewColour id s).slotAt e.pos = some { x with shadow := s.deriveShadow x }
        ∧ (s.deriveShadow x ≠ x.shadow → e.pos ∈ ((renewColour id s).branch e.pos.branch).work))
      ∧ (¬ ShowsPicker id s e → (renewColour id s).slotAt e.pos = some x) := by
  have picked : ∀ d : MapEntry, (s.groups.any fun g => g.loc == d.code && g.picker == id && g.state == .shown) = true
      ↔ ShowsPicker id s d := fun d => by
    simp only [ShowsPicker, List.any_eq_true, Bool.and_eq_true, beq_iff_eq, and_assoc]
  refine ⟨fun h => ?_, fun h => ?_⟩
  · exact renewShadows_slotAt _ (hm.2.1.sublist (List.filter_sublist.map _)) (List.mem_filter.2 ⟨he, (picked e).2 h⟩) hx
  · refine (renewShadows_slotAt_other _ fun d hd hp => ?_).trans hx
    obtain ⟨hd, hshow⟩ := List.mem_filter.1 hd
    obtain rfl := List.inj_on_of_nodup_map hm.2.1 hd he hp
    exact h ((picked d).1 hshow)

end Sys2Proof.Machine

/-!
PROOFS. PICKER_SET as a command (O27).
-/

namespace Sys2Proof.Machine

open Sys2Proof

/-! ## The notice of an updated entry (R59, R60) -/

theorem pickerNotice_priority {old new : Picker} (hp : old.priority ≠ new.priority) (s : State) : pickerNotice old new s =
    recomputeWhere (fun e => s.groups.any fun g => g.loc == e.code && g.picker == new.id) s := by
  rw [pickerNotice, if_pos hp]

theorem pickerNotice_colour {old new : Picker} (hp : old.priority = new.priority) (hc : old.colour ≠ new.colour) (s : State) :
    pickerNotice old new s = renewColour new.id s := by
  rw [pickerNotice, if_neg (not_not.2 hp), if_pos hc]

theorem pickerNotice_same {old new : Picker} (hp : old.priority = new.priority) (hc : old.colour = new.colour) (s : State) :
    pickerNotice old new s = s := by
  rw [pickerNotice, if_neg (not_not.2 hp), if_neg (not_not.2 hc)]

section
variable {r : Request} {s : State} {c : Colour}

/-- A new entry is answered and joins the table (R58). -/
theorem pickerSet_registers {i : Nat} (hcar : Carried .pickerSet r s) (hf : PickerFields r c) (hp : s.pickerOf r.pickerId = none)
    (hi : s.freePlace = some i) (hc : s.colourHeld c r.pickerId = false) :
    let t := carryForward .pickerSet (answered applyPickerSet) s
    (∀ p, p ∈ t.pickers ↔ p ∈ s.pickers ∨ p = newPicker r i c)
      ∧ Answered [.pickers] r .ok ([1, BitVec.ofNat 8 i] ++ (newPicker r i c).body) s t := by
  have joins : OnlyChanges [.pickers] (taken s) { taken s with pickers := insertPicker (newPicker r i c) s.pickers } := by
    intro p; cases p <;> simp [Keeps]
  obtain ⟨hans, hend⟩ := carryForward_applied hcar (applyPickerSet_registers (s := taken s) hf hp hi hc) joins (by decide)
  refine ⟨fun p => ?_, hans⟩
  rw [show (carryForward _ _ s).pickers = _ from hend.keeps (p := .pickers) (by decide)]
  exact mem_insertPicker.trans or_comm

/-- The entry written, before its notice. -/
def pickerWritten (p : Picker) (c : Colour) (priority : Nat) (s : State) : State := (taken s).setPicker (repainted p c priority)

theorem pickerWritten_only (p : Picker) (c : Colour) (priority : Nat) (s : State) : OnlyChanges [.pickers] (taken s) (pickerWritten p c priority s) :=
  setPicker_only _ _

/-- An entry in the table is answered with its new fields, whatever the notice (R59, R60). -/
theorem pickerSet_updates {p : Picker} (hcar : Carried .pickerSet r s) (hf : PickerFields r c) (hp : s.pickerOf r.pickerId = some p)
    (hc : s.colourHeld c r.pickerId = false) :
    let t := carryForward .pickerSet (answered applyPickerSet) s
    t.pickers = s.pickers.map (fun x => if x.id = p.id then repainted p c r.priorityByte else x)
      ∧ Answered (.pickers :: displayParts) r .ok ([0, BitVec.ofNat 8 p.index] ++ (repainted p c r.priorityByte).body) s t
      ∧ OnlyChanges eventParts (pickerNotice p (repainted p c r.priorityByte) (pickerWritten p c r.priorityByte s)) t := by
  have notice := pickerNotice_only p (repainted p c r.priorityByte) (pickerWritten p c r.priorityByte s)
  have all : OnlyChanges (.pickers :: displayParts) (taken s) (pickerNotice p (repainted p c r.priorityByte) (pickerWritten p c r.priorityByte s)) :=
    ((pickerWritten_only p c r.priorityByte s).mono (by decide)).trans (notice.mono (by decide))
  obtain ⟨hans, hend⟩ := carryForward_applied hcar (applyPickerSet_updates (s := taken s) hf hp hc) all (by decide)
  exact ⟨Eq.trans (hend.keeps (p := .pickers) (by decide)) (notice.keeps (p := .pickers) (by decide)), hans, hend⟩

/-- A changed priority redraws the picker's locations (R60). -/
theorem pickerSet_priority_redrawn {p : Picker} {t : State} (hid : p.id = r.pickerId) (hne : p.priority ≠ r.priorityByte) (hm : MapOk s)
    (hn : (s.groups.map (·.id)).Nodup)
    (ht : OnlyChanges eventParts (pickerNotice p (repainted p c r.priorityByte) (pickerWritten p c r.priorityByte s)) t) :
    Redrawn (fun e => ∃ g ∈ s.groups, g.loc = e.code ∧ g.picker = r.pickerId) s t := by
  have notice : pickerNotice p (repainted p c r.priorityByte) (pickerWritten p c r.priorityByte s)
      = recomputeWhere (fun e => s.groups.any fun g => g.loc == e.code && g.picker == p.id) (pickerWritten p c r.priorityByte s) :=
    pickerNotice_priority hne _
  rw [notice] at ht
  refine (notice_redrawn hm hn (pickerWritten_only p c r.priorityByte s) (by decide) ht).of_iff fun e => ?_
  simp [hid]

/-- A changed colour alone renews the shadows of the slots that carry the picker's SHOWN groups (R59). -/
theorem pickerSet_colour_renewed {p : Picker} {t : State} (hid : p.id = r.pickerId) (hp : p.priority = r.priorityByte) (hne : p.colour ≠ c)
    (ht : OnlyChanges eventParts (pickerNotice p (repainted p c r.priorityByte) (pickerWritten p c r.priorityByte s)) t) :
    Keeps .groups s t ∧ (MapOk s → ∀ e ∈ s.locMap, ∀ x, s.slotAt e.pos = some x →
      (ShowsPicker r.pickerId s e → t.slotAt e.pos = some { x with shadow := t.deriveShadow x }
          ∧ (t.deriveShadow x ≠ x.shadow → e.pos ∈ (t.branch e.pos.branch).work))
        ∧ (¬ ShowsPicker r.pickerId s e → t.slotAt e.pos = some x)) := by
  have notice : pickerNotice p (repainted p c r.priorityByte) (pickerWritten p c r.priorityByte s)
      = renewColour r.pickerId (pickerWritten p c r.priorityByte s) := by
    rw [pickerNotice_colour hp hne, ← hid]
    rfl
  rw [notice] at ht
  have renewed := renewColour_only r.pickerId (pickerWritten p c r.priorityByte s)
  have behind : OnlyChanges ([.slots, .work] ++ eventParts) (pickerWritten p c r.priorityByte s) t :=
    (renewed.mono (by decide)).trans (ht.mono (by decide))
  refine ⟨Eq.trans (behind.keeps (p := .groups) (by decide)) rfl, fun hm e he x hx => ?_⟩
  have slot : t.slotAt e.pos = (renewColour r.pickerId (pickerWritten p c r.priorityByte s)).slotAt e.pos := by
    rw [State.slotAt, show t.slots = _ from ht.keeps (p := .slots) (by decide)]; rfl
  have shadow : t.deriveShadow x = (pickerWritten p c r.priorityByte s).deriveShadow x :=
    deriveShadow_congr (behind.keeps (p := .groups) (by decide)) (behind.keeps (p := .pickers) (by decide))
      (behind.keeps (p := .locations) (by decide)) x
  have one := renewColour_slotAt (s := pickerWritten p c r.priorityByte s) (hm.of_eq rfl) r.pickerId he hx
  rw [slot, shadow, keeps_work (ht.keeps (by decide))]
  exact one

/-- Neither changed: the entry is written as it was, and nothing is noticed (R59, R60). -/
theorem pickerSet_same {p : Picker} (hcar : Carried .pickerSet r s) (hf : PickerFields r c) (hp : s.pickerOf r.pickerId = some p)
    (hc : s.colourHeld c r.pickerId = false) (hcol : p.colour = c) (hpri : p.priority = r.priorityByte) :
    Answered [.pickers] r .ok ([0, BitVec.ofNat 8 p.index] ++ (repainted p c r.priorityByte).body) s
      (carryForward .pickerSet (answered applyPickerSet) s) := by
  have quiet : pickerNotice p (repainted p c r.priorityByte) (pickerWritten p c r.priorityByte s) = pickerWritten p c r.priorityByte s :=
    pickerNotice_same hpri hcol _
  have apply := applyPickerSet_updates (s := taken s) hf hp hc
  exact (carryForward_applied hcar (apply.trans (congrArg _ quiet)) (pickerWritten_only p c r.priorityByte s) (by decide)).1

end

/-- Settles O27: the checks decide the outcome in their order; an update's notice is one of a recomputation, renewed shadows and nothing. -/
theorem pickerSetRegistersAndUpdates : Obligations.PickerSetRegistersAndUpdates := by
  intro r s hcar id valid fieldsOk found place body
  have named : ∀ c, valid c → pickerColour r.colourByte = some c := fun c hv => (pickerColour_iff _ c).2 hv
  have fields : ∀ {c}, valid c → fieldsOk → PickerFields r c := fun {c} hv hf => ⟨hf.1, named c hv, hf.2.2⟩
  have refused : ∀ {a : Answer}, applyPickerSet r (taken s) = (a, taken s) → ∃ t, exec .pickerSet s = .next t ∧ Answered [] r a.code a.rest s t :=
    fun h => ⟨_, rfl, carryForward_unchanged hcar h⟩
  refine ⟨fun hid => ?_, fun hid hcol => ?_, fun hid ⟨c, hv⟩ hpri => ?_, fun hf hnew hroom => ?_, fun hf hplace hheld => ?_,
    fun c hv hf hfree => ⟨?_, ?_⟩⟩
  · exact refused (applyPickerSet_bad (badPickerField_id hid))
  · exact refused (applyPickerSet_bad (badPickerField_colour hid (pickerColour_none.2 hcol)))
  · exact refused (applyPickerSet_bad (badPickerField_priority hid (named c hv) hpri))
  · obtain ⟨c, hv⟩ := hf.2.1
    exact refused (applyPickerSet_full (fields hv hf) (pickerOf_eq_none.2 hnew) (freePlace_none.2 hroom))
  · obtain ⟨c, hv⟩ := hf.2.1
    obtain ⟨p, hp, hne, hcol⟩ := hheld
    have same : p.colour = c := Option.some.inj (hcol.symm.trans hv.1)
    refine refused (applyPickerSet_held (fields hv hf) ?_ (colourHeld_iff.2 ⟨p, hp, hne, same⟩))
    exact hplace.imp (fun h e => pickerOf_eq_none.1 e h) (fun h e => freePlace_none.1 e h)
  all_goals
    have ok := fields hv hf
    have unheld : s.colourHeld c r.pickerId = false := by
      rw [← Bool.not_eq_true, colourHeld_iff]
      rintro ⟨p, hp, hne, hcol⟩
      exact hfree p hp hne hcol
  · intro i hi hnew hplace hlow
    exact ⟨_, rfl, pickerSet_registers hcar ok (pickerOf_eq_none.2 hnew) (freePlace_lowest hi hplace hlow) unheld⟩
  · intro p hp
    obtain ⟨hpick, hans, hend⟩ := pickerSet_updates hcar ok hp unheld
    have hid := (pickerOf_mem hp).2
    exact ⟨_, rfl, hpick, hans, fun hne hm hn => pickerSet_priority_redrawn hid hne hm hn hend,
      fun heq hne => pickerSet_colour_renewed hid heq hne hend, fun hcol hpri => pickerSet_same hcar ok hp unheld hcol hpri⟩

end Sys2Proof.Machine

/-!
PROOFS. An accepted CONFIRM (O42): its members closed one after another, and what each leaves of the picker, the counters, the flags and the packer.
-/

namespace Sys2Proof.Machine

open Sys2Proof

/-! ## The decision (R126 to R130) -/

/-- A tag of an open group in an open area of an aisle that is not ORPHANED, with a free place for each member, is accepted. -/
theorem decideConfirm_accepts {e : MapEntry} {k : KeyEvent} {x : SlotState} {h : HistEntry} {g : Group} {n : Nat} {s : State}
    (hx : s.slotAt k.pos = some x) (hf : x.history.find? (fun y => y.tag = k.tag) = some h) (hs : h.shown = some (g.id, n))
    (hg : s.groupOf g.id = some g) (ha : s.locked.getLsbD e.area = false) (ho : s.orphaned = false)
    (hroom : g.members.length + s.fifo.length ≤ 32) : decideConfirm e k s = .accepted g n := by
  have found : (s.historyAt k.pos).find? (fun y => y.tag == k.tag) = some h := by
    rw [State.historyAt, hx, ← hf]; rfl
  have open_group : (h.shown.bind fun y => (s.groupOf y.1).map fun z => (z, y.2)) = some (g, n) := by
    rw [hs, Option.bind_some, hg]; rfl
  have places : ¬ s.freePlaces < g.members.length := by
    unfold State.freePlaces Config.reportRecords; omega
  unfold decideConfirm
  rw [found]
  simp only [open_group]
  rw [State.areaLocked, ha, ho, if_neg (by decide), if_neg (by decide), if_neg places]

/-! ## One member (R134, R135) -/

/-- No counter counts a signal that none selects (R181). -/
theorem signal_unselected {s : State} (h : ∀ k, (s.counters.get k).selection = none) (e : CounterEvent) (place : Option Nat) :
    signal e place s = s := by
  have one : ∀ k, countSignal k e place s = s := fun k => by
    have : (s.counters.get k).counts e place = false := by rw [Counter.counts, h k]; rfl
    unfold countSignal
    exact if_neg (by rw [this]; decide)
  simp only [signal, one]

section
variable {g : Group} {t : Task} {share : Nat} {u : State} {p : Picker}

/-- The PICK record of a member (R135). -/
def pickRecord (g : Group) (clock : ClockValue) (m : Task × Nat) : Record :=
  .pick m.1.number g.picker g.loc m.1.quantity m.2 (outcomeOf m.1.quantity m.2) (g.firstShown.getD 0) clock

theorem closeTask_pickerOf (ht : t.picker = g.picker) (hp : u.pickerOf g.picker = some p) :
    (closeTask t u).pickerOf g.picker = some { p with openTasks := p.openTasks - 1 } := by
  rw [closeTask, ht]
  exact changeOpen_pickerOf hp

/-- The closed task with its record offered. -/
def memberOffered (g : Group) (t : Task) (share : Nat) (u : State) : State := offer (pickRecord g u.clock (t, share)) (closeTask t u)

theorem memberOffered_pickers (g : Group) (t : Task) (share : Nat) (u : State) :
    (memberOffered g t share u).pickers = (closeTask t u).pickers := (offer_only _ _).keeps (p := .pickers) (by decide)

/-- A member that closes short is signalled (R135). -/
theorem closeMember_eq (g : Group) (t : Task) (share : Nat) (u : State) : closeMember g t share u =
    if share = t.quantity then memberOffered g t share u
    else signal .taskShort ((closeTask t u).placeOf g.picker) (memberOffered g t share u) := by
  have place : (memberOffered g t share u).placeOf g.picker = (closeTask t u).placeOf g.picker := by
    unfold State.placeOf State.pickerOf; rw [memberOffered_pickers]
  rw [← place]
  unfold closeMember outcomeOf
  by_cases h : share = t.quantity
  · simp only [if_pos h]
    rw [if_neg (by decide), memberOffered, pickRecord, outcomeOf, if_pos h]
  · simp only [if_neg h, if_true]
    rw [memberOffered, pickRecord, outcomeOf, if_neg h]

theorem closeMember_pickerOf (ht : t.picker = g.picker) (hp : u.pickerOf g.picker = some p) :
    (closeMember g t share u).pickerOf g.picker = some { p with openTasks := p.openTasks - 1 } := by
  rw [State.pickerOf, (closeMember_closes g t share u).2]
  exact closeTask_pickerOf ht hp

theorem closeMember_counters (ht : t.picker = g.picker) (hp : u.pickerOf g.picker = some p) : (closeMember g t share u).counters =
    if share = t.quantity then u.counters else u.counters.after .taskShort (some p.index) := by
  have kept : (memberOffered g t share u).counters = u.counters :=
    Eq.trans ((offer_only _ _).keeps (p := .counters) (by decide)) ((closeTask_only t u).keeps (p := .counters) (by decide))
  have place : (closeTask t u).placeOf g.picker = some p.index := by rw [State.placeOf, closeTask_pickerOf ht hp]; rfl
  rw [closeMember_eq]
  split
  · exact kept
  · rw [signal_counters, place, kept]

theorem closeMember_kept (g : Group) (t : Task) (share : Nat) (u : State) : FlagsKept [] u (closeMember g t share u) := by
  have offered : FlagsKept [] u (memberOffered g t share u) := fun f _ hr _ =>
    (offer_flagSet _ _ hr).trans ((closeTask_only t u).flagSet_eq (by decide) f)
  rw [closeMember_eq]
  split
  · exact offered
  · exact offered.trans (signal_kept _ _ _)

/-- With room and no counter selected, a member leaves its record and nothing to report. -/
theorem closeMember_quiet {n : Nat} (h : PackerQuiet (n + 1) u) : PackerQuiet n (closeMember g t share u)
    ∧ (closeMember g t share u).fifo = u.fifo ++ [{ record := pickRecord g u.clock (t, share), entered := u.now }]
    ∧ (closeMember g t share u).notes = { u.notes with entered := true } := by
  have closed := closeTask_only t u
  have now : (closeTask t u).now = u.now := closed.keeps (p := .moment) (by decide)
  have notes : (closeTask t u).notes = u.notes := closed.keeps (p := .notes) (by decide)
  obtain ⟨fifo, -⟩ := closed.keeps (p := .records) (by decide)
  obtain ⟨quiet, hfifo, hnotes⟩ := offer_quiet (rec := pickRecord g u.clock (t, share)) (h.of_keeps closed (by decide)) rfl
  have silent : closeMember g t share u = memberOffered g t share u := by
    obtain ⟨-, -, -, -, unselected⟩ := quiet
    rw [closeMember_eq, signal_unselected (s := memberOffered g t share u) unselected, ite_self]
  rw [silent]
  exact ⟨quiet, by rw [memberOffered, hfifo, fifo, now], by rw [memberOffered, hnotes, notes]⟩

end

/-! ## All members (R134) -/

section
variable {g : Group} {p : Picker}

/-- Each member takes one from the picker's open count, and a short one is signalled at the picker's place. -/
theorem closeMembers_picker (ms : List (Task × Nat)) : ∀ {u : State} {p : Picker}, (∀ m ∈ ms, m.1.picker = g.picker) →
    u.pickerOf g.picker = some p →
    (ms.foldl (fun t m => closeMember g m.1 m.2 t) u).pickerOf g.picker = some { p with openTasks := p.openTasks - ms.length }
      ∧ (ms.foldl (fun t m => closeMember g m.1 m.2 t) u).counters
          = ms.foldl (fun c m => if m.2 = m.1.quantity then c else c.after .taskShort (some p.index)) u.counters := by
  induction ms with
  | nil => exact fun _ hp => ⟨hp, rfl⟩
  | cons m ms ih =>
    intro u p hm hp
    have own : m.1.picker = g.picker := hm m (by simp)
    obtain ⟨hpick, hcount⟩ := ih (u := closeMember g m.1 m.2 u) (fun k hk => hm k (by simp [hk])) (closeMember_pickerOf own hp)
    refine ⟨?_, ?_⟩
    · rw [List.foldl_cons, hpick, List.length_cons, Nat.sub_sub, Nat.add_comm]
    · rw [List.foldl_cons, hcount, closeMember_counters own hp]; rfl

theorem closeMembers_kept (ms : List (Task × Nat)) : ∀ u : State, FlagsKept [] u (ms.foldl (fun t m => closeMember g m.1 m.2 t) u) := by
  induction ms with
  | nil => exact fun _ _ _ _ _ => rfl
  | cons m ms ih => exact fun u => (closeMember_kept g m.1 m.2 u).trans (ih _)

/-- Each member leaves its record, in joining order, and nothing to report. -/
theorem closeMembers_quiet {n : Nat} (ms : List (Task × Nat)) : ∀ {u : State}, PackerQuiet (n + ms.length) u →
    PackerQuiet n (ms.foldl (fun t m => closeMember g m.1 m.2 t) u)
      ∧ (ms.foldl (fun t m => closeMember g m.1 m.2 t) u).fifo
          = u.fifo ++ ms.map (fun m => { record := pickRecord g u.clock m, entered := u.now })
      ∧ (ms.foldl (fun t m => closeMember g m.1 m.2 t) u).notes.noted = u.notes.noted
      ∧ (ms.foldl (fun t m => closeMember g m.1 m.2 t) u).notes.wraps = u.notes.wraps := by
  induction ms with
  | nil => exact fun h => ⟨h, (List.append_nil _).symm, rfl, rfl⟩
  | cons m ms ih =>
    intro u h
    obtain ⟨quiet, fifo, notes⟩ := closeMember_quiet (g := g) (t := m.1) (share := m.2) (n := n + ms.length) h
    have frame := closeMember_parts g m.1 m.2 u
    have now : (closeMember g m.1 m.2 u).now = u.now := frame.keeps (p := .moment) (by decide)
    have clock : (closeMember g m.1 m.2 u).clock = u.clock := (frame.keeps (p := .clock) (by decide)).1
    obtain ⟨hq, hfifo, hnoted, hwraps⟩ := ih quiet
    refine ⟨hq, ?_, by rw [List.foldl_cons, hnoted, notes], by rw [List.foldl_cons, hwraps, notes]⟩
    rw [List.foldl_cons, hfifo, fifo, now, clock, List.map_cons, List.append_assoc, List.singleton_append]

end

end Sys2Proof.Machine

/-!
PROOFS. An accepted CONFIRM (O42): the group's removal, the pace sample, the recomputation of its location and the end of the event.
-/

namespace Sys2Proof.Machine

open Sys2Proof

/-! ## An accepted press, step by step (R132 to R136) -/

/-- A group that a CONFIRM credits, in a state whose tasks, groups and pickers fit, of a picker in the table, first shown at a known time. -/
structure Credited (g : Group) (p : Picker) (shown : ClockValue) (s : State) : Prop where
  fits : Fits s
  group : g ∈ s.groups
  picker : s.pickerOf g.picker = some p
  shown : g.firstShown = some shown
  high : s.flagSet .tasksHigh = decide (240 ≤ s.tasks.length)

/-- The group gone with its members. -/
def groupClosed (g : Group) (n : Nat) (s : State) : State := removeGroup g (membersClosed g n s)

/-- The picker's pace has taken the sample. -/
def pressPaced (g : Group) (n : Nat) (shown : ClockValue) (s : State) : State := samplePace g.picker shown s.clock (groupClosed g n s)

/-- TASKS_HIGH judged and CONFIRM_ACCEPTED signalled; the location is still to be recomputed. -/
def pressCounted (g : Group) (n : Nat) (shown : ClockValue) (s : State) : State :=
  signal .confirmAccepted ((pressPaced g n shown s).placeOf g.picker) (judgeTasksHigh (pressPaced g n shown s))

section
variable {g : Group} {n : Nat} {p : Picker} {shown : ClockValue} {s : State}

theorem acceptConfirm_eq (h : g.firstShown = some shown) : acceptConfirm g n s = recomputeCodes [g.loc] (pressCounted g n shown s) := by
  unfold acceptConfirm; rw [h]; rfl

theorem groupClosed_only (g : Group) (n : Nat) (s : State) : OnlyChanges [.groups, .slots] (membersClosed g n s) (groupClosed g n s) :=
  removeGroup_only _ _

theorem pressPaced_only (g : Group) (n : Nat) (shown : ClockValue) (s : State) :
    OnlyChanges [.pickers] (groupClosed g n s) (pressPaced g n shown s) :=
  samplePace_only _ _ _ _

theorem pressCounted_only (g : Group) (n : Nat) (shown : ClockValue) (s : State) :
    OnlyChanges [.counters, .flags, .notes] (pressPaced g n shown s) (pressCounted g n shown s) :=
  ((judgeTasksHigh_only _).mono (by decide)).trans (signal_only _ _ _)

/-- What the counting, the pace and the recomputation leave of the state without the group. -/
theorem pressCounted_after (g : Group) (n : Nat) (shown : ClockValue) (s : State) :
    OnlyChanges [.pickers, .counters, .flags, .notes] (groupClosed g n s) (pressCounted g n shown s) :=
  ((pressPaced_only g n shown s).mono (by decide)).trans ((pressCounted_only g n shown s).mono (by decide))

/-! ## Tables -/

theorem pressCounted_tasks (h : Credited g p shown s) : (pressCounted g n shown s).tasks = s.tasks.filter fun x => x.number ∉ g.members := by
  have closed : (groupClosed g n s).tasks = (membersClosed g n s).tasks := (groupClosed_only g n s).keeps (p := .tasks) (by decide)
  have after : (pressCounted g n shown s).tasks = (groupClosed g n s).tasks := (pressCounted_after g n shown s).keeps (p := .tasks) (by decide)
  rw [after, closed, (membersClosed_tasks h.fits h.group n).2]

theorem pressCounted_groups (g : Group) (n : Nat) (shown : ClockValue) (s : State) :
    (pressCounted g n shown s).groups = s.groups.filter fun k => k.id != g.id := by
  have after : (pressCounted g n shown s).groups = (groupClosed g n s).groups := (pressCounted_after g n shown s).keeps (p := .groups) (by decide)
  have members : (membersClosed g n s).groups = s.groups := (membersClosed_only g n s).keeps (p := .groups) (by decide)
  rw [after, groupClosed, removeGroup_groups, members]

theorem creditedShares_length (h : Credited g p shown s) : (creditedShares g n s).length = g.members.length := by
  rw [← creditedShares_numbers h.fits h.group n, List.length_map]

/-- The members are tasks of the group's picker. -/
theorem creditedShares_picker (h : Credited g p shown s) : ∀ m ∈ creditedShares g n s, m.1.picker = g.picker := by
  intro m hm
  have task : m.1 ∈ s.tasks := mem_membersOf (by
    rw [← creditedShares_tasks g n s]; exact List.mem_map_of_mem hm)
  have member : m.1.number ∈ g.members := by
    rw [← creditedShares_numbers h.fits h.group n]; exact List.mem_map_of_mem (f := (·.1.number)) hm
  obtain ⟨t, ht, hn, hi⟩ := (h.fits.groups.mem_members h.group).1 member
  obtain rfl := task_unique h.fits.tasks.numbers ht task hn
  exact (h.fits.groups.agree h.group ht hi).1.symm

theorem membersClosed_picker (h : Credited g p shown s) :
    (membersClosed g n s).pickerOf g.picker = some { p with openTasks := p.openTasks - g.members.length } := by
  rw [← creditedShares_length h (n := n)]
  exact (closeMembers_picker _ (creditedShares_picker h) h.picker).1

theorem pressPaced_picker (h : Credited g p shown s) : (pressPaced g n shown s).pickerOf g.picker =
    some { p with openTasks := p.openTasks - g.members.length, pace := some (newPace p.pace (dwell10 shown s.clock)) } := by
  have kept : (groupClosed g n s).pickerOf g.picker = (membersClosed g n s).pickerOf g.picker := by
    rw [State.pickerOf, show (groupClosed g n s).pickers = _ from (groupClosed_only g n s).keeps (p := .pickers) (by decide)]; rfl
  exact samplePace_pickerOf (kept.trans (membersClosed_picker h))

theorem acceptConfirm_picker (h : Credited g p shown s) : (acceptConfirm g n s).pickerOf g.picker =
    some { p with openTasks := p.openTasks - g.members.length, pace := some (newPace p.pace (dwell10 shown s.clock)) } := by
  have redraw := recomputeCodes_only [g.loc] (pressCounted g n shown s)
  have pickers : (acceptConfirm g n s).pickers = (pressPaced g n shown s).pickers := by
    rw [acceptConfirm_eq h.shown]
    exact Eq.trans (redraw.keeps (p := .pickers) (by decide)) ((pressCounted_only g n shown s).keeps (p := .pickers) (by decide))
  rw [State.pickerOf, pickers]
  exact pressPaced_picker h

theorem acceptConfirm_tasks (h : Credited g p shown s) : (acceptConfirm g n s).tasks = s.tasks.filter fun x => x.number ∉ g.members := by
  rw [acceptConfirm_eq h.shown, ← pressCounted_tasks h (n := n)]
  exact (recomputeCodes_only _ _).keeps (p := .tasks) (by decide)

theorem acceptConfirm_ids (h : Credited g p shown s) :
    (acceptConfirm g n s).groups.map (·.id) = (s.groups.filter fun k => k.id != g.id).map (·.id) := by
  have left : ((pressCounted g n shown s).groups.map (·.id)).Nodup := by
    rw [pressCounted_groups]; exact h.fits.groups.ids.sublist (List.filter_sublist.map _)
  obtain ⟨φ, hφ, hg⟩ := (recomputeCodes_books [g.loc] (pressCounted g n shown s)).groups left
  rw [acceptConfirm_eq h.shown, hg, pressCounted_groups, List.map_map]
  exact List.map_congr_left fun k _ => (hφ.place k).1

/-! ## Counters and flags -/

theorem acceptConfirm_counters (h : Credited g p shown s) : (acceptConfirm g n s).counters =
    ((creditedShares g n s).foldl (fun c m => if m.2 = m.1.quantity then c else c.after .taskShort (some p.index)) s.counters).after
      .confirmAccepted (some p.index) := by
  have place : (pressPaced g n shown s).placeOf g.picker = some p.index := by rw [State.placeOf, pressPaced_picker h]; rfl
  have judged : OnlyChanges [.groups, .slots, .pickers, .flags, .notes] (membersClosed g n s) (judgeTasksHigh (pressPaced g n shown s)) :=
    (((groupClosed_only g n s).mono (by decide)).trans ((pressPaced_only g n shown s).mono (by decide))).trans
      ((judgeTasksHigh_only _).mono (by decide))
  have members : (membersClosed g n s).counters = _ := (closeMembers_picker _ (creditedShares_picker h (n := n)) h.picker).2
  rw [acceptConfirm_eq h.shown, show (recomputeCodes _ _).counters = _ from (recomputeCodes_only _ _).keeps (p := .counters) (by decide),
    pressCounted, signal_counters, place, show (judgeTasksHigh _).counters = _ from judged.keeps (p := .counters) (by decide), members]

theorem pressPaced_kept (g : Group) (n : Nat) (shown : ClockValue) (s : State) : FlagsKept [] s (pressPaced g n shown s) :=
  ((closeMembers_kept (creditedShares g n s) s).trans ((groupClosed_only g n s).flagsKept (by decide) _)).trans
    ((pressPaced_only g n shown s).flagsKept (by decide) _)

theorem judgeTasksHigh_kept (u : State) : FlagsKept [.tasksHigh] u (judgeTasksHigh u) := fun f hf _ _ => by
  have other : ¬ Flag.tasksHigh = f := fun h => hf (by simp [h])
  rw [judgeTasksHigh, followFlag_flagSet, if_neg other]

theorem acceptConfirm_kept (h : g.firstShown = some shown) : FlagsKept [.tasksHigh] s (acceptConfirm g n s) := by
  have judged := ((pressPaced_kept g n shown s).mono (gs := [.tasksHigh]) (by simp)).trans (judgeTasksHigh_kept _)
  rw [acceptConfirm_eq h]
  exact (judged.trans ((signal_kept _ _ _).mono (by simp))).trans ((recomputeCodes_only _ _).flagsKept (by decide) _)

theorem acceptConfirm_tasksHigh (h : g.firstShown = some shown) :
    (acceptConfirm g n s).flagSet .tasksHigh = decide (240 ≤ (acceptConfirm g n s).tasks.length) := by
  have redraw := recomputeCodes_only [g.loc] (pressCounted g n shown s)
  have signalled : (pressCounted g n shown s).tasks = (judgeTasksHigh (pressPaced g n shown s)).tasks :=
    (signal_only _ _ _).keeps (p := .tasks) (by decide)
  rw [acceptConfirm_eq h, redraw.flagSet_eq (by decide), show (recomputeCodes _ _).tasks = _ from redraw.keeps (p := .tasks) (by decide),
    signalled, pressCounted, signal_flagSet _ _ _ (by simp), judgeTasksHigh_flag]

/-- Tasks only go, so TASKS_HIGH does not set anew (R92, R187). -/
theorem judgePaced_quiet (h : Credited g p shown s) :
    OnlyChanges [.flags] (pressPaced g n shown s) (judgeTasksHigh (pressPaced g n shown s)) := by
  have tasks : (pressPaced g n shown s).tasks = s.tasks.filter fun x => x.number ∉ g.members := by
    rw [← pressCounted_tasks h (n := n)]
    exact ((pressCounted_only g n shown s).keeps (p := .tasks) (by decide)).symm
  refine judgeTasksHigh_quiet fun hl => ?_
  rw [pressPaced_kept g n shown s _ (by simp) (by simp) (by simp), h.high]
  rw [tasks] at hl
  exact decide_eq_true (hl.trans (List.length_filter_le _ _))

/-! ## The packer -/

/-- With room for the members' records, they stand at the tail of the FIFO, and the press has nothing more to report. -/
theorem acceptConfirm_quiet (h : Credited g p shown s) (hq : PackerQuiet g.members.length s) :
    PackerQuiet 0 (acceptConfirm g n s)
      ∧ (acceptConfirm g n s).fifo = s.fifo ++ (creditedShares g n s).map (fun m => { record := pickRecord g s.clock m, entered := s.now })
      ∧ (acceptConfirm g n s).notes.noted = s.notes.noted ∧ (acceptConfirm g n s).notes.wraps = s.notes.wraps := by
  rw [← creditedShares_length h (n := n), ← Nat.zero_add (creditedShares g n s).length] at hq
  obtain ⟨quiet, fifo, noted, wraps⟩ := closeMembers_quiet (g := g) (creditedShares g n s) hq
  have judged : OnlyChanges [.groups, .slots, .pickers, .flags] (membersClosed g n s) (judgeTasksHigh (pressPaced g n shown s)) :=
    (((groupClosed_only g n s).mono (by decide)).trans ((pressPaced_only g n shown s).mono (by decide))).trans
      ((judgePaced_quiet h).mono (by decide))
  have silent : pressCounted g n shown s = judgeTasksHigh (pressPaced g n shown s) := by
    obtain ⟨-, -, -, -, unselected⟩ := PackerQuiet.of_keeps quiet judged (by decide)
    exact signal_unselected unselected _ _
  have all : OnlyChanges ([.pickers, .flags] ++ displayParts) (membersClosed g n s) (acceptConfirm g n s) := by
    rw [acceptConfirm_eq h.shown, silent]
    exact (judged.mono (by decide)).trans ((recomputeCodes_only _ _).mono (by decide))
  obtain ⟨hfifo, -⟩ := all.keeps (p := .records) (by decide)
  have notes : (acceptConfirm g n s).notes = (membersClosed g n s).notes := all.keeps (p := .notes) (by decide)
  exact ⟨quiet.of_keeps all (by decide), hfifo.trans fifo, by rw [notes]; exact noted, by rw [notes]; exact wraps⟩

/-! ## The display -/

theorem membersClosed_slots (g : Group) (n : Nat) (s : State) : (membersClosed g n s).slots = s.slots :=
  (membersClosed_only g n s).keeps (p := .slots) (by decide)

theorem membersClosed_locMap (g : Group) (n : Nat) (s : State) : (membersClosed g n s).locMap = s.locMap :=
  (membersClosed_only g n s).keeps (p := .locations) (by decide)

/-- The location of the group is recomputed, and no other (R75, R136). -/
theorem acceptConfirm_redrawn (h : Credited g p shown s) (hm : MapOk s) :
    Redrawn (fun d => d.code = g.loc) { s with groups := s.groups.filter fun k => k.id != g.id } (acceptConfirm g n s) := by
  have closed := groupClosed_only g n s
  have after := pressCounted_after g n shown s
  have locMap : (pressCounted g n shown s).locMap = s.locMap :=
    Eq.trans (after.keeps (p := .locations) (by decide)) (Eq.trans (closed.keeps (p := .locations) (by decide)) (membersClosed_locMap g n s))
  have slots : (pressCounted g n shown s).slots = (groupClosed g n s).slots := after.keeps (p := .slots) (by decide)
  have drawn : Redrawn (fun d => [g.loc].contains d.code = true) (pressCounted g n shown s) (acceptConfirm g n s) := by
    rw [acceptConfirm_eq h.shown]
    refine recomputeWhere_redrawn _ (hm.of_eq locMap) ?_
    rw [pressCounted_groups]; exact h.fits.groups.ids.sublist (List.filter_sublist.map _)
  have final : (acceptConfirm g n s).locMap = s.locMap := by
    rw [acceptConfirm_eq h.shown, ← locMap]; exact (recomputeCodes_only _ _).keeps (p := .locations) (by decide)
  refine (drawn.of_iff fun d => by simp).of_slots (pressCounted_groups g n shown s) fun pos hpos => ?_
  have apart : ((membersClosed g n s).entryOf g.loc).map (·.pos) ≠ some pos := fun he => by
    obtain ⟨e, hf, hp⟩ := Option.map_eq_some_iff.1 he
    rw [State.entryOf, membersClosed_locMap] at hf
    exact hpos e (final ▸ List.mem_of_find?_eq_some hf) (by simpa using List.find?_some hf) hp
  have slot := removeGroup_slotAt g (membersClosed g n s) pos
  rw [if_neg apart] at slot
  calc (pressCounted g n shown s).slotAt pos = (groupClosed g n s).slotAt pos := by simp only [State.slotAt, slots]
    _ = (membersClosed g n s).slotAt pos := slot
    _ = s.slotAt pos := by simp only [State.slotAt, membersClosed_slots]

/-- The group leaves the tag history of its location's slot (R75, R109). -/
theorem acceptConfirm_forgotten (h : Credited g p shown s) (hm : MapOk s) : Forgotten (fun y => y.id = g.id) s (acceptConfirm g n s) := by
  refine Forgotten.of_filter (keep := fun e h => !(g.loc == e.code && h.shown.map (·.1) == some g.id)) (fun e he => ?_) fun e k => ?_
  · have locMap := membersClosed_locMap g n s
    have slots : (pressCounted g n shown s).slots = (groupClosed g n s).slots := (pressCounted_after g n shown s).keeps (p := .slots) (by decide)
    calc (acceptConfirm g n s).historyAt e.pos
        = (pressCounted g n shown s).historyAt e.pos := by rw [acceptConfirm_eq h.shown]; exact recomputeWhere_historyAt _ _ _
      _ = (groupClosed g n s).historyAt e.pos := by simp only [State.historyAt, State.slotAt, slots]
      _ = ((membersClosed g n s).historyAt e.pos).filter _ := removeGroup_historyAt (hm.of_eq locMap) (locMap.symm ▸ he) g
      _ = (s.historyAt e.pos).filter _ := by simp only [State.historyAt, State.slotAt, membersClosed_slots]
  · rw [Bool.not_eq_true', ← Bool.not_eq_true, Bool.and_eq_true, beq_iff_eq, beq_iff_eq]
    refine ⟨fun hno y hy hi hl hs => ?_, fun hall ⟨hl, hs⟩ => hall g h.group rfl hl hs⟩
    obtain rfl := group_unique h.fits.groups.ids hy h.group hi
    exact hno ⟨hl, hs⟩

end

end Sys2Proof.Machine

/-!
PROOFS. An accepted CONFIRM as a command (O42).
-/

namespace Sys2Proof.Machine

open Sys2Proof

/-! ## The key event taken (R120) -/

/-- The state in which the oldest key event of a branch has been taken and the event has noted nothing. -/
def keyTaken (b : Branch) (rest : List KeyEvent) (s : State) : State :=
  (beginEvent s).setBranch b { (beginEvent s).branch b with keys := rest }

theorem keyTaken_only (b : Branch) (rest : List KeyEvent) (s : State) : OnlyChanges [.keys, .notes] s (keyTaken b rest s) := by
  have start : OnlyChanges [.notes] s (beginEvent s) := by intro p; cases p <;> simp [Keeps, beginEvent]
  exact (start.mono (by decide)).trans ((takeKey_only b rest (beginEvent s)).mono (by decide))

/-! What the state with the key event taken holds as before. -/

section
variable (b : Branch) (rest : List KeyEvent) (s : State)

@[simp] theorem keyTaken_slots : (keyTaken b rest s).slots = s.slots := (keyTaken_only b rest s).keeps (p := .slots) (by decide)
@[simp] theorem keyTaken_locMap : (keyTaken b rest s).locMap = s.locMap := (keyTaken_only b rest s).keeps (p := .locations) (by decide)
@[simp] theorem keyTaken_groups : (keyTaken b rest s).groups = s.groups := (keyTaken_only b rest s).keeps (p := .groups) (by decide)
@[simp] theorem keyTaken_tasks : (keyTaken b rest s).tasks = s.tasks := (keyTaken_only b rest s).keeps (p := .tasks) (by decide)
@[simp] theorem keyTaken_locked : (keyTaken b rest s).locked = s.locked := (keyTaken_only b rest s).keeps (p := .areas) (by decide)
@[simp] theorem keyTaken_orphaned : (keyTaken b rest s).orphaned = s.orphaned := (keyTaken_only b rest s).keeps (p := .orphaned) (by decide)
@[simp] theorem keyTaken_counters : (keyTaken b rest s).counters = s.counters := (keyTaken_only b rest s).keeps (p := .counters) (by decide)
@[simp] theorem keyTaken_pickers : (keyTaken b rest s).pickers = s.pickers := (keyTaken_only b rest s).keeps (p := .pickers) (by decide)
@[simp] theorem keyTaken_now : (keyTaken b rest s).now = s.now := (keyTaken_only b rest s).keeps (p := .moment) (by decide)
@[simp] theorem keyTaken_fifo : (keyTaken b rest s).fifo = s.fifo := ((keyTaken_only b rest s).keeps (p := .records) (by decide)).1
@[simp] theorem keyTaken_clock : (keyTaken b rest s).clock = s.clock := ((keyTaken_only b rest s).keeps (p := .clock) (by decide)).1

theorem keyTaken_notes : (keyTaken b rest s).notes = EventNotes.empty :=
  (takeKey_only b rest (beginEvent s)).keeps (p := .notes) (by decide)

theorem keyTaken_slotAt (pos : SlotPos) : (keyTaken b rest s).slotAt pos = s.slotAt pos := by rw [State.slotAt, keyTaken_slots]; rfl

theorem keyTaken_creditedShares (g : Group) (n : Nat) : creditedShares g n (keyTaken b rest s) =
    (s.membersOf g).zip (allocate (min n g.remaining) ((s.membersOf g).map (·.quantity))) := by
  have members : (keyTaken b rest s).membersOf g = s.membersOf g := by
    unfold State.membersOf State.taskOf; rw [keyTaken_tasks]
  rw [creditedShares, members]

end

theorem keyTaken_taken (b : Branch) (rest : List KeyEvent) (s : State) : KeyTaken b rest s (keyTaken b rest s) := by
  refine ⟨by cases b <;> rfl, fun d hd => ?_⟩
  cases b <;> cases d
  · exact absurd rfl hd
  · rfl
  · rfl
  · exact absurd rfl hd

theorem KeyTaken.of_keeps {b : Branch} {rest : List KeyEvent} {s t u : State} (h : KeyTaken b rest s t) (k : Keeps .keys t u) :
    KeyTaken b rest s u := by
  have same : ∀ d, (u.branch d).keys = (t.branch d).keys := fun d => by
    cases d
    · exact k.1
    · exact k.2
  exact ⟨(same b).trans h.1, fun d hd => (same d).trans (h.2 d hd)⟩

section
variable {b : Branch} {k : KeyEvent} {rest : List KeyEvent} {s : State}

/-- A CONFIRM at a mapped slot is decided with the key event gone (R126). -/
theorem execConfirmKey_accepts {e : MapEntry} {g : Group} {n : Nat} (hk : (s.branch b).keys = k :: rest) (hc : k.key = .confirm)
    (he : (keyTaken b rest s).entryAt k.pos = some e) (hd : decideConfirm e k (keyTaken b rest s) = .accepted g n) :
    exec (.confirmKey b) s = .next (endEvent (acceptConfirm g n (keyTaken b rest s))) := by
  show execConfirmKey b s = _
  have taken : takeConfirm k (keyTaken b rest s) = acceptConfirm g n (keyTaken b rest s) := by
    unfold takeConfirm; rw [he]; simp only [hd]
  unfold execConfirmKey
  rw [hk]
  simp only [if_pos hc]
  rw [← taken]; rfl

/-- The state with the key event taken holds what the credited group needs. -/
theorem keyTaken_credited {g : Group} {p : Picker} {shown : ClockValue} (h : Credited g p shown s) : Credited g p shown (keyTaken b rest s) := by
  refine ⟨((keyTaken_only b rest s).fitsKept (by decide)).fits h.fits, ?_, ?_, h.shown, ?_⟩
  · rw [keyTaken_groups]; exact h.group
  · rw [State.pickerOf, keyTaken_pickers]; exact h.picker
  · rw [(keyTaken_only b rest s).flagSet_eq (by decide), keyTaken_tasks]; exact h.high

end

/-- Settles O42: the state with the key event taken is one that credits the group, and what the accepted press leaves there stands at the end of
its event. -/
theorem confirmAccepted : Obligations.ConfirmAccepted := by
  intro b k rest e x h g n p shown s hk hc he hx hf hs hg ha ho hroom hp hshown ht hl hlive
  obtain ⟨-, -, -, -, -, high⟩ := hlive
  have frame := keyTaken_only b rest s
  have credited : Credited g p shown (keyTaken b rest s) :=
    keyTaken_credited ⟨(fits_iff s).2 ⟨ht, hl⟩, (groupOf_mem hg).1, hp, hshown, high⟩
  have decided : decideConfirm e k (keyTaken b rest s) = .accepted g n :=
    decideConfirm_accepts ((keyTaken_slotAt b rest s _).trans hx) hf hs (by rw [State.groupOf, keyTaken_groups]; exact hg)
      (by rw [keyTaken_locked]; exact ha) (by rw [keyTaken_orphaned]; exact ho) (by rw [keyTaken_fifo]; exact hroom)
  have run := execConfirmKey_accepts hk hc (by rw [State.entryAt, keyTaken_locMap]; exact he) decided
  have press := acceptConfirm_only g n (keyTaken b rest s)
  have stop := endEvent_only (acceptConfirm g n (keyTaken b rest s))
  have final : (endEvent (acceptConfirm g n (keyTaken b rest s))).tasks = (acceptConfirm g n (keyTaken b rest s)).tasks :=
    stop.keeps (p := .tasks) (by decide)
  refine ⟨_, s.membersOf g, membersOf_numbers ((fits_iff s).2 ⟨ht, hl⟩) (groupOf_mem hg).1, fun y hy => mem_membersOf hy, run, ?_, ?_, ?_, ?_,
    fun hm => ⟨?_, ?_⟩, ?_, ?_, ?_, fun hq => ?_, ?_⟩
  · exact ((keyTaken_taken b rest s).of_keeps (press.keeps (by decide))).of_keeps (stop.keeps (by decide))
  · rw [final, acceptConfirm_tasks credited, keyTaken_tasks]
  · rw [show (endEvent _).groups = _ from stop.keeps (p := .groups) (by decide), acceptConfirm_ids credited, keyTaken_groups, filter_ne]
  · rw [State.pickerOf, show (endEvent _).pickers = _ from stop.keeps (p := .pickers) (by decide), ← keyTaken_clock b rest s]
    exact acceptConfirm_picker credited
  · intro d hd y z hy hz
    have forgotten := acceptConfirm_forgotten (n := n) credited (hm.of_eq (keyTaken_locMap b rest s)) d
      (by rw [keyTaken_locMap]; exact hd) y z
    rw [keyTaken_groups] at forgotten
    refine forgotten ((keyTaken_slotAt b rest s _).trans hy) ?_
    rw [State.slotAt, ← show (endEvent _).slots = _ from stop.keeps (p := .slots) (by decide)]; exact hz
  · refine ((acceptConfirm_redrawn credited (hm.of_eq (keyTaken_locMap b rest s))).trans_only stop (by decide)).of_slots ?_ fun pos _ => ?_
    · show (keyTaken b rest s).groups.filter _ = s.groups.filter _
      rw [keyTaken_groups]; exact filter_ne _ _ _
    · exact keyTaken_slotAt b rest s pos
  · rw [endEvent_flagSet _ (by decide), final, acceptConfirm_tasksHigh hshown]
  · exact ((frame.flagsKept (by decide) _).trans (acceptConfirm_kept hshown)).trans ((endEvent_kept _).mono (by simp))
  · rw [show (endEvent _).counters = _ from stop.keeps (p := .counters) (by decide), acceptConfirm_counters credited,
      keyTaken_counters, keyTaken_creditedShares]
  · have quiet : PackerQuiet g.members.length (keyTaken b rest s) := hq.of_keeps frame (by decide)
    obtain ⟨idle, hfifo, hnoted, hwraps⟩ := acceptConfirm_quiet (n := n) credited quiet
    rw [endEvent_idle (hwraps.trans (by rw [keyTaken_notes]; rfl)) (hnoted.trans (by rw [keyTaken_notes]; rfl)) idle.idle, hfifo,
      keyTaken_fifo, keyTaken_clock, keyTaken_now, keyTaken_creditedShares]
    unfold pickRecord
    rw [hshown]; rfl
  · exact ((frame.mono (by decide)).trans (press.mono (by decide))).trans (stop.mono (by decide))

end Sys2Proof.Machine

/-!
PROOFS. Every command from the operations that it is built of: a relation that each of these operations keeps is kept by every step.
-/

namespace Sys2Proof.Machine

open Sys2Proof

/-- The parts that the properties of O55 and O57 read. -/
def heldParts : List Part :=
  [.clock, .lines, .orphaned, .locations, .pickers, .tasks, .groups, .nextGroup, .slots, .faults, .records, .flags]

/-- A relation between an earlier and a later state that composes and that each operation keeps which the commands are built of: what changes no
part of `heldParts`, the flags and records, the display and its slots, the line states, the tables and the clock. -/
structure KeptThroughout (R : State → State → Prop) : Prop where
  trans : ∀ {s t u : State}, R s t → R t u → R s u
  only : ∀ {ps : List Part} {s t : State}, OnlyChanges ps s t → (∀ p ∈ heldParts, p ∉ ps) → R s t
  latched : ∀ (f : Flag) (s : State), f.position < 15 → R s (setFlag f s)
  clearLatched : ∀ (fs : BitVec 21) (s : State), R s { s with flags := s.flags &&& ~~~(fs &&& latchedFlags) }
  signal : ∀ e place s, R s (signal e place s)
  offer : ∀ r s, R s (offer r s)
  judgePacker : ∀ s, R s (judgePacker s)
  rejudgeCombine : ∀ s, R s (rejudgeCombine s)
  expireCombine : ∀ {s : State} {c : CombineTimer}, s.combine = some c → R s { s with combine := some { c with expired := true } }
  endEvent : ∀ s, R s (endEvent s)
  recomputeWhere : ∀ p s, R s (recomputeWhere p s)
  renewShadow : ∀ pos s, R s (renewShadow pos s)
  feedback : ∀ {s : State} {pos : SlotPos} {x : SlotState} (fb : Option Feedback), s.slotAt pos = some x →
    R s (s.setSlot { x with feedback := fb })
  linger : ∀ {s : State} {pos : SlotPos} {x : SlotState} {timer : Option Timer}, s.slotAt pos = some x →
    (timer.isSome = true → (s.groupAtPosition x).isSome = true) → R s (s.setSlot { x with linger := timer })
  lingered : ∀ {s : State} {pos : SlotPos} {x : SlotState} {g : Group}, s.slotAt pos = some x → s.groupAtPosition x = some g →
    R s (lingerShown x g s)
  rotated : ∀ {s : State} {pos : SlotPos} {x : SlotState}, s.slotAt pos = some x → x.rotTimer.isSome = true → R s (rotationExpire x s)
  sent : ∀ {s : State} {pos : SlotPos} {x : SlotState} (tag : Tag) (shown : Option (Nat × Nat)), s.slotAt pos = some x →
    (∀ i, shown = some i → ∃ g, s.groupAtPosition x = some g ∧ i.1 = g.id) →
    R s (s.setSlot { x with history := recordSend { tag := tag, shown := shown } x.history })
  forgets : ∀ {s : State} {pos : SlotPos} {x : SlotState}, s.slotAt pos = some x → R s (s.setSlot { x with history := [] })
  becomeOrphaned : ∀ s, R s (setFlag .orphaned { s with orphaned := true })
  endOrphaned : ∀ s, R s (clearFlag .orphaned { s with orphaned := false })
  faultSets : ∀ b s, R s (setFlag (branchFaultFlag b) (onBranch b (fun x => { x with fault := true }) s))
  faultClears : ∀ b s, R s (clearFlag (branchFaultFlag b) (onBranch b (fun x => { x with fault := false }) s))
  lineDown : ∀ p s, R s (setFlag (linkFlag p) (flushPort p s))
  lineUp : ∀ p s, R s (raisePort p s)
  setPicker : ∀ {s : State} {p q : Picker}, p ∈ s.pickers → q.id = p.id → q.openTasks = p.openTasks → R s (s.setPicker q)
  insertPicker : ∀ {s : State} {q : Picker}, (∀ p ∈ s.pickers, p.id ≠ q.id) → q.openTasks = 0 →
    R s { s with pickers := insertPicker q s.pickers }
  pickerLeave : ∀ r s, R s (applyPickerLeave r s).2
  taskPost : ∀ r s, R s (applyTaskPost r s).2
  taskCancel : ∀ r s, R s (applyTaskCancel r s).2
  taskAmend : ∀ r s, R s (applyTaskAmend r s).2
  mapLoad : ∀ r s, R s (applyMapLoad r s).2
  mapRemove : ∀ r s, R s (applyMapRemove r s).2
  confirm : ∀ {s : State} {g : Group} (n : Nat), g ∈ s.groups → R s (acceptConfirm g n s)
  adjust : ∀ {s : State} {g : Group} (k : KeyEvent), g ∈ s.groups → R s (acceptAdjust k g s)
  time : ∀ {s : State} {r : Nat} (n : Nat) (c : ClockValue), r < 16000 → R s { s with now := n, clock := c, residue := r }
  reset : ∀ station cause lines s, R s (resetTo station cause lines s)

/-- A change of a branch's record that leaves its line fault changes no held part. -/
theorem onBranch_faultKept {b : Branch} {f : BranchState → BranchState} {s : State} (h : ∀ x, (f x).fault = x.fault) :
    OnlyChanges [.rosters, .work, .commands, .turns, .scans, .directs, .directShown, .unshown, .keys, .nextTags] s (onBranch b f s) :=
  onBranch_only fun x => by simp [h x]

/-- A branch's line fault sets or clears (R160). -/
theorem holdFault_only (b : Branch) (on : Bool) (s : State) : OnlyChanges [.faults] s (onBranch b (fun x => { x with fault := on }) s) :=
  onBranch_only fun x => by simp

namespace KeptThroughout

section
variable {R : State → State → Prop} (h : KeptThroughout R)
include h

/-! ## Events and requests -/

theorem refl (s : State) : R s s := h.only (onlyChanges_refl [] s) (by simp)

theorem foldl {α : Type} {f : State → α → State} (hf : ∀ t x, R t (f t x)) (xs : List α) : ∀ s : State, R s (xs.foldl f s) := by
  induction xs with
  | nil => exact h.refl
  | cons x xs ih => exact fun s => h.trans (hf s x) (ih (f s x))

theorem event_at {f : State → State} {s : State} (hf : R (beginEvent s) (f (beginEvent s))) : R s (event f s) :=
  h.trans (h.trans (h.only (beginEvent_only s) (by decide)) hf) (h.endEvent _)

theorem event {f : State → State} (hf : ∀ t, R t (f t)) (s : State) : R s (event f s) := h.event_at (hf _)

theorem answer (r : Request) (a : Answer) (s : State) : R s (answer r a s) := by
  unfold Machine.answer; split
  · exact h.refl s
  · have sends := originate_only r.origin replyCodeKind true .requestHandler (replyPayload r a) s
    revert sends
    generalize originate r.origin replyCodeKind true .requestHandler (replyPayload r a) s = o
    rcases o with ⟨o, t⟩
    intro sends
    cases o with
    | refused => exact h.trans (h.only sends (by decide)) (h.latched .replyDrop _ (by decide))
    | accepted ref => exact h.only sends (by decide)

theorem carryForward {kind : ReqKind} {serve : Request → State → State} (hs : ∀ r t, R t (serve r t)) (s : State) :
    R s (carryForward kind serve s) := by
  unfold Machine.carryForward; split
  · exact h.refl s
  rename_i r rest _
  split
  · refine h.event (fun t => ?_) s
    have left : OnlyChanges [.admitted] t { t with admitted := rest } := by intro p; cases p <;> simp [Keeps]
    refine h.trans (h.only left (by decide)) ?_
    simp only; split
    · exact h.signal _ _ _
    split
    · exact h.answer _ _ _
    · exact hs _ _
  · exact h.refl s

theorem carryAnswered {kind : ReqKind} {apply : Request → State → Answer × State} (ha : ∀ r t, R t (apply r t).2) (s : State) :
    R s (Machine.carryForward kind (answered apply) s) := h.carryForward (fun r t => h.trans (ha r t) (h.answer _ _ _)) s

theorem carryRead {kind : ReqKind} {apply : Request → State → Answer × State} (ha : ∀ r t, (apply r t).2 = t) (s : State) :
    R s (Machine.carryForward kind (answered apply) s) := h.carryAnswered (fun r t => by rw [ha]; exact h.refl t) s

theorem onBranch {b : Branch} {f : BranchState → BranchState} (s : State) (hf : ∀ x, (f x).fault = x.fault := by intro; rfl) :
    R s (onBranch b f s) := h.only (onBranch_faultKept hf) (by decide)

/-! ## The display (chapter 6) -/

theorem renewShadows (es : List MapEntry) (s : State) : R s (es.foldl (fun t e => Machine.renewShadow e.pos t) s) :=
  h.foldl (fun t e => h.renewShadow e.pos t) es s

theorem lingerExpire {s : State} {pos : SlotPos} {x : SlotState} (hx : s.slotAt pos = some x) : R s (lingerExpire x s) := by
  cases hg : s.groupAtPosition x with
  | none => unfold Machine.lingerExpire; rw [hg]; exact h.linger hx (by simp)
  | some g => rw [lingerExpire_eq hg]; exact h.trans (h.trans (h.lingered hx hg) (h.renewShadow _ _)) (h.offer _ _)

theorem judgeOne (oldBase : Nat) (t : State) (e : MapEntry) : R t (judgeOne oldBase t e) := by
  unfold Machine.judgeOne; split
  · exact h.refl t
  rename_i x hx
  split
  · exact h.linger hx (by simp)
  split
  · rename_i g hg
    simp only; split
    · exact h.event_at (h.lingerExpire (pos := e.pos) hx)
    · exact h.linger hx fun _ => by rw [hg]; rfl
  · rename_i g hg
    split
    · exact h.linger hx fun _ => by rw [hg]; rfl
    · exact h.refl t
  · exact h.refl t

theorem judgeLinger (oldBase : Nat) (s : State) : R s (judgeLinger oldBase s) := by
  rw [judgeLinger_eq]; exact h.foldl (h.judgeOne oldBase) s.locMap s

theorem showFeedback (pos : SlotPos) (sym : Symbol) (s : State) : R s (showFeedback pos sym s) := by
  unfold Machine.showFeedback; split
  · exact h.refl s
  · rename_i x hx; exact h.trans (h.feedback _ hx) (h.renewShadow _ _)

theorem enterOrphaned (s : State) : R s (enterOrphaned s) := h.trans (h.becomeOrphaned s) (h.recomputeWhere _ _)

theorem leaveOrphaned (s : State) : R s (leaveOrphaned s) :=
  h.trans (h.trans (h.endOrphaned s) (h.latched .supervisorBack _ (by decide))) (h.recomputeWhere _ _)

/-! ## The trunk (chapter 1) -/

theorem dropFrame {flag : Option Flag} (hf : ∀ f, flag = some f → f.position < 15) (s : State) : R s (dropFrame flag s) := by
  cases flag with
  | none => exact h.signal _ _ _
  | some f => exact h.trans (h.latched f s (hf f rfl)) (h.signal _ _ _)

theorem forwardFrame (p : Port) (f : Frame) (s : State) : R s (forwardFrame p f s) := by
  simp only [Machine.forwardFrame]; split
  · exact h.dropFrame (by rintro _ ⟨⟩; decide) s
  split
  · exact h.dropFrame (by rintro _ ⟨⟩) s
  split
  · exact h.dropFrame (by rintro _ ⟨⟩; decide) s
  · exact h.trans (h.only (storeFrame_only _ _ _ s) (by decide)) (h.signal _ _ _)

theorem takeDelivery (f : Frame) (s : State) : R s (takeDelivery f s) := by
  unfold Machine.takeDelivery; split
  · exact h.signal _ _ _
  rename_i r _
  split
  · exact h.signal _ _ _
  have admission : OnlyChanges [.silence, .admitted] s { s with silenceSince := s.now, admitted := s.admitted ++ [r] } := by
    intro p; cases p <;> simp [Keeps]
  simp only; split
  · exact h.trans (h.only admission (by decide)) (h.leaveOrphaned _)
  · exact h.only admission (by decide)

theorem deliverFrame (f : Frame) (s : State) : R s (deliverFrame f s) := by
  have recent : ∀ l, OnlyChanges [.recent] s { s with recent := l } := by intro l p; cases p <;> simp [Keeps]
  simp only [Machine.deliverFrame]; split
  · exact h.trans (h.only (recent _) (by decide)) (h.signal _ _ _)
  · exact h.trans (h.trans (h.only (recent _) (by decide)) (h.signal _ _ _)) (h.takeDelivery _ _)

theorem disposeFrame (p : Port) (f : Frame) (s : State) : R s (disposeFrame p f s) := by
  unfold Machine.disposeFrame; split
  · exact h.forwardFrame p f s
  split
  · split
    · exact h.refl s
    · exact h.latched .stationClash s (by decide)
  split
  · exact h.deliverFrame f s
  split
  · exact h.trans (h.deliverFrame f s) (h.forwardFrame p f _)
  · exact h.forwardFrame p f s

theorem takeArrival (p : Port) (s : State) : R s (takeArrival p s) := by
  simp only [Machine.takeArrival]; split
  · exact h.dropFrame (by rintro _ ⟨⟩; decide) s
  split
  · exact h.dropFrame (by rintro _ ⟨⟩; decide) s
  split
  · exact h.dropFrame (by rintro _ ⟨⟩; decide) s
  · exact h.disposeFrame p _ s

/-! ## The branch lines (chapter 8) -/

theorem clearCommand (b : Branch) (s : State) : R s (clearCommand b s) := h.onBranch s

theorem finishDirect (b : Branch) (code : ReplyCode) (s : State) : R s (finishDirect b code s) := by
  unfold Machine.finishDirect; split
  · exact h.refl s
  · exact h.trans (h.onBranch s) (h.answer _ _ _)

theorem markMissing (b : Branch) (m : Module) (s : State) : R s (markMissing b m s) :=
  h.trans (h.trans (h.onBranch s) (h.latched .moduleLost _ (by decide))) (h.recomputeWhere _ _)

theorem endCommand (b : Branch) (c : Command) (s : State) : R s (endCommand b c s) := by
  unfold Machine.endCommand; split
  · exact h.trans (h.clearCommand b s) (h.onBranch _)
  · exact h.trans (h.only (settleOwed_only _ _ _ s) (by decide)) (h.clearCommand b _)
  · exact h.onBranch s
  · exact h.trans (h.clearCommand b s) (h.finishDirect _ _ _)
  · exact h.clearCommand b s

theorem retryOrEnd (b : Branch) (c : Command) (s : State) : R s (retryOrEnd b c s) := by
  unfold Machine.retryOrEnd; split
  · exact h.onBranch s
  · exact h.endCommand b c s

theorem missAttempt (b : Branch) (c : Command) (drew : Bool) (s : State) : R s (missAttempt b c drew s) := by
  have signalled : R s (Machine.signal .moduleMiss none s) := h.signal _ _ _
  simp only [Machine.missAttempt]; split
  · exact h.trans signalled (h.retryOrEnd _ _ _)
  rename_i m _
  have missed := h.trans signalled (h.onBranch (b := b) (f := fun x => x.setModule m.missed) _)
  split
  · exact h.trans missed (h.endCommand _ _ _)
  split
  · exact h.trans (h.trans missed (h.markMissing _ _ _)) (h.endCommand _ _ _)
  · exact h.trans missed (h.retryOrEnd _ _ _)

theorem validReply (b : Branch) (addr : Nat) (s : State) : R s (validReply b addr s) := by
  unfold Machine.validReply; split
  · exact h.refl s
  split
  · unfold moduleReturns
    exact h.trans (h.trans (h.trans (h.onBranch s) (h.latched .moduleFound _ (by decide))) (h.recomputeWhere _ _))
      (h.only (enqueueReturning_only _ _ _) (by decide))
  · exact h.onBranch s

theorem answeredCommand (b : Branch) (addr : Nat) (s : State) : R s (Machine.clearCommand b (Machine.validReply b addr s)) :=
  h.trans (h.validReply b addr s) (h.clearCommand b _)

theorem acknowledge (b : Branch) (c : Command) (s : State) : R s (acknowledge b c s) := by
  simp only [Machine.acknowledge]; split
  · exact h.trans (h.answeredCommand _ _ _) (h.finishDirect _ _ _)
  all_goals exact h.answeredCommand _ _ _

theorem takePollReply (b : Branch) (addr : Nat) (bytes : List Byte) (s : State) : R s (takePollReply b addr bytes s) := by
  have faulty : ∀ (c : Bool) (u : State), R u (if c then Machine.signal .moduleFault none u else u) := by
    intro c u; split
    · exact h.signal _ _ _
    · exact h.refl u
  have lost : ∀ (c : Bool) (u : State), R u (if c then Machine.signal .keysLost none (setFlag .keysLost u) else u) := by
    intro c u; split
    · exact h.trans (h.latched .keysLost u (by decide)) (h.signal _ _ _)
    · exact h.refl u
  exact h.trans (h.trans (h.trans (h.answeredCommand b addr s) (h.onBranch _)) (lost _ _)) (faulty _ _)

theorem advanceScan (b : Branch) (addr found : Nat) (s : State) : R s (advanceScan b addr found s) := by
  simp only [Machine.advanceScan]; split
  · unfold completeScan
    exact h.trans (h.trans (h.trans (h.trans (h.clearCommand b s) (h.latched .scanDone _ (by decide))) (h.offer _ _))
      (h.only (setScanning_only _ _ _) (by decide))) (h.onBranch _)
  · exact h.trans (h.clearCommand b s) (h.onBranch _)

theorem recordIdentity (b : Branch) (addr : Nat) (bytes : List Byte) (s : State) : R s (recordIdentity b addr bytes s) := by
  have notice : ∀ u, R u (noticeModule b addr u) := fun u => h.recomputeWhere _ u
  have found : ∀ u, R u (enqueueFound b addr u) := fun u => h.only (enqueueFound_only b addr u) (by decide)
  have changed : ∀ u, R u (enqueueModule b addr u) := fun u => h.only (enqueueModule_only b addr u) (by decide)
  unfold Machine.recordIdentity; split
  · exact h.trans (h.trans (h.onBranch s) (notice _)) (found _)
  rename_i m _
  have known : R s (identifyModule b addr bytes (Machine.validReply b addr s)) :=
    h.trans (h.validReply b addr s) (h.onBranch _)
  have other : R s (if (m.identified bytes).serial = m.serial then identifyModule b addr bytes (Machine.validReply b addr s)
      else enqueueModule b addr (identifyModule b addr bytes (Machine.validReply b addr s))) := by
    split
    · exact known
    · exact h.trans known (changed _)
  simp only; split
  · exact other
  split
  · exact h.trans (h.trans other (notice _)) (found _)
  · exact h.trans (h.trans other (notice _)) (changed _)

theorem identUnanswered (b : Branch) (addr : Nat) (s : State) : R s (identUnanswered b addr s) := by
  refine h.trans ?_ (h.advanceScan _ _ _ _)
  split
  · exact h.refl s
  split
  · exact h.refl s
  · exact h.markMissing _ _ _

theorem abandonCommand (b : Branch) (c : Command) (taken : Bool) (s : State) : R s (abandonCommand b c taken s) := by
  unfold Machine.abandonCommand; split
  · exact h.trans (h.clearCommand b s) (h.only (enqueueSlot_only _ _) (by decide))
  · exact h.trans (h.only (settleOwed_only _ _ _ s) (by decide)) (h.clearCommand b _)
  · exact h.clearCommand b s
  · exact h.trans (h.clearCommand b s) (h.finishDirect _ _ _)
  · exact h.clearCommand b s

theorem setFault (b : Branch) (stillSending : Bool) (s : State) : R s (setFault b stillSending s) := by
  have tail : ∀ u, R u (Machine.finishDirect b .notOpen (noticeBranch b u)) := fun u =>
    h.trans (h.recomputeWhere _ u) (h.finishDirect _ _ _)
  simp only [Machine.setFault]; split
  · exact h.trans (h.faultSets b s) (tail _)
  split
  · exact h.trans (h.faultSets b s) (tail _)
  · exact h.trans (h.trans (h.faultSets b s) (h.abandonCommand _ _ _ _)) (tail _)

theorem clearFault (b : Branch) (s : State) : R s (clearFault b s) := h.trans (h.faultClears b s) (h.recomputeWhere _ _)

/-! ## The arbiter (section 8.4) -/

theorem startShow (pos : SlotPos) (s : State) : R s (startShow pos s) := by
  have started : R s (countShow pos.branch (noteShown pos (advanceTag pos s))) :=
    h.trans (h.trans (h.onBranch s) (h.onBranch _)) (h.onBranch _)
  have slots : (countShow pos.branch (noteShown pos (advanceTag pos s))).slots = s.slots := by
    simp [countShow, noteShown, advanceTag, Machine.onBranch]
  have groups : (countShow pos.branch (noteShown pos (advanceTag pos s))).groups = s.groups := by
    simp [countShow, noteShown, advanceTag, Machine.onBranch]
  unfold Machine.startShow; simp only; split
  · exact h.trans started (h.onBranch _)
  rename_i x hx
  refine h.trans (h.trans started (h.sent (pos := pos) _ _ (by rw [State.slotAt, slots]; exact hx) ?_)) (h.onBranch _)
  intro i hi
  split at hi
  · cases hi
  · obtain ⟨g, hg, rfl⟩ := Option.map_eq_some_iff.1 hi
    refine ⟨g, ?_, rfl⟩
    rw [← hg]; unfold State.groupAtPosition State.groupOf; rw [groups]

theorem sendDirect (b : Branch) (d : Direct) (s : State) : R s (sendDirect b d s) := by
  have shown : ∀ u, R u (sendCommand b (.direct d.pos d.display) 0 (countShow b (keepDirect b d.pos u))) := fun u =>
    h.trans (h.trans (h.onBranch u) (h.onBranch _)) (h.onBranch _)
  unfold Machine.sendDirect; split
  · exact h.finishDirect _ _ _
  simp only; split
  · exact shown s
  · rename_i x hx; exact h.trans (h.forgets hx) (shown _)

theorem startPoll (b : Branch) (isMissingTurn : Bool) (addr : Nat) (s : State) : R s (startPoll b isMissingTurn addr s) := by
  have turned := h.onBranch (b := b) (f := fun x => { x with
    shows := 0
    turn := (x.turn + 1) % 16
    lastAnswering := if isMissingTurn then x.lastAnswering else some addr
    lastMissing := if isMissingTurn then some addr else x.lastMissing
    lastTurn := some s.now }) s
  exact h.trans turned (h.onBranch (f := fun x => { x with command := some _ }) _)

theorem pollTurn (b : Branch) (s : State) : R s (pollTurn b s) := by
  have poll : ∀ (m : Bool) (addr : Option Nat), R s (addr.elim s fun a => Machine.startPoll b m a s) := fun m addr => by
    cases addr with
    | none => exact h.refl s
    | some a => exact h.startPoll b m a s
  simp only [Machine.pollTurn]; split
  · split
    · exact h.refl s
    · exact poll _ _
  · exact poll _ _

theorem arbitrate (b : Branch) (s : State) : R s (arbitrate b s) := by
  have free : R s (Machine.clearCommand b s) := h.clearCommand b s
  simp only [Machine.arbitrate]; split
  · split
    · exact h.trans (h.trans free (h.onBranch _)) (h.onBranch _)
    · exact h.trans free (h.onBranch _)
  split
  · exact h.trans free (h.sendDirect _ _ _)
  split
  · have passed : R s (Machine.markUnshown b (((Machine.clearCommand b s).branch b).work.takeWhile
        ((Machine.clearCommand b s).branch b).passesOver) (Machine.clearCommand b s)) := h.trans free (h.onBranch _)
    split
    · exact h.trans (h.trans passed (h.onBranch _)) (h.startShow _ _)
    · exact h.trans (h.trans passed (h.onBranch _)) (h.pollTurn _ _)
  · exact h.trans free (h.pollTurn _ _)

/-! ## CONFIG_SET (R34) -/

theorem judgeModule (b : Branch) (addr : Nat) (s : State) : R s (judgeModule b addr s) := by
  unfold Machine.judgeModule; split
  · exact h.refl s
  rename_i m _
  split
  · refine h.trans (h.markMissing b m s) ?_
    simp only; split
    · exact h.refl _
    split
    · exact h.endCommand _ _ _
    · exact h.refl _
  · exact h.refl s

theorem configEffects (old : Params) (s : State) : R s (configEffects old s) := by
  have linger : R s (applyLingerChange old s) := by
    unfold applyLingerChange; split
    · exact h.judgeLinger _ _
    · exact h.refl s
  have combine : ∀ u, R u (applyCombineChange old u) := fun u => by
    unfold applyCombineChange; split
    · exact h.trans (h.rejudgeCombine u) (h.judgePacker _)
    · exact h.refl u
  have silence : ∀ u, R u (applySilenceChange old u) := fun u => by
    have started : R u (startSilence old u) := h.only (startSilence_only old u) (by decide)
    rw [applySilenceChange_eq]; split
    · exact h.trans started (h.enterOrphaned _)
    · exact started
  have miss : ∀ u, R u (applyMissChange old u) := fun u =>
    applyMissChange_induct (P := R u) (fun b addr t hu => h.trans hu (h.judgeModule b addr t)) old (h.refl u)
  exact h.trans (h.trans (h.trans linger (combine _)) (silence _)) (miss _)

theorem applyConfigSet (r : Request) (s : State) : R s (applyConfigSet r s).2 := by
  cases hb : badParameter r with
  | some index => unfold Machine.applyConfigSet; rw [hb]; exact h.refl s
  | none =>
    have held : OnlyChanges [.params] s { s with params := newParams r s.params } := by intro p; cases p <;> simp [Keeps]
    rw [applyConfigSet_passes s hb]
    exact h.trans (h.only held (by decide)) (h.configEffects _ _)

/-! ## Pickers and areas (chapters 3 and 4) -/

theorem areasSwitched (changed locked : BitVec 16) (s : State) : R s (areasSwitched changed locked s) :=
  h.trans (h.only (areasWritten_only locked s) (by decide)) (h.recomputeWhere _ _)

theorem samplePace (id : Nat) (a b : ClockValue) (s : State) : R s (samplePace id a b s) := by
  unfold Machine.samplePace; split
  · exact h.refl s
  · rename_i p hp; exact h.setPicker (pickerOf_mem hp).1 rfl rfl

theorem pickerNotice (old new : Picker) (s : State) : R s (pickerNotice old new s) := by
  unfold Machine.pickerNotice; split
  · exact h.recomputeWhere _ s
  split
  · exact h.renewShadows _ s
  · exact h.refl s

theorem applyPickerSet (r : Request) (s : State) : R s (applyPickerSet r s).2 := by
  unfold Machine.applyPickerSet; split
  · exact h.refl s
  simp only; split
  · exact h.refl s
  · split
    · exact h.refl s
    split
    · rename_i p hp
      exact h.trans (h.setPicker (q := { p with colour := (pickerColour r.colourByte).getD .white, priority := r.priorityByte })
        (pickerOf_mem hp).1 rfl rfl) (h.pickerNotice _ _ _)
    · rename_i hp
      exact h.insertPicker (fun p hm he => pickerOf_eq_none.1 hp ⟨p, hm, he⟩) rfl

theorem setPickerState (goal : PickerState) (r : Request) (s : State) : R s (setPickerState goal r s).2 := by
  unfold Machine.setPickerState; split
  · exact h.refl s
  rename_i p hp
  simp only; split
  · exact h.refl s
  · exact h.trans (h.setPicker (q := { p with state := goal }) (pickerOf_mem hp).1 rfl rfl) (h.recomputeWhere _ _)

/-! ## Keys (chapter 7) -/

theorem refusePress (e : MapEntry) (k : KeyEvent) (why : PressRefusal) (s : State) : R s (refusePress e k why s) := by
  have shown := h.showFeedback k.pos why.symbol s
  cases why with
  | stale | locked => exact h.trans (h.trans shown (h.offer _ _)) (h.signal _ _ _)
  | orphaned => exact h.trans shown (h.offer _ _)
  | busy => exact h.trans shown (h.signal _ _ _)

theorem takeConfirm (k : KeyEvent) (s : State) : R s (takeConfirm k s) := by
  unfold Machine.takeConfirm; split
  · exact h.signal _ _ _
  split
  · exact h.refusePress _ _ _ _
  · rename_i g n hd
    obtain ⟨i, hi⟩ := decideConfirm_accepted hd
    exact h.confirm n (groupOf_mem hi).1

theorem takeAdjust (k : KeyEvent) (s : State) : R s (takeAdjust k s) := by
  unfold Machine.takeAdjust; split
  · exact h.signal _ _ _
  split
  · exact h.signal _ _ _
  · rename_i g hg; exact h.adjust k (adjustTarget_mem hg)

/-! ## Every command -/

theorem serveAisleReset (lines : LineLevels) (r : Request) (s : State) : R s (serveAisleReset lines r s) := by
  unfold Machine.serveAisleReset; split
  · exact h.reset _ _ _ _
  have sends := originate_only r.origin replyCodeKind true .requestHandler (replyPayload r (Answer.ok [])) s
  revert sends
  generalize originate r.origin replyCodeKind true .requestHandler (replyPayload r (Answer.ok [])) s = o
  rcases o with ⟨o, t⟩
  intro sends
  cases o with
  | refused => exact h.trans (h.trans (h.only sends (by decide)) (h.latched .replyDrop _ (by decide))) (h.reset _ _ _ _)
  | accepted ref =>
    have pend : OnlyChanges [.pendingReset] t { t with pendingReset := .awaiting ref } := by intro p; cases p <;> simp [Keeps]
    exact h.trans (h.only sends (by decide)) (h.only pend (by decide))

theorem serveLampDirect (r : Request) (s : State) : R s (serveLampDirect r s) := by
  unfold Machine.serveLampDirect; split
  · exact h.answer _ _ _
  · exact h.onBranch s

theorem applyBranchScan (r : Request) (s : State) : R s (applyBranchScan r s).2 := by
  unfold Machine.applyBranchScan; split
  · exact h.refl s
  split
  · exact h.refl s
  · exact h.trans (h.onBranch s) (h.only (setScanning_only _ _ _) (by decide))

theorem execIdentReply {b : Branch} {bytes : Option (List Byte)} {s t : State} (he : execIdentReply b bytes s = .next t) : R s t := by
  rcases execIdentReply_event he with rfl | ⟨c, addr, -, -, ⟨bs, -, rfl⟩ | rfl⟩
  · exact h.refl _
  · exact h.event (fun u => h.trans (h.recordIdentity b addr bs u) (h.advanceScan _ _ _ _)) _
  · exact h.event (fun u => h.identUnanswered b addr u) _

theorem execCombineExpiry {s t : State} (he : execCombineExpiry s = .next t) : R s t := by
  unfold Machine.execCombineExpiry at he
  split at he
  · rw [next_inj he]; exact h.refl s
  rename_i c hc
  split at he <;> rw [next_inj he]
  · exact h.event_at (h.trans (h.expireCombine (s := beginEvent s) hc) (h.judgePacker _))
  · exact h.refl s

theorem execRoomNoticeBuild {s t : State} (he : execRoomNoticeBuild s = .next t) : R s t := by
  have used : ∀ u : State, OnlyChanges [.roomNotices] u { u with roomNotices := u.roomNotices - 1 } := by
    intro u p; cases p <;> simp [Keeps]
  unfold Machine.execRoomNoticeBuild at he
  split at he <;> rw [next_inj he]
  · exact h.refl s
  · exact h.event (fun u => h.trans (h.only (used u) (by decide)) (h.judgePacker _)) s

theorem exec (c : Instr) (s t : State) (he : exec c s = .next t) : R s t := by
  cases c with
  | powerOn straps lines => rw [next_inj he]; exact h.event (h.reset _ _ _) s
  | resetPin straps lines => rw [next_inj he]; exact h.event (h.reset _ _ _) s
  | softReset lines =>
    rcases execSoftReset_event he with rfl | rfl
    · exact h.refl _
    · exact h.event (h.reset _ _ _) _
  | aisleReset lines => rw [next_inj he]; exact h.carryForward (h.serveAisleReset lines) s
  | lineDown p =>
    replace he : execLineDown p s = .next t := he
    unfold execLineDown at he
    split at he <;> rw [next_inj he]
    · exact h.event (h.lineDown p) s
    · exact h.refl s
  | lineUp p =>
    replace he : execLineUp p s = .next t := he
    unfold execLineUp at he
    split at he <;> rw [next_inj he]
    · exact h.refl s
    · exact h.event (h.lineUp p) s
  | frameArrival p bytes =>
    have filled : R s (fillBuffer p bytes s) := h.only (fillBuffer_only p bytes s) (by decide)
    have freed : ∀ u, R u (freeBuffer p u) := fun u => h.only (freeBuffer_only p u) (by decide)
    rcases execFrameArrival_event he with rfl | rfl
    · exact h.trans filled (freed _)
    · exact h.trans filled (h.event (fun u => h.trans (h.takeArrival p u) (freed _)) _)
  | transmissionEnd p =>
    replace he : execTransmissionEnd p s = .next t := he
    unfold execTransmissionEnd at he
    split at he <;> rw [next_inj he]
    · exact h.refl s
    · exact h.event (fun u => h.only (endTransmission_only p _ u) (by decide)) s
  | roomNoticeBuild => exact h.execRoomNoticeBuild he
  | combineExpiry => exact h.execCombineExpiry he
  | taskPost => rw [next_inj he]; exact h.carryAnswered h.taskPost s
  | taskCancel => rw [next_inj he]; exact h.carryAnswered h.taskCancel s
  | taskAmend => rw [next_inj he]; exact h.carryAnswered h.taskAmend s
  | taskQuery => rw [next_inj he]; exact h.carryRead (fun r u => by unfold applyTaskQuery; split <;> [rfl; (split <;> rfl)]) s
  | pickerSet => rw [next_inj he]; exact h.carryAnswered h.applyPickerSet s
  | pickerPause => rw [next_inj he]; exact h.carryAnswered (h.setPickerState .paused) s
  | pickerResume => rw [next_inj he]; exact h.carryAnswered (h.setPickerState .active) s
  | pickerLeave => rw [next_inj he]; exact h.carryAnswered h.pickerLeave s
  | pickerRead =>
    rw [next_inj he]; exact h.carryRead (fun r u => by unfold applyPickerRead; split <;> [rfl; (split <;> rfl)]) s
  | areaLock => rw [next_inj he]; exact h.carryAnswered (fun r u => by rw [applyAreaLock_eq]; exact h.areasSwitched _ _ u) s
  | areaUnlock => rw [next_inj he]; exact h.carryAnswered (fun r u => by rw [applyAreaUnlock_eq]; exact h.areasSwitched _ _ u) s
  | mapLoad => rw [next_inj he]; exact h.carryAnswered h.mapLoad s
  | mapRemove => rw [next_inj he]; exact h.carryAnswered h.mapRemove s
  | mapRead => rw [next_inj he]; exact h.carryRead (fun _ _ => rfl) s
  | configSet => rw [next_inj he]; exact h.carryAnswered h.applyConfigSet s
  | configRead => rw [next_inj he]; exact h.carryRead (fun _ _ => rfl) s
  | rightsSet =>
    have set : ∀ (u : State) (rs : List RightsEntry), OnlyChanges [.rights] u { u with rights := rs } := by
      intro u rs p; cases p <;> simp [Keeps]
    rw [next_inj he]
    refine h.carryAnswered (fun r u => ?_) s
    unfold applyRightsSet; split
    · exact h.refl u
    · exact h.only (set u _) (by decide)
  | timeSet => rw [next_inj he]; exact h.carryAnswered (fun r u => h.time u.now r.clockValue (by decide)) s
  | counterSet =>
    have set : ∀ (u : State) (c : Counters), OnlyChanges [.counters] u { u with counters := c } := by
      intro u c p; cases p <;> simp [Keeps]
    rw [next_inj he]
    refine h.carryAnswered (fun r u => ?_) s
    unfold applyCounterSet; split
    · exact h.only (set u _) (by decide)
    · exact h.refl u
  | counterRead => rw [next_inj he]; exact h.carryRead (fun _ _ => rfl) s
  | attentionMask =>
    have set : ∀ (u : State) (m : BitVec 21), OnlyChanges [.mask] u { u with mask := m } := by intro u m p; cases p <;> simp [Keeps]
    rw [next_inj he]; exact h.carryAnswered (fun r u => h.only (set u r.flagSet) (by decide)) s
  | attentionClear => rw [next_inj he]; exact h.carryAnswered (fun r u => h.clearLatched r.flagSet u) s
  | attentionRead => rw [next_inj he]; exact h.carryRead (fun _ _ => rfl) s
  | statusRead => rw [next_inj he]; exact h.carryRead (fun _ _ => rfl) s
  | rosterRead =>
    rw [next_inj he]; exact h.carryRead (fun r u => by unfold applyRosterRead; split <;> [rfl; (split <;> rfl)]) s
  | branchScan => rw [next_inj he]; exact h.carryAnswered h.applyBranchScan s
  | lampDirect => rw [next_inj he]; exact h.carryForward h.serveLampDirect s
  | silenceLimitExpiry =>
    rcases execSilenceLimitExpiry_event he with rfl | ⟨-, rfl⟩
    · exact h.refl _
    · exact h.event h.enterOrphaned _
  | rotationExpiry pos =>
    rcases execRotationExpiry_event he with rfl | ⟨x, timer, hx, ht, rfl⟩
    · exact h.refl _
    · exact h.event_at (h.rotated (pos := pos) hx (by rw [ht]; rfl))
  | feedbackExpiry pos =>
    rcases execFeedbackExpiry_event he with rfl | ⟨x, hx, rfl⟩
    · exact h.refl _
    · exact h.event_at (h.trans (h.feedback (pos := pos) none hx) (h.renewShadow _ _))
  | lingerExpiry pos =>
    rcases execLingerExpiry_event he with rfl | ⟨x, timer, hx, -, rfl⟩
    · exact h.refl _
    · exact h.event_at (h.lingerExpire (pos := pos) hx)
  | confirmKey b =>
    rcases execConfirmKey_event he with rfl | ⟨k, rest, -, -, rfl⟩
    · exact h.refl _
    · exact h.event (fun u => h.trans (h.only (takeKey_only b _ u) (by decide)) (h.takeConfirm _ _)) _
  | adjustKey b =>
    rcases execAdjustKey_event he with rfl | ⟨k, rest, -, -, rfl⟩
    · exact h.refl _
    · exact h.event (fun u => h.trans (h.only (takeKey_only b _ u) (by decide)) (h.takeAdjust _ _)) _
  | aisleClockAdvance => rw [next_inj he]; exact h.time _ _ (by decide)
  | branchArbiter b =>
    rcases execBranchArbiter_event he with rfl | ⟨-, rfl⟩
    · exact h.refl _
    · exact h.event (h.arbitrate b) _
  | missingTurnSpacing b =>
    rcases execMissingTurnSpacing_event he with rfl | rfl
    · exact h.refl _
    · exact h.event (h.arbitrate b) _
  | showAcknowledge b bytes =>
    rcases execShowAcknowledge_event he with rfl | ⟨c, -, rfl⟩
    · exact h.refl _
    · exact h.event (h.acknowledge b c) _
  | pollReply b bytes =>
    rcases execPollReply_event he with rfl | ⟨addr, -, rfl⟩
    · exact h.refl _
    · exact h.event (h.takePollReply b addr bytes) _
  | identReply b bytes => exact h.execIdentReply he
  | invalidReply b cutOff bytes =>
    rcases execInvalidReply_event he with rfl | ⟨c, -, rfl⟩
    · exact h.refl _
    · exact h.event (h.missAttempt b c true) _
  | replyTimeout b =>
    rcases execReplyTimeout_event he with rfl | ⟨c, -, rfl⟩
    · exact h.refl _
    · exact h.event (h.missAttempt b c false) _
  | branchFaultSet b stillSending =>
    rcases execBranchFaultSet_event he with rfl | rfl
    · exact h.refl _
    · exact h.event (h.setFault b stillSending) _
  | branchFaultClear b =>
    rcases execBranchFaultClear_event he with rfl | rfl
    · exact h.refl _
    · exact h.event (h.clearFault b) _

/-- What every operation keeps, every step keeps. -/
theorem step {s t : State} (he : step s = .next t) : R s t := by
  unfold Machine.step at he
  split at he
  · rw [next_inj he]; unfold tick; split
    · rename_i hr; exact h.time _ _ hr
    · exact h.time _ _ (by decide)
  · rename_i c rest _
    have wait : OnlyChanges [.waiting] s { s with pending := rest } := by intro p; cases p <;> simp [Keeps]
    exact h.trans (h.only wait (by decide)) (h.exec c _ t he)

end

end KeptThroughout

end Sys2Proof.Machine

/-!
PROOFS. What every step keeps of the task table, the groups' counts and the prescaler (O55).
-/

namespace Sys2Proof.Machine

open Sys2Proof

/-! ## One group's counts (R71, R72) -/

/-- A group's counts are in order: D at most R, R at most 9999, at most eight members. -/
def CountsFit (g : Group) : Prop :=
  g.display ≤ g.remaining ∧ g.remaining ≤ Config.maxQuantity ∧ g.members.length ≤ Config.groupMembers

theorem CountsFit.remainingChange {g : Group} {newR : Nat} (hr : newR ≤ Config.maxQuantity) (hm : g.members.length ≤ Config.groupMembers) :
    CountsFit (g.remainingChange newR) := by
  refine ⟨?_, hr, hm⟩
  simp only [Group.remainingChange]; split
  · exact le_refl _
  · exact min_le_right _ _

theorem CountsFit.join {g : Group} {t : TaskItem} (h : CountsFit g) (ht : g.takes t = true) : CountsFit (g.join t.number t.quantity) := by
  obtain ⟨hd, -, -⟩ := h
  simp only [Group.takes, Bool.and_eq_true, decide_eq_true_eq] at ht
  obtain ⟨⟨-, hm⟩, hr⟩ := ht
  refine ⟨?_, hr, by simpa [Group.join] using hm⟩
  simp only [Group.join]; split
  · exact le_refl _
  · omega

theorem CountsFit.start {t : TaskItem} (h : t.quantity ≤ 9999) (id : Nat) : CountsFit (Group.start id t) :=
  ⟨le_refl _, h, by simp [Group.start, Config.groupMembers]⟩

theorem Restates.countsFit {φ : Group → Group} (h : Restates φ) {g : Group} (hg : CountsFit g) : CountsFit (φ g) := by
  rw [h g]; exact hg

theorem adjustedCount_le {key : Key} {g : Group} (h : g.display ≤ g.remaining) : adjustedCount key g ≤ g.remaining := by
  cases key <;> simp only [adjustedCount] <;> omega

theorem GroupsOk.setGroup {s : State} {x : Group} (h : GroupsOk s) (hx : CountsFit x) : GroupsOk (s.setGroup x) := by
  intro g hg
  obtain ⟨k, hk, rfl⟩ := List.mem_map.1 hg
  split
  · exact hx
  · exact h k hk

theorem GroupsOk.of_sublist {s t : State} (h : GroupsOk s) (hs : t.groups.Sublist s.groups) : GroupsOk t := fun g hg => h g (hs.subset hg)

/-! ## From state to state -/

/-- From `s` to `t` the task table, the groups' counts and the prescaler each stay in order. -/
structure CountsKept (s t : State) : Prop where
  tasks : TasksOk s → TasksOk t
  groups : GroupsOk s → GroupsOk t
  residue : s.residue < 16000 → t.residue < 16000

/-- The parts that these counts stand in. -/
def countParts : List Part := [.clock, .tasks, .groups]

theorem OnlyChanges.countsKept {ps : List Part} {s t : State} (h : OnlyChanges ps s t) (hp : ∀ p ∈ countParts, p ∉ ps) : CountsKept s t := by
  have ht : t.tasks = s.tasks := h.keeps (hp .tasks (by decide))
  have hg : t.groups = s.groups := h.keeps (hp .groups (by decide))
  have hc := h.keeps (hp .clock (by decide))
  exact ⟨fun ok => by unfold TasksOk; rw [ht]; exact ok, fun ok => by unfold GroupsOk; rw [hg]; exact ok, fun ok => hc.2 ▸ ok⟩

theorem counts_steady : Steady countParts CountsKept where
  only h hp := h.countsKept hp
  trans h k := ⟨k.tasks ∘ h.tasks, k.groups ∘ h.groups, k.residue ∘ h.residue⟩
  sends d k e r p s := (originate_only d k e r p s).countsKept (by decide)
  away := by decide

/-- A change of the task table and the groups alone. -/
theorem CountsKept.of_only {ps : List Part} {s t : State} (h : OnlyChanges ps s t) (hp : Part.clock ∉ ps) (ht : TasksOk s → TasksOk t)
    (hg : GroupsOk s → GroupsOk t) : CountsKept s t := ⟨ht, hg, fun ok => (h.keeps hp).2 ▸ ok⟩

theorem TasksOk.of_sublist {s t : State} (h : TasksOk s) (hs : t.tasks.Sublist s.tasks) : TasksOk t :=
  ⟨hs.length_le.trans h.1, h.2.sublist (hs.map _)⟩

/-! ## The display -/

theorem recompute_counts (e : MapEntry) (s : State) : CountsKept s (recompute e s) := by
  cases hx : s.slotAt e.pos with
  | none => rw [recompute_unmapped hx]; exact counts_steady.refl s
  | some x =>
    have frame := recompute_only e s
    have tasks : (recompute e s).tasks = s.tasks := frame.keeps (p := .tasks) (by decide)
    refine .of_only frame (by decide) (fun ok => by unfold TasksOk; rw [tasks]; exact ok) fun ok g hg => ?_
    rw [(recompute_slotAt hx).1] at hg
    obtain ⟨k, hk, rfl⟩ := List.mem_map.1 hg
    exact (settledAt_restates e s).countsFit (ok k hk)

theorem recomputeWhere_counts (p : MapEntry → Bool) (s : State) : CountsKept s (recomputeWhere p s) :=
  counts_steady.foldl (fun t e => recompute_counts e t) _ s

/-- A group's record is replaced by one whose counts are in order. -/
theorem setGroup_counts {s : State} {x : Group} (h : GroupsOk s → CountsFit x) : CountsKept s (s.setGroup x) :=
  .of_only (setGroup_only s x) (by decide) id fun ok => ok.setGroup (h ok)

theorem lingerShown_counts {s : State} {g : Group} (x : SlotState) (hg : g ∈ s.groups) : CountsKept s (lingerShown x g s) :=
  counts_steady.trans (setGroup_counts (x := { g with linger := true }) fun ok => ok g hg) ((setSlot_only _ _).countsKept (by decide))

theorem removeGroup_counts (g : Group) (s : State) : CountsKept s (removeGroup g s) := by
  have frame := removeGroup_only g s
  have tasks : (removeGroup g s).tasks = s.tasks := frame.keeps (p := .tasks) (by decide)
  refine .of_only frame (by decide) (fun ok => by unfold TasksOk; rw [tasks]; exact ok) fun ok => ok.of_sublist ?_
  rw [removeGroup_groups]; exact List.filter_sublist

/-! ## Tasks (R70, R79 to R83, R86 to R88) -/

theorem closeTask_counts (t : Task) (s : State) : CountsKept s (closeTask t s) := by
  refine .of_only (closeTask_only t s) (by decide) (fun ok => ok.of_sublist ?_) fun ok => ok.of_sublist ?_
  · rw [closeTask_tasks]; exact List.filter_sublist
  · rw [closeTask_groups]

theorem judgeTasksHigh_counts (s : State) : CountsKept s (judgeTasksHigh s) := (judgeTasksHigh_only s).countsKept (by decide)

theorem TasksOk.post {t : TaskItem} {s : State} (ok : TasksOk s) (h : taskRefusal t s = none) : TasksOk (postTask t s).2 := by
  have fits := taskRefusal_none h
  have table : (postTask t s).2.tasks = s.tasks ++ [taskRecord t s] := postTask_tasks h
  refine ⟨?_, ?_⟩
  · rw [table, List.length_append]; exact fits.room
  · rw [table, List.map_append]
    refine List.nodup_append.2 ⟨ok.2, by simp, fun n hn m hm => ?_⟩
    obtain ⟨y, hy, rfl⟩ := List.mem_map.1 hn
    obtain rfl : m = t.number := by simpa [taskRecord] using hm
    exact fits.fresh y hy

theorem GroupsOk.post {t : TaskItem} {s : State} (ok : GroupsOk s) (h : taskRefusal t s = none) : GroupsOk (postTask t s).2 := by
  unfold GroupsOk
  cases hj : joinTarget t s with
  | some g =>
    obtain ⟨hm, -, htakes⟩ := joinTarget_some hj
    rw [(postTask_joins h hj).2.2]
    exact ok.setGroup (CountsFit.join (ok g hm) htakes)
  | none =>
    rw [(postTask_starts h hj).2.2]
    intro k hk
    rcases List.mem_append.1 hk with hk | hk
    · exact ok k hk
    · rw [List.mem_singleton.1 hk]; exact CountsFit.start (taskRefusal_none h).quantity.2 _

theorem postTask_counts (t : TaskItem) (s : State) : CountsKept s (postTask t s).2 := by
  cases h : taskRefusal t s with
  | some code => rw [postTask_refused h]; exact counts_steady.refl s
  | none => exact .of_only (postTask_changes h) (by decide) (fun ok => ok.post h) fun ok => ok.post h

theorem applyTaskPost_counts (r : Request) (s : State) : CountsKept s (applyTaskPost r s).2 := by
  rw [applyTaskPost_eq]
  exact counts_steady.trans (counts_steady.foldl (fun u x => postTask_counts x u) r.taskItems s) (recomputeWhere_counts _ _)

theorem cancelTask_counts (n : Nat) (s : State) : CountsKept s (cancelTask n s).2.2 := by
  unfold cancelTask; split
  · exact counts_steady.refl s
  rename_i t _
  refine counts_steady.trans (closeTask_counts t s) ?_
  simp only; split
  · exact counts_steady.refl _
  rename_i g hfound
  split
  · exact removeGroup_counts _ _
  · refine setGroup_counts fun ok => ?_
    obtain ⟨-, hr, hm⟩ := ok g (groupOf_mem hfound).1
    exact CountsFit.remainingChange ((Nat.sub_le _ _).trans hr) ((List.length_filter_le _ _).trans hm)

theorem applyTaskCancel_counts (r : Request) (s : State) : CountsKept s (applyTaskCancel r s).2 := by
  rw [applyTaskCancel_eq]
  exact counts_steady.trans (counts_steady.trans (counts_steady.foldl (fun u n => cancelTask_counts n u) r.numberItems s)
    (judgeTasksHigh_counts _)) (recomputeWhere_counts _ _)

/-- A task's quantity changes and its number stays (R88). -/
theorem amendQuantity_counts (n q : Nat) (s : State) :
    CountsKept s { s with tasks := s.tasks.map fun x => if x.number = n then { x with quantity := q } else x } := by
  refine ⟨fun ok => ⟨by simpa using ok.1, ?_⟩, id, id⟩
  have numbers : (s.tasks.map fun x => if x.number = n then { x with quantity := q } else x).map (·.number) = s.tasks.map (·.number) := by
    rw [List.map_map]
    exact List.map_congr_left fun x _ => by simp only [Function.comp]; split <;> rfl
  show ((s.tasks.map fun x => if x.number = n then { x with quantity := q } else x).map (·.number)).Nodup
  rw [numbers]; exact ok.2

theorem applyTaskAmend_counts (r : Request) (s : State) : CountsKept s (applyTaskAmend r s).2 := by
  unfold applyTaskAmend; split
  · exact counts_steady.refl s
  simp only; split
  · exact counts_steady.refl s
  split
  · exact counts_steady.refl s
  rename_i g hfound
  split
  · exact counts_steady.refl s
  rename_i hr
  simp only; split
  · exact amendQuantity_counts _ _ s
  · refine counts_steady.trans (counts_steady.trans (amendQuantity_counts _ _ s) (setGroup_counts fun ok => ?_)) (recomputeWhere_counts _ _)
    exact CountsFit.remainingChange (Nat.le_of_not_lt hr) (ok g (groupOf_mem hfound).1).2.2

/-! ## Pickers and keys (R64, R123, R132 to R136) -/

theorem applyPickerLeave_counts (r : Request) (s : State) : CountsKept s (applyPickerLeave r s).2 := by
  cases hp : s.pickerOf r.pickerId with
  | none => rw [applyPickerLeave_unknown hp]; exact counts_steady.refl s
  | some p =>
    have withdrawn : CountsKept s { s with tasks := s.tasks.filter fun t => t.picker != p.id } :=
      ⟨fun ok => ok.of_sublist List.filter_sublist, id, id⟩
    have removed := counts_steady.trans withdrawn (counts_steady.foldl (fun u g => removeGroup_counts g u) (ownGroups p.id s) _)
    have redrawn := counts_steady.trans (counts_steady.trans removed (judgeTasksHigh_counts _))
      (recomputeWhere_counts (fun e => ((ownGroups p.id s).map (·.loc)).contains e.code) _)
    rw [applyPickerLeave_known hp]
    exact counts_steady.trans redrawn ⟨id, id, id⟩

theorem closeMember_counts (g : Group) (t : Task) (share : Nat) (s : State) : CountsKept s (closeMember g t share s) := by
  simp only [closeMember]; split
  · exact counts_steady.trans (counts_steady.trans (closeTask_counts t s) (counts_steady.offer _ _)) (counts_steady.signal _ _ _)
  · exact counts_steady.trans (closeTask_counts t s) (counts_steady.offer _ _)

theorem acceptConfirm_counts (g : Group) (n : Nat) (s : State) : CountsKept s (acceptConfirm g n s) := by
  have closed : CountsKept s (groupClosed g n s) :=
    counts_steady.trans (counts_steady.foldl (fun u m => closeMember_counts g m.1 m.2 u) (creditedShares g n s) s)
      (removeGroup_counts _ _)
  have paced : CountsKept s (g.firstShown.elim (groupClosed g n s) fun shown => samplePace g.picker shown s.clock (groupClosed g n s)) := by
    cases g.firstShown with
    | none => exact closed
    | some shown => exact counts_steady.trans closed ((samplePace_only _ _ _ _).countsKept (by decide))
  exact counts_steady.trans (counts_steady.trans (counts_steady.trans paced (judgeTasksHigh_counts _)) (counts_steady.signal _ _ _))
    (recomputeWhere_counts _ _)

theorem acceptAdjust_counts {s : State} {g : Group} (k : KeyEvent) (hg : g ∈ s.groups) : CountsKept s (acceptAdjust k g s) := by
  have held : ∀ u : State, CountsKept u (match u.slotAt k.pos with | none => u | some x => u.setSlot (x.heldFor g u)) := by
    intro u; split
    · exact counts_steady.refl u
    · exact (setSlot_only _ _).countsKept (by decide)
  simp only [acceptAdjust]
  refine counts_steady.trans ?_ (counts_steady.signal _ _ _)
  split
  · refine counts_steady.trans (counts_steady.trans (setGroup_counts fun ok => ?_) (held _)) (recomputeWhere_counts _ _)
    obtain ⟨hd, hr, hm⟩ := ok g hg
    exact ⟨adjustedCount_le hd, hr, hm⟩
  · exact counts_steady.trans (held _) ((renewShadow_only _ _).countsKept (by decide))

/-! ## Every command -/

theorem resetTo_counts (station : Nat) (cause : ResetCause) (lines : LineLevels) (s : State) :
    CountsKept s (resetTo station cause lines s) := by
  have frame := resetTo_only station cause lines s
  have fresh : CountsKept s (resetState station cause lines s) := by
    refine ⟨fun _ => ⟨?_, ?_⟩, fun _ g hg => ?_, fun _ => ?_⟩
    · exact Nat.zero_le _
    · exact List.nodup_nil
    · cases hg
    · show 0 < 16000; decide
  exact counts_steady.trans fresh (frame.countsKept (by decide))

theorem counts_kept : KeptThroughout CountsKept where
  trans := counts_steady.trans
  only h hp := h.countsKept fun p hv => hp p (by revert p; decide)
  latched f s _ := counts_steady.setFlag f s
  clearLatched _ _ := ⟨id, id, id⟩
  signal := counts_steady.signal
  offer := counts_steady.offer
  judgePacker s := (judgePacker_only s).countsKept (by decide)
  rejudgeCombine _ := ⟨id, id, id⟩
  expireCombine _ := ⟨id, id, id⟩
  endEvent := counts_steady.endEvent
  recomputeWhere := recomputeWhere_counts
  renewShadow pos s := (renewShadow_only pos s).countsKept (by decide)
  feedback _ _ := ⟨id, id, id⟩
  linger _ _ := ⟨id, id, id⟩
  lingered _ hg := lingerShown_counts _ (groupAtPosition_mem hg)
  rotated _ _ := (rotationExpire_only _ _).countsKept (by decide)
  sent _ _ _ _ := ⟨id, id, id⟩
  forgets _ := ⟨id, id, id⟩
  becomeOrphaned s := counts_steady.trans (t := { s with orphaned := true }) ⟨id, id, id⟩ (counts_steady.setFlag .orphaned _)
  endOrphaned _ := ⟨id, id, id⟩
  faultSets b s := counts_steady.trans ((holdFault_only b true s).countsKept (by decide)) (counts_steady.setFlag (branchFaultFlag b) _)
  faultClears b s := counts_steady.trans ((holdFault_only b false s).countsKept (by decide))
    ((clearFlag_only (branchFaultFlag b) _).countsKept (by decide))
  lineDown p s := counts_steady.trans ((flushPort_only p s).countsKept (by decide)) (counts_steady.setFlag (linkFlag p) _)
  lineUp p s := (raisePort_only p s).countsKept (by decide)
  setPicker _ _ _ := ⟨id, id, id⟩
  insertPicker _ _ := ⟨id, id, id⟩
  pickerLeave := applyPickerLeave_counts
  taskPost := applyTaskPost_counts
  taskCancel := applyTaskCancel_counts
  taskAmend := applyTaskAmend_counts
  mapLoad r s := (applyMapLoad_only r s).countsKept (by decide)
  mapRemove r s := (applyMapRemove_only r s).countsKept (by decide)
  confirm n _ := acceptConfirm_counts _ n _
  adjust k hg := acceptAdjust_counts k hg
  time _ _ hr := ⟨id, id, fun _ => hr⟩
  reset := resetTo_counts

end Sys2Proof.Machine

/-!
PROOFS. What every step keeps of the live flags and the report packer, and O55.
-/

namespace Sys2Proof.Machine

open Sys2Proof

/-! ## The live flags (R185) -/

/-- The live flags stand behind the fifteen latched ones in the table of R185. -/
abbrev Flag.live (f : Flag) : Prop := 15 ≤ f.position

/-- The condition that a live flag follows (R185). -/
def State.liveCondition (s : State) : Flag → Bool
  | .orphaned => s.orphaned
  | .linkADown => !s.portA.up
  | .linkBDown => !s.portB.up
  | .branchLFault => s.branchL.fault
  | .branchRFault => s.branchR.fault
  | .tasksHigh => decide (Config.tasksHigh ≤ s.tasks.length)
  | _ => false

theorem counterWrap_not_live (k : CounterNo) : ¬ (Flag.counterWrap k).live := by cases k <;> simp [Flag.live, Flag.position, CounterNo.index]

theorem liveFlagsOk_iff (s : State) : LiveFlagsOk s ↔ ∀ f : Flag, f.live → s.flagSet f = s.liveCondition f := by
  constructor
  · rintro ⟨ho, ha, hb, hl, hr, ht⟩ f hf
    cases f
    case orphaned => exact ho
    case linkADown => exact ha
    case linkBDown => exact hb
    case branchLFault => exact hl
    case branchRFault => exact hr
    case tasksHigh => exact ht
    case counterWrap k => exact absurd hf (counterWrap_not_live k)
    all_goals exact absurd hf (by decide)
  · intro h
    exact ⟨h .orphaned (by decide), h .linkADown (by decide), h .linkBDown (by decide), h .branchLFault (by decide),
      h .branchRFault (by decide), h .tasksHigh (by decide)⟩

/-- From `s` to `t` the live flags equal to their conditions still are. -/
structure LiveKept (s t : State) : Prop where
  ok : LiveFlagsOk s → LiveFlagsOk t

theorem LiveKept.trans {s t u : State} (h : LiveKept s t) (k : LiveKept t u) : LiveKept s u := ⟨k.ok ∘ h.ok⟩

/-- Every live flag and its condition are as before but for those of `fs`, and these are equal. -/
theorem LiveKept.of_flags {fs : List Flag} {s t : State}
    (same : ∀ f : Flag, f.live → f ∉ fs → t.flagSet f = s.flagSet f ∧ t.liveCondition f = s.liveCondition f)
    (new : ∀ f ∈ fs, t.flagSet f = t.liveCondition f) : LiveKept s t := by
  refine ⟨fun ok => (liveFlagsOk_iff t).2 fun f hf => ?_⟩
  by_cases hm : f ∈ fs
  · exact new f hm
  · obtain ⟨hset, hcond⟩ := same f hf hm
    rw [hset, hcond]
    exact (liveFlagsOk_iff s).1 ok f hf

theorem FlagsKept.live {fs : List Flag} {s t : State} (h : FlagsKept fs s t) {f : Flag} (hf : f.live) (hm : f ∉ fs) :
    t.flagSet f = s.flagSet f :=
  h f hm (by rintro rfl; exact absurd hf (by decide)) (by rintro k rfl; exact counterWrap_not_live k hf)

/-- A condition but that of TASKS_HIGH reads the line states, the line faults and ORPHANED. -/
theorem OnlyChanges.liveCondition {ps : List Part} {s t : State} (h : OnlyChanges ps s t) (hp : ∀ p ∈ [Part.lines, .orphaned, .faults], p ∉ ps)
    {f : Flag} (hf : f = .tasksHigh → Part.tasks ∉ ps) : t.liveCondition f = s.liveCondition f := by
  have lines := h.keeps (hp .lines (by simp))
  have orphaned : t.orphaned = s.orphaned := h.keeps (hp .orphaned (by simp))
  have faults := h.keeps (hp .faults (by simp))
  cases f
  case orphaned => exact orphaned
  case linkADown => exact congrArg (!·) lines.1
  case linkBDown => exact congrArg (!·) lines.2
  case branchLFault => exact faults.1
  case branchRFault => exact faults.2
  case tasksHigh =>
    have tasks : t.tasks = s.tasks := h.keeps (hf rfl)
    unfold State.liveCondition; simp only [tasks]
  all_goals rfl

/-- What changes no condition and of the flags only latched ones. -/
theorem LiveKept.of_latched {ps : List Part} {fs : List Flag} {s t : State} (h : OnlyChanges ps s t)
    (hp : ∀ p ∈ [Part.lines, .orphaned, .faults, .tasks], p ∉ ps) (hk : FlagsKept fs s t) (hl : ∀ f ∈ fs, ¬ f.live) : LiveKept s t :=
  .of_flags (fs := []) (fun f hf _ => ⟨hk.live hf fun hm => hl f hm hf,
    h.liveCondition (fun p hm => hp p (by simp at hm ⊢; tauto)) fun _ => hp .tasks (by simp)⟩) (by simp)

theorem OnlyChanges.liveKept {ps : List Part} {s t : State} (h : OnlyChanges ps s t)
    (hp : ∀ p ∈ [Part.lines, .orphaned, .faults, .tasks, .flags], p ∉ ps) : LiveKept s t :=
  .of_latched (fs := []) h (fun p hm => hp p (by simp at hm ⊢; tauto)) (h.flagsKept (hp .flags (by simp)) []) (by simp)

theorem liveKept_foldl {α : Type} {f : State → α → State} (hf : ∀ t x, LiveKept t (f t x)) (xs : List α) :
    ∀ s : State, LiveKept s (xs.foldl f s) :=
  fun _ => ⟨fun ok => List.foldlRecOn xs f ok fun t ht x _ => (hf t x).ok ht⟩

theorem setFlag_live (f : Flag) (s : State) (h : f.position < 15) : LiveKept s (setFlag f s) :=
  .of_latched (setFlag_only f s) (by decide) (setFlag_kept f s) fun g hg => by
    rw [List.mem_singleton.1 hg]; exact fun hl => absurd h (Nat.not_lt.2 hl)

theorem signal_live (e : CounterEvent) (place : Option Nat) (s : State) : LiveKept s (signal e place s) :=
  .of_latched (signal_only e place s) (by decide) (signal_kept e place s) (by simp)

theorem offer_kept (r : Record) (s : State) : FlagsKept [] s (offer r s) := fun _ _ hr _ => offer_flagSet r s hr

theorem recomputeWhere_live (p : MapEntry → Bool) (s : State) : LiveKept s (recomputeWhere p s) :=
  (recomputeWhere_only p s).liveKept (by decide)

/-- ATTENTION_CLEAR clears latched flags alone (R189). -/
theorem clearLatched_live (fs : BitVec 21) (s : State) : LiveKept s { s with flags := s.flags &&& ~~~(fs &&& latchedFlags) } := by
  refine .of_flags (fs := []) (fun f hf _ => ⟨?_, rfl⟩) (by simp)
  have outside : latchedFlags.getLsbD f.position = false := by
    have live : ∀ i : Fin 21, 15 ≤ i.val → latchedFlags.getLsbD i.val = false := by decide
    exact live ⟨f.position, flag_position_lt f⟩ hf
  show (s.flags &&& ~~~(fs &&& latchedFlags)).getLsbD f.position = s.flags.getLsbD f.position
  rw [BitVec.getLsbD_and, BitVec.getLsbD_not, BitVec.getLsbD_and, outside]
  simp [flag_position_lt f]

/-- A change that keeps the flags but may change the task table, followed by the judgement of TASKS_HIGH (R92). -/
theorem judgeTasksHigh_live {ps : List Part} {s u : State} (h : OnlyChanges ps s u) (hp : ∀ p ∈ [Part.lines, .orphaned, .faults], p ∉ ps)
    (hk : FlagsKept [] s u) : LiveKept s (judgeTasksHigh u) := by
  have judged := judgeTasksHigh_only u
  have kept := judgeTasksHigh_kept u
  refine .of_flags (fs := [.tasksHigh]) (fun f hf hm => ⟨(kept.live hf hm).trans (hk.live hf (by simp)), ?_⟩) ?_
  · rw [judged.liveCondition (by decide) fun _ => by decide, h.liveCondition hp fun he => absurd he (by simpa using hm)]
  · intro f hf
    rw [List.mem_singleton.1 hf]; exact judgeTasksHigh_flag u

theorem postTask_live (t : TaskItem) (s : State) : LiveKept s (postTask t s).2 := by
  cases h : taskRefusal t s with
  | some code => rw [postTask_refused h]; exact ⟨id⟩
  | none =>
    have counted : OnlyChanges [.tasks, .groups, .nextGroup, .pickers] s (changeOpen t.picker (· + 1) (recorded t s)) :=
      ((recorded_only t s).mono (by decide)).trans ((changeOpen_only _ _ _).mono (by decide))
    rw [postTask_accepted h]
    exact judgeTasksHigh_live (ps := [.tasks, .groups, .nextGroup, .pickers, .counters, .flags, .notes])
      ((counted.mono (by decide)).trans ((signal_only _ _ _).mono (by decide))) (by decide)
      ((counted.flagsKept (by decide) []).trans (signal_kept _ _ _))

theorem applyTaskPost_live (r : Request) (s : State) : LiveKept s (applyTaskPost r s).2 := by
  rw [applyTaskPost_eq]
  exact (liveKept_foldl (fun u x => postTask_live x u) r.taskItems s).trans (recomputeWhere_live _ _)

theorem applyTaskCancel_live (r : Request) (s : State) : LiveKept s (applyTaskCancel r s).2 := by
  have closed := cancelState_only r.numberItems s
  rw [applyTaskCancel_eq]
  exact (judgeTasksHigh_live closed (by decide) (closed.flagsKept (by decide) [])).trans (recomputeWhere_live _ _)

theorem amendQuantity_only (n q : Nat) (s : State) :
    OnlyChanges [.tasks] s { s with tasks := s.tasks.map fun x => if x.number = n then { x with quantity := q } else x } := by
  intro p; cases p <;> simp [Keeps]

/-- A task's quantity changes and the number of open tasks does not (R88). -/
theorem amendQuantity_live (n q : Nat) (s : State) :
    LiveKept s { s with tasks := s.tasks.map fun x => if x.number = n then { x with quantity := q } else x } := by
  refine .of_flags (fs := []) (fun f _ _ => ⟨rfl, ?_⟩) (by simp)
  cases f <;> simp [State.liveCondition]

theorem applyTaskAmend_live (r : Request) (s : State) : LiveKept s (applyTaskAmend r s).2 := by
  unfold applyTaskAmend; split
  · exact ⟨id⟩
  simp only; split
  · exact ⟨id⟩
  split
  · exact ⟨id⟩
  split
  · exact ⟨id⟩
  simp only; split
  · exact amendQuantity_live _ _ s
  · exact ((amendQuantity_live _ _ s).trans ((setGroup_only _ _).liveKept (by decide))).trans (recomputeWhere_live _ _)

theorem applyPickerLeave_live (r : Request) (s : State) : LiveKept s (applyPickerLeave r s).2 := by
  cases hp : s.pickerOf r.pickerId with
  | none => rw [applyPickerLeave_unknown hp]; exact ⟨id⟩
  | some p =>
    have removed := withdrawn_only p.id s
    have shown : LiveKept s (withdrawnShown p.id s) :=
      (judgeTasksHigh_live removed (by decide) (removed.flagsKept (by decide) [])).trans (recomputeWhere_live _ _)
    have left : OnlyChanges [.pickers] (withdrawnShown p.id s) (pickerLeft p.id s) := by intro q; cases q <;> simp [Keeps, pickerLeft]
    rw [applyPickerLeave_known hp]
    exact shown.trans (left.liveKept (by decide))

theorem acceptConfirm_live (g : Group) (n : Nat) (s : State) : LiveKept s (acceptConfirm g n s) := by
  have closed : OnlyChanges (.groups :: .slots :: closeParts) s (groupClosed g n s) :=
    ((membersClosed_only g n s).mono (by decide)).trans ((groupClosed_only g n s).mono (by decide))
  have kept : FlagsKept [] s (groupClosed g n s) :=
    (closeMembers_kept (creditedShares g n s) s).trans ((groupClosed_only g n s).flagsKept (by decide) _)
  have judged : LiveKept s (judgeTasksHigh (g.firstShown.elim (groupClosed g n s) fun shown =>
      samplePace g.picker shown s.clock (groupClosed g n s))) := by
    cases g.firstShown with
    | none => exact judgeTasksHigh_live closed (by decide) kept
    | some shown =>
      have paced := samplePace_only g.picker shown s.clock (groupClosed g n s)
      exact judgeTasksHigh_live (closed.trans (paced.mono (by decide))) (by decide) (kept.trans (paced.flagsKept (by decide) []))
  exact (judged.trans (signal_live _ _ _)).trans (recomputeWhere_live _ _)

theorem acceptAdjust_live (k : KeyEvent) (g : Group) (s : State) : LiveKept s (acceptAdjust k g s) := by
  have held : ∀ u : State, LiveKept u (match u.slotAt k.pos with | none => u | some x => u.setSlot (x.heldFor g u)) := by
    intro u; split
    · exact ⟨id⟩
    · exact (setSlot_only _ _).liveKept (by decide)
  simp only [acceptAdjust]
  refine LiveKept.trans ?_ (signal_live _ _ _)
  split
  · exact (((setGroup_only _ _).liveKept (by decide)).trans (held _)).trans (recomputeWhere_live _ _)
  · exact (held _).trans ((renewShadow_only _ _).liveKept (by decide))

/-! ## Flags that set and clear with their conditions -/

/-- One condition becomes `c` and its live flag follows it (R185). -/
theorem LiveKept.follow {f : Flag} {c : Bool} {s u : State} (hf : u.flags = s.flags)
    (hc : ∀ g, u.liveCondition g = if f = g then c else s.liveCondition g) : LiveKept s (followFlag f c u) := by
  have cond : ∀ g, (followFlag f c u).liveCondition g = if f = g then c else s.liveCondition g := fun g =>
    ((followFlag_only f c u).liveCondition (by decide) fun _ => by decide).trans (hc g)
  refine .of_flags (fs := [f]) (fun g _ hm => ?_) fun g hg => ?_
  · have other : ¬ f = g := fun he => hm (by simp [he])
    rw [followFlag_flagSet, cond, if_neg other, if_neg other, State.flagSet, hf]
    exact ⟨rfl, rfl⟩
  · rw [List.mem_singleton.1 hg, followFlag_flagSet, cond, if_pos rfl, if_pos rfl]

theorem orphaned_live (on : Bool) (s : State) : LiveKept s (followFlag .orphaned on { s with orphaned := on }) :=
  .follow rfl fun g => by cases g <;> rfl

theorem fault_live (b : Branch) (on : Bool) (s : State) :
    LiveKept s (followFlag (branchFaultFlag b) on (onBranch b (fun x => { x with fault := on }) s)) :=
  .follow (by cases b <;> rfl) fun g => by cases b <;> cases g <;> rfl

theorem lineDown_live (p : Port) (s : State) : LiveKept s (setFlag (linkFlag p) (flushPort p s)) := by
  have frame := flushPort_only p s
  have tasks : (flushPort p s).tasks = s.tasks := frame.keeps (p := .tasks) (by decide)
  have orphaned : (flushPort p s).orphaned = s.orphaned := frame.keeps (p := .orphaned) (by decide)
  obtain ⟨faultL, faultR⟩ := frame.keeps (p := .faults) (by decide)
  have up : ∀ q, ((flushPort p s).port q).up = if q = p then false else (s.port q).up := fun q => by
    rw [flushPort_port]; split <;> rfl
  have upA : (flushPort p s).portA.up = if Port.a = p then false else s.portA.up := up .a
  have upB : (flushPort p s).portB.up = if Port.b = p then false else s.portB.up := up .b
  refine LiveKept.follow (c := true) (frame.keeps (p := .flags) (by decide)) fun g => ?_
  cases p <;> cases g <;> simp [State.liveCondition, linkFlag, tasks, orphaned, faultL, faultR, upA, upB]

theorem lineUp_live (p : Port) (s : State) : LiveKept s (raisePort p s) := by
  have opened : LiveKept s (openedPort p s) :=
    (LiveKept.follow (f := linkFlag p) (c := false) (u := s.setPort p { s.port p with up := true }) (by simp) fun g => by
      cases p <;> cases g <;> rfl).trans ⟨id⟩
  rw [raisePort_opened]
  exact opened.trans ((startTransmitter_only p _).liveKept (by decide))

theorem resetTo_live (station : Nat) (cause : ResetCause) (lines : LineLevels) (s : State) : LiveKept s (resetTo station cause lines s) := by
  refine ⟨fun _ => (liveFlagsOk_iff _).2 fun f _ => ?_⟩
  rw [resetTo_flagSet, (resetTo_only station cause lines s).liveCondition (by decide) fun _ => by decide]
  cases f <;> rfl

theorem live_kept : KeptThroughout LiveKept where
  trans h k := h.trans k
  only h hp := h.liveKept fun p hv => hp p (by revert p; decide)
  latched := setFlag_live
  clearLatched := clearLatched_live
  signal := signal_live
  offer r s := .of_latched (fs := []) (offer_only r s) (by decide) (offer_kept r s) (by simp)
  judgePacker s := (judgePacker_only s).liveKept (by decide)
  rejudgeCombine s := (rejudgeCombine_only s).liveKept (by decide)
  expireCombine _ := ⟨id⟩
  endEvent s := .of_latched (fs := []) (endEvent_only s) (by decide) (endEvent_kept s) (by simp)
  recomputeWhere := recomputeWhere_live
  renewShadow pos s := (renewShadow_only pos s).liveKept (by decide)
  feedback _ _ := ⟨id⟩
  linger _ _ := ⟨id⟩
  lingered _ _ := ⟨id⟩
  rotated _ _ := (rotationExpire_only _ _).liveKept (by decide)
  sent _ _ _ _ := ⟨id⟩
  forgets _ := ⟨id⟩
  becomeOrphaned := orphaned_live true
  endOrphaned := orphaned_live false
  faultSets b := fault_live b true
  faultClears b := fault_live b false
  lineDown := lineDown_live
  lineUp := lineUp_live
  setPicker _ _ _ := ⟨id⟩
  insertPicker _ _ := ⟨id⟩
  pickerLeave := applyPickerLeave_live
  taskPost := applyTaskPost_live
  taskCancel := applyTaskCancel_live
  taskAmend := applyTaskAmend_live
  mapLoad r s := (applyMapLoad_only r s).liveKept (by decide)
  mapRemove r s := (applyMapRemove_only r s).liveKept (by decide)
  confirm n _ := acceptConfirm_live _ n _
  adjust k _ := acceptAdjust_live k _ _
  time _ _ _ := ⟨id⟩
  reset := resetTo_live

/-! ## The report packer (R168, R171) -/

/-- From `s` to `t` the record FIFO and the combine timer stay in order. -/
structure PackerKept (s t : State) : Prop where
  ok : PackerOk s → PackerOk t

theorem PackerKept.trans {s t u : State} (h : PackerKept s t) (k : PackerKept t u) : PackerKept s u := ⟨k.ok ∘ h.ok⟩

theorem OnlyChanges.packerKept {ps : List Part} {s t : State} (h : OnlyChanges ps s t) (hp : Part.records ∉ ps) : PackerKept s t := by
  obtain ⟨hf, hc⟩ := h.keeps hp
  exact ⟨fun ok => by unfold PackerOk; rw [hf, hc]; exact ok⟩

theorem packerKept_foldl {α : Type} {f : State → α → State} (hf : ∀ t x, PackerKept t (f t x)) (xs : List α) :
    ∀ s : State, PackerKept s (xs.foldl f s) :=
  fun _ => ⟨fun ok => List.foldlRecOn xs f ok fun t ht x _ => (hf t x).ok ht⟩

theorem offer_packer (r : Record) (s : State) : PackerKept s (offer r s) := by
  unfold offer; split
  · rename_i hroom
    refine ⟨fun ⟨_, hc⟩ => ⟨by simpa using hroom, ?_⟩⟩
    cases hf : s.fifo with
    | nil => simp
    | cons w ws => simpa [hf] using hc
  · exact (setFlag_only _ s).packerKept (by decide)

/-- A combine timer that times the oldest record, expired or not, is in order (R171). -/
theorem timed_packer {s : State} {fifo : List Waiting} {expired : Waiting → Bool} (h : fifo.length ≤ s.fifo.length) :
    PackerKept s { s with fifo := fifo, combine := fifo.head?.map fun w => { since := w.entered, expired := expired w } } :=
  ⟨fun ⟨hl, _⟩ => ⟨h.trans hl, by simp [Option.map_map, Function.comp_def]⟩⟩

theorem rejudgeCombine_packer (s : State) : PackerKept s (rejudgeCombine s) := timed_packer (le_refl _)

/-- A combine timer expires, or is held as expired, without another start (R171, log 31). -/
theorem expired_packer {s : State} {f : CombineTimer → Bool} :
    PackerKept s { s with combine := s.combine.map fun c => { c with expired := f c } } :=
  ⟨fun ⟨hl, hc⟩ => ⟨hl, by simpa [Option.map_map, Function.comp_def] using hc⟩⟩

theorem buildFrame_packer (s : State) : PackerKept s (buildFrame s).2 := by
  have frame : PackerKept s (requestReport s).2 := (originate_only _ _ _ _ _ s).packerKept (by decide)
  rw [buildFrame_eq]
  revert frame
  rcases requestReport s with ⟨o, t⟩
  intro frame
  cases o with
  | refused => exact frame.trans expired_packer
  | accepted ref => exact frame.trans (timed_packer (by simp))

theorem buildDue_packer (fuel : Nat) : ∀ s : State, PackerKept s (buildDue fuel s) := by
  induction fuel with
  | zero => exact fun _ => ⟨id⟩
  | succ n ih =>
    intro s
    simp only [buildDue]; split
    · have built := buildFrame_packer s
      revert built
      rcases buildFrame s with ⟨o, t⟩
      intro built
      cases o with
      | refused => exact built
      | accepted ref => exact built.trans (ih t)
    · exact ⟨id⟩

theorem judgePacker_packer (s : State) : PackerKept s (judgePacker s) := buildDue_packer _ s

theorem endEvent_packer (s : State) : PackerKept s (endEvent s) := by
  have wraps : PackerKept s (offerWraps s) := packerKept_foldl (fun t k => offer_packer _ t) _ s
  have attention : ∀ t, PackerKept t (offerAttention t) := fun t => by
    simp only [offerAttention]; split
    · exact ⟨id⟩
    · exact offer_packer _ _
  have judged : PackerKept s (if (offerAttention (offerWraps s)).notes.entered then judgePacker (offerAttention (offerWraps s))
      else offerAttention (offerWraps s)) := by
    split
    · exact (wraps.trans (attention _)).trans (judgePacker_packer _)
    · exact wraps.trans (attention _)
  exact judged.trans ⟨id⟩

theorem closeMember_packer (g : Group) (t : Task) (share : Nat) (s : State) : PackerKept s (closeMember g t share s) := by
  have closed : PackerKept s (closeTask t s) := (closeTask_only t s).packerKept (by decide)
  simp only [closeMember]; split
  · exact (closed.trans (offer_packer _ _)).trans ((signal_only _ _ _).packerKept (by decide))
  · exact closed.trans (offer_packer _ _)

theorem acceptConfirm_packer (g : Group) (n : Nat) (s : State) : PackerKept s (acceptConfirm g n s) := by
  have members : PackerKept s (membersClosed g n s) := by
    unfold membersClosed; exact packerKept_foldl (fun u (m : Task × Nat) => closeMember_packer g m.1 m.2 u) _ s
  have closed : PackerKept s (groupClosed g n s) := members.trans ((groupClosed_only g n s).packerKept (by decide))
  have paced : PackerKept s (g.firstShown.elim (groupClosed g n s) fun shown => samplePace g.picker shown s.clock (groupClosed g n s)) := by
    cases g.firstShown with
    | none => exact closed
    | some shown => exact closed.trans ((samplePace_only _ _ _ _).packerKept (by decide))
  exact ((paced.trans ((judgeTasksHigh_only _).packerKept (by decide))).trans ((signal_only _ _ _).packerKept (by decide))).trans
    ((recomputeCodes_only _ _).packerKept (by decide))

/-- An accepted UP or DOWN brings no record (R123). -/
theorem acceptAdjust_records (k : KeyEvent) (g : Group) (s : State) :
    OnlyChanges ([.counters, .flags, .notes] ++ displayParts) s (acceptAdjust k g s) := by
  have held : ∀ u : State, OnlyChanges [.slots] u (match u.slotAt k.pos with | none => u | some x => u.setSlot (x.heldFor g u)) := by
    intro u; split
    · exact onlyChanges_refl _ u
    · exact setSlot_only _ _
  simp only [acceptAdjust]
  refine OnlyChanges.trans ?_ ((signal_only _ _ _).mono (by decide))
  split
  · exact (((setGroup_only _ _).mono (by decide)).trans ((held _).mono (by decide))).trans ((recomputeCodes_only _ _).mono (by decide))
  · exact ((held _).mono (by decide)).trans ((renewShadow_only _ _).mono (by decide))

theorem resetTo_packer (station : Nat) (cause : ResetCause) (lines : LineLevels) (s : State) : PackerKept s (resetTo station cause lines s) :=
  PackerKept.trans (t := resetState station cause lines s) ⟨fun _ => ⟨Nat.zero_le _, rfl⟩⟩
    ((resetTo_only station cause lines s).packerKept (by decide))

theorem packer_kept : KeptThroughout PackerKept where
  trans h k := h.trans k
  only h hp := h.packerKept (hp .records (by decide))
  latched f s _ := (setFlag_only f s).packerKept (by decide)
  clearLatched _ _ := ⟨id⟩
  signal e place s := (signal_only e place s).packerKept (by decide)
  offer := offer_packer
  judgePacker := judgePacker_packer
  rejudgeCombine := rejudgeCombine_packer
  expireCombine {s} c hc := by
    have expired := expired_packer (s := s) (f := fun _ => true)
    rwa [hc] at expired
  endEvent := endEvent_packer
  recomputeWhere p s := (recomputeWhere_only p s).packerKept (by decide)
  renewShadow pos s := (renewShadow_only pos s).packerKept (by decide)
  feedback _ _ := ⟨id⟩
  linger _ _ := ⟨id⟩
  lingered _ _ := ⟨id⟩
  rotated _ _ := (rotationExpire_only _ _).packerKept (by decide)
  sent _ _ _ _ := ⟨id⟩
  forgets _ := ⟨id⟩
  becomeOrphaned s := PackerKept.trans (t := { s with orphaned := true }) ⟨id⟩ ((setFlag_only .orphaned _).packerKept (by decide))
  endOrphaned _ := ⟨id⟩
  faultSets b s := ((holdFault_only b true s).packerKept (by decide)).trans
    ((setFlag_only (branchFaultFlag b) _).packerKept (by decide))
  faultClears b s := ((holdFault_only b false s).packerKept (by decide)).trans
    ((clearFlag_only (branchFaultFlag b) _).packerKept (by decide))
  lineDown p s := ((flushPort_only p s).packerKept (by decide)).trans ((setFlag_only (linkFlag p) _).packerKept (by decide))
  lineUp p s := (raisePort_only p s).packerKept (by decide)
  setPicker _ _ _ := ⟨id⟩
  insertPicker _ _ := ⟨id⟩
  pickerLeave r s := (applyPickerLeave_only r s).packerKept (by decide)
  taskPost r s := (applyTaskPost_only r s).packerKept (by decide)
  taskCancel r s := (applyTaskCancel_only r s).packerKept (by decide)
  taskAmend r s := (applyTaskAmend_only r s).packerKept (by decide)
  mapLoad r s := (applyMapLoad_only r s).packerKept (by decide)
  mapRemove r s := (applyMapRemove_only r s).packerKept (by decide)
  confirm n _ := acceptConfirm_packer _ n _
  adjust k _ := (acceptAdjust_records k _ _).packerKept (by decide)
  time _ _ _ := ⟨id⟩
  reset := resetTo_packer

/-- Settles O55: the five properties are kept one by one, by the operations of which the commands are built. -/
theorem everyStepKeepsWork : Obligations.EveryStepKeepsWork := fun _ _ ht hg hl hp hr h =>
  have counts := counts_kept.step h
  ⟨counts.tasks ht, counts.groups hg, (live_kept.step h).ok hl, (packer_kept.step h).ok hp, counts.residue hr⟩

end Sys2Proof.Machine

/-!
PROOFS. The values of tasks, displays, branches, packer, counters and flags after a reset (O4), and what the scheduler derives from the groups of a
location: its queue, the groups eligible, the rotation set, the shadow and the linger limit (O37).
-/

namespace Sys2Proof.Machine

open Sys2Proof

/-- Settles O4: each value stands in State.reset as the manual gives it, and the flag word is 0 under a mask of ones. -/
theorem resetValuesOfWork : Obligations.ResetValuesOfWork := by
  unfold Obligations.ResetValuesOfWork
  refine ⟨⟨rfl, rfl, rfl, rfl⟩, fun b => ?_, ⟨rfl, rfl⟩, fun k => ?_, fun f => ?_, fun f => ?_, rfl, rfl⟩
  · cases b <;> exact ⟨rfl, rfl, rfl, rfl, rfl, rfl, rfl, rfl, rfl⟩
  · cases k <;> rfl
  · simp [State.flagSet, State.reset]
  · show (BitVec.allOnes 21).getLsbD f.position = true
    rw [BitVec.getLsbD_allOnes, decide_eq_true (flag_position_lt f)]

/-! ## The location queue (R76) -/

theorem mem_queueOf {s : State} {code : Nat} {g : Group} (h : g ∈ s.queueOf code) : g ∈ s.groups ∧ g.loc = code := by
  simp only [State.queueOf, List.mem_flatMap, List.mem_filter, beq_iff_eq] at h
  obtain ⟨k, -, hg, -⟩ := h
  exact hg

/-- What is left of the groups of one priority when those of another are picked out. -/
theorem filter_priority_filter (rank : Group → Nat) (gs : List Group) (j k : Nat) :
    (gs.filter (fun g => rank g == j)).filter (fun g => rank g = k) = if j = k then gs.filter (fun g => rank g = k) else [] := by
  rw [List.filter_filter]
  split
  · next h => exact List.filter_congr fun g _ => by simp [h]
  · next h => exact List.filter_eq_nil_iff.2 fun g _ => by simp only [Bool.and_eq_true, decide_eq_true_eq, beq_iff_eq]; omega

/-- The groups of one priority stand in the queue as they were created. -/
theorem queueOf_filter_priority (s : State) (code : Nat) {k : Nat} (hk : k ≤ 3) :
    (s.queueOf code).filter (fun g => s.priorityOf g.picker = k)
      = (s.groups.filter (fun g => g.loc = code)).filter (fun g => s.priorityOf g.picker = k) := by
  have picked := filter_priority_filter (fun g => s.priorityOf g.picker) (s.groups.filter (fun g => g.loc == code))
  simp only [State.queueOf, List.filter_flatMap, picked]
  have hk : k = 0 ∨ k = 1 ∨ k = 2 ∨ k = 3 := by omega
  rcases hk with rfl | rfl | rfl | rfl <;> simp [Bool.beq_eq_decide_eq]

/-- Where every priority is within range the queue holds every group of the location, each once. -/
theorem queueOf_perm {s : State} {code : Nat} (h : ∀ g ∈ s.groups.filter (fun g => g.loc = code), s.priorityOf g.picker ≤ 3) :
    (s.queueOf code).Perm (s.groups.filter (fun g => g.loc = code)) := by
  refine List.perm_iff_count.2 fun g => ?_
  by_cases hg : g ∈ s.groups.filter (fun g => g.loc = code)
  · have at_rank := congrArg (List.count g) (queueOf_filter_priority s code (h g hg))
    rwa [List.count_filter (by simp), List.count_filter (by simp)] at at_rank
  · rw [List.count_eq_zero_of_not_mem hg, List.count_eq_zero_of_not_mem]
    exact fun hq => hg (List.mem_filter.2 ⟨(mem_queueOf hq).1, by simpa using (mem_queueOf hq).2⟩)

theorem queueOf_sorted (s : State) (code : Nat) :
    (s.queueOf code).Pairwise (fun a b => s.priorityOf a.picker ≤ s.priorityOf b.picker) := by
  have ranked : ∀ j, ∀ a ∈ (s.groups.filter (fun g => g.loc == code)).filter (fun g => s.priorityOf g.picker == j),
      s.priorityOf a.picker = j := fun j a ha => by simpa using (List.mem_filter.1 ha).2
  refine List.pairwise_flatMap.2 ⟨fun j _ => List.pairwise_of_forall_mem_list fun a ha b hb => ?_, ?_⟩
  · exact (ranked j a ha).trans_le (ranked j b hb).ge
  · exact (show [0, 1, 2, 3].Pairwise (· ≤ ·) by decide).imp fun hjk a ha b hb => by rw [ranked _ a ha, ranked _ b hb]; exact hjk

/-! ## Eligibility (R96) -/

theorem eligible_iff (s : State) (e : MapEntry) (g : Group) :
    s.eligible e g = true ↔ s.locked.getLsbD e.area = false ∧ (∃ p, s.pickerOf g.picker = some p ∧ p.state = .active)
      ∧ (s.branch e.pos.branch).fault = false
      ∧ (∃ m, (s.branch e.pos.branch).moduleAt e.pos.addr = some m ∧ m.presence ≠ .missing ∧ e.pos.slot ≤ m.slots)
      ∧ s.orphaned = false := by
  unfold State.eligible State.reachable State.areaLocked
  simp [elim_false_iff, and_assoc]

/-! ## The rotation set (R97) -/

/-- The step by which a rotation set takes a group, or passes it over. -/
def addToSet (chosen : List Group) (g : Group) : List Group :=
  if chosen.length < Config.rotationGroups && !chosen.any (fun c => c.picker == g.picker) then chosen ++ [g] else chosen

theorem addToSet_room {chosen : List Group} {g : Group} (hroom : chosen.length < 4) (hnew : ∀ c ∈ chosen, c.picker ≠ g.picker) :
    addToSet chosen g = chosen ++ [g] := by
  have htake : (chosen.length < 4 && !chosen.any fun c => c.picker == g.picker) = true := by simpa [hroom] using hnew
  exact if_pos htake

/-- A set takes a group that finds room and no other of its picker, or stays as it is. -/
theorem addToSet_cases (chosen : List Group) (g : Group) :
    addToSet chosen g = chosen
      ∨ addToSet chosen g = chosen ++ [g] ∧ chosen.length < 4 ∧ ∀ c ∈ chosen, c.picker ≠ g.picker := by
  by_cases h : chosen.length < 4 ∧ ∀ c ∈ chosen, c.picker ≠ g.picker
  · exact .inr ⟨addToSet_room h.1 h.2, h⟩
  · refine .inl (if_neg fun htake => h ?_)
    obtain ⟨hroom, hnew⟩ := Bool.and_eq_true_iff.1 htake
    exact ⟨of_decide_eq_true hroom, by simpa using hnew⟩

theorem rotationSet_append (gs hs : List Group) : rotationSet (gs ++ hs) = hs.foldl addToSet (rotationSet gs) :=
  List.foldl_append

theorem rotationSet_concat (gs : List Group) (g : Group) : rotationSet (gs ++ [g]) = addToSet (rotationSet gs) g :=
  rotationSet_append gs [g]

/-- A rotation set takes its groups in their order, up to four, one a picker. -/
theorem rotationSet_fits (gs : List Group) :
    (rotationSet gs).length ≤ 4 ∧ (rotationSet gs).Sublist gs ∧ ((rotationSet gs).map (·.picker)).Nodup := by
  induction gs using List.reverseRecOn with
  | nil => exact ⟨Nat.zero_le _, List.Sublist.refl _, List.nodup_nil⟩
  | append_singleton gs g ih =>
    obtain ⟨hlen, hsub, hone⟩ := ih
    rw [rotationSet_concat]
    rcases addToSet_cases (rotationSet gs) g with h | ⟨h, hroom, hnew⟩
    · rw [h]
      exact ⟨hlen, hsub.trans (List.sublist_append_left gs [g]), hone⟩
    · rw [h]
      refine ⟨by simp; omega, hsub.append (List.Sublist.refl [g]), ?_⟩
      rw [List.map_append, List.nodup_append]
      refine ⟨hone, List.nodup_singleton _, ?_⟩
      simpa using hnew

/-- More groups behind those of a queue leave in the set what it has taken. -/
theorem rotationSet_mem_append {gs : List Group} {g : Group} (hs : List Group) (hg : g ∈ rotationSet gs) :
    g ∈ rotationSet (gs ++ hs) := by
  induction hs using List.reverseRecOn with
  | nil => rwa [List.append_nil]
  | append_singleton hs k ih =>
    rw [← List.append_assoc, rotationSet_concat]
    rcases addToSet_cases (rotationSet (gs ++ hs)) k with h | ⟨h, -⟩ <;> rw [h]
    · exact ih
    · exact List.mem_append_left _ ih

/-- A group that comes while the set has room and its picker has no group before it is taken. -/
theorem rotationSet_takes {q : List Group} {i : Nat} {h : Group} (hi : q[i]? = some h) (hroom : (rotationSet (q.take i)).length < 4)
    (hfirst : ∀ k ∈ q.take i, k.picker ≠ h.picker) :
    rotationSet (q.take (i + 1)) = rotationSet (q.take i) ++ [h] ∧ h ∈ rotationSet q := by
  have htake : q.take (i + 1) = q.take i ++ [h] := by rw [List.take_add_one, hi]; rfl
  have hset : rotationSet (q.take (i + 1)) = rotationSet (q.take i) ++ [h] := by
    rw [htake, rotationSet_concat, addToSet_room hroom fun c hc => hfirst c (rotationSet_subset _ hc)]
  refine ⟨hset, ?_⟩
  have hmem : h ∈ rotationSet (q.take (i + 1)) := by rw [hset]; simp
  simpa using rotationSet_mem_append (q.drop (i + 1)) hmem

/-! ## Shadows and linger limits (R101, R115) -/

theorem deriveShadow_feedback {s : State} {x : SlotState} {f : Feedback} (h : x.feedback = some f) :
    s.deriveShadow x = { colour := .white, pattern := .flash, digits := f.symbol.digits } := by
  unfold State.deriveShadow
  rw [h]
  rfl

theorem deriveShadow_group {s : State} {x : SlotState} {h : Group} {p : Picker} (hf : x.feedback = none)
    (hh : x.position.bind s.groupOf = some h) (hp : s.pickerOf h.picker = some p) :
    s.deriveShadow x = { colour := p.colour, pattern := if h.linger then .blink else .steady, digits := .number h.display } := by
  simp only [State.deriveShadow, hf, State.groupAtPosition, hh, State.groupShadow, hp, Option.map_some, Option.getD_some]

theorem deriveShadow_empty {s : State} {x : SlotState} {d : MapEntry} (hf : x.feedback = none) (hx : x.position = none)
    (hd : s.entryAt x.pos = some d) :
    s.deriveShadow x = { colour := .white, digits := .blank
                         pattern := if ∃ h ∈ s.groups, h.loc = d.code then .pulse else .dark } := by
  simp only [State.deriveShadow, hf, State.groupAtPosition, hx, Option.bind_none, hd, Option.elim_some, hasGroups_iff]
  split <;> rfl

/-- Without adaptive linger, or without a pace, the limit is the base. -/
theorem lingerLimit_base {s : State} {g : Group} (h : s.params.adaptive = false ∨ (s.pickerOf g.picker).bind (·.pace) = none) :
    s.lingerLimit g = s.params.lingerBase * 1000 := by
  unfold State.lingerLimit
  split
  · next ha hp => simp [ha, hp] at h
  · rfl

theorem lingerLimit_pace {s : State} {g : Group} {p : Nat} (ha : s.params.adaptive = true)
    (hp : (s.pickerOf g.picker).bind (·.pace) = some p) :
    s.lingerLimit g = max (s.params.lingerBase * 1000) (min (30 * p) 255000) := by
  unfold State.lingerLimit
  rw [ha, hp]

/-- Settles O37: each of the scheduler's derivations is read off its definition. -/
theorem derivedDisplay : Obligations.DerivedDisplay := by
  unfold Obligations.DerivedDisplay
  intro s e g q x code
  obtain ⟨hlen, hsub, hone⟩ := rotationSet_fits q
  refine ⟨⟨fun h hh => ?_, queueOf_perm, queueOf_sorted s code, fun k hk => queueOf_filter_priority s code hk⟩, eligible_iff s e g,
    ⟨hlen, hsub, hone, fun i h hi => rotationSet_takes hi⟩, fun f hf => deriveShadow_feedback hf,
    fun hf h p => deriveShadow_group hf, fun hf hx d => deriveShadow_empty hf hx, lingerLimit_base, fun p => lingerLimit_pace⟩
  exact List.mem_filter.2 ⟨(mem_queueOf hh).1, by simpa using (mem_queueOf hh).2⟩

end Sys2Proof.Machine

/-!
PROOFS. The count of an UP or DOWN press where the location map holds one slot position twice (O44).
-/

namespace Sys2Proof.Machine

open Sys2Proof

/-! ## The refuting state -/

/-- Slot L/7/2, whose two map entries differ in their areas alone. -/
def twiceMappedPos : SlotPos := { branch := .l, addr := 7, slot := 2 }

/-- The map entry of that slot in an area of a given number. -/
def twiceMappedEntry (area : Nat) : MapEntry := { code := 7, pos := twiceMappedPos, area := area }

/-- The picker of the group shown there. -/
def twiceMappedPicker : Picker :=
  { index := 0, id := 1, colour := .red, priority := 0, state := .active, openTasks := 1, pace := none }

/-- The group shown there, whose count can still go up. -/
def twiceMappedGroup : Group :=
  { id := 1, picker := 1, loc := 7, members := [1], remaining := 9, display := 3, state := .shown, firstShown := some 0,
    linger := false }

/-- What the scheduler holds for the slot: a linger timer runs for the group at the position. -/
def twiceMappedSlot : SlotState :=
  { pos := twiceMappedPos, shadow := Shadow.darkShadow, rotation := [1], position := some 1, rotTimer := none, feedback := none,
    linger := some { since := 0, length := 1 }, lingered := [], history := [{ tag := 5, shown := some (1, 3) }] }

/-- An UP under the newest tag. -/
def twiceMappedPress : KeyEvent := { pos := twiceMappedPos, key := .up, tag := 5 }

/-- The state is not a reachable one: its map holds the slot in a LOCKED area and again in an open one, which `MapOk` excludes, and its linger
base is 0. -/
def twiceMapped : State :=
  { State.reset with
    params := { Params.reset with lingerBase := 0 }
    locMap := [twiceMappedEntry 0, twiceMappedEntry 1], locked := 1
    pickers := [twiceMappedPicker]
    tasks := [{ number := 1, picker := 1, loc := 7, quantity := 9, group := 1, posted := 0 }]
    groups := [twiceMappedGroup], slots := [twiceMappedSlot]
    branchL := { BranchState.reset with
      roster := [{ addr := 7, serial := 0, slots := 4, revision := 0, presence := .present, misses := 0, owed := 0 }]
      keys := [twiceMappedPress] } }

/-- The position and the linger timer that an outcome leaves at a slot. -/
def lingerLeft (pos : SlotPos) : Host.Outcome State Fault Refusal → Option (Option Nat × Option Timer)
  | .next t => (t.slotAt pos).map fun z => (z.position, z.linger)
  | _ => none

/-- The entry in the LOCKED area takes the group off the display, the entry in the open one puts it back, and no linger timer starts under a
linger base of 0. -/
theorem twiceMapped_lingerLeft :
    lingerLeft twiceMappedPos (exec (.adjustKey .l) twiceMapped) = some (some 1, none) := by
  decide +kernel

/-- Refutes O44: the clause on the linger timer has no premise that the map is in order. In a map that holds the slot twice, which no state that
the machine reaches has, the recomputation of the group's location takes the group off the slot and puts it back, and its timer has stopped. -/
theorem not_adjustPressed : ¬ Obligations.AdjustPressed := by
  unfold Obligations.AdjustPressed
  intro h
  obtain ⟨-, hmapped⟩ := h .l twiceMappedPress [] twiceMapped rfl (by decide)
  obtain ⟨-, haccepted⟩ := hmapped (twiceMappedEntry 0) twiceMappedSlot (by decide +kernel) (by decide +kernel)
  obtain ⟨t, hexec, -, -, -, ⟨z, hz, -, -, hlinger, -⟩, -⟩ :=
    haccepted { tag := 5, shown := some (1, 3) } 3 twiceMappedGroup twiceMappedPicker rfl rfl rfl (by decide +kernel) rfl
      (by decide +kernel)
  have hleft := twiceMapped_lingerLeft
  rw [hexec] at hleft
  obtain ⟨hposition, hstopped⟩ : z.position = some 1 ∧ z.linger = none := by
    simpa [lingerLeft, show t.slotAt twiceMappedPos = some z from hz] using hleft
  simp [hlinger rfl hposition rfl] at hstopped

end Sys2Proof.Machine

/-!
PROOFS. Open tasks cancelled (O32) and amended (O33), and what either does to the group of the task.
-/

namespace Sys2Proof.Machine

open Sys2Proof

/-! ## One number of a TASK_CANCEL (R86, R87) -/

/-- A group without one of its tasks. -/
def Group.without (g : Group) (t : Task) : Group :=
  Group.remainingChange { g with members := g.members.filter (· != t.number) } (g.remaining - t.quantity)

theorem without_eq (g : Group) (t : Task) : g.without t =
    { g with
      members := g.members.filter (· ≠ t.number), remaining := g.remaining - t.quantity
      display := if g.display = g.remaining then g.remaining - t.quantity else min g.display (g.remaining - t.quantity) } := by
  simp [Group.without, Group.remainingChange, bne, decide_not, Bool.beq_eq_decide_eq]

/-- What is left of an open task: its record is gone, and so is its group or the group's part of it. -/
def withoutTask (t : Task) (g : Group) (s : State) : State :=
  if (g.without t).members.isEmpty then removeGroup (g.without t) (closeTask t s) else (closeTask t s).setGroup (g.without t)

theorem cancelTask_unknown {n : Nat} {s : State} (h : s.taskOf n = none) :
    cancelTask n s = ({ code := .unknownTask, group := 0, placement := 0 }, [], s) := by
  unfold cancelTask
  rw [h]

theorem closeTask_groupOf (t : Task) (s : State) (i : Nat) : (closeTask t s).groupOf i = s.groupOf i := by
  rw [State.groupOf, closeTask_groups, State.groupOf]

theorem cancelTask_open {n : Nat} {s : State} {t : Task} {g : Group} (ht : s.taskOf n = some t) (hg : s.groupOf t.group = some g) :
    cancelTask n s = ({ code := .ok, group := 0, placement := 0 }, [t.loc], withoutTask t g s) := by
  obtain rfl := (taskOf_mem ht).2
  unfold cancelTask
  rw [ht]
  simp only [closeTask_groupOf, hg]
  rfl

section
variable {t : Task} {g : Group} {s : State}

theorem withoutTask_last (h : (g.without t).members = []) : withoutTask t g s = removeGroup (g.without t) (closeTask t s) := by
  rw [withoutTask, h]; rfl

theorem withoutTask_more (h : (g.without t).members ≠ []) : withoutTask t g s = (closeTask t s).setGroup (g.without t) := by
  rw [withoutTask, if_neg (by simpa using h)]

theorem withoutTask_behind (t : Task) (g : Group) (s : State) : OnlyChanges [.groups, .slots] (closeTask t s) (withoutTask t g s) := by
  unfold withoutTask; split
  · exact (removeGroup_only _ _).mono (by decide)
  · exact (setGroup_only _ _).mono (by decide)

theorem withoutTask_tasks (t : Task) (g : Group) (s : State) :
    (withoutTask t g s).tasks = s.tasks.filter (fun x => x.number != t.number) :=
  Eq.trans ((withoutTask_behind t g s).keeps (p := .tasks) (by decide)) (closeTask_tasks t s)

/-- The picker's open count falls by the task (R61). -/
theorem withoutTask_pickerOf {p : Picker} (hp : s.pickerOf t.picker = some p) :
    (withoutTask t g s).pickerOf t.picker = some { p with openTasks := p.openTasks - 1 } := by
  rw [State.pickerOf, show (withoutTask t g s).pickers = _ from (withoutTask_behind t g s).keeps (p := .pickers) (by decide)]
  exact changeOpen_pickerOf (s := { s with tasks := s.tasks.filter fun x => x.number != t.number }) hp

theorem closeTask_slotAt (t : Task) (s : State) (q : SlotPos) : (closeTask t s).slotAt q = s.slotAt q := by
  rw [State.slotAt, show (closeTask t s).slots = _ from (closeTask_only t s).keeps (p := .slots) (by decide), State.slotAt]

theorem closeTask_entryOf (t : Task) (s : State) (c : Nat) : (closeTask t s).entryOf c = s.entryOf c := by
  rw [State.entryOf, show (closeTask t s).locMap = _ from (closeTask_only t s).keeps (p := .locations) (by decide), State.entryOf]

/-- With its last task a group goes, and with it what its location's slot holds of it. -/
theorem withoutTask_slotAt (h : (g.without t).members = []) (q : SlotPos) : (withoutTask t g s).slotAt q =
    if (s.entryOf g.loc).map (·.pos) = some q then (s.slotAt q).map (·.dropGroup g.id) else s.slotAt q := by
  rw [withoutTask_last h, removeGroup_slotAt, closeTask_slotAt, closeTask_entryOf]
  rfl

end

theorem dropGroup_position (x : SlotState) (i : Nat) : (x.dropGroup i).position = x.position.filter (· ≠ i) := by
  cases h : x.position with
  | none => simp [SlotState.dropGroup, h]
  | some j => by_cases hj : j = i <;> simp [SlotState.dropGroup, h, hj, Option.filter]

/-- Settles O32: the task's record and its share of the open count go, and then its group changes or goes. -/
theorem taskCancelled : Obligations.TaskCancelled := by
  intro n s
  refine ⟨fun h => cancelTask_unknown ?_, fun x g hx hg => ?_⟩
  · exact List.find?_eq_none.2 fun y hy => by simpa using h y hy
  obtain rfl := (taskOf_mem hx).2
  have heq := cancelTask_open hx hg
  have hmembers : (g.without x).members = g.members.filter (· ≠ x.number) := by rw [without_eq]
  refine ⟨_, heq, ?_, fun p hp => withoutTask_pickerOf hp, fun hlast => ?_, fun hmore => ?_, ?_⟩
  · rw [withoutTask_tasks]; simp [bne, decide_not, Bool.beq_eq_decide_eq]
  · rw [← hmembers] at hlast
    refine ⟨?_, fun e y he hy => ?_, fun pos hpos => ?_⟩
    · rw [withoutTask_last hlast, removeGroup_groups, closeTask_groups]
      simp [bne, decide_not, Bool.beq_eq_decide_eq, Group.without, Group.remainingChange]
    · refine ⟨y.dropGroup g.id, by rw [withoutTask_slotAt hlast, he, if_pos (by rfl), hy]; rfl, ?_, ?_, dropGroup_position y g.id, ?_⟩ <;>
        simp [SlotState.dropGroup, bne, decide_not, Bool.beq_eq_decide_eq]
    · rw [withoutTask_slotAt hlast, if_neg]
      cases he : s.entryOf g.loc with
      | none => simp
      | some e => simpa using hpos e he
  · rw [← hmembers] at hmore
    rw [withoutTask_more hmore]
    refine ⟨(closeTask_only x s).keeps (p := .slots) (by decide), ?_⟩
    simp only [State.setGroup, closeTask_groups, without_eq]
  · exact ((closeTask_only x s).mono (by decide)).trans ((withoutTask_behind x g s).mono (by decide))

/-! ## TASK_AMEND (R86, R88) -/

theorem setGroup_ids (s : State) (x : Group) : (s.setGroup x).groups.map (·.id) = s.groups.map (·.id) := by
  rw [State.setGroup, List.map_map]
  refine List.map_congr_left fun g _ => ?_
  simp only [Function.comp_apply]
  split
  · next h => exact h.symm
  · rfl

theorem recomputeWhere_restates (p : MapEntry → Bool) (s : State) :
    ∃ φ, Restates φ ∧ (recomputeWhere p s).groups = s.groups.map φ := by
  suffices ∀ (es : List MapEntry) (s : State),
      ∃ φ, Restates φ ∧ (es.foldl (fun t e => recompute e t) s).groups = s.groups.map φ from this _ s
  intro es
  induction es with
  | nil => exact fun s => ⟨id, fun _ => rfl, (List.map_id _).symm⟩
  | cons e es ih =>
    intro s
    obtain ⟨ψ, hψ, hmore⟩ := ih (recompute e s)
    cases hx : s.slotAt e.pos with
    | none => exact ⟨ψ, hψ, by rw [List.foldl_cons, hmore, recompute_unmapped hx]⟩
    | some x =>
      exact ⟨ψ ∘ settledAt e s, hψ.comp (settledAt_restates e s), by
        rw [List.foldl_cons, hmore, (recompute_slotAt hx).1, List.map_map]⟩

/-- The task table with a task's new quantity. -/
def amendQuantity (n q : Nat) (s : State) : State :=
  { s with tasks := s.tasks.map fun x => if x.number = n then { x with quantity := q } else x }

theorem amendQuantity_tasks_only (n q : Nat) (s : State) : OnlyChanges [.tasks] s (amendQuantity n q s) := amendQuantity_only n q s

/-- The group after one of its tasks has taken a new quantity. -/
def Group.amended (g : Group) (t : Task) (q : Nat) : Group := g.remainingChange (g.remaining - t.quantity + q)

theorem remainingChange_eq (g : Group) (newR : Nat) :
    g.remainingChange newR = { g with remaining := newR, display := if g.display = g.remaining then newR else min g.display newR } := rfl

/-- The state in which the quantity and the group's counts are written. -/
def amendWritten (t : Task) (g : Group) (q : Nat) (s : State) : State := (amendQuantity t.number q s).setGroup (g.amended t q)

theorem amendWritten_only (t : Task) (g : Group) (q : Nat) (s : State) : OnlyChanges [.tasks, .groups] s (amendWritten t g q s) :=
  ((amendQuantity_tasks_only _ _ s).mono (by decide)).trans ((setGroup_only _ _).mono (by decide))

/-- What an accepted TASK_AMEND leaves. -/
def amendEffect (t : Task) (g : Group) (q : Nat) (s : State) : State :=
  if q = t.quantity then amendQuantity t.number q s else recomputeCodes [t.loc] (amendWritten t g q s)

theorem amendEffect_only (t : Task) (g : Group) (q : Nat) (s : State) : OnlyChanges (.tasks :: displayParts) s (amendEffect t g q s) := by
  unfold amendEffect; split
  · exact (amendQuantity_tasks_only _ _ s).mono (by decide)
  · exact ((amendWritten_only t g q s).mono (by decide)).trans ((recomputeCodes_only _ _).mono (by decide))

theorem amendEffect_tasks (t : Task) (g : Group) (q : Nat) (s : State) :
    (amendEffect t g q s).tasks = s.tasks.map (fun y => if y.number = t.number then { y with quantity := q } else y) := by
  unfold amendEffect; split
  · rfl
  · exact Eq.trans ((recomputeCodes_only _ _).keeps (p := .tasks) (by decide)) rfl

section
variable {r : Request} {s : State} {t : Task} {g : Group}

theorem applyTaskAmend_unknown (h : s.taskOf (r.field 0 4) = none) : applyTaskAmend r s = (Answer.refuse .unknownTask, s) := by
  unfold applyTaskAmend Request.taskNumber
  rw [h]

theorem applyTaskAmend_refused (ht : s.taskOf (r.field 0 4) = some t) (hg : s.groupOf t.group = some g)
    (h : r.field 4 2 < 1 ∨ 9999 < r.field 4 2 ∨ 9999 < g.remaining - t.quantity + r.field 4 2) :
    applyTaskAmend r s = (Answer.refuse .badField, s) := by
  unfold applyTaskAmend Request.taskNumber Request.newQuantity Config.maxQuantity
  rw [ht]
  simp only [hg]
  by_cases hq : r.field 4 2 < 1 ∨ 9999 < r.field 4 2
  · rw [if_pos hq]
  · rw [if_neg hq, if_pos (by omega)]

theorem applyTaskAmend_accepted (ht : s.taskOf (r.field 0 4) = some t) (hg : s.groupOf t.group = some g) (h1 : 1 ≤ r.field 4 2)
    (h2 : r.field 4 2 ≤ 9999) (h3 : g.remaining - t.quantity + r.field 4 2 ≤ 9999) :
    applyTaskAmend r s =
      (Answer.ok (beBytes 2 g.id ++ beBytes 2 (g.amended t (r.field 4 2)).remaining ++ beBytes 2 (g.amended t (r.field 4 2)).display),
        amendEffect t g (r.field 4 2) s) := by
  unfold applyTaskAmend Request.taskNumber Request.newQuantity Config.maxQuantity
  rw [ht]
  simp only [hg]
  rw [if_neg (by omega), if_neg (by omega)]
  rfl

/-- The group stands with its new counts, or with its old ones where the quantity is the same. -/
theorem amendEffect_group (hg : s.groupOf t.group = some g) (hle : t.quantity ≤ g.remaining) (q : Nat) :
    ∃ h ∈ (amendEffect t g q s).groups, h.id = g.id ∧ h.members = g.members ∧ h.remaining = (g.amended t q).remaining
      ∧ (q ≠ t.quantity ∨ g.display ≤ g.remaining → h.display = (g.amended t q).display) := by
  have hmem := (groupOf_mem hg).1
  by_cases hq : q = t.quantity
  · rw [amendEffect, if_pos hq]
    have hsame : g.remaining - t.quantity + q = g.remaining := by omega
    refine ⟨g, hmem, rfl, rfl, by rw [Group.amended, hsame]; rfl, fun h => ?_⟩
    rw [Group.amended, hsame, remainingChange_eq]
    dsimp only
    split <;> omega
  · rw [amendEffect, if_neg hq, recomputeCodes]
    obtain ⟨φ, hφ, hgroups⟩ := recomputeWhere_restates (fun e => [t.loc].contains e.code) (amendWritten t g q s)
    have hwritten : g.amended t q ∈ (amendWritten t g q s).groups := List.mem_map.2 ⟨g, hmem, if_pos rfl⟩
    refine ⟨φ (g.amended t q), hgroups ▸ List.mem_map.2 ⟨_, hwritten, rfl⟩, ?_⟩
    rw [hφ]
    exact ⟨rfl, rfl, rfl, fun _ => rfl⟩

end

/-- Settles O33: the checks decide in their order; an accepted amendment writes the quantity and the counts, and then recomputes the location
unless the quantity is the same. -/
theorem taskAmended : Obligations.TaskAmended := by
  intro r s hc
  refine ⟨fun h => ⟨_, rfl, carryForward_unchanged hc (applyTaskAmend_unknown ?_)⟩,
    fun x g hx hg hle => ⟨fun h => ?_, fun h1 h2 h3 => ?_⟩⟩
  · exact List.find?_eq_none.2 fun y hy => by simpa using h y hy
  · exact ⟨_, rfl, carryForward_unchanged hc (applyTaskAmend_refused (s := taken s) hx hg h)⟩
  have happly := applyTaskAmend_accepted (s := taken s) hx hg h1 h2 h3
  obtain ⟨hans, hend⟩ := carryForward_applied hc happly (amendEffect_only _ _ _ _) (by decide)
  refine ⟨_, rfl, ?_, ?_, fun hq hm hn => ?_, hans, fun hq => ?_⟩
  · exact Eq.trans (hend.keeps (p := .tasks) (by decide)) (amendEffect_tasks x g _ (taken s))
  · rw [show (carryForward .taskAmend (answered applyTaskAmend) s).groups = _ from hend.keeps (p := .groups) (by decide)]
    exact amendEffect_group (s := taken s) hg hle _
  · rw [amendEffect, if_neg hq] at hend
    have hids : ((amendWritten x g (r.field 4 2) (taken s)).groups.map (·.id)).Nodup := by
      have hsame := setGroup_ids (amendQuantity x.number (r.field 4 2) (taken s)) (g.amended x (r.field 4 2))
      rw [amendWritten, hsame]
      exact hn
    have hdrawn := recomputeWhere_redrawn (fun e => [x.loc].contains e.code) (s := amendWritten x g (r.field 4 2) (taken s)) (hm.of_eq rfl) hids
    refine ((hdrawn.of_start rfl rfl).trans_only hend (by decide)).of_iff fun e => ?_
    simp
  · have hkept : OnlyChanges [.tasks] (taken s) (amendEffect x g (r.field 4 2) (taken s)) := by
      rw [amendEffect, if_pos hq]
      exact amendQuantity_tasks_only _ _ _
    exact (carryForward_applied hc happly hkept (by decide)).1

end Sys2Proof.Machine

/-!
PROOFS. The slots' records in order, read record by record: what one record says of the groups it names, and how that outlasts a change of groups
(O57).
-/

namespace Sys2Proof.Machine

open Sys2Proof

/-! ## Records found by their key -/

theorem find_key_iff {α β : Type} [DecidableEq β] (key : α → β) {l : List α} (hn : (l.map key).Nodup) {k : β} {x : α} :
    l.find? (fun y => key y == k) = some x ↔ x ∈ l ∧ key x = k := by
  refine ⟨fun h => ⟨List.mem_of_find?_eq_some h, by simpa using List.find?_some h⟩, fun ⟨hx, hk⟩ => ?_⟩
  cases hf : l.find? (fun y => key y == k) with
  | none => simpa [hk] using List.find?_eq_none.1 hf x hx
  | some y =>
    have hy : key y = k := by simpa using List.find?_some hf
    rw [List.inj_on_of_nodup_map hn (List.mem_of_find?_eq_some hf) hx (hy.trans hk.symm)]

theorem slotAt_iff {s : State} (hn : (s.slots.map (·.pos)).Nodup) {pos : SlotPos} {x : SlotState} :
    s.slotAt pos = some x ↔ x ∈ s.slots ∧ x.pos = pos := find_key_iff SlotState.pos hn

theorem groupOf_iff {s : State} (hn : (s.groups.map (·.id)).Nodup) {i : Nat} {g : Group} :
    s.groupOf i = some g ↔ g ∈ s.groups ∧ g.id = i := find_key_iff Group.id hn

theorem MapOk.entryAt_iff {s : State} (hm : MapOk s) {pos : SlotPos} {e : MapEntry} :
    s.entryAt pos = some e ↔ e ∈ s.locMap ∧ e.pos = pos := find_key_iff MapEntry.pos hm.2.1

theorem MapOk.codes_nodup {s : State} (hm : MapOk s) : (s.locMap.map (·.code)).Nodup := hm.1.imp fun h => h.ne

theorem MapOk.entryOf_iff {s : State} (hm : MapOk s) {c : Nat} {e : MapEntry} :
    s.entryOf c = some e ↔ e ∈ s.locMap ∧ e.code = c := find_key_iff MapEntry.code hm.codes_nodup

theorem MapOk.entry_unique {s : State} (hm : MapOk s) {d e : MapEntry} (hd : d ∈ s.locMap) (he : e ∈ s.locMap) (h : d.code = e.code) : d = e :=
  List.inj_on_of_nodup_map hm.codes_nodup hd he h

/-- A table has a record at the keys that it lists. -/
theorem slotAt_isSome_iff (s : State) (pos : SlotPos) : (s.slotAt pos).isSome = true ↔ pos ∈ s.slots.map (·.pos) := by
  simp [State.slotAt]

/-! ## A slot's set (R97, R100, R104, R114, R117) -/

/-- A slot's set in order, in all that holds also while its location is still to be recomputed. -/
structure SetFits (x : SlotState) (s : State) : Prop where
  few : x.rotation.length ≤ Config.rotationGroups
  distinct : x.rotation.Nodup
  onePerPicker : ∀ g ∈ s.groups, ∀ h ∈ s.groups, g.id ∈ x.rotation → h.id ∈ x.rotation → g.picker = h.picker → g.id = h.id
  shown : ∀ i ∈ x.rotation, ∃ g ∈ s.groups, g.id = i ∧ g.state = .shown ∧ (s.entryAt x.pos).map (·.code) = some g.loc
  within : ∀ i, x.position = some i → i ∈ x.rotation
  interval : 2 ≤ x.rotation.length → x.rotTimer.isSome = true
  timed : x.linger.isSome = true → x.position.isSome = true
  lingered : x.lingered.Nodup ∧ ∀ i ∈ x.lingered, i ∈ x.rotation

/-- What a group's removal leaves to the recomputation: a position where there is a set, and no interval for one group. -/
structure AtRest (x : SlotState) : Prop where
  position : x.position = none → x.rotation = []
  interval : x.rotTimer.isSome = true → 2 ≤ x.rotation.length

/-- The groups of a set are of different pickers, said of the list and said of its groups. -/
theorem pickers_nodup_iff {s : State} (hn : (s.groups.map (·.id)).Nodup) {ids : List Nat} (hd : ids.Nodup) :
    ((ids.filterMap s.groupOf).map (·.picker)).Nodup ↔
      ∀ g ∈ s.groups, ∀ h ∈ s.groups, g.id ∈ ids → h.id ∈ ids → g.picker = h.picker → g.id = h.id := by
  have found : ∀ {g : Group}, g ∈ ids.filterMap s.groupOf ↔ g ∈ s.groups ∧ g.id ∈ ids := by
    intro g
    simp only [List.mem_filterMap, groupOf_iff hn]
    constructor
    · rintro ⟨i, hi, hg, rfl⟩; exact ⟨hg, hi⟩
    · rintro ⟨hg, hi⟩; exact ⟨g.id, hi, hg, rfl⟩
  have distinct : (ids.filterMap s.groupOf).Nodup := by
    refine hd.filterMap fun i j g hi hj => ?_
    exact (groupOf_mem hi).2.symm.trans (groupOf_mem hj).2
  constructor
  · intro h g hg k hk hgi hki hp
    exact congrArg Group.id (List.inj_on_of_nodup_map h (found.2 ⟨hg, hgi⟩) (found.2 ⟨hk, hki⟩) hp)
  · refine fun h => distinct.map_on fun g hg k hk hp => ?_
    obtain ⟨hgm, hgi⟩ := found.1 hg
    obtain ⟨hkm, hki⟩ := found.1 hk
    exact group_unique hn hgm hkm (h g hgm k hkm hgi hki hp)

theorem setOk_iff {s : State} (hn : (s.groups.map (·.id)).Nodup) (x : SlotState) : SetOk x s ↔ SetFits x s ∧ AtRest x := by
  constructor
  · rintro ⟨⟨few, distinct, pickers⟩, shown, ⟨within, some_iff⟩, interval, timed, lingered⟩
    refine ⟨⟨few, distinct, (pickers_nodup_iff hn distinct).1 pickers, shown, within, fun h => ?_, timed, lingered⟩,
      some_iff.1, fun h => ?_⟩
    · rw [interval]; exact decide_eq_true h
    · rw [interval] at h; exact of_decide_eq_true h
  · rintro ⟨fits, rest⟩
    refine ⟨⟨fits.few, fits.distinct, (pickers_nodup_iff hn fits.distinct).2 fits.onePerPicker⟩, fits.shown,
      ⟨fits.within, rest.position, fun h => ?_⟩, ?_, fits.timed, fits.lingered⟩
    · refine Option.eq_none_iff_forall_ne_some.2 fun i hi => ?_
      simpa [h] using fits.within i hi
    · rw [Bool.eq_iff_iff, decide_eq_true_iff]
      exact ⟨rest.interval, fits.interval⟩

/-- A record is in order: its history, and its set but for what is left to the recomputation. -/
structure SlotFits (x : SlotState) (s : State) : Prop where
  history : HistoryOk x s
  set : SetFits x s

/-- A record with another shadow, feedback or timer, its set and history as they were. -/
theorem SlotFits.of_same {s : State} {x y : SlotState} (h : SlotFits x s) (hpos : y.pos = x.pos) (hrot : y.rotation = x.rotation)
    (hposition : y.position = x.position) (hlingered : y.lingered = x.lingered) (hhist : y.history = x.history)
    (hint : x.rotTimer.isSome = true → y.rotTimer.isSome = true) (htimed : y.linger.isSome = true → y.position.isSome = true) : SlotFits y s := by
  obtain ⟨few, distinct, one, shown, within, interval, -, lingered⟩ := h.set
  have hist := h.history
  unfold HistoryOk at hist
  refine ⟨by unfold HistoryOk; rw [hhist, hpos]; exact hist, ?_, ?_, ?_, ?_, ?_, ?_, htimed, ?_⟩
  · rw [hrot]; exact few
  · rw [hrot]; exact distinct
  · rw [hrot]; exact one
  · rw [hrot, hpos]; exact shown
  · rw [hrot, hposition]; exact within
  · rw [hrot]; exact fun h2 => hint (interval h2)
  · rw [hlingered, hrot]; exact lingered

theorem SetFits.with_history {s : State} {x : SlotState} (h : SetFits x s) (history : List HistEntry) : SetFits { x with history := history } s :=
  ⟨h.few, h.distinct, h.onePerPicker, h.shown, h.within, h.interval, h.timed, h.lingered⟩

/-! ## The groups that a record names -/

/-- A slot's record names a group: in its set or in its tag history. -/
def SlotState.names (x : SlotState) (i : Nat) : Prop := i ∈ x.rotation ∨ ∃ h ∈ x.history, h.shown.map (·.1) = some i

/-- A named group is an open group of the slot's location. -/
theorem SlotFits.named {s : State} {x : SlotState} (h : SlotFits x s) {i : Nat} (hi : x.names i) :
    ∃ g ∈ s.groups, g.id = i ∧ (s.entryAt x.pos).map (·.code) = some g.loc := by
  rcases hi with hi | ⟨k, hk, hki⟩
  · obtain ⟨g, hg, hid, -, hloc⟩ := h.set.shown i hi
    exact ⟨g, hg, hid, hloc⟩
  · obtain ⟨j, hj, rfl⟩ := Option.map_eq_some_iff.1 hki
    obtain ⟨-, -, opens⟩ := h.history
    obtain ⟨g, hg, hid, hloc, -⟩ := opens k hk j hj
    exact ⟨g, hg, hid, hloc⟩

theorem SlotFits.named_loc {s : State} {x : SlotState} (h : SlotFits x s) (hn : (s.groups.map (·.id)).Nodup) {g : Group} (hg : g ∈ s.groups)
    (hi : x.names g.id) : (s.entryAt x.pos).map (·.code) = some g.loc := by
  obtain ⟨k, hk, hid, hloc⟩ := h.named hi
  rw [group_unique hn hg hk hid.symm]
  exact hloc

/-- From `s` to `t` the groups that a record names still stand as it says, its location is the same, and it names no group that was not there. -/
structure NamesKept (x : SlotState) (s t : State) : Prop where
  code : (t.entryAt x.pos).map (·.code) = (s.entryAt x.pos).map (·.code)
  stands : ∀ g ∈ s.groups, x.names g.id → ∃ k ∈ t.groups, k.id = g.id ∧ k.loc = g.loc ∧ (g.state = .shown → k.state = .shown)
    ∧ (g.firstShown.isSome = true → k.firstShown.isSome = true)
  known : ∀ k ∈ t.groups, x.names k.id → ∃ g ∈ s.groups, g.id = k.id ∧ g.picker = k.picker

theorem HistoryOk.carry {s t : State} {x : SlotState} (h : HistoryOk x s) (k : NamesKept x s t) : HistoryOk x t := by
  obtain ⟨few, tags, opens⟩ := h
  refine ⟨few, tags, fun e he i hi => ?_⟩
  obtain ⟨g, hg, hid, hloc, hfirst⟩ := opens e he i hi
  obtain ⟨g', hg', hid', hloc', -, hfirst'⟩ := k.stands g hg (.inr ⟨e, he, by rw [hi, hid]; rfl⟩)
  exact ⟨g', hg', hid'.trans hid, by rw [k.code, hloc, hloc'], hfirst' hfirst⟩

theorem SlotFits.carry {s t : State} {x : SlotState} (h : SlotFits x s) (k : NamesKept x s t) : SlotFits x t := by
  obtain ⟨few, distinct, one, shown, within, interval, timed, lingered⟩ := h.set
  refine ⟨h.history.carry k, few, distinct, fun g hg h hh hgi hhi hp => ?_, fun i hi => ?_, within, interval, timed, lingered⟩
  · obtain ⟨g', hg', hid, hpick⟩ := k.known g hg (.inl hgi)
    obtain ⟨h', hh', hid', hpick'⟩ := k.known h hh (.inl hhi)
    rw [← hid, ← hid']
    exact one g' hg' h' hh' (hid ▸ hgi) (hid' ▸ hhi) (hpick.trans (hp.trans hpick'.symm))
  · obtain ⟨g, hg, rfl, hstate, hloc⟩ := shown i hi
    obtain ⟨g', hg', hid', hloc', hstate', -⟩ := k.stands g hg (.inl hi)
    exact ⟨g', hg', hid', hstate' hstate, by rw [k.code, hloc, hloc']⟩

/-- Groups changed in place, those that a record names standing as they did. -/
theorem NamesKept.of_map {s t : State} {x : SlotState} {φ : Group → Group} (hmap : t.locMap = s.locMap) (hg : t.groups = s.groups.map φ)
    (hφ : ∀ g ∈ s.groups, x.names g.id ∨ x.names (φ g).id → (φ g).id = g.id ∧ (φ g).picker = g.picker ∧ (φ g).loc = g.loc
      ∧ (g.state = .shown → (φ g).state = .shown) ∧ (g.firstShown.isSome = true → (φ g).firstShown.isSome = true)) : NamesKept x s t := by
  refine ⟨by simp only [State.entryAt, hmap], fun g hm hi => ?_, fun k hk hi => ?_⟩
  · obtain ⟨hid, -, hloc, hstate, hfirst⟩ := hφ g hm (.inl hi)
    exact ⟨φ g, hg ▸ List.mem_map_of_mem hm, hid, hloc, hstate, hfirst⟩
  · obtain ⟨g, hm, rfl⟩ := List.mem_map.1 (hg ▸ hk)
    obtain ⟨hid, hpick, -⟩ := hφ g hm (.inr hi)
    exact ⟨g, hm, hid.symm, hpick.symm⟩

/-! ## All records -/

/-- A group's location is mapped; where it is SHOWN it has been shown and stands in its slot's set, and it lingers only there. -/
def Located (g : Group) (s : State) : Prop :=
  (∃ e ∈ s.locMap, e.code = g.loc ∧ (g.state = .shown → ∀ x, s.slotAt e.pos = some x → g.id ∈ x.rotation))
    ∧ (g.state = .shown → g.firstShown.isSome = true) ∧ (g.linger = true → g.state = .shown)

/-- The scheduler's records are in order but for the locations whose codes are pending, which are still to be recomputed. -/
structure SlotsFit (pending : Nat → Prop) (s : State) : Prop where
  ids : (s.groups.map (·.id)).Nodup
  positions : (s.slots.map (·.pos)).Nodup
  mapped : ∀ pos, (s.slotAt pos).isSome = (s.entryAt pos).isSome
  fits : ∀ pos x, s.slotAt pos = some x → SlotFits x s
  rest : ∀ pos x, s.slotAt pos = some x → (∀ e, s.entryAt pos = some e → ¬ pending e.code) → AtRest x
  groups : ∀ g ∈ s.groups, Located g s

/-- No location is still to be recomputed. -/
def nonePending : Nat → Prop := fun _ => False

theorem slotsOk_iff {s : State} (hn : (s.groups.map (·.id)).Nodup) : SlotsOk s ↔ SlotsFit nonePending s := by
  constructor
  · rintro ⟨positions, mapped, records, groups⟩
    have record : ∀ pos x, s.slotAt pos = some x → HistoryOk x s ∧ SetOk x s := fun pos x hx => records x ((slotAt_iff positions).1 hx).1
    exact ⟨hn, positions, mapped, fun pos x hx => ⟨(record pos x hx).1, ((setOk_iff hn x).1 (record pos x hx).2).1⟩,
      fun pos x hx _ => ((setOk_iff hn x).1 (record pos x hx).2).2, groups⟩
  · rintro ⟨-, positions, mapped, fits, rest, groups⟩
    refine ⟨positions, mapped, fun x hx => ?_, groups⟩
    have at_pos := (slotAt_iff positions).2 ⟨hx, rfl⟩
    exact ⟨(fits _ x at_pos).history, (setOk_iff hn x).2 ⟨(fits _ x at_pos).set, rest _ x at_pos fun _ _ h => h⟩⟩

namespace SlotsFit

variable {pending pending' : Nat → Prop} {s t : State}

/-- A step that leaves the map and the slot positions: each record is brought from the record that stood there. -/
theorem change (h : SlotsFit pending s) (hmap : t.locMap = s.locMap) (hpos : t.slots.map (·.pos) = s.slots.map (·.pos))
    (hids : (t.groups.map (·.id)).Nodup) (hfits : ∀ pos y, t.slotAt pos = some y → SlotFits y t)
    (hrest : ∀ pos y, t.slotAt pos = some y → (∀ e, s.entryAt pos = some e → ¬ pending' e.code) → AtRest y)
    (hgroups : ∀ g ∈ t.groups, Located g t) : SlotsFit pending' t := by
  have entry : ∀ pos, t.entryAt pos = s.entryAt pos := fun pos => by simp only [State.entryAt, hmap]
  refine ⟨hids, hpos ▸ h.positions, fun pos => ?_, hfits, fun pos y hy => ?_, hgroups⟩
  · rw [entry, ← h.mapped, Bool.eq_iff_iff, slotAt_isSome_iff, slotAt_isSome_iff, hpos]
  · rw [entry]; exact hrest pos y hy

theorem mono (h : SlotsFit pending s) (hp : ∀ e ∈ s.locMap, pending e.code → pending' e.code) : SlotsFit pending' s :=
  { h with rest := fun pos x hx hnot => h.rest pos x hx fun e he hpe => hnot e he (hp e (List.mem_of_find?_eq_some he) hpe) }

/-- Where no mapped location is pending, none is. -/
theorem settle (h : SlotsFit pending s) (hp : ∀ e ∈ s.locMap, ¬ pending e.code) : SlotsFit nonePending s := h.mono fun e he hpe => hp e he hpe

theorem of_view (h : SlotsFit pending s) (hmap : t.locMap = s.locMap) (hg : t.groups = s.groups) (hs : t.slots = s.slots) : SlotsFit pending t := by
  have slot : ∀ pos, t.slotAt pos = s.slotAt pos := fun pos => by simp only [State.slotAt, hs]
  have kept : ∀ x, NamesKept x s t := fun x =>
    .of_map (φ := id) hmap (by rw [hg, List.map_id]) fun g _ _ => ⟨rfl, rfl, rfl, id, id⟩
  refine h.change hmap (by rw [hs]) (hg ▸ h.ids) (fun pos y hy => (h.fits pos y (slot pos ▸ hy)).carry (kept y))
    (fun pos y hy => h.rest pos y (slot pos ▸ hy)) fun g hgm => ?_
  have := h.groups g (hg ▸ hgm)
  simpa only [Located, hmap, slot] using this

/-- The parts that the records and the groups stand in. -/
theorem of_only (h : SlotsFit pending s) {ps : List Part} (hc : OnlyChanges ps s t) (hp : ∀ p ∈ [Part.locations, .groups, .slots], p ∉ ps) :
    SlotsFit pending t :=
  h.of_view (hc.keeps (p := .locations) (hp _ (by decide))) (hc.keeps (p := .groups) (hp _ (by decide)))
    (hc.keeps (p := .slots) (hp _ (by decide)))

theorem setSlot_slotAt_cases {x y : SlotState} (hx : s.slotAt y.pos = some x) (pos : SlotPos) {z : SlotState}
    (hz : (s.setSlot y).slotAt pos = some z) :
    pos = y.pos ∧ z = y ∨ pos ≠ y.pos ∧ s.slotAt pos = some z := by
  by_cases hp : pos = y.pos
  · subst hp
    rw [setSlot_slotAt (by rw [hx]; rfl)] at hz
    exact .inl ⟨rfl, (Option.some.inj hz).symm⟩
  · rw [setSlot_slotAt_other s y (Ne.symm hp)] at hz
    exact .inr ⟨hp, hz⟩

theorem setSlot_positions (s : State) (y : SlotState) : (s.setSlot y).slots.map (·.pos) = s.slots.map (·.pos) := by
  simp only [State.setSlot, List.map_map]
  refine List.map_congr_left fun x _ => ?_
  simp only [Function.comp_apply]
  split
  · next h => exact h.symm
  · rfl

/-- A record is replaced by another with the same set. -/
theorem setSlot (h : SlotsFit pending s) {pos : SlotPos} {x y : SlotState} (hfound : s.slotAt pos = some x) (hpos : y.pos = x.pos)
    (hrot : y.rotation = x.rotation) (hy : SlotFits y s) (hrest : AtRest x → AtRest y) : SlotsFit pending (s.setSlot y) := by
  have hx : s.slotAt y.pos = some x := by rw [hpos, slotAt_pos hfound]; exact hfound
  have kept : ∀ z, NamesKept z s (s.setSlot y) := fun z =>
    .of_map (φ := id) rfl (List.map_id _).symm fun g _ _ => ⟨rfl, rfl, rfl, id, id⟩
  refine h.change rfl (setSlot_positions s y) h.ids (fun pos z hz => ?_) (fun pos z hz hnot => ?_) fun g hg => ?_
  · rcases setSlot_slotAt_cases hx pos hz with ⟨-, rfl⟩ | ⟨-, hz⟩
    · exact hy.carry (kept z)
    · exact (h.fits pos z hz).carry (kept z)
  · rcases setSlot_slotAt_cases hx pos hz with ⟨rfl, rfl⟩ | ⟨-, hz⟩
    · exact hrest (h.rest _ x hx hnot)
    · exact h.rest pos z hz hnot
  · obtain ⟨⟨e, he, hloc, hshown⟩, hfirst, hlinger⟩ := h.groups g hg
    refine ⟨⟨e, he, hloc, fun hsh z hz => ?_⟩, hfirst, hlinger⟩
    rcases setSlot_slotAt_cases hx e.pos hz with ⟨hp, rfl⟩ | ⟨-, hz⟩
    · rw [hrot]; exact hshown hsh x (hp ▸ hx)
    · exact hshown hsh z hz

/-- Groups changed in place, none of which stands otherwise in a set. -/
theorem mapGroups (h : SlotsFit pending s) {φ : Group → Group} (hmap : t.locMap = s.locMap) (hs : t.slots = s.slots)
    (hg : t.groups = s.groups.map φ)
    (hφ : ∀ g ∈ s.groups, ((φ g).id = g.id ∧ (φ g).picker = g.picker ∧ (φ g).loc = g.loc)
      ∧ ((φ g).state = g.state ∧ (φ g).firstShown = g.firstShown) ∧ ((φ g).linger = true → g.linger = true ∨ g.state = .shown)) : SlotsFit pending t := by
  have slot : ∀ pos, t.slotAt pos = s.slotAt pos := fun pos => by simp only [State.slotAt, hs]
  have kept : ∀ x, NamesKept x s t := fun x => .of_map hmap hg fun g hm _ => by
    obtain ⟨⟨hid, hpick, hloc⟩, ⟨hstate, hfirst⟩, -⟩ := hφ g hm
    exact ⟨hid, hpick, hloc, fun hsh => hstate.trans hsh, fun hf => by rw [hfirst]; exact hf⟩
  refine h.change hmap (by rw [hs]) ?_ (fun pos y hy => (h.fits pos y (slot pos ▸ hy)).carry (kept y))
    (fun pos y hy => h.rest pos y (slot pos ▸ hy)) fun k hk => ?_
  · have hids : t.groups.map (·.id) = s.groups.map (·.id) := by
      rw [hg, List.map_map]
      exact List.map_congr_left fun g hm => (hφ g hm).1.1
    exact hids ▸ h.ids
  · obtain ⟨g, hm, rfl⟩ := List.mem_map.1 (hg ▸ hk)
    obtain ⟨⟨hid, -, hloc⟩, ⟨hstate, hfirst⟩, hlinger⟩ := hφ g hm
    obtain ⟨⟨e, he, hel, hshown⟩, hf, hl⟩ := h.groups g hm
    refine ⟨⟨e, hmap ▸ he, hel.trans hloc.symm, fun hsh x hx => ?_⟩, fun hsh => ?_, fun hlin => ?_⟩
    · rw [hid]; exact hshown (hstate.symm.trans hsh) x (slot _ ▸ hx)
    · rw [hfirst]; exact hf (hstate.symm.trans hsh)
    · rw [hstate]; exact (hlinger hlin).elim hl id

/-- One group is replaced by another that stands as it did. -/
theorem setGroup (h : SlotsFit pending s) {g k : Group} (hg : g ∈ s.groups) (hid : k.id = g.id) (hpick : k.picker = g.picker) (hloc : k.loc = g.loc)
    (hstate : k.state = g.state) (hfirst : k.firstShown = g.firstShown) (hlinger : k.linger = true → g.linger = true ∨ g.state = .shown) :
    SlotsFit pending (s.setGroup k) := by
  refine h.mapGroups rfl rfl rfl fun x hx => ?_
  split
  · next he =>
    obtain rfl := group_unique h.ids hx hg (he.trans hid)
    exact ⟨⟨hid, hpick, hloc⟩, ⟨hstate, hfirst⟩, hlinger⟩
  · exact ⟨⟨rfl, rfl, rfl⟩, ⟨rfl, rfl⟩, .inl⟩

/-- A new group of a mapped location joins, WAITING. -/
theorem addGroup (h : SlotsFit pending s) {k : Group} (hmap : t.locMap = s.locMap) (hs : t.slots = s.slots) (hg : t.groups = s.groups ++ [k])
    (hnew : k.id ∉ s.groups.map (·.id)) (hloc : ∃ e ∈ s.locMap, e.code = k.loc) (hstate : k.state = .waiting) (hlinger : k.linger = false) :
    SlotsFit pending t := by
  have slot : ∀ pos, t.slotAt pos = s.slotAt pos := fun pos => by simp only [State.slotAt, hs]
  have kept : ∀ pos x, s.slotAt pos = some x → NamesKept x s t := fun pos x hx => by
    refine ⟨by simp only [State.entryAt, hmap], fun g hm _ => ⟨g, by simp [hg, hm], rfl, rfl, id, id⟩, fun g hm hi => ?_⟩
    rcases List.mem_append.1 (hg ▸ hm) with hm | hm
    · exact ⟨g, hm, rfl, rfl⟩
    · obtain rfl := List.mem_singleton.1 hm
      obtain ⟨g', hg', hid, -⟩ := (h.fits pos x hx).named hi
      exact absurd (List.mem_map.2 ⟨g', hg', hid⟩) hnew
  refine h.change hmap (by rw [hs]) ?_ (fun pos y hy => (h.fits pos y (slot pos ▸ hy)).carry (kept pos y (slot pos ▸ hy)))
    (fun pos y hy => h.rest pos y (slot pos ▸ hy)) fun g hm => ?_
  · rw [hg, List.map_append, List.nodup_append]
    refine ⟨h.ids, List.nodup_singleton _, fun i hi j hj hij => hnew ?_⟩
    have hik : i = k.id := hij.trans (List.mem_singleton.1 hj)
    exact hik ▸ hi
  · rcases List.mem_append.1 (hg ▸ hm) with hm | hm
    · have := h.groups g hm
      simpa only [Located, hmap, slot] using this
    · obtain rfl := List.mem_singleton.1 hm
      obtain ⟨e, he, hel⟩ := hloc
      exact ⟨⟨e, hmap ▸ he, hel, fun hsh => by simp [hstate] at hsh⟩, fun hsh => by simp [hstate] at hsh, fun hl => by simp [hlinger] at hl⟩

end SlotsFit

end Sys2Proof.Machine

/-!
PROOFS. What a recomputation and a group's removal leave of the slots' records (O57).
-/

namespace Sys2Proof.Machine

open Sys2Proof

/-! ## The set that a recomputation finds (R97, R100) -/

/-- The ids of a location's new set: up to four, all different, and of groups of different pickers. -/
theorem rotationIds_fits {s : State} (hn : (s.groups.map (·.id)).Nodup) (e : MapEntry) :
    (s.rotationIds e).length ≤ Config.rotationGroups ∧ (s.rotationIds e).Nodup
      ∧ ∀ g ∈ s.groups, ∀ h ∈ s.groups, g.id ∈ s.rotationIds e → h.id ∈ s.rotationIds e → g.picker = h.picker → g.id = h.id := by
  obtain ⟨hlen, hsub, hone⟩ := rotationSet_fits ((s.queueOf e.code).filter (s.eligible e))
  have member : ∀ g ∈ rotationSet ((s.queueOf e.code).filter (s.eligible e)), g ∈ s.groups := fun g hg =>
    (mem_queueOf (List.mem_of_mem_filter (hsub.subset hg))).1
  refine ⟨(List.length_map _).trans_le hlen, hone.of_map.map_on fun g hg h hh => group_unique hn (member g hg) (member h hh), ?_⟩
  intro g hg h hh hgi hhi hp
  obtain ⟨g', hg', hid⟩ := List.mem_map.1 hgi
  obtain ⟨h', hh', hid'⟩ := List.mem_map.1 hhi
  obtain rfl := group_unique hn (member g' hg') hg hid
  obtain rfl := group_unique hn (member h' hh') hh hid'
  exact congrArg Group.id (List.inj_on_of_nodup_map hone hg' hh' hp)

theorem settlePosition_none {ids : List Nat} {old : Option Nat} (h : settlePosition ids old = none) : ids = [] := by
  unfold settlePosition at h
  split at h
  · split at h
    · cases h
    · exact List.head?_eq_none_iff.1 h
  · exact List.head?_eq_none_iff.1 h

/-- The groups as a recomputation of a location settles them (R99). -/
def settledGroups (e : MapEntry) (s : State) : State := { s with groups := s.groups.map (settledAt e s) }

/-- A slot's record with the new set of its location, before its linger timer is settled (R99, R100, R104). -/
def regrouped (e : MapEntry) (x : SlotState) (s : State) : SlotState :=
  { x with
    rotation := s.rotationIds e, position := settlePosition (s.rotationIds e) x.position
    rotTimer :=
      if (s.rotationIds e).length < 2 then none
      else if x.rotation.length < 2 ∨ settlePosition (s.rotationIds e) x.position ≠ x.position then some (rotationTimer s)
      else x.rotTimer
    lingered := x.lingered.filter (fun g => (s.rotationIds e).contains g) }

/-- A slot's record after a recomputation of its location, its shadow aside. -/
def recomputed (e : MapEntry) (x : SlotState) (s : State) : SlotState :=
  { regrouped e x s with
    linger :=
      if settlePosition (s.rotationIds e) x.position = x.position ∧ settlePosition (s.rotationIds e) x.position ≠ none then x.linger
      else (settledGroups e s).lingerAtPosition (regrouped e x s) }

theorem recompute_mapped {e : MapEntry} {s : State} {x : SlotState} (h : s.slotAt e.pos = some x) :
    recompute e s = renewShadow e.pos ((settledGroups e s).setSlot (recomputed e x s)) := by
  unfold recompute
  rw [h]
  rfl

theorem settledAt_other {e : MapEntry} {g : Group} (s : State) (h : g.loc ≠ e.code) : settledAt e s g = g := if_neg h

/-- A group of the location is SHOWN where it is in the new set, and else it waits or is held and does not linger (R99). -/
theorem settledAt_cases {e : MapEntry} {g : Group} (s : State) (h : g.loc = e.code) :
    g.id ∈ s.rotationIds e ∧ settledAt e s g = { g with state := .shown, firstShown := some (g.firstShown.getD s.clock) }
      ∨ g.id ∉ s.rotationIds e ∧ settledAt e s g = { g with state := if s.eligible e g then .waiting else .held, linger := false } := by
  simp only [settledAt, if_pos h, settleGroup, List.contains_iff_mem]
  by_cases hi : g.id ∈ s.rotationIds e
  · exact .inl ⟨hi, if_pos hi⟩
  · exact .inr ⟨hi, if_neg hi⟩

/-- A group that has been shown has been shown after any recomputation. -/
theorem settledAt_firstShown (e : MapEntry) (s : State) {g : Group} (h : g.firstShown.isSome = true) :
    (settledAt e s g).firstShown.isSome = true := by
  by_cases hl : g.loc = e.code
  · rcases settledAt_cases s hl with ⟨-, heq⟩ | ⟨-, heq⟩ <;> rw [heq]
    · rfl
    · exact h
  · rw [settledAt_other s hl]; exact h

theorem settledGroups_ids (e : MapEntry) (s : State) : (settledGroups e s).groups.map (·.id) = s.groups.map (·.id) := by
  rw [settledGroups, List.map_map]
  exact List.map_congr_left fun g _ => (settledAt_place e s g).1

section
variable {e : MapEntry} {x : SlotState} {s : State}

/-- A linger timer at a position needs a group there. -/
theorem lingerAtPosition_isSome {x : SlotState} {s : State} (h : (s.lingerAtPosition x).isSome = true) : x.position.isSome = true := by
  cases hp : x.position with
  | none => simp [State.lingerAtPosition, State.groupAtPosition, hp] at h
  | some i => rfl

theorem recomputed_timed (h : (recomputed e x s).linger.isSome = true) : (recomputed e x s).position.isSome = true := by
  by_cases hk : settlePosition (s.rotationIds e) x.position = x.position ∧ settlePosition (s.rotationIds e) x.position ≠ none
  · exact Option.isSome_iff_ne_none.2 hk.2
  · simp only [recomputed, if_neg hk] at h
    exact lingerAtPosition_isSome h

theorem recomputed_rest : AtRest (recomputed e x s) := by
  refine ⟨settlePosition_none, fun h => ?_⟩
  by_contra hlt
  simp [recomputed, regrouped, show (s.rotationIds e).length < 2 from not_le.1 hlt] at h

theorem recomputed_interval (hx : SetFits x s) (h : 2 ≤ (s.rotationIds e).length) : (recomputed e x s).rotTimer.isSome = true := by
  show (if _ then _ else _ : Option Timer).isSome = true
  rw [if_neg (not_lt.2 h)]
  split
  · rfl
  · next hk => exact hx.interval (not_lt.1 fun hlt => hk (.inl hlt))

/-- The record of a recomputed location is in order (R97, R100, R104, R114, R117). -/
theorem recomputed_fits (hm : MapOk s) (hn : (s.groups.map (·.id)).Nodup) (he : e ∈ s.locMap) (hpos : x.pos = e.pos) (hx : SlotFits x s) :
    SlotFits (recomputed e x s) (settledGroups e s) := by
  have entry : (settledGroups e s).entryAt e.pos = some e := hm.entryAt_iff.2 ⟨he, rfl⟩
  obtain ⟨few, distinct, one⟩ := rotationIds_fits hn e
  refine ⟨?_, few, distinct, fun g hg h hh hgi hhi hp => ?_, fun i hi => ?_, fun i hi => settlePosition_mem hi, recomputed_interval hx.set,
    recomputed_timed, hx.set.lingered.1.filter _, fun i hi => ?_⟩
  · obtain ⟨few, tags, opens⟩ := hx.history
    refine ⟨few, tags, fun k hk i hi => ?_⟩
    obtain ⟨g, hg, hid, hloc, hfirst⟩ := opens k hk i hi
    exact ⟨_, List.mem_map_of_mem hg, (settledAt_place e s g).1.trans hid, hloc.trans (congrArg some (settledAt_place e s g).2.2.symm),
      settledAt_firstShown e s hfirst⟩
  · obtain ⟨g', hg', rfl⟩ := List.mem_map.1 hg
    obtain ⟨h', hh', rfl⟩ := List.mem_map.1 hh
    obtain ⟨hid, hpick, -⟩ := settledAt_place e s g'
    obtain ⟨hid', hpick', -⟩ := settledAt_place e s h'
    rw [hid] at hgi ⊢
    rw [hid'] at hhi ⊢
    exact one g' hg' h' hh' hgi hhi (hpick.symm.trans (hp.trans hpick'))
  · obtain ⟨g, hg, rfl, hloc, -⟩ := mem_rotationIds hi
    refine ⟨_, List.mem_map_of_mem hg, (settledAt_place e s g).1, ?_, ?_⟩
    · rcases settledAt_cases s hloc with ⟨-, heq⟩ | ⟨hno, -⟩
      · rw [heq]
      · exact absurd hi hno
    · rw [show (recomputed e x s).pos = e.pos from hpos, entry, (settledAt_place e s g).2.2, hloc]
      rfl
  · show i ∈ s.rotationIds e
    simpa using (List.mem_filter.1 hi).2

end

/-- The location of a record at another position is another location. -/
theorem MapOk.code_ne {s : State} (hm : MapOk s) {e : MapEntry} (he : e ∈ s.locMap) {pos : SlotPos} (hp : pos ≠ e.pos) {c : Nat}
    (hc : (s.entryAt pos).map (·.code) = some c) : c ≠ e.code := by
  rintro rfl
  obtain ⟨d, hd, hcode⟩ := Option.map_eq_some_iff.1 hc
  obtain ⟨hdm, rfl⟩ := hm.entryAt_iff.1 hd
  exact hp (congrArg MapEntry.pos (hm.entry_unique hdm he hcode))

/-- What a record at another location names is left by the recomputation of a location. -/
theorem SlotFits.settledGroups_other {s : State} {x : SlotState} (h : SlotFits x s) (hm : MapOk s) (hn : (s.groups.map (·.id)).Nodup)
    {e : MapEntry} (he : e ∈ s.locMap) (hp : x.pos ≠ e.pos) : SlotFits x (settledGroups e s) := by
  refine h.carry (.of_map rfl rfl fun g hg hi => ?_)
  have hnamed : x.names g.id := hi.elim id fun hi => (settledAt_place e s g).1 ▸ hi
  rw [settledAt_other s (hm.code_ne he hp (h.named_loc hn hg hnamed))]
  exact ⟨rfl, rfl, rfl, id, id⟩

namespace SlotsFit

variable {pending : Nat → Prop} {s : State}

/-- A renewed shadow leaves the sets (R102). -/
theorem renewShadow (h : SlotsFit pending s) (pos : SlotPos) : SlotsFit pending (renewShadow pos s) := by
  unfold Machine.renewShadow; split
  · exact h
  next x hx =>
    simp only; split
    · exact h
    · have fits := h.fits pos x hx
      exact (h.setSlot (y := { x with shadow := s.deriveShadow x }) hx rfl rfl
        (fits.of_same rfl rfl rfl rfl rfl id fits.set.timed) fun hr => ⟨hr.position, hr.interval⟩).of_only (enqueueSlot_only _ _) (by decide)

/-- The recomputation of a location settles its record, whatever it was (R99). -/
theorem settleLocation (h : SlotsFit pending s) (hm : MapOk s) {e : MapEntry} (he : e ∈ s.locMap) {x : SlotState} (hx : s.slotAt e.pos = some x) :
    SlotsFit (fun c => pending c ∧ c ≠ e.code) ((settledGroups e s).setSlot (recomputed e x s)) := by
  have hxp : x.pos = e.pos := slotAt_pos hx
  have hpos : (recomputed e x s).pos = e.pos := hxp
  have hx' : (settledGroups e s).slotAt (recomputed e x s).pos = some x := hpos.symm ▸ hx
  have slots := fun pos z => setSlot_slotAt_cases (s := settledGroups e s) hx' pos (z := z)
  have view : ∀ {z}, SlotFits z (settledGroups e s) → SlotFits z ((settledGroups e s).setSlot (recomputed e x s)) := fun fits =>
    fits.carry (.of_map (φ := id) rfl (List.map_id _).symm fun g _ _ => ⟨rfl, rfl, rfl, id, id⟩)
  refine h.change rfl (setSlot_positions (settledGroups e s) _) ((settledGroups_ids e s).symm ▸ h.ids) (fun pos z hz => ?_)
    (fun pos z hz hnot => ?_) fun k hk => ?_
  · rcases slots pos z hz with ⟨-, rfl⟩ | ⟨hne, hz⟩
    · exact view (recomputed_fits hm h.ids he (slotAt_pos hx) (h.fits _ x hx))
    · have hzp : z.pos = pos := slotAt_pos hz
      exact view ((h.fits pos z hz).settledGroups_other hm h.ids he (hzp ▸ hpos ▸ hne))
  · rcases slots pos z hz with ⟨-, rfl⟩ | ⟨hne, hz⟩
    · exact recomputed_rest
    · refine h.rest pos z hz fun d hd hpd => hnot d hd ⟨hpd, ?_⟩
      exact hm.code_ne he (hpos ▸ hne) (by rw [hd]; rfl)
  · obtain ⟨g, hg, rfl⟩ := List.mem_map.1 hk
    obtain ⟨⟨d, hd, hloc, hshown⟩, hfirst, hlinger⟩ := h.groups g hg
    by_cases hl : g.loc = e.code
    · have placed : ∀ z, ((settledGroups e s).setSlot (recomputed e x s)).slotAt e.pos = some z → z.rotation = s.rotationIds e := by
        intro z hz
        rcases slots e.pos z hz with ⟨-, rfl⟩ | ⟨hne, -⟩
        · rfl
        · exact absurd hpos.symm hne
      refine ⟨⟨e, he, hl.symm.trans (settledAt_place e s g).2.2.symm, fun hsh z hz => ?_⟩, ?_⟩
      · rw [placed z hz, (settledAt_place e s g).1]
        rcases settledAt_cases s hl with ⟨hi, -⟩ | ⟨-, heq⟩
        · exact hi
        · rw [heq] at hsh; simp only at hsh; split at hsh <;> cases hsh
      · rcases settledAt_cases s hl with ⟨-, heq⟩ | ⟨-, heq⟩ <;> rw [heq]
        · exact ⟨fun _ => rfl, fun _ => rfl⟩
        · refine ⟨fun hsh => ?_, fun hlin => by cases hlin⟩
          simp only at hsh; split at hsh <;> cases hsh
    · rw [settledAt_other s hl]
      refine ⟨⟨d, hd, hloc, fun hsh z hz => ?_⟩, hfirst, hlinger⟩
      rcases slots d.pos z hz with ⟨hp, -⟩ | ⟨-, hz⟩
      · have : d = e := List.inj_on_of_nodup_map hm.2.1 hd he (hp.trans hpos)
        exact absurd (this ▸ hloc.symm) hl
      · exact hshown hsh z hz

theorem recompute (h : SlotsFit pending s) (hm : MapOk s) {e : MapEntry} (he : e ∈ s.locMap) :
    SlotsFit (fun c => pending c ∧ c ≠ e.code) (recompute e s) := by
  have entry : s.entryAt e.pos = some e := hm.entryAt_iff.2 ⟨he, rfl⟩
  obtain ⟨x, hx⟩ := Option.isSome_iff_exists.1 ((h.mapped e.pos).trans (by rw [entry]; rfl))
  rw [recompute_mapped hx]
  exact (h.settleLocation hm he hx).renewShadow e.pos

/-- The locations of a list are recomputed one after another. -/
theorem foldl_recompute (es : List MapEntry) : ∀ {s : State} {pending : Nat → Prop}, SlotsFit pending s → MapOk s → (∀ e ∈ es, e ∈ s.locMap) →
    SlotsFit (fun c => pending c ∧ ∀ e ∈ es, c ≠ e.code) (es.foldl (fun t e => Machine.recompute e t) s) := by
  induction es with
  | nil => exact fun h _ _ => h.mono fun _ _ hp => ⟨hp, by simp⟩
  | cons e es ih =>
    intro s pending h hm hes
    have kept : (Machine.recompute e s).locMap = s.locMap := (recompute_only e s).keeps (p := .locations) (by decide)
    refine (ih (h.recompute hm (hes e (by simp))) (hm.of_eq kept) fun d hd => kept ▸ hes d (by simp [hd])).mono ?_
    rintro d - ⟨⟨hp, hne⟩, hno⟩
    exact ⟨hp, by simpa using ⟨hne, hno⟩⟩

/-- The locations recomputed are no longer pending (R98). -/
theorem recomputeWhere (h : SlotsFit pending s) (hm : MapOk s) (p : MapEntry → Bool) :
    SlotsFit (fun c => pending c ∧ ∀ e ∈ s.locMap, p e = true → c ≠ e.code) (recomputeWhere p s) := by
  refine (foldl_recompute (s.locMap.filter p) h hm fun e he => List.mem_of_mem_filter he).mono fun e _ hp => ⟨hp.1, fun d hd hpd => ?_⟩
  exact hp.2 d (List.mem_filter.2 ⟨hd, hpd⟩)

/-- With all that is pending recomputed nothing is. -/
theorem recomputeCodes {codes : List Nat} (h : SlotsFit (fun c => c ∈ codes) s) (hm : MapOk s) :
    SlotsFit nonePending (recomputeCodes codes s) := by
  have hmap : (Machine.recomputeCodes codes s).locMap = s.locMap := (recomputeCodes_only codes s).keeps (p := .locations) (by decide)
  refine (h.recomputeWhere hm fun e => codes.contains e.code).settle fun e he hpe => ?_
  obtain ⟨hc, hno⟩ := hpe
  exact hno e (hmap ▸ he) (by simpa using hc) rfl

end SlotsFit

/-! ## A group's removal (R75) -/

section
variable {x : SlotState} {s : State}

/-- A record without a group is in order among the groups without it. -/
theorem SlotFits.dropGroup (h : SlotFits x s) (i : Nat) {t : State} (hmap : t.locMap = s.locMap)
    (hg : t.groups = s.groups.filter fun k => k.id != i) : SlotFits (x.dropGroup i) t := by
  obtain ⟨few, distinct, one, shown, within, interval, timed, lingered⟩ := h.set
  obtain ⟨hfew, htags, hopen⟩ := h.history
  have entry : t.entryAt x.pos = s.entryAt x.pos := by simp only [State.entryAt, hmap]
  have member : ∀ k, k ∈ t.groups ↔ k ∈ s.groups ∧ k.id ≠ i := by simp [hg]
  have left : ∀ j, j ∈ x.rotation.filter (· != i) ↔ j ∈ x.rotation ∧ j ≠ i := by simp
  refine ⟨⟨?_, ?_, fun e he j hj => ?_⟩, ?_, distinct.filter _, fun g hg k hk hgi hki => ?_, fun j hj => ?_, fun j hj => ?_,
    fun h2 => ?_, fun hl => ?_, lingered.1.filter _, fun j hj => ?_⟩
  · exact (List.length_filter_le _ _).trans hfew
  · exact htags.sublist (List.filter_sublist.map _)
  · obtain ⟨he, hne⟩ := List.mem_filter.1 he
    obtain ⟨g, hg, hid, hloc, hfirst⟩ := hopen e he j hj
    refine ⟨g, (member g).2 ⟨hg, ?_⟩, hid, by rw [← hloc, ← entry]; rfl, hfirst⟩
    rw [hid]; simpa [hj] using hne
  · exact (List.length_filter_le _ _).trans few
  · exact one g ((member g).1 hg).1 k ((member k).1 hk).1 ((left _).1 hgi).1 ((left _).1 hki).1
  · obtain ⟨hj, hne⟩ := (left j).1 hj
    obtain ⟨g, hg, rfl, hstate, hloc⟩ := shown j hj
    exact ⟨g, (member g).2 ⟨hg, hne⟩, rfl, hstate, by rw [← hloc, ← entry]; rfl⟩
  · have hj : (if x.position = some i then none else x.position) = some j := hj
    split at hj
    · cases hj
    · next hne => exact (left j).2 ⟨within j hj, fun h => hne (h ▸ hj)⟩
  · exact interval (le_trans h2 (List.length_filter_le _ _))
  · have hl : (if x.position = some i then none else x.linger).isSome = true := hl
    show (if x.position = some i then none else x.position).isSome = true
    split at hl
    · cases hl
    · next hne => rw [if_neg hne]; exact timed hl
  · obtain ⟨hj, hne⟩ := List.mem_filter.1 hj
    exact (left j).2 ⟨lingered.2 j hj, by simpa using hne⟩

end

theorem removeGroup_positions (g : Group) (s : State) : (removeGroup g s).slots.map (·.pos) = s.slots.map (·.pos) := by
  unfold removeGroup
  simp only; split
  · rfl
  · exact SlotsFit.setSlot_positions _ _

/-- A group leaves, and its location is to be recomputed. -/
theorem SlotsFit.removeGroup {pending : Nat → Prop} {s : State} (h : SlotsFit pending s) (hm : MapOk s) {g k : Group} (hg : g ∈ s.groups)
    (hid : k.id = g.id) (hloc : k.loc = g.loc) : SlotsFit (fun c => pending c ∨ c = g.loc) (removeGroup k s) := by
  obtain ⟨⟨e, he, hel, -⟩, -, -⟩ := h.groups g hg
  have entryOf : s.entryOf k.loc = some e := hm.entryOf_iff.2 ⟨he, hel.trans hloc.symm⟩
  have hmap := removeGroup_locMap k s
  have hgroups : (Machine.removeGroup k s).groups = s.groups.filter fun j => j.id != g.id := by rw [removeGroup_groups, hid]
  have slot : ∀ pos, (Machine.removeGroup k s).slotAt pos = if pos = e.pos then (s.slotAt pos).map (·.dropGroup g.id) else s.slotAt pos := by
    intro pos
    rw [removeGroup_slotAt, entryOf, hid]
    simp only [Option.map_some, Option.some.injEq, eq_comm]
  have record : ∀ pos z, (Machine.removeGroup k s).slotAt pos = some z →
      pos = e.pos ∧ (∃ x, s.slotAt pos = some x ∧ z = x.dropGroup g.id) ∨ pos ≠ e.pos ∧ s.slotAt pos = some z := by
    intro pos z hz
    rw [slot] at hz
    split at hz
    · next hp =>
      obtain ⟨x, hx, hxz⟩ := Option.map_eq_some_iff.1 hz
      exact .inl ⟨hp, x, hx, hxz.symm⟩
    · next hp => exact .inr ⟨hp, hz⟩
  refine h.change hmap (removeGroup_positions k s) ?_ (fun pos z hz => ?_) (fun pos z hz hnot => ?_) fun j hj => ?_
  · rw [hgroups]; exact h.ids.sublist (List.filter_sublist.map _)
  · rcases record pos z hz with ⟨-, x, hx, rfl⟩ | ⟨hne, hz⟩
    · exact (h.fits pos x hx).dropGroup g.id hmap hgroups
    · have fits := h.fits pos z hz
      have notNamed : ¬ z.names g.id := fun hi => by
        have hc := fits.named_loc h.ids hg hi
        rw [slotAt_pos hz] at hc
        exact hm.code_ne he hne hc hel.symm
      refine fits.carry ⟨by simp only [State.entryAt, hmap], fun j hj hi => ⟨j, ?_, rfl, rfl, id, id⟩, fun j hj hi => ⟨j, ?_, rfl, rfl⟩⟩
      · rw [hgroups, List.mem_filter]
        exact ⟨hj, by simpa using fun heq : j.id = g.id => notNamed (heq ▸ hi)⟩
      · exact List.mem_of_mem_filter (hgroups ▸ hj)
  · rcases record pos z hz with ⟨rfl, x, hx, rfl⟩ | ⟨-, hz⟩
    · exact absurd (.inr hel) (hnot e (hm.entryAt_iff.2 ⟨he, rfl⟩))
    · exact h.rest pos z hz fun d hd hpd => hnot d hd (.inl hpd)
  · obtain ⟨hj, hne⟩ := List.mem_filter.1 (hgroups ▸ hj)
    obtain ⟨⟨d, hd, hdl, hshown⟩, hfirst, hlinger⟩ := h.groups j hj
    refine ⟨⟨d, hmap ▸ hd, hdl, fun hsh z hz => ?_⟩, hfirst, hlinger⟩
    rcases record d.pos z hz with ⟨-, x, hx, rfl⟩ | ⟨-, hz⟩
    · exact List.mem_filter.2 ⟨hshown hsh x hx, hne⟩
    · exact hshown hsh z hz

end Sys2Proof.Machine

/-!
PROOFS. What timers, sent displays, tasks, presses and pickers leave of the slots' records (O57).
-/

namespace Sys2Proof.Machine

open Sys2Proof

/-! ## Timers and histories of one slot (R104, R105, R107, R109, R114, R116) -/

theorem nextInSet_mem {ids : List Nat} {i j : Nat} (h : nextInSet ids i = some j) : j ∈ ids := by
  unfold nextInSet at h
  split at h
  · next k rest hk =>
    obtain rfl := Option.some.inj h
    have hmem : k ∈ (ids.dropWhile (· != i)).drop 1 := by rw [hk]; simp
    exact (List.dropWhile_suffix _).subset (List.mem_of_mem_drop hmem)
  · exact List.mem_of_head? h

theorem nextInSet_none {ids : List Nat} {i : Nat} (h : nextInSet ids i = none) : ids = [] := by
  unfold nextInSet at h
  split at h
  · cases h
  · exact List.head?_eq_none_iff.1 h

/-- A display sent joins a history whose tags stay distinct and whose length stays in range (R107, R109, log 34). -/
theorem recordSend_fits {entry : HistEntry} {history : List HistEntry} (hlen : history.length ≤ Config.historyEntries)
    (htags : (history.map (·.tag)).Nodup) :
    (recordSend entry history).length ≤ Config.historyEntries ∧ ((recordSend entry history).map (·.tag)).Nodup
      ∧ ∀ h ∈ recordSend entry history, h ∈ history ∨ h = entry := by
  have kept : (history.filter fun h => h.tag != entry.tag).length ≤ Config.historyEntries := (List.length_filter_le _ _).trans hlen
  refine ⟨?_, ?_, fun h hh => (mem_pushCapped hh).imp_left List.mem_of_mem_filter⟩
  · rw [recordSend, pushCapped_length _ _ _ kept]
    exact min_le_left _ _
  · refine List.Nodup.sublist ((List.drop_sublist _ _).map _) ?_
    rw [List.map_append, List.nodup_append]
    refine ⟨htags.sublist (List.filter_sublist.map _), List.nodup_singleton _, fun tag htag tag' htag' heq => ?_⟩
    obtain ⟨h, hh, rfl⟩ := List.mem_map.1 htag
    have hne := (List.mem_filter.1 hh).2
    obtain rfl := List.mem_singleton.1 htag'
    simp [heq] at hne

/-- The group at the position of a record in order is SHOWN at the slot's location. -/
theorem SetFits.at_position {x : SlotState} {s : State} (h : SetFits x s) (hn : (s.groups.map (·.id)).Nodup) {g : Group}
    (hg : s.groupAtPosition x = some g) :
    x.position = some g.id ∧ g ∈ s.groups ∧ g.state = .shown ∧ (s.entryAt x.pos).map (·.code) = some g.loc := by
  obtain ⟨i, hi, hfound⟩ := Option.bind_eq_some_iff.1 hg
  obtain ⟨hgm, rfl⟩ := groupOf_mem hfound
  obtain ⟨k, hk, hid, hstate, hloc⟩ := h.shown g.id (h.within _ hi)
  obtain rfl := group_unique hn hk hgm hid
  exact ⟨hi, hgm, hstate, hloc⟩

theorem groupAtPosition_isSome {x : SlotState} {s : State} (h : (s.groupAtPosition x).isSome = true) : x.position.isSome = true := by
  cases hp : x.position with
  | none => simp [State.groupAtPosition, hp] at h
  | some i => rfl

/-- A record whose position has moved on in its set (R105). -/
def turned (x : SlotState) (s : State) : SlotState :=
  { x with
    position := x.position.bind (nextInSet x.rotation), rotTimer := some (rotationTimer s)
    linger := s.lingerAtPosition
      { x with position := x.position.bind (nextInSet x.rotation), rotTimer := some (rotationTimer s) } }

theorem rotationExpire_eq (x : SlotState) (s : State) : rotationExpire x s = renewShadow x.pos (s.setSlot (turned x s)) := rfl

theorem turned_fits {x : SlotState} {s : State} (h : SlotFits x s) : SlotFits (turned x s) s := by
  obtain ⟨few, distinct, one, shown, within, interval, -, lingered⟩ := h.set
  refine ⟨h.history, few, distinct, one, shown, fun i hi => ?_, fun _ => rfl, fun hl => lingerAtPosition_isSome (s := s) hl, lingered⟩
  obtain ⟨j, -, hj⟩ := Option.bind_eq_some_iff.1 hi
  exact nextInSet_mem hj

theorem turned_rest {x : SlotState} (s : State) (ht : x.rotTimer.isSome = true) (h : AtRest x) : AtRest (turned x s) := by
  refine ⟨fun hnone => ?_, fun _ => h.interval ht⟩
  cases hp : x.position with
  | none => exact h.position hp
  | some i => exact nextInSet_none (Option.bind_eq_none_iff.1 hnone i hp)

namespace SlotsFit

variable {pending : Nat → Prop} {s : State} {pos : SlotPos} {x : SlotState}

theorem feedback (h : SlotsFit pending s) (fb : Option Feedback) (hx : s.slotAt pos = some x) :
    SlotsFit pending (s.setSlot { x with feedback := fb }) := by
  have fits := h.fits pos x hx
  exact h.setSlot hx rfl rfl (fits.of_same rfl rfl rfl rfl rfl id fits.set.timed) fun hr => ⟨hr.position, hr.interval⟩

theorem linger (h : SlotsFit pending s) {timer : Option Timer} (hx : s.slotAt pos = some x)
    (ht : timer.isSome = true → (s.groupAtPosition x).isSome = true) : SlotsFit pending (s.setSlot { x with linger := timer }) := by
  exact h.setSlot hx rfl rfl
    ((h.fits pos x hx).of_same rfl rfl rfl rfl rfl id fun hl => groupAtPosition_isSome (ht hl)) fun hr => ⟨hr.position, hr.interval⟩

/-- A linger timer expires: the group at the position lingers, and its slot's record holds it as lingered (R116). -/
theorem lingerShown (h : SlotsFit pending s) {g : Group} (hx : s.slotAt pos = some x) (hg : s.groupAtPosition x = some g) :
    SlotsFit pending (lingerShown x g s) := by
  obtain ⟨hposition, hgm, hshown, -⟩ := (h.fits pos x hx).set.at_position h.ids hg
  have blinks : SlotsFit pending (s.setGroup { g with linger := true }) := h.setGroup hgm rfl rfl rfl rfl rfl fun _ => .inr hshown
  have fits := blinks.fits pos x hx
  obtain ⟨few, distinct, one, shown, within, interval, -, once, inside⟩ := fits.set
  refine blinks.setSlot (y := lingered x g) hx rfl rfl
    ⟨fits.history, few, distinct, one, shown, within, interval, fun hl => absurd hl (by simp [lingered]), ?_, fun i hi => ?_⟩
    fun hr => ⟨hr.position, hr.interval⟩
  · rw [lingered, List.nodup_append]
    refine ⟨once.filter _, List.nodup_singleton _, fun i hi j hj hij => ?_⟩
    have hne := (List.mem_filter.1 hi).2
    simp [hij, List.mem_singleton.1 hj] at hne
  · rcases List.mem_append.1 hi with hi | hi
    · exact inside i (List.mem_of_mem_filter hi)
    · exact within i (List.mem_singleton.1 hi ▸ hposition)

theorem rotationExpire (h : SlotsFit pending s) (hx : s.slotAt pos = some x) (ht : x.rotTimer.isSome = true) :
    SlotsFit pending (rotationExpire x s) := by
  rw [rotationExpire_eq]
  exact (h.setSlot (y := turned x s) hx rfl rfl (turned_fits (h.fits pos x hx)) (turned_rest s ht)).renewShadow x.pos

/-- A display is sent to a slot: its entry names no group, or the SHOWN one at the position (R107, R109). -/
theorem sent (h : SlotsFit pending s) (tag : Tag) (shown : Option (Nat × Nat)) (hx : s.slotAt pos = some x)
    (hs : ∀ i, shown = some i → ∃ g, s.groupAtPosition x = some g ∧ i.1 = g.id) :
    SlotsFit pending (s.setSlot { x with history := recordSend { tag := tag, shown := shown } x.history }) := by
  obtain ⟨⟨few, tags, opens⟩, set⟩ := h.fits pos x hx
  obtain ⟨few', tags', from_history⟩ := recordSend_fits (entry := { tag := tag, shown := shown }) few tags
  refine h.setSlot hx rfl rfl ⟨⟨few', tags', fun k hk i hi => ?_⟩, set.with_history _⟩ fun hr => ⟨hr.position, hr.interval⟩
  rcases from_history k hk with hk | rfl
  · exact opens k hk i hi
  · obtain ⟨g, hg, hid⟩ := hs i hi
    obtain ⟨-, hgm, hstate, hloc⟩ := set.at_position h.ids hg
    obtain ⟨-, hfirst, -⟩ := h.groups g hgm
    exact ⟨g, hgm, hid.symm, hloc, hfirst hstate⟩

theorem forgets (h : SlotsFit pending s) (hx : s.slotAt pos = some x) : SlotsFit pending (s.setSlot { x with history := [] }) := by
  have empty : HistoryOk { x with history := [] } s := ⟨Nat.zero_le _, List.nodup_nil, fun _ hk => nomatch hk⟩
  exact h.setSlot hx rfl rfl ⟨empty, (h.fits pos x hx).set.with_history _⟩ fun hr => ⟨hr.position, hr.interval⟩

/-! ## Tasks (R80 to R82, R86 to R88) -/

/-- A posted task joins a group that is not SHOWN, or starts one that waits (R80 to R82). -/
theorem postTask (h : SlotsFit pending s) (hf : Fits s) (t : TaskItem) : SlotsFit pending (postTask t s).2 := by
  cases hr : taskRefusal t s with
  | some code => rw [postTask_refused hr]; exact h
  | none =>
    have task := taskRefusal_none hr
    have placed : SlotsFit pending (placeTask t s).2 := by
      cases hj : joinTarget t s with
      | some g =>
        rw [placeTask_joins hj]
        exact h.setGroup (joinTarget_some hj).1 rfl rfl rfl rfl rfl .inl
      | none =>
        obtain ⟨k, hid, -, hfree⟩ := freeGroupId_free (gs := s.groups) (fuel := 257) hf.next (by decide) (by
          have := hf.groups.length_le; have := task.room; omega)
        rw [placeTask_starts hj]
        exact h.addGroup (t := started t s) rfl rfl rfl (hid ▸ hfree) task.mapped rfl rfl
    have written : OnlyChanges [.tasks] (placeTask t s).2 (recorded t s) := by intro p; cases p <;> simp [Keeps, recorded]
    exact ((placed.of_only written (by decide)).of_only (changeOpen_only _ _ _) (by decide)).of_only (postTask_end hr) (by decide)

theorem afterPosts (ts : List TaskItem) : ∀ {s : State}, SlotsFit pending s → MapOk s → Fits s →
    SlotsFit pending (afterItems postOne ts s) ∧ MapOk (afterItems postOne ts s) := by
  induction ts with
  | nil => exact fun h hm _ => ⟨h, hm⟩
  | cons t ts ih => exact fun h hm hf => ih (h.postTask hf t) ((postTask_tables t _).map hm) ((postTask_fits t _).fits hf)

theorem applyTaskPost (h : SlotsFit nonePending s) (hm : MapOk s) (hf : Fits s) (r : Request) : SlotsFit nonePending (applyTaskPost r s).2 := by
  rw [applyTaskPost_eq]
  obtain ⟨posted, hm'⟩ := h.afterPosts r.taskItems hm hf
  exact (posted.recomputeWhere hm' _).mono fun _ _ hp => hp.1

/-- A cancelled task leaves its group, and the group its location where it was the last (R86, R87). -/
theorem cancelTask (h : SlotsFit pending s) (hm : MapOk s) (hf : Fits s) (n : Nat) :
    SlotsFit (fun c => pending c ∨ c ∈ (cancelTask n s).2.1) (cancelTask n s).2.2 := by
  cases ht : s.taskOf n with
  | none => rw [cancelTask_unknown ht]; exact h.mono fun _ _ hp => .inl hp
  | some t =>
    have htm := (taskOf_mem ht).1
    obtain ⟨g, hg, hid, -, hloc⟩ := hf.groups.placed t htm
    rw [cancelTask_open ht ((groupOf_iff h.ids).2 ⟨hg, hid⟩)]
    have closed : SlotsFit pending (closeTask t s) := h.of_only (closeTask_only t s) (by decide)
    have hg' : g ∈ (closeTask t s).groups := (closeTask_groups t s).symm ▸ hg
    by_cases hlast : (g.without t).members = []
    · rw [withoutTask_last hlast]
      refine (closed.removeGroup ((closeTask_tables t s).map hm) hg' (k := g.without t) rfl rfl).mono fun e _ hp => ?_
      exact hp.imp_right fun hc => List.mem_singleton.2 (hc.trans hloc)
    · rw [withoutTask_more hlast]
      exact (closed.setGroup hg' (k := g.without t) rfl rfl rfl rfl rfl .inl).mono fun _ _ hp => .inl hp

/-- The locations that a TASK_CANCEL names are those still to be recomputed. -/
theorem afterCancels (ns : List Nat) : ∀ {s : State} {pending : Nat → Prop}, SlotsFit pending s → MapOk s → Fits s →
    SlotsFit (fun c => pending c ∨ c ∈ (takeItems Machine.cancelTask ns s).2.1) (afterItems Machine.cancelTask ns s)
      ∧ MapOk (afterItems Machine.cancelTask ns s) := by
  induction ns with
  | nil => exact fun h hm _ => ⟨h.mono fun _ _ hp => .inl hp, hm⟩
  | cons n ns ih =>
    intro s pending h hm hf
    obtain ⟨cancelled, hm'⟩ := ih (h.cancelTask hm hf n) ((cancelTask_tables n s).map hm) ((cancelTask_fits n s).fits hf)
    refine ⟨cancelled.mono fun e _ hp => ?_, hm'⟩
    simp only [takeItems, List.mem_append]
    exact or_assoc.1 hp

theorem applyTaskCancel (h : SlotsFit nonePending s) (hm : MapOk s) (hf : Fits s) (r : Request) :
    SlotsFit nonePending (applyTaskCancel r s).2 := by
  rw [applyTaskCancel_eq]
  obtain ⟨cancelled, hm'⟩ := h.afterCancels r.numberItems hm hf
  have judged := cancelled.of_only (judgeTasksHigh_only _) (by decide)
  exact (judged.mono fun e _ hp => hp.resolve_left id).recomputeCodes (hm'.of_eq ((judgeTasksHigh_only _).keeps (p := .locations) (by decide)))

theorem applyTaskAmend (h : SlotsFit nonePending s) (hm : MapOk s) (r : Request) : SlotsFit nonePending (applyTaskAmend r s).2 := by
  cases ht : s.taskOf (r.field 0 4) with
  | none => rw [applyTaskAmend_unknown ht]; exact h
  | some t =>
    cases hg : s.groupOf t.group with
    | none => unfold Machine.applyTaskAmend Request.taskNumber; rw [ht]; simp only [hg]; split <;> exact h
    | some g =>
      by_cases hq : r.field 4 2 < 1 ∨ 9999 < r.field 4 2 ∨ 9999 < g.remaining - t.quantity + r.field 4 2
      · rw [applyTaskAmend_refused ht hg hq]; exact h
      · rw [applyTaskAmend_accepted ht hg (by omega) (by omega) (by omega)]
        have written : SlotsFit nonePending (amendQuantity t.number (r.field 4 2) s) := h.of_only (amendQuantity_tasks_only _ _ _) (by decide)
        simp only [amendEffect]; split
        · exact written
        · have replaced := written.setGroup (k := g.amended t (r.field 4 2)) (groupOf_mem hg).1 rfl rfl rfl rfl rfl .inl
          exact (replaced.recomputeWhere (hm.of_eq rfl) _).mono fun _ _ hp => hp.1

/-! ## Presses (R106, R123, R132 to R136) -/

/-- A credited group goes with its members, and its location is recomputed. -/
theorem acceptConfirm (h : SlotsFit nonePending s) (hm : MapOk s) {g : Group} (hg : g ∈ s.groups) (n : Nat) :
    SlotsFit nonePending (acceptConfirm g n s) := by
  have closed := membersClosed_only g n s
  have hg' : g ∈ (membersClosed g n s).groups := (closed.keeps (p := .groups) (by decide) : _ = s.groups).symm ▸ hg
  have hm' : MapOk (membersClosed g n s) := hm.of_eq (closed.keeps (p := .locations) (by decide))
  have gone : SlotsFit (fun c => c ∈ [g.loc]) (Machine.removeGroup g (membersClosed g n s)) :=
    ((h.of_only closed (by decide)).removeGroup hm' hg' rfl rfl).mono fun _ _ hp => List.mem_singleton.2 (hp.resolve_left id)
  have map' : MapOk (Machine.removeGroup g (membersClosed g n s)) := hm'.of_eq (removeGroup_locMap _ _)
  have sampled : ∀ u, MapOk u → SlotsFit (fun c => c ∈ [g.loc]) u →
      SlotsFit nonePending (Machine.recomputeCodes [g.loc] (signal .confirmAccepted (u.placeOf g.picker) (judgeTasksHigh u))) := by
    intro u hu hfit
    have behind : OnlyChanges [.flags, .notes, .counters] u (signal .confirmAccepted (u.placeOf g.picker) (judgeTasksHigh u)) :=
      ((judgeTasksHigh_only u).mono (by decide)).trans ((signal_only _ _ _).mono (by decide))
    exact (hfit.of_only behind (by decide)).recomputeCodes (hu.of_eq (behind.keeps (p := .locations) (by decide)))
  unfold Machine.acceptConfirm
  cases hfs : g.firstShown with
  | none => exact sampled _ map' gone
  | some shown =>
    have pace := samplePace_only g.picker shown s.clock (Machine.removeGroup g (membersClosed g n s))
    exact sampled _ (map'.of_eq (pace.keeps (p := .locations) (by decide))) (gone.of_only pace (by decide))

/-- The slot's timers start afresh where they run (R106). -/
theorem heldFor (h : SlotsFit pending s) (g : Group) (pos : SlotPos) :
    SlotsFit pending (match s.slotAt pos with | none => s | some x => s.setSlot (x.heldFor g s)) := by
  split
  · exact h
  next x hx =>
    have fits := h.fits pos x hx
    refine h.setSlot hx rfl rfl (fits.of_same rfl rfl rfl rfl rfl (fun hr => ?_) fun hl => fits.set.timed ?_)
      fun hr => ⟨hr.position, ?_⟩
    · simpa [SlotState.heldFor] using hr
    · simp only [SlotState.heldFor] at hl
      split at hl
      · simpa using hl
      · exact hl
    · simpa [SlotState.heldFor] using hr.interval

theorem acceptAdjust (h : SlotsFit nonePending s) (hm : MapOk s) {g : Group} (k : KeyEvent) (hg : g ∈ s.groups) :
    SlotsFit nonePending (acceptAdjust k g s) := by
  simp only [Machine.acceptAdjust]
  refine SlotsFit.of_only ?_ (signal_only _ _ _) (by decide)
  split
  · have counted : SlotsFit nonePending (s.setGroup { g with display := adjustedCount k.key g, linger := false }) :=
      h.setGroup hg rfl rfl rfl rfl rfl fun hl => by cases hl
    refine ((counted.heldFor g k.pos).recomputeWhere (hm.of_eq ?_) _).mono fun _ _ hp => hp.1
    split <;> rfl
  · exact (h.heldFor g k.pos).renewShadow k.pos

/-! ## A picker's leaving (R64) -/

/-- Groups leave one after another, and their locations are to be recomputed. -/
theorem foldl_removeGroup (gs : List Group) : ∀ {s : State} {pending : Nat → Prop}, SlotsFit pending s → MapOk s → (gs.map (·.id)).Nodup →
    (∀ g ∈ gs, g ∈ s.groups) → SlotsFit (fun c => pending c ∨ c ∈ gs.map (·.loc)) (gs.foldl (fun t g => Machine.removeGroup g t) s) := by
  induction gs with
  | nil => exact fun h _ _ _ => h.mono fun _ _ hp => .inl hp
  | cons g gs ih =>
    intro s pending h hm hn hgs
    obtain ⟨hg, hn⟩ := List.nodup_cons.1 hn
    have left : ∀ k ∈ gs, k ∈ (Machine.removeGroup g s).groups := fun k hk => by
      rw [removeGroup_groups, List.mem_filter]
      exact ⟨hgs k (by simp [hk]), by simpa using fun he : k.id = g.id => hg (List.mem_map.2 ⟨k, hk, he⟩)⟩
    refine (ih (h.removeGroup hm (hgs g (by simp)) rfl rfl) (hm.of_eq (removeGroup_locMap g s)) hn left).mono fun e _ hp => ?_
    rw [List.map_cons, List.mem_cons]
    exact or_assoc.1 hp

theorem withdrawn (h : SlotsFit nonePending s) (hm : MapOk s) (id : Nat) :
    SlotsFit (fun c => c ∈ (ownGroups id s).map (·.loc)) (withdrawn id s) := by
  have cut : SlotsFit nonePending { s with tasks := s.tasks.filter fun t => t.picker != id } := h.of_view rfl rfl rfl
  refine (cut.foldl_removeGroup (ownGroups id s) (hm.of_eq rfl) (h.ids.sublist (List.filter_sublist.map _)) fun g hg => ?_).mono fun _ _ hp => ?_
  · exact List.mem_of_mem_filter hg
  · exact hp.resolve_left fun hn => hn

theorem applyPickerLeave (h : SlotsFit nonePending s) (hm : MapOk s) (r : Request) : SlotsFit nonePending (applyPickerLeave r s).2 := by
  cases hp : s.pickerOf r.pickerId with
  | none => rw [applyPickerLeave_unknown hp]; exact h
  | some p =>
    rw [applyPickerLeave_known hp]
    have judged := judgeTasksHigh_only (Machine.withdrawn p.id s)
    have map' : MapOk (judgeTasksHigh (Machine.withdrawn p.id s)) :=
      (hm.of_eq ((withdrawn_only p.id s).keeps (p := .locations) (by decide))).of_eq (judged.keeps (p := .locations) (by decide))
    exact (((h.withdrawn hm p.id).of_only judged (by decide)).recomputeCodes map').of_view rfl rfl rfl

end SlotsFit

end Sys2Proof.Machine

/-!
PROOFS. A changed map, and the slots' records at every step (O57).
-/

namespace Sys2Proof.Machine

open Sys2Proof

/-! ## The locations that a map edit may not touch (R44, R49) -/

theorem mem_insertEntry {x e : MapEntry} {l : List MapEntry} : e ∈ insertEntry x l ↔ e = x ∨ e ∈ l := by
  rw [insertEntry_eq, (List.perm_orderedInsert _ x l).mem_iff, List.mem_cons]

/-- An entry whose location has open groups outlasts the load of any entry. -/
theorem loadOne_keeps {s : State} {i : LoadItem} {w v : LoadProgress} (h : loadOne s i w = .ok v) {d : MapEntry} (hd : d ∈ w.map)
    (hg : s.hasGroups d.code = true) : d ∈ v.map := by
  unfold loadOne at h
  split at h
  · cases h
  next e _ =>
    simp only at h
    split at h; · cases h
    next hfree =>
    have hne : d.code ≠ e.code := fun he => hfree (by
      rw [Bool.and_eq_true, List.any_eq_true]
      exact ⟨⟨d, hd, by simpa using he⟩, he ▸ hg⟩)
    split at h; · cases h
    split at h; · cases h
    split at h
    · cases h
      exact List.mem_map.2 ⟨d, hd, if_neg hne⟩
    · split at h; · cases h
      cases h
      exact mem_insertEntry.2 (.inr hd)

theorem loadAll_keeps {s : State} (is : List LoadItem) : ∀ {n : Nat} {w v : LoadProgress}, loadAll s n is w = .ok v → ∀ {d : MapEntry},
    d ∈ w.map → s.hasGroups d.code = true → d ∈ v.map := by
  induction is with
  | nil => intro n w v h d hd _; cases h; exact hd
  | cons i is ih =>
    intro n w v h d hd hg
    simp only [loadAll] at h
    split at h
    · cases h
    · next u hu => exact ih h (loadOne_keeps hu hd hg) hg

theorem removeAll_keeps {s : State} (codes : List Nat) : ∀ {n : Nat} {map after : List MapEntry}, removeAll s n codes map = .ok after →
    ∀ {d : MapEntry}, d ∈ map → s.hasGroups d.code = true → d ∈ after := by
  induction codes with
  | nil => intro n map after h d hd _; cases h; exact hd
  | cons c cs ih =>
    intro n map after h d hd hg
    simp only [removeAll] at h
    split at h; · cases h
    split at h; · cases h
    next hfree =>
    refine ih h (List.mem_filter.2 ⟨hd, ?_⟩) hg
    simpa using fun he : d.code = c => hfree (he ▸ hg)

/-! ## The slots released and taken up (R48, R95) -/

theorem releaseSlot_positions (pos : SlotPos) {s : State} (h : (s.slots.map (·.pos)).Nodup) : ((releaseSlot pos s).slots.map (·.pos)).Nodup := by
  unfold releaseSlot; split
  · exact h
  have cut : ((s.slots.filter fun y => y.pos != pos).map (·.pos)).Nodup := h.sublist (List.filter_sublist.map _)
  simp only; split
  · exact cut
  · rw [(enqueueSlot_only _ _).keeps (p := .slots) (by decide)]; exact cut

theorem takeUpSlot_positions (pos : SlotPos) {s : State} (h : (s.slots.map (·.pos)).Nodup) : ((takeUpSlot pos s).slots.map (·.pos)).Nodup := by
  unfold takeUpSlot
  rw [(enqueueSlot_only _ _).keeps (p := .slots) (by decide)]
  simp only [List.map_append, List.nodup_append]
  refine ⟨h.sublist (List.filter_sublist.map _), List.nodup_singleton _, fun q hq r hr hqr => ?_⟩
  obtain ⟨y, hy, rfl⟩ := List.mem_map.1 hq
  have hne := (List.mem_filter.1 hy).2
  rw [hqr, List.mem_singleton.1 hr] at hne
  simp [SlotState.fresh] at hne

theorem changeMap_positions (map : List MapEntry) {s : State} (h : (s.slots.map (·.pos)).Nodup) :
    ((changeMap map s).slots.map (·.pos)).Nodup := by
  have each : ∀ {f : State → SlotPos → State}, (∀ u pos, (u.slots.map (·.pos)).Nodup → ((f u pos).slots.map (·.pos)).Nodup) →
      ∀ (ps : List SlotPos) (u : State), (u.slots.map (·.pos)).Nodup → ((ps.foldl f u).slots.map (·.pos)).Nodup := by
    intro f hf ps
    induction ps with
    | nil => exact fun _ h => h
    | cons p ps ih => exact fun u h => ih _ (hf u p h)
  exact each (fun u pos h => takeUpSlot_positions pos h) _ _ (each (fun u pos h => releaseSlot_positions pos h) _ _ h)

theorem fresh_fits (pos : SlotPos) (s : State) : SlotFits (SlotState.fresh pos) s where
  history := ⟨Nat.zero_le _, List.nodup_nil, fun _ h => nomatch h⟩
  set :=
    { few := Nat.zero_le _
      distinct := List.nodup_nil
      onePerPicker := fun _ _ _ _ h => nomatch h
      shown := fun _ h => nomatch h
      within := fun _ h => nomatch h
      interval := fun h => absurd h (by simp [SlotState.fresh])
      timed := fun h => nomatch h
      lingered := ⟨List.nodup_nil, fun _ h => nomatch h⟩ }

theorem fresh_rest (pos : SlotPos) : AtRest (SlotState.fresh pos) := ⟨fun _ => rfl, fun h => nomatch h⟩

/-- A slot position that keeps its code keeps its record, and every other mapped one begins anew (R48). -/
theorem changeMap_record {map : List MapEntry} {s : State} (hm : MapOk s) (ho : MapInOrder map) (pos : SlotPos) :
    (codeAt map pos = codeAt s.locMap pos ∧ (changeMap map s).slotAt pos = s.slotAt pos)
      ∨ (codeAt map pos).isSome = true ∧ (changeMap map s).slotAt pos = some (SlotState.fresh pos)
      ∨ codeAt map pos = none ∧ (changeMap map s).slotAt pos = none := by
  have slot := (changeMap_slots (s := s) hm.2.1 ho.2.1).1 pos
  by_cases htaken : pos ∈ takenUpSlots s.locMap map
  · rw [if_pos htaken] at slot
    refine .inr (.inl ⟨?_, slot⟩)
    rw [← Option.not_isNone, Bool.not_eq_true', ← Bool.not_eq_true, codeAt_isNone, not_not]
    exact List.mem_of_mem_filter htaken
  rw [if_neg htaken] at slot
  by_cases hreleased : pos ∈ releasedSlots s.locMap map
  · rw [if_pos hreleased] at slot
    exact .inr (.inr ⟨Option.isNone_iff_eq_none.1 (List.mem_filter.1 hreleased).2, slot⟩)
  rw [if_neg hreleased] at slot
  refine .inl ⟨?_, slot⟩
  by_cases hafter : pos ∈ map.map (·.pos)
  · by_contra hne
    exact htaken (List.mem_filter.2 ⟨hafter, by simpa using hne⟩)
  · have gone : codeAt map pos = none := Option.isNone_iff_eq_none.1 ((codeAt_isNone map pos).2 hafter)
    have before : pos ∉ s.locMap.map (·.pos) := fun hb => hreleased (List.mem_filter.2 ⟨hb, by rw [gone]; rfl⟩)
    rw [gone, Option.isNone_iff_eq_none.1 ((codeAt_isNone s.locMap pos).2 before)]

/-- A changed map that keeps every location with open groups keeps the records in order. -/
theorem SlotsFit.changeMap {s : State} {map : List MapEntry} (h : SlotsFit nonePending s) (hm : MapOk s) (ho : MapInOrder map)
    (hkeep : ∀ e ∈ s.locMap, s.hasGroups e.code = true → e ∈ map) : SlotsFit nonePending (changeMap map s) := by
  have hmap := changeMap_locMap map s
  have hgroups : (Machine.changeMap map s).groups = s.groups := (changeMap_only map s).keeps (p := .groups) (by decide)
  have record := changeMap_record hm ho
  have code : ∀ pos, ((Machine.changeMap map s).entryAt pos).map (·.code) = codeAt map pos := fun pos => by
    rw [State.entryAt, hmap]; rfl
  refine ⟨hgroups ▸ h.ids, changeMap_positions map h.positions, fun pos => ?_, fun pos x hx => ?_, fun pos x hx hnot => ?_, fun g hg => ?_⟩
  · have isSome : ∀ t : State, (t.entryAt pos).isSome = ((t.entryAt pos).map (·.code)).isSome := fun t => Option.isSome_map.symm
    rw [isSome, code]
    rcases record pos with ⟨hc, hs⟩ | ⟨hc, hs⟩ | ⟨hc, hs⟩ <;> rw [hs]
    · rw [hc, h.mapped, isSome]; rfl
    · rw [hc]; rfl
    · rw [hc]; rfl
  · rcases record pos with ⟨hc, hs⟩ | ⟨-, hs⟩ | ⟨-, hs⟩ <;> rw [hs] at hx
    · refine (h.fits pos x hx).carry
        ⟨?_, fun g hg _ => ⟨g, hgroups ▸ hg, rfl, rfl, id, id⟩, fun g hg _ => ⟨g, hgroups ▸ hg, rfl, rfl⟩⟩
      rw [slotAt_pos hx, code, hc]; rfl
    · cases hx; exact fresh_fits pos _
    · cases hx
  · rcases record pos with ⟨-, hs⟩ | ⟨-, hs⟩ | ⟨-, hs⟩ <;> rw [hs] at hx
    · exact h.rest pos x hx fun _ _ hp => hp
    · cases hx; exact fresh_rest pos
    · cases hx
  · rw [hgroups] at hg
    obtain ⟨⟨e, he, hel, hshown⟩, hfirst, hlinger⟩ := h.groups g hg
    have stays := hkeep e he ((hasGroups_iff s e.code).2 ⟨g, hg, hel.symm⟩)
    refine ⟨⟨e, by rw [hmap]; exact stays, hel, fun hsh x hx => ?_⟩, hfirst, hlinger⟩
    have notTaken : e.pos ∉ takenUpSlots s.locMap map := fun ht => by
      have hne := (List.mem_filter.1 ht).2
      rw [(codeAt_eq_some ho.2.1 _ _).2 ⟨e, stays, rfl, rfl⟩, (codeAt_eq_some hm.2.1 _ _).2 ⟨e, he, rfl, rfl⟩] at hne
      simp at hne
    have slot := (changeMap_slots (s := s) hm.2.1 ho.2.1).1 e.pos
    rw [if_neg notTaken] at slot
    rw [slot] at hx
    split at hx
    · cases hx
    · exact hshown hsh x hx

theorem SlotsFit.applyMapLoad {s : State} (h : SlotsFit nonePending s) (hm : MapOk s) (r : Request) :
    SlotsFit nonePending (applyMapLoad r s).2 := by
  unfold Machine.applyMapLoad; split
  · exact h
  · next w hw => exact h.changeMap hm (loadAll_inOrder _ hw hm) fun _ he hg => loadAll_keeps _ hw he hg

theorem SlotsFit.applyMapRemove {s : State} (h : SlotsFit nonePending s) (hm : MapOk s) (r : Request) :
    SlotsFit nonePending (applyMapRemove r s).2 := by
  unfold Machine.applyMapRemove; split
  · exact h
  · next map hmap => exact h.changeMap hm (removeAll_inOrder _ hmap hm) fun _ he hg => removeAll_keeps _ hmap he hg

/-! ## Every command -/

/-- From `s` to `t` the map stays in order, tasks, groups and pickers still fit each other, and so do the slots' records. -/
structure SlotsKept (s t : State) : Prop where
  map : MapOk s → MapOk t
  links : Fits s → Fits t
  slots : MapOk s → Fits s → SlotsFit nonePending s → SlotsFit nonePending t

theorem SlotsKept.trans {s t u : State} (h : SlotsKept s t) (k : SlotsKept t u) : SlotsKept s u :=
  ⟨k.map ∘ h.map, k.links ∘ h.links, fun hm hf hs => k.slots (h.map hm) (h.links hf) (h.slots hm hf hs)⟩

/-- A change that leaves the map. -/
theorem SlotsKept.of_frame {ps : List Part} {s t : State} (h : OnlyChanges ps s t) (hp : Part.locations ∉ ps) (hf : FitsKept s t)
    (hs : MapOk s → Fits s → SlotsFit nonePending s → SlotsFit nonePending t) : SlotsKept s t :=
  ⟨fun hm => hm.of_eq (h.keeps (p := .locations) hp), hf.fits, hs⟩

/-- The parts that the map, the books and the records stand in. -/
def recordParts : List Part := [.locations, .pickers, .tasks, .groups, .nextGroup, .slots]

theorem OnlyChanges.slotsKept {ps : List Part} {s t : State} (h : OnlyChanges ps s t) (hp : ∀ p ∈ recordParts, p ∉ ps) : SlotsKept s t :=
  .of_frame h (hp _ (by decide)) (h.fitsKept fun p hb => hp p (by revert p; decide)) fun _ _ hs => hs.of_only h fun p hv => hp p (by revert p; decide)

/-- One slot's record is replaced. -/
theorem SlotsKept.of_slot {s : State} {y : SlotState} (h : SlotsFit nonePending s → SlotsFit nonePending (s.setSlot y)) :
    SlotsKept s (s.setSlot y) :=
  .of_frame (setSlot_only s y) (by decide) ((setSlot_only s y).fitsKept (by decide)) fun _ _ => h

theorem holdFault_slots (b : Branch) (on : Bool) (s : State) : SlotsKept s (onBranch b (fun x => { x with fault := on }) s) :=
  (holdFault_only b on s).slotsKept (by decide)

theorem lingerShown_slots {s : State} {pos : SlotPos} {x : SlotState} {g : Group} (hx : s.slotAt pos = some x) (hg : s.groupAtPosition x = some g) :
    SlotsKept s (lingerShown x g s) := by
  have frame : OnlyChanges [.groups, .slots] s (lingerShown x g s) :=
    ((setGroup_only s _).mono (by decide)).trans ((setSlot_only _ _).mono (by decide))
  have books : BooksKept s (lingerShown x g s) :=
    (setLinger_books (groupAtPosition_mem hg)).trans ((setSlot_only _ _).booksKept (by decide))
  exact .of_frame frame (by decide) books.fitsKept fun _ _ hs => hs.lingerShown hx hg

theorem resetTo_slots (station : Nat) (cause : ResetCause) (lines : LineLevels) (s : State) : SlotsKept s (resetTo station cause lines s) := by
  have empty : SlotsFit nonePending State.reset := (slotsOk_iff reset_links.1).1 reset_slots
  refine ⟨(resetTo_tables station cause lines s).map, (resetTo_fits station cause lines s).fits, fun _ _ _ => ?_⟩
  have fresh : SlotsFit nonePending (resetState station cause lines s) := empty.of_view rfl rfl rfl
  exact fresh.of_only (resetTo_only station cause lines s) (by decide)

theorem slots_kept : KeptThroughout SlotsKept where
  trans h k := h.trans k
  only h hp := h.slotsKept fun p hv => hp p (by revert p; decide)
  latched f s _ := (setFlag_only f s).slotsKept (by decide)
  clearLatched fs s := OnlyChanges.slotsKept (ps := [.flags]) (by intro p; cases p <;> simp [Keeps]) (by decide)
  signal e place s := (signal_only e place s).slotsKept (by decide)
  offer r s := (offer_only r s).slotsKept (by decide)
  judgePacker s := (judgePacker_only s).slotsKept (by decide)
  rejudgeCombine s := (rejudgeCombine_only s).slotsKept (by decide)
  expireCombine _ := OnlyChanges.slotsKept (ps := [.records]) (by intro p; cases p <;> simp [Keeps]) (by decide)
  endEvent s := (endEvent_only s).slotsKept (by decide)
  recomputeWhere p s := .of_frame (recomputeWhere_only p s) (by decide) (recomputeWhere_books p s).fitsKept
    fun hm _ hs => (hs.recomputeWhere hm p).mono fun _ _ hp => hp.1
  renewShadow pos s := .of_frame (renewShadow_only pos s) (by decide) ((renewShadow_only pos s).fitsKept (by decide))
    fun _ _ hs => hs.renewShadow pos
  feedback fb hx := .of_slot fun hs => hs.feedback fb hx
  linger hx ht := .of_slot fun hs => hs.linger hx ht
  lingered := lingerShown_slots
  rotated hx ht := .of_frame (rotationExpire_only _ _) (by decide) ((rotationExpire_only _ _).fitsKept (by decide))
    fun _ _ hs => hs.rotationExpire hx ht
  sent tag shown hx hi := .of_slot fun hs => hs.sent tag shown hx hi
  forgets hx := .of_slot fun hs => hs.forgets hx
  becomeOrphaned s := SlotsKept.trans (t := { s with orphaned := true })
    (OnlyChanges.slotsKept (ps := [.orphaned]) (by intro p; cases p <;> simp [Keeps]) (by decide)) ((setFlag_only .orphaned _).slotsKept (by decide))
  endOrphaned s := OnlyChanges.slotsKept (ps := [.orphaned, .flags]) (by intro p; cases p <;> simp [Keeps, clearFlag]) (by decide)
  faultSets b s := (holdFault_slots b true s).trans ((setFlag_only (branchFaultFlag b) _).slotsKept (by decide))
  faultClears b s := (holdFault_slots b false s).trans ((clearFlag_only (branchFaultFlag b) _).slotsKept (by decide))
  lineDown p s := ((flushPort_only p s).slotsKept (by decide)).trans ((setFlag_only (linkFlag p) _).slotsKept (by decide))
  lineUp p s := (raisePort_only p s).slotsKept (by decide)
  setPicker hp hid ho := .of_frame (setPicker_only _ _) (by decide) (setPicker_fits hp hid ho) fun _ _ hs => hs.of_view rfl rfl rfl
  insertPicker hnew ho := ⟨fun hm => hm.of_eq rfl, (insertPicker_fits hnew ho).fits, fun _ _ hs => hs.of_view rfl rfl rfl⟩
  pickerLeave r s := ⟨(applyPickerLeave_tables r s).map, (applyPickerLeave_fits r s).fits, fun hm _ hs => hs.applyPickerLeave hm r⟩
  taskPost r s := ⟨(applyTaskPost_tables r s).map, (applyTaskPost_fits r s).fits, fun hm hf hs => hs.applyTaskPost hm hf r⟩
  taskCancel r s := ⟨(applyTaskCancel_tables r s).map, (applyTaskCancel_fits r s).fits, fun hm hf hs => hs.applyTaskCancel hm hf r⟩
  taskAmend r s := .of_frame (applyTaskAmend_only r s) (by decide) (applyTaskAmend_fits r s) fun hm _ hs => hs.applyTaskAmend hm r
  mapLoad r s := ⟨(applyMapLoad_tables r s).map, ((applyMapLoad_only r s).fitsKept (by decide)).fits, fun hm _ hs => hs.applyMapLoad hm r⟩
  mapRemove r s := ⟨(applyMapRemove_tables r s).map, ((applyMapRemove_only r s).fitsKept (by decide)).fits, fun hm _ hs => hs.applyMapRemove hm r⟩
  confirm n hg := ⟨(acceptConfirm_tables _ n _).map, (acceptConfirm_fits hg n).fits, fun hm _ hs => hs.acceptConfirm hm hg n⟩
  adjust k hg := ⟨(acceptAdjust_tables k _ _).map, (acceptAdjust_fits hg).fits, fun hm _ hs => hs.acceptAdjust hm k hg⟩
  time _ _ _ := ⟨fun hm => hm.of_eq rfl, fun ⟨ht, hg, hn⟩ => ⟨ht, hg, hn⟩, fun _ _ hs => hs.of_view rfl rfl rfl⟩
  reset := resetTo_slots

/-- Settles O57: the records are kept in order by the operations of which the commands are built, a removed group's location being recomputed
before its command ends. -/
theorem everyStepKeepsSlots : Obligations.EveryStepKeepsSlots := by
  intro s t hm _ htasks hlinks _ hs hstep
  have fits := (fits_iff s).2 ⟨htasks, hlinks⟩
  have kept := (slots_kept.step hstep).slots hm fits ((slotsOk_iff fits.groups.ids).1 hs)
  exact (slotsOk_iff kept.ids).2 kept

end Sys2Proof.Machine
